-- ==== Sys2Proof/Word.lean ====
section
/-!
DEFINITION. The fixed-width words of the VB4316: what crosses a port or stands in a record is a byte
or a big-endian field of two or four bytes (spec/00_scope.md, section 5; spec/06, R99).
-/

namespace Sys2Proof

/-- One byte of a frame, of a page or of the array. -/
abbrev Byte := BitVec 8

/-- A two-byte field of a frame or record (base, size, length, first sector, count). -/
abbrev Half16 := BitVec 16

/-- A four-byte field (offset, check value, serial, sequence, generation, label). -/
abbrev Word32 := BitVec 32

/-- A readers set: bit n stands for port n (spec/12, section 12.2). -/
abbrev Readers := BitVec 3

end Sys2Proof
end

