-- ==== Sys2Proof/Config.lean ====
section
/-!
DEFINITION. The constants of the part, each with the rule that fixes it. The spec leaves no value to
an implementation and calls no result undefined: every choice the array makes (a verdict, the bits of
an uncertain page) and every instant at which an event falls is an operand of a command
(Sys2Proof/Syntax.lean), so no opaque constant is declared here.
-/

namespace Sys2Proof.Config

/-- R1: the array holds 4096 sectors. -/
def sectorCount : Nat := 4096
/-- R1: a sector is 4096 bytes. -/
def sectorBytes : Nat := 4096
/-- R1: a page is 256 bytes. -/
def pageBytes : Nat := 256
/-- R1: a sector holds 16 pages. -/
def pagesPerSector : Nat := 16
/-- R1: 16,777,216 byte addresses. -/
def arrayBytes : Nat := 16777216
/-- R2, R3: the first sector of the allocatable range. -/
def firstAllocatable : Nat := 8
/-- R14, chapter 2: the partition table has 24 entries. -/
def tableSize : Nat := 24
/-- R18: the greatest size of a PLAIN partition, in sectors. -/
def maxPlainSize : Nat := 4088
/-- R18: the greatest size of one copy of an IMAGE partition, in sectors. -/
def maxImageSize : Nat := 2044
/-- R114: a ticket ring holds up to 8 tickets. -/
def ringSize : Nat := 8
/-- R174: an event queue holds up to 16 records. -/
def eventQueueSize : Nat := 16
/-- R135: the pool holds 10 page buffers. -/
def poolSize : Nat := 10
/-- R136: two buffers are guaranteed to each port. -/
def guaranteedBuffers : Nat := 2
/-- R62: a journal half has 64 record slots. -/
def slotsPerHalf : Nat := 64
/-- R66: a checkpoint takes slots 0 to 4, so change records begin at slot 5. -/
def firstChangeSlot : Nat := 5
/-- R74: a host request needs 5 free slots, a tick request 1. -/
def hostHeadroom : Nat := 5
/-- R75: a fold begins when 12 or fewer slots are free. -/
def foldThreshold : Nat := 12
/-- R68: a waiting tick request counts up to 15 steps. -/
def maxTickSteps : Nat := 15
/-- R153: the erase quantum, 1 ms, in microseconds of run time. -/
def eraseQuantum : Nat := 1000
/-- R153, R159: an erase is suspended at most 24 times. -/
def suspendLimit : Nat := 24
/-- R8: a page read takes at most 25 microseconds. -/
def maxReadTime : Nat := 25
/-- R8: a page program takes at most 3 ms. -/
def maxProgramTime : Nat := 3000
/-- R5, R8: a sector erase takes at most 400 ms of run time. -/
def maxEraseTime : Nat := 400000
/-- R8, R155: a suspension request is answered within 20 microseconds. -/
def maxParkTime : Nat := 20
/-- R163: the lease setting counts units of 10 ms; here in microseconds. -/
def leaseUnit : Nat := 10000
/-- R163: the lease setting after device reset and after port restart. -/
def resetLease : Byte := 100
/-- R91: the margin mount adds above the highest sequence seen. -/
def sequenceMargin : Nat := 8

end Sys2Proof.Config
end

