-- ==== Sys2Proof/Syntax.lean ====
section
/-!
DEFINITION. The commands of the block: one constructor of `Instr` for each row of
spec/opcode_table.json, with the operands that row's rule gives it. A frame command carries the port,
the frame's parameters and how its bits are clocked; a command of the array carries what the array
alone decides (its verdict and the bits an uncertain page or sector settles at, R10).
-/

namespace Sys2Proof

/-- The three host ports (spec/00, section 5). -/
inductive Port
  | p0
  | p1
  | p2
deriving DecidableEq, Repr

/-- Which part of a frame one command covers. A frame lasts from the assertion of CSn# to its release
(R98); events of other blocks may fall between its bits (R101, R102), so a frame may be sent in one
command or in several (DESIGN CHOICE, notes/assumptions/5.md). Bit counts are counts of SCKn rising edges since the assertion (R99). -/
inductive Span
  /-- CSn# is asserted, every bit is clocked and CSn# is released, with no other event between. -/
  | whole
  /-- CSn# is asserted and the first `bits` bits are clocked. The frame stays in progress. -/
  | first (bits : Nat)
  /-- `bits` further bits of the frame in progress are clocked. -/
  | next (bits : Nat)
  /-- The frame's remaining bits are clocked and CSn# is released. -/
  | rest
deriving DecidableEq, Repr

/-- How the host clocks a frame after its parameters. -/
structure Clocking where
  /-- The bytes on SIn after the parameters: the turnaround, the response and beyond for an answering
  command (their values are not looked at), bytes that are ignored for any other (R100, R101). -/
  extra : List Byte
  /-- Bits of an incomplete byte clocked before the release of CSn#, fewer than 8; discarded (R99). -/
  stray : List Bool
  /-- The part of the frame this command covers. -/
  span : Span
  /-- Whether the part ends between the rising edge of its last bit and the falling edge that follows it, at
  which SOn goes on to the next bit (R99). Nothing looks at it where CSn# is released. -/
  high : Bool := false
deriving DecidableEq, Repr

/-- What the array makes of the bits of a failed or cut-off operation (R10, R11): for each byte of the
run or sector, counted from 0, a mask whose 1 bits took their target value; the others, of those that
should have changed, kept their former value. `fill` is the mask of every byte `cells` does not list. The
command names them, so that every outcome is reached (DESIGN CHOICE, notes/assumptions/6.md). -/
structure Settle where
  fill : Byte
  cells : List (Nat × Byte)
deriving DecidableEq, Repr

/-- The verdict of a page program or sector erase (R9). A failure comes with the bits it left (R10). -/
inductive Verdict
  | success
  | failure (bits : Settle)
deriving DecidableEq, Repr

/-- What a cut-off leaves of the current operation and of the parked erase (R11). -/
structure CutOff where
  current : Settle
  parked : Settle
deriving DecidableEq, Repr

/-- The commands, one constructor per row of spec/opcode_table.json, in the table's order. -/
inductive Instr
  /-- R84: power-on, or the release of RESET#. -/
  | deviceReset (cut : CutOff)
  /-- R167: the assertion of HRSTn#. -/
  | hrstAssert (p : Port)
  /-- R172: the release of HRSTn#. -/
  | hrstRelease (p : Port)
  /-- R113. -/
  | status (p : Port) (k : Clocking)
  /-- R177. -/
  | events (p : Port) (k : Clocking)
  /-- R128. -/
  | ticket (p : Port) (number : Byte) (k : Clocking)
  /-- R129. -/
  | fetch (p : Port) (number : Byte) (k : Clocking)
  /-- R131. -/
  | retire (p : Port) (number : Byte) (k : Clocking)
  /-- R132. -/
  | cancel (p : Port) (number : Byte) (k : Clocking)
  /-- R33. -/
  | table (p : Port) (index : Byte) (k : Clocking)
  /-- R164. -/
  | setlease (p : Port) (value : Byte) (k : Clocking)
  /-- R28. -/
  | hold (p : Port) (partition : Byte) (k : Clocking)
  /-- R124. -/
  | read (p : Port) (notify : Bool) (partition view : Byte) (offset : Word32) (length : Half16) (k : Clocking)
  /-- R125. `data` are the bytes after the seventh parameter byte. -/
  | program (p : Port) (notify : Bool) (partition : Byte) (offset : Word32) (length : Half16) (data : List Byte) (k : Clocking)
  /-- R126. -/
  | erase (p : Port) (notify : Bool) (partition : Byte) (firstSector count : Half16) (k : Clocking)
  /-- R40. -/
  | claim (p : Port) (notify : Bool) (partition : Byte) (k : Clocking)
  /-- R46. -/
  | release (p : Port) (notify : Bool) (partition : Byte) (k : Clocking)
  /-- R47. -/
  | commit (p : Port) (notify : Bool) (partition : Byte) (length check : Word32) (budget : Byte) (k : Clocking)
  /-- R54. -/
  | confirm (p : Port) (notify : Bool) (partition : Byte) (k : Clocking)
  /-- R55. -/
  | revert (p : Port) (notify : Bool) (partition : Byte) (k : Clocking)
  /-- R18. -/
  | define (p : Port) (notify : Bool) (kind : Byte) (base size : Half16) (readers : Byte) (label : Word32) (k : Clocking)
  /-- R24. -/
  | delete (p : Port) (notify : Bool) (partition : Byte) (k : Clocking)
  /-- R26. -/
  | grant (p : Port) (notify : Bool) (partition readers : Byte) (k : Clocking)
  /-- R27. -/
  | fix (p : Port) (notify : Bool) (partition : Byte) (k : Clocking)
  /-- R103: a frame of a known command that ends with incomplete parameters, or a PROGRAM whose data
  count differs from its length field. `bytes` follow the command byte. -/
  | malformedFrame (p : Port) (command : Byte) (bytes : List Byte) (k : Clocking)
  /-- R104: a frame whose command byte names no command. -/
  | unknownCommand (p : Port) (command : Byte) (k : Clocking)
  /-- R150. -/
  | pageReadComplete
  /-- R151. -/
  | pageProgramComplete (v : Verdict)
  /-- R151. -/
  | sectorEraseComplete (v : Verdict)
  /-- R155. -/
  | eraseParked
  /-- R153. -/
  | eraseQuantumExpiry
  /-- R166. -/
  | leaseExpiry (p : Port)
  /-- R84: the assertion of RESET#. -/
  | resetAssertion (cut : CutOff)
  /-- R11: loss of the supply. -/
  | powerLoss (cut : CutOff)
  /-- R111: the release of a CSn# that began no frame. -/
  | selectRelease (p : Port)
deriving DecidableEq, Repr

end Sys2Proof
end

