-- ==== Sys2Proof/Decode.lean ====
section
/-!
DEFINITION. Commands spelled as words. spec/opcode_table.json gives no row any bits: the block's commands
are frames, pin edges and events of the array, not words of an instruction memory.
-/

namespace Sys2Proof

/-- The command a word spells by the bits of spec/opcode_table.json; no row has bits, so no word spells
one (notes/assumptions/4.md). A frame's own bytes are read in Sys2Proof/Machine/Operands.lean. -/
def decodeTableWord (_nbits _w : Nat) : Option Instr := none

end Sys2Proof
end

