-- ==== Sys2Proof/Machine/State.lean ====
section
/-!
DEFINITION. The state of the block as plain data, and the state after device reset. Every type names
the rule of spec/ that gives it. `State` keeps apart what only frames and pins reach (`hosts`), the array
(`array`) and the shared blocks behind the ports (`dev`).
-/

namespace Sys2Proof.Machine

/-- One value for each of the three ports. -/
structure PerPort (α : Type) where
  p0 : α
  p1 : α
  p2 : α
deriving DecidableEq, Repr

/-! ## The array -/

/-- The array's bytes by absolute byte address (R1). An address that is not listed reads as 0xFF, the
value of a part as delivered and of an erased sector (R1, R5). -/
abbrev Memory := List Host.Cell

/-! ## The partition table -/

/-- The kind of a partition (section 2.1). -/
inductive PartKind
  | plain
  | image
deriving DecidableEq, Repr

/-- The two copies of an IMAGE partition (section 1.5). -/
inductive Copy
  | a
  | b
deriving DecidableEq, Repr

/-- The image phase (R35). -/
inductive ImagePhase
  | settled
  | trial
deriving DecidableEq, Repr

/-- The volatile claim of an entry (R15). -/
inductive Claim
  | unclaimed
  | preparing
  | opened
  | verifying
  | committing
deriving DecidableEq, Repr

/-- An entry of the partition table (section 2.1, R14, R15): the persistent fields, then the volatile
`held` and `claim`. A claim is held by the owner port alone (R15), so the holder is `owner`. -/
structure Entry where
  defined : Bool
  kind : PartKind
  owner : Port
  base : Half16
  size : Half16
  readers : Readers
  fixed : Bool
  label : Word32
  serial : Word32
  live : Option Copy
  phase : ImagePhase
  attempts : BitVec 4
  fallback : Bool
  generation : Word32
  liveLength : Word32
  liveCheck : Word32
  fallbackLength : Word32
  fallbackCheck : Word32
  held : Bool
  claim : Claim
deriving DecidableEq, Repr

/-- R14, R15: an entry that names no partition. -/
def Entry.undefined : Entry :=
  { defined := false, kind := .plain, owner := .p0, base := 0, size := 0, readers := 0, fixed := false,
    label := 0, serial := 0, live := none, phase := .settled, attempts := 0, fallback := false,
    generation := 0, liveLength := 0, liveCheck := 0, fallbackLength := 0, fallbackCheck := 0,
    held := false, claim := .unclaimed }

/-- The partition table: 24 entries, index 0–23. -/
abbrev Table := Vector Entry 24

/-- An entry of the reservation list (section 2.2): the port, the base and the footprint in sectors. -/
structure Reservation where
  port : Port
  base : Nat
  sectors : Nat
deriving DecidableEq, Repr

/-! ## Results, tickets and events -/

/-- The result codes of section 12.2. -/
inductive Result
  | ok
  | notready
  | frame
  | badcmd
  | badarg
  | ringfull
  | nobuf
  | nopart
  | denied
  | locked
  | badstate
  | overlap
  | tfull
  | badcheck
  | arrayfail
  | jdead
  | unknown
  | notdone
  | cancelled
deriving DecidableEq, Repr

/-- The view of a READ (section 12.2). -/
inductive View
  | live
  | staged
deriving DecidableEq, Repr

/-- The kind of a ticket with the arguments its frame gave (R116). -/
inductive TicketKind
  | read (view : View) (offset : Word32) (length : Half16)
  | program (offset : Word32) (length : Half16)
  | erase (firstSector count : Half16)
  | claim
  | release
  | commit (length check : Word32) (budget : BitVec 4)
  | confirm
  | revert
  | define (kind : PartKind) (base size : Half16) (readers : Readers) (label : Word32)
  | delete
  | grant (readers : Readers)
  | fix
deriving DecidableEq, Repr

/-- The five ticket states (section 7.4). -/
inductive TicketState
  | queued
  | running
  | done
  | failed
  | cancelled
deriving DecidableEq, Repr

/-- How far a live ticket's work has come. R116 lists no such field, but the rules of the kinds speak of
it: whether a PLAIN DEFINE has passed its start checks (R122), and whether the next thing a RUNNING ticket
waits for is one of its array operations or its record (DEDUCED, notes/assumptions/10.md). -/
inductive Stage
  /-- Nothing has begun. -/
  | waiting
  /-- A PLAIN DEFINE that has passed its start checks and holds its reservation, still QUEUED (R122). -/
  | reserved
  /-- Its array operations are being made. -/
  | operating
  /-- Its record request is with the Journal Writer (R68). -/
  | recording
deriving DecidableEq, Repr

/-- A ticket record (R116). `buffer` holds the bytes of the page buffer the ticket holds (R135, R138). -/
structure Ticket where
  number : Byte
  kind : TicketKind
  index : Option Nat
  serial : Option Word32
  notify : Bool
  state : TicketState
  result : Result
  progress : Nat
  buffer : Option (List Byte)
  copyRead : Option Copy
  generationRead : Option Word32
  cancelRequested : Bool
  orphan : Bool
  stage : Stage
deriving DecidableEq, Repr

/-- The event kinds (R175). -/
inductive EventKind
  | ticketEnd
  | leaseLost
  | liveChanged
  | partRemoved
  | accessChanged
  | phaseChanged
deriving DecidableEq, Repr

/-- An event record (R174). Ticket number 0 and partition none stand for absent. -/
structure Event where
  kind : EventKind
  ticket : Byte
  partition : Option Nat
  result : Result
  generation : Word32
deriving DecidableEq, Repr

/-- An event queue with its lost flag (R174). `discarded` says whether an event has been discarded since
the turnaround of the port's last EVENTS frame, which R177 looks at when the count byte completes (DEDUCED,
notes/assumptions/10.md). -/
structure EventQueue where
  records : List Event
  lost : Bool
  discarded : Bool
deriving DecidableEq, Repr

/-- What a port holds in the shared side of the part: ring and number counter (R114, R115), event queue
(R174), lease (R163) and tick-pending flag (R171). `leaseTime` is the remaining time in microseconds. -/
structure PortState where
  ring : List Ticket
  nextNumber : Byte
  events : EventQueue
  leaseSetting : Byte
  leaseTime : Nat
  tickPending : Bool
deriving DecidableEq, Repr

/-- The Buffer Pool's counts (R135). The bytes of a held buffer stand with its holder. -/
structure Pool where
  free : Nat
  held : PerPort Nat
deriving DecidableEq, Repr

/-- The Verify Unit (R48, R52): the COMMIT that has taken it (port and ticket number), its running CRC
register (R181) and its own page buffer (R135). -/
structure VerifyUnit where
  holder : Option (Port × Byte)
  crc : Word32
  buffer : List Byte
deriving DecidableEq, Repr

/-! ## The Array Engine and the Scheduler -/

/-- Who receives the data or verdict of an operation (section 9.1). -/
inductive Requester
  | ticket (p : Port) (number : Byte)
  | verify (p : Port) (number : Byte)
  | journal
  | mount
deriving DecidableEq, Repr

/-- A current sector erase (section 9.1). `run` and `since` are its run time so far and since issue or
last resumption, in microseconds; `asked` the microseconds since a suspension was requested (R8). -/
structure EraseOp where
  sector : Nat
  run : Nat
  since : Nat
  suspends : Nat
  requested : Bool
  asked : Nat
  requester : Requester
deriving DecidableEq, Repr

/-- The parked erase (section 9.1). -/
structure ParkedErase where
  sector : Nat
  run : Nat
  suspends : Nat
  requester : Requester
deriving DecidableEq, Repr

/-- The engine's current operation (section 9.1). `age` is the time since issue in microseconds (R8).
The destination of a read is the requester's buffer; `data` is the content of a program's source buffer. -/
inductive Operation
  | read (sector page : Nat) (requester : Requester) (age : Nat)
  | program (sector page first : Nat) (data : List Byte) (requester : Requester) (age : Nat)
  | erase (e : EraseOp)
deriving DecidableEq, Repr

/-- A member of a round-robin (R148). -/
inductive Member
  | port (p : Port)
  | system
deriving DecidableEq, Repr

/-- The engine and the Scheduler's three pointers (section 9.1, R148). -/
structure Engine where
  current : Option Operation
  parked : Option ParkedErase
  readPointer : Member
  programPointer : Member
  erasePointer : Member
deriving DecidableEq, Repr

/-! ## The Journal Writer and Mount Logic -/

/-- The two halves of the System Area (R2). -/
inductive JournalHalf
  | h0
  | h1
deriving DecidableEq, Repr

/-- The table change a host request asks for (R65), before validation. -/
inductive RequestBody
  | define (kind : PartKind) (base size : Half16) (readers : Readers) (label : Word32)
  | delete (index : Nat) (serial : Word32)
  | grant (index : Nat) (serial : Word32) (readers : Readers)
  | fix (index : Nat) (serial : Word32)
  | dropFallback (index : Nat) (serial : Word32)
  | commit (index : Nat) (serial : Word32) (copy : Copy) (length check : Word32) (budget : BitVec 4)
  | confirm (index : Nat) (serial : Word32)
  | revert (index : Nat) (serial : Word32)
deriving DecidableEq, Repr

/-- A request of the waiting queue (R68). -/
inductive Request
  | host (p : Port) (number : Byte) (body : RequestBody)
  | tick (p : Port) (steps : Nat)
deriving DecidableEq, Repr

/-- What a change record says (R65, section 12.5). -/
inductive Change
  | define (index : Nat) (kind : PartKind) (owner : Port) (base size : Half16) (readers : Readers) (label : Word32)
  | delete (index : Nat) (serial : Word32)
  | grant (index : Nat) (serial : Word32) (readers : Readers)
  | fix (index : Nat) (serial : Word32)
  | dropFallback (index : Nat) (serial : Word32)
  | commit (index : Nat) (serial : Word32) (copy : Copy) (length check : Word32) (budget : BitVec 4)
  | confirm (index : Nat) (serial : Word32)
  | revert (index : Nat) (serial : Word32) (settledCase : Bool)
  | tick (p : Port) (steps : Nat)
deriving DecidableEq, Repr

/-- The record in hand (R67). `retryOf` is the sequence of the spoiled attempt in a retry, none in a
first attempt. -/
structure InHand where
  change : Change
  slot : Nat
  sequence : Word32
  retryOf : Option Word32
  request : Request
deriving DecidableEq, Repr

/-- The fold state (R67): ERASING with the next sector of the other half (0–3 within the half), AWAITING,
or WRITING with the capture and the checkpoint slot (0–4) whose record has been formed. -/
inductive Fold
  | idle
  | erasing (sector : Nat)
  | awaiting
  | writing (capture : Table) (slot : Nat)
deriving DecidableEq, Repr

/-- The journal condition (R67). -/
inductive JournalCondition
  | good
  | dead
deriving DecidableEq, Repr

/-- The Journal Writer (R67). `nextSequence` none stands for exhausted; `buffer` is its own record
buffer (R63). -/
structure Writer where
  activeHalf : JournalHalf
  nextSlot : Nat
  nextSequence : Option Word32
  queue : List Request
  inHand : Option InHand
  fold : Fold
  foldFailures : Nat
  holdFormation : Bool
  condition : JournalCondition
  buffer : List Byte
deriving DecidableEq, Repr

/-- The step of a mount (section 5.2). FORMATTING carries its scan position: the next sector to erase or
the next checkpoint slot to program. -/
inductive MountStep
  | idle
  | choosing
  | loading
  | replaying
  | formatErasing (sector : Nat)
  | formatProgramming (slot : Nat)
deriving DecidableEq, Repr

/-- What CHOOSING has gathered of the half being read (R87): whether every slot so far was as a valid
checkpoint needs it, the head's sequence, and the entries of the bodies read so far. -/
structure Scan where
  good : Bool
  head : Word32
  entries : List Entry
deriving DecidableEq, Repr

/-- Mount Logic (section 5.2). `candidate0` and `candidate1` are the head sequences of valid candidates. -/
structure Mount where
  step : MountStep
  half : JournalHalf
  slot : Nat
  scan : Scan
  candidate0 : Option Word32
  candidate1 : Option Word32
  chosen : Option JournalHalf
  lastApplied : Word32
  highestSequence : Word32
  torn : Nat
  highestSlot : Option Nat
  aliases : List (Nat × Word32)
  buffer : List Byte
deriving DecidableEq, Repr

/-- The device phase (section 12.2). -/
inductive Phase
  | mounting
  | serving
  | degraded
deriving DecidableEq, Repr

/-- The shared side of the part: all that the blocks behind the ports hold, but the array's bytes. -/
structure Dev where
  phase : Phase
  formatted : Bool
  ports : PerPort PortState
  pool : Pool
  table : Table
  reservations : List Reservation
  verify : VerifyUnit
  engine : Engine
  writer : Writer
  mount : Mount
deriving DecidableEq, Repr

/-! ## The host side of a port -/

/-- What an answering frame takes at its turnaround (R101): the result and the response after it. -/
structure Answer where
  result : Result
  data : List Byte
deriving DecidableEq, Repr

/-- The frame shifter (R98): whether a frame is in progress, its complete bytes and the bits of an
incomplete one, whether the falling edge after the last bit's rising edge is still to come (R99), the response
taken at the turnaround, and the buffer a PROGRAM frame holds (R109). -/
structure Shifter where
  active : Bool
  bytes : List Byte
  bits : List Bool
  risen : Bool
  answer : Option Answer
  buffer : Option (List Byte)
deriving DecidableEq, Repr

/-- The last-outcome record (R112). -/
structure LastOutcome where
  command : Byte
  result : Result
  ticket : Byte
deriving DecidableEq, Repr

/-- The host side of a port: the levels of CSn# and HRSTn# (true: asserted), the frame shifter, the bytes
and then the bits of an incomplete byte that SOn has carried at the rising edges of the frame in progress or last
ended (the model's own record, notes/assumptions/10.md), and the last-outcome record. -/
structure HostPort where
  selected : Bool
  restart : Bool
  shifter : Shifter
  so : List Byte
  soBits : List Bool
  outcome : LastOutcome
deriving DecidableEq, Repr

/-- The whole block. `pending` is the queue of commands that wait, first in, first out; `powered` whether
the supply is in range; `resetPin` whether RESET# is asserted. -/
structure State where
  pending : List Instr
  powered : Bool
  resetPin : Bool
  hosts : PerPort HostPort
  array : Memory
  dev : Dev
deriving DecidableEq, Repr

/-! ## How a step can stop -/

/-- Why the machine stops with a fault. -/
inductive Fault
  /-- Raised when an operation that completes or is cut off names a sector above 4095, a page above 15 or
  a run past byte 255 of its page, which do not exist (R1, R6). No operation the device issues does
  (R12, R17). Safe: the machine stops where the spec gives no array byte (notes/assumptions/19.md). -/
  | outsideArray
deriving DecidableEq, Repr

/-- Why a command has no meaning in a state. -/
inductive Refusal
  /-- Raised by exec for a command without a meaning. Safe. -/
  | notModelled (mnemonic : String)
  /-- Raised where the command is an event that cannot fall in the state: a completion, parking or expiry
  of what is not there (R151, R153, R155, R166), an edge of a line already at that level, or bits of a
  frame that is not the one in progress. Safe: the model forbids what the spec rules out
  (notes/assumptions/3.md). -/
  | eventCannotFall (mnemonic : String)
deriving DecidableEq, Repr

/-! ## Device reset -/

/-- R98: an empty frame shifter. -/
def Shifter.empty : Shifter :=
  { active := false, bytes := [], bits := [], risen := false, answer := none, buffer := none }

/-- R112: the last-outcome record after device reset and port restart. -/
def LastOutcome.reset : LastOutcome := { command := 0, result := .ok, ticket := 0 }

/-- R174: an empty event queue with the lost flag clear. -/
def EventQueue.empty : EventQueue := { records := [], lost := false, discarded := false }

/-- R84, R115, R163, R171, R174: a port's shared-side state after device reset. -/
def PortState.reset : PortState :=
  { ring := [], nextNumber := 1, events := .empty, leaseSetting := Config.resetLease, leaseTime := 0,
    tickPending := false }

/-- The host side of a port at device reset, with its lines released. -/
def HostPort.reset : HostPort :=
  { selected := false, restart := false, shifter := .empty, so := [], soBits := [], outcome := .reset }

/-- R84: the table reads as undefined throughout. -/
def Table.empty : Table := Vector.replicate 24 Entry.undefined

/-- R84: the Journal Writer until mount sets its position. -/
def Writer.reset : Writer :=
  { activeHalf := .h0, nextSlot := 64, nextSequence := some 1, queue := [], inHand := none, fold := .idle,
    foldFailures := 0, holdFormation := false, condition := .good, buffer := [] }

/-- R86: Mount Logic at the start of a mount. -/
def Mount.start : Mount :=
  { step := .choosing, half := .h0, slot := 0, scan := { good := true, head := 0, entries := [] },
    candidate0 := none, candidate1 := none, chosen := none, lastApplied := 0, highestSequence := 0,
    torn := 0, highestSlot := none, aliases := [], buffer := [] }

/-- R142: the engine idle, every pointer naming the system. -/
def Engine.reset : Engine :=
  { current := none, parked := none, readPointer := .system, programPointer := .system,
    erasePointer := .system }

/-- R84: the shared side at the event at which device reset begins, before the Scheduler's first choice. -/
def Dev.reset : Dev :=
  { phase := .mounting, formatted := false,
    ports := { p0 := .reset, p1 := .reset, p2 := .reset },
    pool := { free := 10, held := { p0 := 0, p1 := 0, p2 := 0 } },
    table := .empty, reservations := [],
    verify := { holder := none, crc := 0xFFFFFFFF#32, buffer := [] },
    engine := .reset, writer := .reset, mount := .start }

/-- The machine right after device reset of a part as delivered: every field as R84 gives it, the array
all 0xFF (R1), the lines released (DESIGN CHOICE, notes/assumptions/7.md), and the first read of the mount
issued at the same event (R86, R142). The bytes of buffers that nothing has filled are none (DESIGN CHOICE,
notes/assumptions/8.md). -/
def State.reset : State :=
  { pending := [], powered := true, resetPin := false,
    hosts := { p0 := .reset, p1 := .reset, p2 := .reset },
    array := [],
    dev := { Dev.reset with engine := { Engine.reset with current := some (.read 0 0 .mount 0) } } }

end Sys2Proof.Machine
end

