-- ==== Sys2Proof/Machine/Ops.lean ====
section
/-!
DEFINITION. The named operations over the state that every family shares: one value per port, bytes and
the check value (R99, R181), the array's bytes (R4–R6, R10), the table's entries, event queues (R174,
R176), the Buffer Pool (R136, R139) and the tickets of a ring (R114).
-/

namespace Sys2Proof.Machine

/-! ## One value per port -/

def PerPort.get {α : Type} (v : PerPort α) : Port → α
  | .p0 => v.p0
  | .p1 => v.p1
  | .p2 => v.p2

def PerPort.set {α : Type} (v : PerPort α) (p : Port) (x : α) : PerPort α :=
  match p with
  | .p0 => { v with p0 := x }
  | .p1 => { v with p1 := x }
  | .p2 => { v with p2 := x }

def PerPort.modify {α : Type} (v : PerPort α) (p : Port) (f : α → α) : PerPort α :=
  v.set p (f (v.get p))

/-- The ports in ascending order. -/
def allPorts : List Port := [.p0, .p1, .p2]

/-- The number of a port (section 12.2). -/
def portNumber : Port → Nat
  | .p0 => 0
  | .p1 => 1
  | .p2 => 2

/-- Membership in a readers set (section 12.2): bit n names port n. -/
def readersHave (r : Readers) (p : Port) : Bool := r.getLsbD (portNumber p)

/-! ## Bytes and the check value -/

/-- R99: a two-byte field, most significant byte first. -/
def bytesOf16 (w : Half16) : List Byte := [w.extractLsb' 8 8, w.extractLsb' 0 8]

/-- R99: a four-byte field, most significant byte first. -/
def bytesOf32 (w : Word32) : List Byte :=
  [w.extractLsb' 24 8, w.extractLsb' 16 8, w.extractLsb' 8 8, w.extractLsb' 0 8]

/-- R99: the two-byte field whose first byte is byte `i`; bytes beyond the end read as 0. -/
def half16At (bs : List Byte) (i : Nat) : Half16 := bs.getD i 0 ++ bs.getD (i + 1) 0

/-- R99: the four-byte field whose first byte is byte `i`; bytes beyond the end read as 0. -/
def word32At (bs : List Byte) (i : Nat) : Word32 :=
  bs.getD i 0 ++ bs.getD (i + 1) 0 ++ bs.getD (i + 2) 0 ++ bs.getD (i + 3) 0

/-- A count that a response carries as one byte (R180). -/
def byteOfNat (n : Nat) : Byte := BitVec.ofNat 8 n

/-- A yes/no field (section 12.2). -/
def byteOfBool (b : Bool) : Byte := if b then 1 else 0

/-- R99: the bits of a byte, most significant first. -/
def bitsOf (b : Byte) : List Bool := (List.range 8).map (fun i => b.getMsbD i)

/-- R181, item 2: one bit's shift of the register. -/
def crcShift (r : Word32) : Word32 :=
  if r.getLsbD 0 then (r >>> 1) ^^^ 0xEDB88320#32 else r >>> 1

/-- R181, item 2: one byte taken into the register. Exclusive-oring the byte in first and then shifting
eight times is the bit-by-bit step of the rule, least significant data bit first. -/
def crcByte (r : Word32) (b : Byte) : Word32 :=
  crcShift (crcShift (crcShift (crcShift (crcShift (crcShift (crcShift (crcShift (r ^^^ b.zeroExtend 32))))))))

/-- R181, item 1. -/
def crcStart : Word32 := 0xFFFFFFFF#32

/-- R181, item 2: the bytes in ascending offset order. -/
def crcAdvance (r : Word32) (bs : List Byte) : Word32 := bs.foldl crcByte r

/-- R181, item 3. -/
def crcFinish (r : Word32) : Word32 := r ^^^ 0xFFFFFFFF#32

/-- R181: the check value of a run of bytes. -/
def crc32 (bs : List Byte) : Word32 := crcFinish (crcAdvance crcStart bs)

/-! ## The array's bytes -/

/-- The byte at an absolute address (R1); an unlisted address holds 0xFF (notes/assumptions/7.md). -/
def Memory.byteAt (m : Memory) (a : Nat) : Byte :=
  match m.find? (fun c => c.1 == a) with
  | some c => c.2
  | none => 0xFF

/-- The canonical form: addresses rise strictly and lie in the array, and no listed byte is 0xFF. -/
abbrev Memory.wf (m : Memory) : Prop :=
  m.Pairwise (fun c d => c.1 < d.1) ∧ ∀ c ∈ m, c.2 ≠ 0xFF ∧ c.1 < Config.arrayBytes

/-- The bytes at `a` to `a + n − 1`, in ascending order. -/
def Memory.readRun (m : Memory) (a n : Nat) : List Byte :=
  let cells : Memory := m.filter (fun c => a ≤ c.1 && c.1 < a + n)
  (List.range n).map (fun i => cells.byteAt (a + i))

/-- The listed cells of a run of bytes that starts at `a`. -/
def cellsFrom (a : Nat) : List Byte → Memory
  | [] => []
  | b :: bs => if b = 0xFF then cellsFrom (a + 1) bs else (a, b) :: cellsFrom (a + 1) bs

/-- The run that starts at `a` replaced. -/
def Memory.writeRun (m : Memory) (a : Nat) (bs : List Byte) : Memory :=
  m.filter (fun c => c.1 < a) ++ (cellsFrom a bs ++ m.filter (fun c => a + bs.length ≤ c.1))

/-- R5: `n` bytes at `a` set to 0xFF. -/
def Memory.eraseRun (m : Memory) (a n : Nat) : Memory :=
  m.filter (fun c => c.1 < a || a + n ≤ c.1)

/-- The mask of byte `i` of an uncertain run (R10; notes/assumptions/6.md). -/
def settleMask (u : Settle) (i : Nat) : Byte :=
  match u.cells.find? (fun c => c.1 == i) with
  | some c => c.2
  | none => u.fill

/-- R6: the bytes a successful program leaves: former AND supplied. -/
def programmed (former supplied : List Byte) : List Byte := List.zipWith (· &&& ·) former supplied

/-- R10: the bytes a failed program leaves: a bit that is 1 and is supplied 0 takes 0 where the mask has
1; every other bit keeps its former value. -/
def programmedInPart (former supplied : List Byte) (u : Settle) : List Byte :=
  List.zipWith (· &&& ·) former (supplied.mapIdx (fun i b => b ||| ~~~(settleMask u i)))

/-- R1: the absolute byte address of position `b` of page `p` of sector `s`. -/
def byteAddress (s p b : Nat) : Nat := s * Config.sectorBytes + p * Config.pageBytes + b

/-- R4: the 256 bytes of a page. -/
def Memory.readPage (m : Memory) (s p : Nat) : List Byte := m.readRun (byteAddress s p 0) Config.pageBytes

/-- R6, R10: a page program from position `first` that ends with verdict `v`. -/
def Memory.programPage (m : Memory) (s p first : Nat) (data : List Byte) (v : Verdict) : Memory :=
  let a := byteAddress s p first
  let former := m.readRun a data.length
  match v with
  | .success => m.writeRun a (programmed former data)
  | .failure u => m.writeRun a (programmedInPart former data u)

/-- R5, R10: a sector erase that ends with verdict `v`. After a failure each bit that was 0 is 1 where the
mask has 1, and a bit that was 1 stays 1; only listed bytes hold a 0 bit. -/
def Memory.eraseSector (m : Memory) (s : Nat) (v : Verdict) : Memory :=
  let a := byteAddress s 0 0
  match v with
  | .success => m.eraseRun a Config.sectorBytes
  | .failure u =>
    m.filterMap (fun c =>
      if a ≤ c.1 && c.1 < a + Config.sectorBytes then
        let w := c.2 ||| settleMask u (c.1 - a)
        if w = 0xFF then none else some (c.1, w)
      else some c)

/-- R1, R6: whether an operation names bytes that exist. -/
def Operation.inArray : Operation → Bool
  | .read s p _ _ => s < Config.sectorCount && p < Config.pagesPerSector
  | .program s p first data _ _ =>
    s < Config.sectorCount && p < Config.pagesPerSector && first + data.length ≤ Config.pageBytes
  | .erase e => e.sector < Config.sectorCount

/-- R1: whether a parked erase names a sector that exists. -/
def ParkedErase.inArray (e : ParkedErase) : Bool := e.sector < Config.sectorCount

/-! ## The shared side by port -/

def Dev.port (d : Dev) (p : Port) : PortState := d.ports.get p

def Dev.modifyPort (d : Dev) (p : Port) (f : PortState → PortState) : Dev :=
  { d with ports := d.ports.modify p f }

def State.host (s : State) (p : Port) : HostPort := s.hosts.get p

def State.modifyHost (s : State) (p : Port) (f : HostPort → HostPort) : State :=
  { s with hosts := s.hosts.modify p f }

def State.modifyDev (s : State) (f : Dev → Dev) : State := { s with dev := f s.dev }

/-- Applies `f` for each of a list's members in turn. -/
def Dev.forEach {α : Type} (d : Dev) (xs : List α) (f : α → Dev → Dev) : Dev :=
  xs.foldl (fun d x => f x d) d

/-! ## The table's entries -/

/-- The entry of an index; an index above 23 names none. -/
def Table.entry (t : Table) (i : Nat) : Entry := if h : i < 24 then t[i] else Entry.undefined

def Table.setEntry (t : Table) (i : Nat) (e : Entry) : Table := t.setIfInBounds i e

def Dev.entry (d : Dev) (i : Nat) : Entry := Table.entry d.table i

def Dev.setEntry (d : Dev) (i : Nat) (e : Entry) : Dev := { d with table := Table.setEntry d.table i e }

/-- The indexes 0–23 in ascending order. -/
def allIndexes : List Nat := List.range 24

/-- The number of copies in a footprint: one run for PLAIN, two for IMAGE (section 1.5). -/
def footprintOf (k : PartKind) (size : Half16) : Nat :=
  match k with
  | .plain => size.toNat
  | .image => 2 * size.toNat

/-- The sectors of an entry's footprint (section 2.1). -/
def Entry.footprint (e : Entry) : Nat := footprintOf e.kind e.size

/-- Whether two runs of sectors share one. -/
def runsMeet (b1 n1 b2 n2 : Nat) : Bool := b1 < b2 + n2 && b2 < b1 + n1

/-- Whether a run of sectors shares one with a defined entry's footprint (R17). -/
def Table.meets (t : Table) (base n : Nat) : Bool :=
  allIndexes.any (fun i =>
    let e := Table.entry t i
    e.defined && runsMeet base n e.base.toNat e.footprint)

/-- Whether a run of sectors shares one with a reservation (R17). -/
def Dev.meetsReservation (d : Dev) (base n : Nat) : Bool :=
  d.reservations.any (fun r => runsMeet base n r.base r.sectors)

/-- The number of defined entries (R19). -/
def Table.definedCount (t : Table) : Nat := (allIndexes.filter (fun i => (Table.entry t i).defined)).length

/-- R21: the lowest index that is not defined. -/
def Table.lowestFree (t : Table) : Option Nat := allIndexes.find? (fun i => !(Table.entry t i).defined)

/-- R32: the index is defined and its serial is the one recorded. -/
def Table.matchesSerial (t : Table) (i : Nat) (serial : Word32) : Bool :=
  let e := Table.entry t i
  e.defined && e.serial == serial

/-- R12: the copy a spare resolution names. -/
def spareOf : Option Copy → Copy
  | some .a => .b
  | some .b => .a
  | none => .a

/-- The first sector of a copy (section 1.5). -/
def Entry.copyBase (e : Entry) : Copy → Nat
  | .a => e.base.toNat
  | .b => e.base.toNat + e.size.toNat

/-- R12: the first sector of the spare copy of an IMAGE entry, of the footprint of a PLAIN one. -/
def Entry.writeBase (e : Entry) : Nat :=
  match e.kind with
  | .plain => e.base.toNat
  | .image => e.copyBase (spareOf e.live)

/-- A claim set for the incarnation a ticket names; another incarnation's claim is not touched. -/
def Dev.setClaim (d : Dev) (i : Nat) (serial : Word32) (c : Claim) : Dev :=
  if Table.matchesSerial d.table i serial then d.setEntry i { d.entry i with claim := c } else d

/-! ## Event queues -/

/-- R174, R176: an event joins the newest end, or is discarded on a full queue with the lost flag set. -/
def EventQueue.append (q : EventQueue) (e : Event) : EventQueue :=
  if q.records.length < Config.eventQueueSize then { q with records := q.records ++ [e] }
  else { q with lost := true, discarded := true }

def Dev.send (d : Dev) (p : Port) (e : Event) : Dev :=
  d.modifyPort p (fun s => { s with events := s.events.append e })

/-- One event to each of some ports. -/
def Dev.sendTo (d : Dev) (ps : List Port) (e : Event) : Dev := d.forEach ps (fun p d => d.send p e)

/-- R175: an event about a partition other than a ticket's end. -/
def partitionEvent (k : EventKind) (i : Nat) (generation : Word32) : Event :=
  { kind := k, ticket := 0, partition := some i, result := .ok, generation := generation }

/-- R175: PHASE_CHANGED, OK for SERVING and JDEAD for DEGRADED. -/
def phaseEvent (r : Result) : Event :=
  { kind := .phaseChanged, ticket := 0, partition := none, result := r, generation := 0 }

/-- The ports of a readers set, ascending. -/
def readersList (r : Readers) : List Port := allPorts.filter (fun p => readersHave r p)

/-- R59: the owner and each port of the readers set. -/
def Entry.audience (e : Entry) : List Port := allPorts.filter (fun p => p == e.owner || readersHave e.readers p)

/-- R59: LIVE_CHANGED for an entry, with its new generation. -/
def Dev.sendLiveChanged (d : Dev) (i : Nat) : Dev :=
  let e := d.entry i
  d.sendTo e.audience (partitionEvent .liveChanged i e.generation)

/-! ## The Buffer Pool -/

/-- R136: what a port is still owed. -/
def Pool.deficit (b : Pool) (p : Port) : Nat := Config.guaranteedBuffers - b.held.get p

/-- R136: the sum of the deficits of the two other ports. -/
def Pool.otherDeficits (b : Pool) : Port → Nat
  | .p0 => b.deficit .p1 + b.deficit .p2
  | .p1 => b.deficit .p0 + b.deficit .p2
  | .p2 => b.deficit .p0 + b.deficit .p1

/-- R136: whether a request from port `p` is granted. -/
def Pool.grants (b : Pool) (p : Port) : Bool :=
  b.held.get p < Config.guaranteedBuffers || b.otherDeficits p + 1 ≤ b.free

/-- R136: a grant. -/
def Pool.take (b : Pool) (p : Port) : Pool :=
  { free := b.free - 1, held := b.held.modify p (· + 1) }

/-- R139: a release. -/
def Pool.give (b : Pool) (p : Port) : Pool :=
  { free := b.free + 1, held := b.held.modify p (· - 1) }

def Dev.takeBuffer (d : Dev) (p : Port) : Dev := { d with pool := d.pool.take p }

def Dev.giveBuffer (d : Dev) (p : Port) : Dev := { d with pool := d.pool.give p }

/-- R139: releases a buffer if one is held. -/
def Dev.giveBufferIf (d : Dev) (p : Port) (held : Bool) : Dev := if held then d.giveBuffer p else d

/-! ## The tickets of a ring -/

/-- Section 7.4: QUEUED and RUNNING are live. -/
def Ticket.live (t : Ticket) : Bool := t.state == .queued || t.state == .running

/-- R119: READ is the one kind that is not modifying. -/
def Ticket.modifying (t : Ticket) : Bool :=
  match t.kind with
  | .read _ _ _ => false
  | _ => true

/-- The index a ticket's partition index field holds, 24 (which names no entry) when absent. -/
def Ticket.target (t : Ticket) : Nat := t.index.getD 24

def Dev.ring (d : Dev) (p : Port) : List Ticket := (d.port p).ring

def Dev.setRing (d : Dev) (p : Port) (r : List Ticket) : Dev := d.modifyPort p (fun s => { s with ring := r })

/-- The ticket of a number, orphans included. -/
def Dev.ticket (d : Dev) (p : Port) (n : Byte) : Option Ticket := (d.ring p).find? (fun t => t.number == n)

/-- R134: the ticket a frame reaches by number: not an orphan. -/
def Dev.ticketOfFrame (d : Dev) (p : Port) (n : Byte) : Option Ticket :=
  (d.ring p).find? (fun t => t.number == n && !t.orphan)

def Dev.modifyTicket (d : Dev) (p : Port) (n : Byte) (f : Ticket → Ticket) : Dev :=
  d.setRing p ((d.ring p).map (fun t => if t.number == n then f t else t))

/-- R114: a ticket leaves the ring, which closes up around the gap. -/
def Dev.removeTicket (d : Dev) (p : Port) (n : Byte) : Dev :=
  d.setRing p ((d.ring p).filter (fun t => t.number != n))

/-- R115: the number after `n`, wrapping from 255 to 1. -/
def nextNumberAfter (n : Byte) : Byte := if n = 255 then 1 else n + 1

/-- R115: the first number from `n` upward that no ticket of the ring carries; `fuel` bounds the count. -/
def freeNumber (ring : List Ticket) : Nat → Byte → Byte
  | 0, n => n
  | fuel + 1, n => if ring.any (fun t => t.number == n) then freeNumber ring fuel (nextNumberAfter n) else n

/-- R119: the oldest live modifying ticket of a port, the only one that can be startable or RUNNING. -/
def Dev.oldestModifying (d : Dev) (p : Port) : Option Ticket :=
  (d.ring p).find? (fun t => t.modifying && t.live)

/-- R120: the oldest live READ of a port. -/
def Dev.oldestRead (d : Dev) (p : Port) : Option Ticket :=
  (d.ring p).find? (fun t => !t.modifying && t.live)

/-- Removes the reservation of a port (R17). -/
def Dev.dropReservation (d : Dev) (p : Port) : Dev :=
  { d with reservations := d.reservations.filter (fun r => r.port != p) }

/-! ## Outcomes -/

/-- R8, R151, R155: an event that cannot fall in the present state (DESIGN CHOICE, notes/assumptions/3.md). -/
def cannotFall (mnemonic : String) : Host.Outcome State Fault Refusal := .refused (.eventCannotFall mnemonic)

end Sys2Proof.Machine
end

