-- ==== Sys2Proof/Machine/Flags.lean ====
section
/-!
DEFINITION. What the part derives from its state at any instant: lock levels (R30), the host-visible state
of an IMAGE partition (R36), the lease's run condition (R165), the journal's free slots (R62), ATTN# and
the drive of SOn (R98, R179).
-/

namespace Sys2Proof.Machine

/-- The lock levels (R30). -/
inductive Lock
  | opened
  | held
  | fixed
deriving DecidableEq, Repr

/-- R14, R30. -/
def Entry.lock (e : Entry) : Lock :=
  if !e.defined then .opened
  else if e.fixed then .fixed
  else if e.held then .held
  else .opened

/-- R30: HELD or FIXED. -/
def Entry.locked (e : Entry) : Bool := e.lock != .opened

/-- The host-visible states of an IMAGE partition (R36). -/
inductive ImageState
  | empty
  | settled
  | staging
  | trial
deriving DecidableEq, Repr

/-- R36. -/
def Entry.imageState (e : Entry) : ImageState :=
  if e.phase = .trial then .trial
  else if e.claim ≠ .unclaimed then .staging
  else if e.live = none then .empty
  else .settled

/-- R163: the port holds a claim. -/
def Dev.holdsClaim (d : Dev) (p : Port) : Bool :=
  allIndexes.any (fun i =>
    let e := d.entry i
    e.defined && e.owner == p && e.claim != .unclaimed)

/-- R165: some ticket of the port is RUNNING, orphans included. -/
def Dev.hasRunning (d : Dev) (p : Port) : Bool := (d.ring p).any (fun t => t.state == .running)

/-- R162, R165: the lease timer of the port runs: it stands still while some ticket of the port is RUNNING. The wait
of a record request for headroom is no condition of it: R74's "does not pause the lease" is read as of the wait, not
of the RUNNING ticket behind it, whose timer stands still before, during and after the wait (DEDUCED,
notes/assumptions/21.md). -/
def Dev.leaseRuns (d : Dev) (p : Port) : Bool :=
  d.holdsClaim p && !d.hasRunning p && (d.port p).leaseSetting != 0

/-- R163: lease remaining as STATUS reports it, rounded up to units of 10 ms. -/
def Dev.leaseRemaining (d : Dev) (p : Port) : Nat :=
  if d.holdsClaim p && (d.port p).leaseSetting != 0 then
    ((d.port p).leaseTime + (Config.leaseUnit - 1)) / Config.leaseUnit
  else 0

/-- R62: 64 minus the next slot. -/
def Writer.freeSlots (w : Writer) : Nat := Config.slotsPerHalf - w.nextSlot

/-- The device is out of reset: supplied, and RESET# released (R84). -/
def State.outOfReset (s : State) : Bool := s.powered && !s.resetPin

/-- R98, R111: the port takes frames. -/
def State.takesFrames (s : State) (p : Port) : Bool := s.outOfReset && !(s.host p).restart

/-- R98: the port drives SOn. -/
def State.drivesSo (s : State) (p : Port) : Bool := (s.host p).selected && s.takesFrames p

/-- R84, R179: ATTNn# is pulled low. -/
def State.attention (s : State) (p : Port) : Bool := s.outOfReset && !(s.dev.port p).events.records.isEmpty

/-- R121: the sector of the current or parked erase. -/
def Dev.busy (d : Dev) (sector : Nat) : Bool :=
  (match d.engine.current with
    | some (.erase e) => e.sector == sector
    | _ => false) ||
  (match d.engine.parked with
    | some e => e.sector == sector
    | none => false)

/-- R69: requests may be taken for formation, headroom apart. -/
def Dev.mayForm (d : Dev) : Bool :=
  d.phase == .serving && d.writer.condition == .good && d.writer.inHand.isNone && !d.writer.holdFormation &&
  (match d.writer.fold with
    | .idle => true
    | .erasing _ => true
    | _ => false)

/-- R74: the headroom condition of a request, at a free slot count. -/
def Request.hasHeadroom (free : Nat) : Request → Bool
  | .host _ _ _ => Config.hostHeadroom ≤ free
  | .tick _ _ => 1 ≤ free

/-- R171: a tick request of the port is waiting. -/
def Writer.tickWaiting (w : Writer) (p : Port) : Bool :=
  w.queue.any (fun
    | .tick q _ => q == p
    | .host _ _ _ => false)

end Sys2Proof.Machine
end

