-- ==== Sys2Proof/Machine/Encodings.lean ====
section
/-!
DEFINITION. The host-visible layouts and the journal record layouts of spec/12, written and read: field
codes (12.2), the responses of STATUS, TICKET, TABLE and EVENTS (12.3, R180), and journal pages (12.5,
R63, R66, R182).
-/

namespace Sys2Proof.Machine

/-! ## Field codes (section 12.2) -/

def resultCode : Result → Byte
  | .ok => 0x00
  | .notready => 0x01
  | .frame => 0x02
  | .badcmd => 0x03
  | .badarg => 0x04
  | .ringfull => 0x05
  | .nobuf => 0x06
  | .nopart => 0x07
  | .denied => 0x08
  | .locked => 0x09
  | .badstate => 0x0A
  | .overlap => 0x0B
  | .tfull => 0x0C
  | .badcheck => 0x0D
  | .arrayfail => 0x0E
  | .jdead => 0x0F
  | .unknown => 0x10
  | .notdone => 0x11
  | .cancelled => 0x12

def portCode (p : Port) : Byte := byteOfNat (portNumber p)

def portOfCode (b : Byte) : Option Port :=
  if b = 0 then some .p0 else if b = 1 then some .p1 else if b = 2 then some .p2 else none

def kindCode : PartKind → Byte
  | .plain => 0
  | .image => 1

def kindOfCode (b : Byte) : Option PartKind :=
  if b = 0 then some .plain else if b = 1 then some .image else none

def boolOfCode (b : Byte) : Option Bool :=
  if b = 0 then some false else if b = 1 then some true else none

def copyCode : Option Copy → Byte
  | none => 0
  | some .a => 1
  | some .b => 2

def copyOfCode (b : Byte) : Option (Option Copy) :=
  if b = 0 then some none else if b = 1 then some (some .a) else if b = 2 then some (some .b) else none

def imagePhaseCode : ImagePhase → Byte
  | .settled => 0
  | .trial => 1

def imagePhaseOfCode (b : Byte) : Option ImagePhase :=
  if b = 0 then some .settled else if b = 1 then some .trial else none

def claimCode : Claim → Byte
  | .unclaimed => 0
  | .preparing => 1
  | .opened => 2
  | .verifying => 3
  | .committing => 4

def ticketStateCode : TicketState → Byte
  | .queued => 0
  | .running => 1
  | .done => 2
  | .failed => 3
  | .cancelled => 4

def phaseCode : Phase → Byte
  | .mounting => 0
  | .serving => 1
  | .degraded => 2

def eventKindCode : EventKind → Byte
  | .ticketEnd => 1
  | .leaseLost => 2
  | .liveChanged => 3
  | .partRemoved => 4
  | .accessChanged => 5
  | .phaseChanged => 6

def viewOfCode (b : Byte) : Option View :=
  if b = 0 then some .live else if b = 1 then some .staged else none

/-- A readers byte: bits 3–7 name no port, so a byte that sets one names no readers set (R107, R182). -/
def readersOfCode (b : Byte) : Option Readers := if b.toNat < 8 then some (b.truncate 3) else none

def readersCode (r : Readers) : Byte := r.zeroExtend 8

/-- A budget or attempts byte, 0–15 (R47, R182). -/
def budgetOfCode (b : Byte) : Option (BitVec 4) := if b.toNat < 16 then some (b.truncate 4) else none

def budgetCode (n : BitVec 4) : Byte := n.zeroExtend 8

/-- R180: an absent partition is 0xFF. -/
def indexCode : Option Nat → Byte
  | none => 0xFF
  | some i => byteOfNat i

/-- The command code of a ticket's kind, notify bit excluded (section 12.2). -/
def ticketKindCode : TicketKind → Byte
  | .read _ _ _ => 0x20
  | .program _ _ => 0x21
  | .erase _ _ => 0x22
  | .claim => 0x30
  | .release => 0x31
  | .commit _ _ _ => 0x32
  | .confirm => 0x33
  | .revert => 0x34
  | .define _ _ _ _ _ => 0x40
  | .delete => 0x41
  | .grant _ => 0x42
  | .fix => 0x43

/-! ## Entries (section 12.3, TABLE bytes 0–40) -/

/-- The image fields of an entry, TABLE bytes 17–40. -/
def imageBytes (e : Entry) : List Byte :=
  [copyCode e.live, imagePhaseCode e.phase, budgetCode e.attempts, byteOfBool e.fallback] ++
    bytesOf32 e.generation ++ bytesOf32 e.liveLength ++ bytesOf32 e.liveCheck ++
    bytesOf32 e.fallbackLength ++ bytesOf32 e.fallbackCheck

/-- The persistent fields of an entry: 41 bytes. An undefined entry is all zero, and a PLAIN entry is zero
in bytes 17–40. -/
def entryBytes (e : Entry) : List Byte :=
  if e.defined then
    [byteOfBool e.defined, kindCode e.kind, portCode e.owner] ++ bytesOf16 e.base ++ bytesOf16 e.size ++
      [readersCode e.readers, byteOfBool e.fixed] ++ bytesOf32 e.label ++ bytesOf32 e.serial ++
      (match e.kind with
        | .plain => List.replicate 24 0
        | .image => imageBytes e)
  else List.replicate 41 0

/-- R33, section 12.3: the 43 bytes of a TABLE response. -/
def tableBytes (e : Entry) : List Byte :=
  entryBytes e ++
    (if e.defined then
      [byteOfBool e.held,
       match e.kind with
        | .plain => 0
        | .image => claimCode e.claim]
     else [0, 0])

/-- R18: the limits on size, base and last footprint sector. -/
def footprintInRange (k : PartKind) (base size : Half16) : Bool :=
  1 ≤ size.toNat &&
  (match k with
    | .plain => size.toNat ≤ Config.maxPlainSize
    | .image => size.toNat ≤ Config.maxImageSize) &&
  Config.firstAllocatable ≤ base.toNat &&
  base.toNat + footprintOf k size ≤ Config.sectorCount

/-- R35: the relations the image fields keep. -/
def Entry.imageRelations (e : Entry) : Bool :=
  (e.live.isSome || (e.phase == .settled && e.attempts == 0 && !e.fallback && e.liveLength == 0 &&
    e.liveCheck == 0 && e.fallbackLength == 0 && e.fallbackCheck == 0)) &&
  (e.phase == .trial || e.attempts == 0) &&
  (e.fallback || (e.fallbackLength == 0 && e.fallbackCheck == 0))

/-- R14: the image fields of a PLAIN entry are zero. -/
def Entry.imageFieldsZero (e : Entry) : Bool :=
  e.live.isNone && e.phase == .settled && e.attempts == 0 && !e.fallback && e.generation == 0 &&
  e.liveLength == 0 && e.liveCheck == 0 && e.fallbackLength == 0 && e.fallbackCheck == 0

/-- R14, R18, R35, R182: the persistent fields of an entry are as the device's own records leave them. -/
def Entry.sound (e : Entry) : Bool :=
  if e.defined then
    !readersHave e.readers e.owner && footprintInRange e.kind e.base e.size &&
    (match e.kind with
      | .plain => e.imageFieldsZero
      | .image => e.imageRelations)
  else { e with held := false, claim := .unclaimed } == Entry.undefined

/-- R182: the entry at byte `off` of a checkpoint body, or none where a field holds a value no code names
or the entry breaks a limit of R18 or a relation of R14 and R35. An entry stored with defined = no is
undefined (R88); the limits and relations are those of a defined entry. -/
def entryAt (bs : List Byte) (off : Nat) : Option Entry := do
  let defined ← boolOfCode (bs.getD off 0)
  let kind ← kindOfCode (bs.getD (off + 1) 0)
  let owner ← portOfCode (bs.getD (off + 2) 0)
  let readers ← readersOfCode (bs.getD (off + 7) 0)
  let fixed ← boolOfCode (bs.getD (off + 8) 0)
  let live ← copyOfCode (bs.getD (off + 17) 0)
  let phase ← imagePhaseOfCode (bs.getD (off + 18) 0)
  let attempts ← budgetOfCode (bs.getD (off + 19) 0)
  let fallback ← boolOfCode (bs.getD (off + 20) 0)
  let e : Entry :=
    { defined := defined, kind := kind, owner := owner, base := half16At bs (off + 3),
      size := half16At bs (off + 5), readers := readers, fixed := fixed, label := word32At bs (off + 9),
      serial := word32At bs (off + 13), live := live, phase := phase, attempts := attempts,
      fallback := fallback, generation := word32At bs (off + 21), liveLength := word32At bs (off + 25),
      liveCheck := word32At bs (off + 29), fallbackLength := word32At bs (off + 33),
      fallbackCheck := word32At bs (off + 37), held := false, claim := .unclaimed }
  if readersHave readers owner then none
  else if !defined then some Entry.undefined
  else if e.sound then some e
  else none

/-! ## Responses (section 12.3) -/

/-- R163, R180: lease remaining as the one byte that carries it. -/
def leaseRemainingByte (d : Dev) (p : Port) : Byte := byteOfNat (d.leaseRemaining p)

/-- R113: the 12 bytes of a STATUS response. -/
def statusBytes (s : State) (p : Port) : List Byte :=
  let d := s.dev
  let q := d.port p
  let o := (s.host p).outcome
  [phaseCode d.phase,
   byteOfBool d.formatted ||| (byteOfBool q.events.lost <<< 1) ||| (byteOfBool q.tickPending <<< 2),
   byteOfNat q.ring.length, byteOfNat (d.pool.held.get p), byteOfNat d.pool.free,
   byteOfNat q.events.records.length, q.leaseSetting, leaseRemainingByte d p,
   byteOfNat d.writer.freeSlots, o.command, resultCode o.result, o.ticket]

/-- R128: the 17 bytes of a TICKET response. The generation read is 0 whenever the copy read is (R180). -/
def ticketBytes (t : Ticket) : List Byte :=
  [t.number, ticketKindCode t.kind, ticketStateCode t.state, resultCode t.result, indexCode t.index] ++
    bytesOf32 (t.serial.getD 0) ++ bytesOf16 (BitVec.ofNat 16 t.progress) ++ [copyCode t.copyRead] ++
    bytesOf32 (if t.copyRead.isSome then t.generationRead.getD 0 else 0) ++
    [byteOfBool t.notify ||| (byteOfBool t.cancelRequested <<< 1) ||| (byteOfBool t.buffer.isSome <<< 2)]

/-- Section 12.3: the 8 bytes of an event record. -/
def eventBytes (e : Event) : List Byte :=
  [eventKindCode e.kind, e.ticket, indexCode e.partition, resultCode e.result] ++ bytesOf32 e.generation

/-- R177: the count byte, count in bits 0–4 and lost flag in bit 7, then the records. -/
def eventsBytes (q : EventQueue) : List Byte :=
  (byteOfNat q.records.length ||| (byteOfBool q.lost <<< 7)) :: q.records.flatMap eventBytes

/-- R124: the bytes a FETCH shifts out: the READ's length bytes from (offset mod 256) of its buffer. -/
def fetchBytes (offset : Word32) (length : Half16) (buffer : List Byte) : List Byte :=
  (List.range length.toNat).map (fun i => buffer.getD (offset.toNat % Config.pageBytes + i) 0)

/-! ## Journal pages (section 12.5) -/

/-- R63: the bytes 0–251 of a record: sequence, kind and body, unused bytes 0x00. -/
def recordBytes (sequence : Word32) (kind : Byte) (body : List Byte) : List Byte :=
  (bytesOf32 sequence ++ [kind] ++ body ++ List.replicate 252 0).take 252

/-- R63: a record's page, its check big-endian in bytes 252–255. -/
def recordPage (sequence : Word32) (kind : Byte) (body : List Byte) : List Byte :=
  recordBytes sequence kind body ++ bytesOf32 (crc32 (recordBytes sequence kind body))

def headKind : Byte := 0x01
def bodyKind : Byte := 0x02

/-- The record kind of a change (section 12.5). -/
def changeKind : Change → Byte
  | .define _ _ _ _ _ _ _ => 0x10
  | .delete _ _ => 0x11
  | .grant _ _ _ => 0x12
  | .fix _ _ => 0x13
  | .dropFallback _ _ => 0x20
  | .commit _ _ _ _ _ _ => 0x21
  | .confirm _ _ => 0x22
  | .revert _ _ _ => 0x23
  | .tick _ _ => 0x30

/-- The body of a change record after its retry field (section 12.5). -/
def changeBody : Change → List Byte
  | .define i k o b s r l =>
    [byteOfNat i, kindCode k, portCode o] ++ bytesOf16 b ++ bytesOf16 s ++ [readersCode r] ++ bytesOf32 l
  | .delete i s => byteOfNat i :: bytesOf32 s
  | .grant i s r => byteOfNat i :: (bytesOf32 s ++ [readersCode r])
  | .fix i s => byteOfNat i :: bytesOf32 s
  | .dropFallback i s => byteOfNat i :: bytesOf32 s
  | .commit i s c l k b =>
    byteOfNat i :: (bytesOf32 s ++ [copyCode (some c)] ++ bytesOf32 l ++ bytesOf32 k ++ [budgetCode b])
  | .confirm i s => byteOfNat i :: bytesOf32 s
  | .revert i s c => byteOfNat i :: (bytesOf32 s ++ [byteOfBool c])
  | .tick p n => [portCode p, byteOfNat n]

/-- R65, R72: a change record's page; the retry field is 0 in a first attempt. -/
def changePage (sequence : Word32) (retryOf : Option Word32) (c : Change) : List Byte :=
  recordPage sequence (changeKind c) (bytesOf32 (retryOf.getD 0) ++ changeBody c)

/-- R66: the page of checkpoint slot `slot` (0–4) of a capture: the head, or the body of six entries. -/
def checkpointPage (sequence : Word32) (capture : Table) (slot : Nat) : List Byte :=
  if slot = 0 then recordPage sequence headKind []
  else
    recordPage sequence bodyKind
      ((List.range 6).flatMap (fun j => entryBytes (Table.entry capture (6 * (slot - 1) + j))))

/-- How Mount Logic classifies a page (R63, R86). -/
inductive PageClass
  | erased
  | valid (sequence : Word32) (kind : Byte)
  | torn
deriving DecidableEq, Repr

/-- R63: a page all 0xFF is erased; one whose check matches its bytes 0–251 is valid; any other is torn. -/
def classifyPage (page : List Byte) : PageClass :=
  if page.all (· == 0xFF) then .erased
  else if word32At page 252 = crc32 (page.take 252) then .valid (word32At page 0) (page.getD 4 0)
  else .torn

/-- R63: the kinds of change record. -/
def isChangeKind (k : Byte) : Bool :=
  [0x10#8, 0x11#8, 0x12#8, 0x13#8, 0x20#8, 0x21#8, 0x22#8, 0x23#8, 0x30#8].contains k

/-- R182: an index byte of a record, 0–23. -/
def indexOfCode (b : Byte) : Option Nat := if b.toNat < Config.tableSize then some b.toNat else none

/-- R182: the change a valid page of a change record's kind holds, or none where a value is one no code
names. -/
def changeOfPage (page : List Byte) : Option Change :=
  let b := fun i => page.getD i 0
  let k := b 4
  if k = 0x30 then do
    let p ← portOfCode (b 9)
    some (.tick p (b 10).toNat)
  else do
    let i ← indexOfCode (b 9)
    let serial := word32At page 10
    if k = 0x10 then do
      let kind ← kindOfCode (b 10)
      let owner ← portOfCode (b 11)
      let readers ← readersOfCode (b 16)
      let size := half16At page 14
      let top := match kind with
        | .plain => Config.maxPlainSize
        | .image => Config.maxImageSize
      if readersHave readers owner || size.toNat < 1 || top < size.toNat then none
      else some (.define i kind owner (half16At page 12) size readers (word32At page 17))
    else if k = 0x11 then some (.delete i serial)
    else if k = 0x12 then do
      let readers ← readersOfCode (b 14)
      some (.grant i serial readers)
    else if k = 0x13 then some (.fix i serial)
    else if k = 0x20 then some (.dropFallback i serial)
    else if k = 0x21 then do
      let copy ← copyOfCode (b 14)
      let c ← copy
      let budget ← budgetOfCode (b 23)
      some (.commit i serial c (word32At page 15) (word32At page 19) budget)
    else if k = 0x22 then some (.confirm i serial)
    else if k = 0x23 then do
      let c ← boolOfCode (b 14)
      some (.revert i serial c)
    else none

/-- R65: the retry field of a change record's page. -/
def retryField (page : List Byte) : Word32 := word32At page 5

/-- R66, R182: the six entries of a checkpoint body, or none where one is out of range. -/
def bodyEntries (page : List Byte) : Option (List Entry) :=
  (List.range 6).mapM (fun j => entryAt page (5 + 41 * j))

end Sys2Proof.Machine
end

