-- ==== Sys2Proof/Machine/Records.lean ====
section
/-!
DEFINITION. What each change record does to the partition table. The completion of its program (R71) and
its replay at mount (R90) apply the same function.
-/

namespace Sys2Proof.Machine

/-- R14, R21: the entry a DEFINE record creates; its serial is the record's sequence (R16). -/
def definedEntry (k : PartKind) (o : Port) (base size : Half16) (r : Readers) (label serial : Word32) : Entry :=
  { Entry.undefined with
    defined := true, kind := k, owner := o, base := base, size := size, readers := r, label := label,
    serial := serial }

/-- R14: no record changes the image fields of a PLAIN entry (DEDUCED, notes/assumptions/15.md). -/
def onImage (f : Entry → Entry) (e : Entry) : Entry :=
  match e.kind with
  | .plain => e
  | .image => f e

/-- R41. -/
def dropFallback (e : Entry) : Entry :=
  { e with fallback := false, fallbackLength := 0, fallbackCheck := 0 }

/-- R53, items 1 to 5. -/
def switchLive (c : Copy) (length check : Word32) (budget : BitVec 4) (e : Entry) : Entry :=
  { e with
    fallback := e.live.isSome
    fallbackLength := if e.live.isSome then e.liveLength else 0
    fallbackCheck := if e.live.isSome then e.liveCheck else 0
    live := some c
    liveLength := length
    liveCheck := check
    generation := e.generation + 1
    phase := if budget = 0 then .settled else .trial
    attempts := budget
    claim := .unclaimed }

/-- R54. -/
def confirmTrial (e : Entry) : Entry := { e with phase := .settled, attempts := 0 }

/-- The other copy of a live copy. -/
def otherCopy : Copy → Copy
  | .a => .b
  | .b => .a

/-- R56, trial case; also the automatic revert of R57. -/
def revertTrial (e : Entry) : Entry :=
  { e with
    live := if e.fallback then e.live.map otherCopy else none
    liveLength := if e.fallback then e.fallbackLength else 0
    liveCheck := if e.fallback then e.fallbackCheck else 0
    fallback := false
    fallbackLength := 0
    fallbackCheck := 0
    phase := .settled
    attempts := 0
    generation := e.generation + 1 }

/-- R56, settled case: the two copies exchange roles. R56 gives this case for fallback PRESENT and R90 does not
ask for it: a page the part did not form that names an entry with fallback ABSENT or live NONE is applied as the
same exchange, so that live NONE stays NONE and fallback becomes PRESENT (DESIGN CHOICE,
notes/assumptions/15.md). -/
def revertSettled (e : Entry) : Entry :=
  { e with
    live := e.live.map otherCopy
    liveLength := e.fallbackLength
    liveCheck := e.fallbackCheck
    fallback := true
    fallbackLength := e.liveLength
    fallbackCheck := e.liveCheck
    phase := .settled
    attempts := 0
    generation := e.generation + 1 }

/-- R57: the steps of a TICK over one partition in TRIAL; repetition stops at the revert. -/
def tickSteps : Nat → Entry → Entry
  | 0, e => e
  | n + 1, e => if e.attempts = 0 then revertTrial e else tickSteps n { e with attempts := e.attempts - 1 }

/-- R57: the partitions a TICK of port `p` treats. -/
def Entry.onTrialOf (e : Entry) (p : Port) : Bool :=
  e.defined && e.kind == .image && e.owner == p && e.phase == .trial

/-- R57: one entry under a TICK of port `p` with step count `n`. -/
def tickEntry (p : Port) (n : Nat) (e : Entry) : Entry := if e.onTrialOf p then tickSteps n e else e

/-- R57, R70: port `p` owns a partition in TRIAL. -/
def Table.hasTrial (t : Table) (p : Port) : Bool := allIndexes.any (fun i => (Table.entry t i).onTrialOf p)

/-- One entry replaced by its image under `f`. -/
def Table.modifyEntry (t : Table) (i : Nat) (f : Entry → Entry) : Table := Table.setEntry t i (f (Table.entry t i))

/-- R21, R25, R26, R27, R41, R53, R54, R56, R57: the table after the change, `sequence` being that of the
record that carries it. -/
def applyChange (t : Table) (sequence : Word32) : Change → Table
  | .define i k o b s r l => Table.setEntry t i (definedEntry k o b s r l sequence)
  | .delete i _ => Table.setEntry t i Entry.undefined
  | .grant i _ r => Table.modifyEntry t i (fun e => { e with readers := r })
  | .fix i _ => Table.modifyEntry t i (fun e => { e with fixed := true })
  | .dropFallback i _ => Table.modifyEntry t i (onImage dropFallback)
  | .commit i _ c l k b => Table.modifyEntry t i (onImage (switchLive c l k b))
  | .confirm i _ => Table.modifyEntry t i (onImage confirmTrial)
  | .revert i _ settledCase => Table.modifyEntry t i (onImage (if settledCase then revertSettled else revertTrial))
  | .tick p n => t.map (tickEntry p n)

/-- R57, R58: LIVE_CHANGED for each partition of a TICK that reverted, in ascending index order (R174);
`before` is the table before the tick. -/
def Dev.sendReverts (d : Dev) (before : Table) (p : Port) : Dev :=
  d.forEach allIndexes (fun i d =>
    if (Table.entry before i).onTrialOf p && (Table.entry before i).generation != (d.entry i).generation then
      d.sendLiveChanged i
    else d)

/-- R58, R81: a tick applied to the table in memory, with its LIVE_CHANGED events. -/
def Dev.tickInMemory (d : Dev) (p : Port) (n : Nat) : Dev :=
  Dev.sendReverts { d with table := applyChange d.table 0 (.tick p n) } d.table p

/-- The ports whose read right a GRANT changes (R26). -/
def accessChanged (former new : Readers) : List Port :=
  allPorts.filter (fun p => readersHave former p != readersHave new p)

/-- R21, R25, R26, R53, R56, R57: the events a completed change sends, before its ticket's end. `before` is
the table before the change. -/
def Dev.sendChangeEvents (d : Dev) (before : Table) : Change → Dev
  | .define i _ _ _ _ r _ => d.sendTo (readersList r) (partitionEvent .accessChanged i 0)
  | .delete i _ => d.sendTo (readersList (Table.entry before i).readers) (partitionEvent .partRemoved i 0)
  | .grant i _ r => d.sendTo (accessChanged (Table.entry before i).readers r) (partitionEvent .accessChanged i 0)
  | .fix _ _ => d
  | .dropFallback _ _ => d
  | .commit i _ _ _ _ _ => d.sendLiveChanged i
  | .confirm _ _ => d
  | .revert i _ _ => d.sendLiveChanged i
  | .tick p _ => d.sendReverts before p

end Sys2Proof.Machine
end

