-- ==== Sys2Proof/Machine/Tickets.lean ====
section
/-!
DEFINITION. The life of a ticket in its ring: start checks (R123), the kinds that start when they become
startable (R39, R119, R122), and what happens at a ticket's end (R127, R134).
-/

namespace Sys2Proof.Machine

/-! ## Checks shared by acceptance, start and record formation -/

/-- R108: the kinds that DEGRADED refuses; a PROGRAM only where the entry its index names now is an IMAGE
partition (DEDUCED, notes/assumptions/13.md). -/
def refusedInDegraded (k : TicketKind) (e : Entry) : Bool :=
  match k with
  | .read _ _ _ => false
  | .program _ _ => e.defined && e.kind == .image
  | .erase _ _ => false
  | .claim => true
  | .release => false
  | .commit _ _ _ => true
  | .confirm => true
  | .revert => true
  | .define _ _ _ _ _ => true
  | .delete => true
  | .grant _ => true
  | .fix => true

/-- R30: whether the lock level of the entry blocks the kind. -/
def lockBlocks (k : TicketKind) (e : Entry) : Bool :=
  match k with
  | .read _ _ _ => false
  | .release => e.lock == .fixed
  | .define _ _ _ _ _ => false
  | .program _ _ => e.locked
  | .erase _ _ => e.locked
  | .claim => e.locked
  | .commit _ _ _ => e.locked
  | .confirm => e.locked
  | .revert => e.locked
  | .delete => e.locked
  | .grant _ => e.locked
  | .fix => e.locked

/-- R106 step 4, R123 step 3: the port may use the kind on the entry. -/
def hasRights (p : Port) (k : TicketKind) (e : Entry) : Bool :=
  match k with
  | .read .live _ _ => p == e.owner || readersHave e.readers p
  | .read .staged _ _ => p == e.owner
  | _ => p == e.owner

/-- R55: the partition can be reverted. -/
def Entry.revertible (e : Entry) : Bool := e.claim == .unclaimed && (e.phase == .trial || e.fallback)

/-- R12, R24, R27, R40, R44, R46, R47, R54, R55: the kind's own state condition holds. -/
def stateAllows (k : TicketKind) (e : Entry) : Bool :=
  match k with
  | .read .live _ _ => e.kind == .plain || e.live.isSome
  | .read .staged _ _ => true
  | .program _ _ => e.kind == .plain || e.claim == .opened
  | .erase _ _ => true
  | .claim => e.claim == .unclaimed && e.phase != .trial
  | .release => e.claim == .opened
  | .commit _ _ _ => e.claim == .opened
  | .confirm => e.phase == .trial
  | .revert => e.revertible
  | .define _ _ _ _ _ => true
  | .delete => e.claim == .unclaimed
  | .grant _ => true
  | .fix => e.claim == .unclaimed && e.phase != .trial

/-- R123, steps 2 to 5, of a kind that names an entry: the first check that fails. -/
def entryCheck (t : Table) (p : Port) (k : TicketKind) (i : Nat) (serial : Word32) : Option Result :=
  let e := Table.entry t i
  if !Table.matchesSerial t i serial then some .nopart
  else if !hasRights p k e then some .denied
  else if lockBlocks k e then some .locked
  else if !stateAllows k e then some .badstate
  else none

/-- R19: the start checks of a DEFINE after the phase check. -/
def Dev.defineCheck (d : Dev) (base n : Nat) : Option Result :=
  if Table.meets d.table base n || d.meetsReservation base n then some .overlap
  else if Config.tableSize ≤ Table.definedCount d.table + d.reservations.length then some .tfull
  else none

/-- R123: the start checks of a ticket in their order. -/
def Dev.startCheck (d : Dev) (p : Port) (t : Ticket) : Option Result :=
  if d.phase = .degraded ∧ refusedInDegraded t.kind (d.entry t.target) then some .jdead
  else
    match t.kind with
    | .define k base size _ _ => d.defineCheck base.toNat (footprintOf k size)
    | k => entryCheck d.table p k t.target (t.serial.getD 0)

/-! ## Ticket end -/

/-- R127 item 4, R175: TICKET_END. -/
def ticketEndEvent (t : Ticket) (r : Result) : Event :=
  { kind := .ticketEnd, ticket := t.number, partition := t.index, result := r, generation := 0 }

/-- R127 items 1, 2, 4 and 5, R134: a ticket becomes terminal. A READ that ends DONE or FAILED keeps its
buffer; an orphan is removed with its buffer and without TICKET_END. -/
def Dev.endTicket (d : Dev) (p : Port) (n : Byte) (st : TicketState) (r : Result) : Dev :=
  match d.ticket p n with
  | none => d
  | some t =>
    if t.orphan then (d.giveBufferIf p t.buffer.isSome).removeTicket p n
    else
      let keeps := !t.modifying && st != .cancelled
      let d1 := d.giveBufferIf p (t.buffer.isSome && !keeps)
      let d2 := d1.modifyTicket p n (fun t =>
        { t with state := st, result := r, buffer := if keeps then t.buffer else none })
      if t.notify then d2.send p (ticketEndEvent t r) else d2

/-! ## Starting when startable -/

/-- R68: a request joins the tail of the waiting queue. -/
def Dev.enqueue (d : Dev) (r : Request) : Dev := { d with writer := { d.writer with queue := d.writer.queue ++ [r] } }

/-- R117: a ticket's record request is handed over and the ticket is RUNNING. -/
def Dev.handOver (d : Dev) (p : Port) (n : Byte) (body : RequestBody) : Dev :=
  (d.modifyTicket p n (fun t => { t with state := .running, stage := .recording })).enqueue (.host p n body)

/-- R39, R122: the kinds whose start event is becoming startable; a CLAIM by the fallback of the entry
its index names (DEDUCED, notes/assumptions/13.md). -/
def Dev.startsWhenStartable (d : Dev) (t : Ticket) : Bool :=
  match t.kind with
  | .read _ _ _ => false
  | .program _ _ => false
  | .erase _ _ => false
  | .claim => (d.entry t.target).fallback
  | .release => true
  | .commit _ _ _ => false
  | .confirm => true
  | .revert => true
  | .define _ _ _ _ _ => true
  | .delete => true
  | .grant _ => true
  | .fix => true

/-- R19, R40, R46, R54, R55, R122: the work a ticket begins at its start event once its start checks have
passed, for the kinds whose start event is becoming startable. -/
def Dev.beginWork (d : Dev) (p : Port) (t : Ticket) : Dev :=
  let i := t.target
  let serial := t.serial.getD 0
  match t.kind with
  | .read _ _ _ => d
  | .program _ _ => d
  | .erase _ _ => d
  | .commit _ _ _ => d
  | .claim => (d.setClaim i serial .preparing).handOver p t.number (.dropFallback i serial)
  | .release => (d.setClaim i serial .unclaimed).endTicket p t.number .done .ok
  | .confirm => d.handOver p t.number (.confirm i serial)
  | .revert => d.handOver p t.number (.revert i serial)
  | .delete => d.handOver p t.number (.delete i serial)
  | .grant r => d.handOver p t.number (.grant i serial r)
  | .fix => d.handOver p t.number (.fix i serial)
  | .define k base size r label =>
    let reservation : Reservation := { port := p, base := base.toNat, sectors := footprintOf k size }
    let d1 : Dev := { d with reservations := d.reservations ++ [reservation] }
    match k with
    | .plain => d1.modifyTicket p t.number (fun t => { t with stage := .reserved })
    | .image => d1.handOver p t.number (.define k base size r label)

/-- R122, R123: the start of a ticket whose start event is becoming startable. -/
def Dev.startTicket (d : Dev) (p : Port) (t : Ticket) : Dev :=
  match d.startCheck p t with
  | some r => d.endTicket p t.number .failed r
  | none => d.beginWork p t

/-- R119: the port's oldest live modifying ticket starts if it is startable, waits to start and is of a
kind that starts when startable; at its end the next one may start at the same event. -/
def Dev.wake : Nat → Dev → Port → Dev
  | 0, d, _ => d
  | fuel + 1, d, p =>
    match d.oldestModifying p with
    | some t =>
      if t.state == .queued && t.stage == .waiting && d.startsWhenStartable t then
        Dev.wake fuel (d.startTicket p t) p
      else d
    | none => d

/-- R127 item 6: the ordering rules of the port evaluated. Each start but the last ends its ticket, so a
ring's length bounds their number. -/
def Dev.wakePort (d : Dev) (p : Port) : Dev := Dev.wake ((d.ring p).length + 1) d p

/-- R127: a ticket's end, with the starts it releases: what a ticket so started sends at this event stands before
what a READ sends that the same end released (R174; DESIGN CHOICE, notes/assumptions/23.md). -/
def Dev.finishTicket (d : Dev) (p : Port) (n : Byte) (st : TicketState) (r : Result) : Dev :=
  (d.endTicket p n st r).wakePort p

/-- R43: a CLAIM ends other than DONE, its claim returning to NONE. -/
def Dev.endClaim (d : Dev) (p : Port) (t : Ticket) (st : TicketState) (r : Result) : Dev :=
  (d.setClaim t.target (t.serial.getD 0) .unclaimed).finishTicket p t.number st r

end Sys2Proof.Machine
end

