-- ==== Sys2Proof/Machine/Scheduler.lean ====
section
/-!
DEFINITION. The Scheduler: which operations are ready (R121, R144, R145), the choice among them (R147,
R148), the taking of an operation with its start or lock checks (R149), and where the records of a ticket that
ends at the event that released it stand in its port's event queue (R174).
-/

namespace Sys2Proof.Machine

/-! ## Readiness -/

/-- R12, R121: the absolute sector a READ's page read would resolve to; none where its partition no longer
matches its serial or its LIVE view finds live NONE. -/
def Dev.readSector (d : Dev) (i : Nat) (serial : Word32) (view : View) (offset : Word32) : Option Nat :=
  let e := d.entry i
  let rel := offset.toNat / Config.sectorBytes
  if !Table.matchesSerial d.table i serial then none
  else
    match e.kind, view with
    | .plain, _ => some (e.base.toNat + rel)
    | .image, .staged => some (e.copyBase (spareOf e.live) + rel)
    | .image, .live => e.live.map (fun c => e.copyBase c + rel)

/-- R121: the tick-pending condition holds back the READ; not one whose partition no longer matches (DEDUCED,
notes/assumptions/13.md). -/
def Dev.tickHolds (d : Dev) (p : Port) (i : Nat) (serial : Word32) : Bool :=
  let e := d.entry i
  Table.matchesSerial d.table i serial && e.kind == .image && e.owner == p && (d.port p).tickPending

/-- R121: the sector, if there is one, is not busy. -/
def Dev.notBusy (d : Dev) : Option Nat → Bool
  | some s => !d.busy s
  | none => true

/-- R120: no older live modifying ticket of the ring names the same partition. -/
def aheadOnPartition (ring : List Ticket) (t : Ticket) : Bool :=
  (ring.takeWhile (fun o => o.number != t.number)).any (fun o => o.modifying && o.live && o.index == t.index)

/-- R120, R121: the port's ready READ page read. -/
def Dev.readCandidate (d : Dev) (p : Port) : Option Ticket :=
  match d.oldestRead p with
  | none => none
  | some t =>
    match t.kind with
    | .read view offset _ =>
      let serial := t.serial.getD 0
      if t.state == .queued && !aheadOnPartition (d.ring p) t && !d.tickHolds p t.target serial &&
          d.notBusy (d.readSector t.target serial view offset) then some t
      else none
    | _ => none

/-- R48: the sector of verification page `k` of a COMMIT; none where the partition no longer matches. -/
def Dev.verifySector (d : Dev) (i : Nat) (serial : Word32) (k : Nat) : Option Nat :=
  if Table.matchesSerial d.table i serial then some ((d.entry i).writeBase + k / Config.pagesPerSector) else none

/-- R47, R49, R52, R144: the port's ready verification read. -/
def Dev.verifyCandidate (d : Dev) (p : Port) : Option Ticket :=
  match d.oldestModifying p with
  | none => none
  | some t =>
    match t.kind with
    | .commit _ _ _ =>
      let may := (t.state == .queued && t.stage == .waiting && d.verify.holder.isNone) ||
        (t.state == .running && t.stage == .operating)
      if may && d.notBusy (d.verifySector t.target (t.serial.getD 0) t.progress) then some t else none
    | _ => none

/-- R119, R144: the port's ready page program. -/
def Dev.programCandidate (d : Dev) (p : Port) : Option Ticket :=
  match d.oldestModifying p with
  | none => none
  | some t =>
    match t.kind with
    | .program _ _ => if t.state == .queued then some t else none
    | _ => none

/-- R144: the port's ready sector erase: the first of a startable ERASE or CLAIM, or of a PLAIN DEFINE that
has passed its start checks, or a later one of a running ticket. -/
def Dev.eraseCandidate (d : Dev) (p : Port) : Option Ticket :=
  match d.oldestModifying p with
  | none => none
  | some t =>
    let later := t.state == .running && t.stage == .operating
    match t.kind with
    | .erase _ _ => if t.state == .queued || later then some t else none
    | .claim => if (t.state == .queued && t.stage == .waiting) || later then some t else none
    | .define _ _ _ _ _ => if (t.state == .queued && t.stage == .reserved) || later then some t else none
    | _ => none

/-- R86: a read of Mount Logic is ready. -/
def Dev.mountReads (d : Dev) : Bool :=
  match d.mount.step with
  | .choosing => true
  | .loading => true
  | .replaying => true
  | _ => false

/-- The other half (R2). -/
def otherHalf : JournalHalf → JournalHalf
  | .h0 => .h1
  | .h1 => .h0

/-- R2: the first sector of a half. -/
def halfBase : JournalHalf → Nat
  | .h0 => 0
  | .h1 => 4

/-- R2: the sector and page of a slot of a half. -/
def slotSector (h : JournalHalf) (slot : Nat) : Nat := halfBase h + slot / Config.pagesPerSector
def slotPage (slot : Nat) : Nat := slot % Config.pagesPerSector

/-- R62, R70, R77, R92: the ready record-class program: half, slot, page and requester. -/
def Dev.recordReady (d : Dev) : Option (JournalHalf × Nat × List Byte × Requester) :=
  match d.writer.inHand with
  | some h => some (d.writer.activeHalf, h.slot, d.writer.buffer, .journal)
  | none =>
    match d.writer.fold with
    | .writing _ slot => some (otherHalf d.writer.activeHalf, slot, d.writer.buffer, .journal)
    | _ =>
      match d.mount.step with
      | .formatProgramming slot => some (.h0, slot, d.mount.buffer, .mount)
      | _ => none

/-- R76, R92: the system's ready sector erase: sector and requester. -/
def Dev.systemErase (d : Dev) : Option (Nat × Requester) :=
  match d.writer.fold with
  | .erasing i => some (halfBase (otherHalf d.writer.activeHalf) + i, .journal)
  | _ =>
    match d.mount.step with
    | .formatErasing i => some (i, .mount)
    | _ => none

def Dev.readReady (d : Dev) : Member → Bool
  | .port p => (d.readCandidate p).isSome || (d.verifyCandidate p).isSome
  | .system => d.mountReads

def Dev.programReady (d : Dev) : Member → Bool
  | .port p => (d.programCandidate p).isSome
  | .system => false

def Dev.eraseReady (d : Dev) : Member → Bool
  | .port p => (d.eraseCandidate p).isSome
  | .system => d.systemErase.isSome

/-- R148: the members in cyclic order, starting after the one the pointer names. -/
def memberOrder : Member → List Member
  | .port .p0 => [.port .p1, .port .p2, .system, .port .p0]
  | .port .p1 => [.port .p2, .system, .port .p0, .port .p1]
  | .port .p2 => [.system, .port .p0, .port .p1, .port .p2]
  | .system => [.port .p0, .port .p1, .port .p2, .system]

/-- R153: a record, read or program operation is ready. -/
def Dev.shortReady (d : Dev) : Bool :=
  d.recordReady.isSome || (memberOrder .system).any d.readReady || (memberOrder .system).any d.programReady

/-! ## The choice -/

/-- The action of a choice (R147). -/
inductive Choice
  | record
  | read (m : Member)
  | program (m : Member)
  | resume
  | erase (m : Member)
deriving DecidableEq, Repr

/-- R147, R148. -/
def Dev.choose (d : Dev) : Option Choice :=
  if d.recordReady.isSome then some .record
  else
    match (memberOrder d.engine.readPointer).find? d.readReady with
    | some m => some (.read m)
    | none =>
      match (memberOrder d.engine.programPointer).find? d.programReady with
      | some m => some (.program m)
      | none =>
        if d.engine.parked.isSome then some .resume
        else
          match (memberOrder d.engine.erasePointer).find? d.eraseReady with
          | some m => some (.erase m)
          | none => none

/-! ## Taking an operation -/

def Dev.modifyEngine (d : Dev) (f : Engine → Engine) : Dev := { d with engine := f d.engine }

/-- R117: a ticket's first array operation is issued and the ticket is RUNNING. -/
def Dev.running (d : Dev) (p : Port) (n : Byte) : Dev :=
  d.modifyTicket p n (fun t => { t with state := .running, stage := .operating })

/-- R148: a page read is issued and the read pointer set. -/
def Dev.issueRead (d : Dev) (m : Member) (sector page : Nat) (r : Requester) : Dev :=
  d.modifyEngine (fun e => { e with current := some (.read sector page r 0), readPointer := m })

/-- R148: a page program of the program class is issued. -/
def Dev.issueProgram (d : Dev) (m : Member) (sector page first : Nat) (data : List Byte) (r : Requester) : Dev :=
  d.modifyEngine (fun e => { e with current := some (.program sector page first data r 0), programPointer := m })

/-- R5, R148: a sector erase is issued with a run time of zero. -/
def Dev.issueErase (d : Dev) (m : Member) (sector : Nat) (r : Requester) : Dev :=
  let op : EraseOp :=
    { sector := sector, run := 0, since := 0, suspends := 0, requested := false, asked := 0, requester := r }
  d.modifyEngine (fun e => { e with current := some (.erase op), erasePointer := m })

/-- The page of an offset within its sector (R12). -/
def pageOfOffset (offset : Word32) : Nat := offset.toNat % Config.sectorBytes / Config.pageBytes

/-- R12: the copy a READ resolves to; absent for PLAIN. -/
def Entry.readCopy (e : Entry) (view : View) : Option Copy :=
  match e.kind, view with
  | .plain, _ => none
  | .image, .live => e.live
  | .image, .staged => some (spareOf e.live)

/-- R124, R149: a READ's page read is taken. -/
def Dev.takeRead (d : Dev) (p : Port) (t : Ticket) : Dev :=
  match t.kind with
  | .read view offset _ =>
    match d.startCheck p t with
    | some r => d.finishTicket p t.number .failed r
    | none =>
      let e := d.entry t.target
      let copy := e.readCopy view
      let generation := match e.kind with
        | .plain => none
        | .image => some e.generation
      let sector := (d.readSector t.target (t.serial.getD 0) view offset).getD 0
      let d1 := (d.running p t.number).modifyTicket p t.number (fun t =>
        { t with copyRead := copy, generationRead := generation })
      d1.issueRead (.port p) sector (pageOfOffset offset) (.ticket p t.number)
  | _ => d

/-- R48: verification page `k` of a COMMIT is issued. -/
def Dev.issueVerify (d : Dev) (p : Port) (t : Ticket) : Dev :=
  let sector := (d.entry t.target).writeBase + t.progress / Config.pagesPerSector
  d.issueRead (.port p) sector (t.progress % Config.pagesPerSector) (.verify p t.number)

/-- R47, R149: a COMMIT's verification read is taken; the first is the ticket's start. -/
def Dev.takeVerify (d : Dev) (p : Port) (t : Ticket) : Dev :=
  if t.state == .queued then
    match d.startCheck p t with
    | some r => d.finishTicket p t.number .failed r
    | none =>
      let d1 := (d.setClaim t.target (t.serial.getD 0) .verifying).running p t.number
      let d2 : Dev := { d1 with verify := { d1.verify with holder := some (p, t.number), crc := crcStart } }
      d2.issueVerify p t
  else d.issueVerify p t

/-- R125, R149: a PROGRAM's page program is taken. -/
def Dev.takeProgram (d : Dev) (p : Port) (t : Ticket) : Dev :=
  match t.kind with
  | .program offset length =>
    match d.startCheck p t with
    | some r => d.finishTicket p t.number .failed r
    | none =>
      let sector := (d.entry t.target).writeBase + offset.toNat / Config.sectorBytes
      let data := (t.buffer.getD []).take length.toNat
      (d.running p t.number).issueProgram (.port p) sector (pageOfOffset offset)
        (offset.toNat % Config.pageBytes) data (.ticket p t.number)
  | _ => d

/-- R126, R149: a sector erase of an ERASE is taken, with the start checks for the first and the lock check
for a later one. -/
def Dev.takeEraseOfErase (d : Dev) (p : Port) (t : Ticket) (first : Half16) : Dev :=
  let sector := (d.entry t.target).base.toNat + first.toNat + t.progress
  if t.state == .queued then
    match d.startCheck p t with
    | some r => d.finishTicket p t.number .failed r
    | none => (d.running p t.number).issueErase (.port p) sector (.ticket p t.number)
  else if (d.entry t.target).locked then d.finishTicket p t.number .failed .locked
  else d.issueErase (.port p) sector (.ticket p t.number)

/-- R40, R42, R149: a spare erase of a CLAIM is taken. -/
def Dev.takeEraseOfClaim (d : Dev) (p : Port) (t : Ticket) : Dev :=
  let sector := (d.entry t.target).writeBase + t.progress
  if t.state == .queued then
    match d.startCheck p t with
    | some r => d.finishTicket p t.number .failed r
    | none =>
      if (d.entry t.target).fallback then d.beginWork p t
      else
        ((d.setClaim t.target (t.serial.getD 0) .preparing).running p t.number).issueErase (.port p) sector
          (.ticket p t.number)
  else if (d.entry t.target).locked then d.endClaim p t .failed .locked
  else d.issueErase (.port p) sector (.ticket p t.number)

/-- R20, R122, R149: a scrub erase of a PLAIN DEFINE is taken; at the first the phase is looked at. -/
def Dev.takeScrub (d : Dev) (p : Port) (t : Ticket) (base : Half16) : Dev :=
  let sector := base.toNat + t.progress
  if t.state == .queued then
    if d.phase = .degraded then (d.dropReservation p).finishTicket p t.number .failed .jdead
    else (d.running p t.number).issueErase (.port p) sector (.ticket p t.number)
  else d.issueErase (.port p) sector (.ticket p t.number)

def Dev.takePortErase (d : Dev) (p : Port) (t : Ticket) : Dev :=
  match t.kind with
  | .erase first _ => d.takeEraseOfErase p t first
  | .claim => d.takeEraseOfClaim p t
  | .define _ base _ _ _ => d.takeScrub p t base
  | _ => d

/-- R157: the parked erase becomes current, its run time since resumption zero. -/
def Dev.resumeErase (d : Dev) : Dev :=
  match d.engine.parked with
  | none => d
  | some e =>
    let op : EraseOp :=
      { sector := e.sector, run := e.run, since := 0, suspends := e.suspends, requested := false, asked := 0,
        requester := e.requester }
    d.modifyEngine (fun g => { g with current := some (.erase op), parked := none })

/-- R145, R147, R149: the action of a choice is taken. A port's READ goes before its verification read. -/
def Dev.perform (d : Dev) : Choice → Dev
  | .record =>
    match d.recordReady with
    | some (h, slot, page, r) =>
      d.modifyEngine (fun e =>
        { e with current := some (.program (slotSector h slot) (slotPage slot) 0 page r 0) })
    | none => d
  | .read .system => d.issueRead .system (slotSector d.mount.half d.mount.slot) (slotPage d.mount.slot) .mount
  | .read (.port p) =>
    match d.readCandidate p with
    | some t => d.takeRead p t
    | none =>
      match d.verifyCandidate p with
      | some t => d.takeVerify p t
      | none => d
  | .program (.port p) =>
    match d.programCandidate p with
    | some t => d.takeProgram p t
    | none => d
  | .program .system => d
  | .resume => d.resumeErase
  | .erase .system =>
    match d.systemErase with
    | some (s, r) => d.issueErase .system s r
    | none => d
  | .erase (.port p) =>
    match d.eraseCandidate p with
    | some t => d.takePortErase p t
    | none => d

/-! ## Tickets released at the present event (R174) -/

/-- R119, R120: the ordering rules let the ticket of a port start. -/
def Dev.startable (d : Dev) (p : Port) (t : Ticket) : Bool :=
  let oldest := if t.modifying then d.oldestModifying p else d.oldestRead p
  oldest.any (fun u => u.number == t.number) && (t.modifying || !aheadOnPartition (d.ring p) t)

/-- R174: a ticket that an end of the present event released. `place` is the place in its port's event queue that
its own records take if it ends at this event. `line` is the chain of ends, each releasing the next, that led to
its release, oldest first: each end by its turn, 0 where it fell before the Scheduler's choices of the event and
n at the n-th choice. -/
structure Released where
  port : Port
  number : Byte
  place : Nat
  line : List Nat
deriving DecidableEq, Repr

/-- R119, R120: while `u`, older in the ring, is live, `t` is not startable. -/
def Ticket.holdsBack (u t : Ticket) : Bool :=
  if t.modifying then u.modifying else !u.modifying || u.index == t.index

/-- The tickets of a port older than `t` that have ended since `former`, in the order of their ends: at most one
chain of modifying tickets, or one READ, ends at once. -/
def Dev.endedSince (former d : Dev) (p : Port) (t : Ticket) : List Ticket :=
  ((former.ring p).takeWhile (fun u => u.number != t.number)).filter
    (fun u => u.live && !(d.ticket p u.number).any Ticket.live)

/-- R174: how many ends since `former` led to the release of `t`: those up to the newest that held it back. -/
def Dev.endsBefore (former d : Dev) (p : Port) (t : Ticket) : Nat :=
  ((Dev.endedSince former d p t).reverse.dropWhile (fun u => !u.holdsBack t)).length

/-- The tickets of a port that the ends of the turn `turn`, which began in `former`, made startable, with their
place; `line` is the line of the first of those ends. A ticket accepted since then is released by no end. -/
def Dev.releasedAt (former d : Dev) (turn : Nat) (p : Port) (place : Nat) (line : List Nat) : List Released :=
  ((d.ring p).filter (fun t =>
      t.live && d.startable p t &&
        (match former.ticket p t.number with
          | some u => u.live && !former.startable p u
          | none => false))).map
    (fun t =>
      { port := p, number := t.number, place := place,
        line := line ++ List.replicate (Dev.endsBefore former d p t) turn })

/-- The place after the newest record of a port's queue. -/
def Dev.queueEnd (d : Dev) (p : Port) : Nat := (d.port p).events.records.length

/-- The tickets of every port that the ends of a turn made startable, with the place and the line that `place`
and `line` give. -/
def Dev.releasedSince (former d : Dev) (turn : Nat) (place : Port → Nat) (line : Port → List Nat) : List Released :=
  allPorts.flatMap (fun p => Dev.releasedAt former d turn p (place p) (line p))

/-- R174: the tickets of every port that the ends of a turn made startable, where no end of this event had released
the first ticket to end: their records take their place behind all that has been sent. -/
def Dev.releasedLast (former d : Dev) (turn : Nat) : List Released :=
  Dev.releasedSince former d turn d.queueEnd (fun _ => [])

/-- The ticket whose operation a choice takes. -/
def Dev.choiceTicket (d : Dev) : Choice → Option (Port × Byte)
  | .record => none
  | .resume => none
  | .read .system => none
  | .program .system => none
  | .erase .system => none
  | .read (.port p) =>
    match d.readCandidate p with
    | some t => some (p, t.number)
    | none => (d.verifyCandidate p).map (fun t => (p, t.number))
  | .program (.port p) => (d.programCandidate p).map (fun t => (p, t.number))
  | .erase (.port p) => (d.eraseCandidate p).map (fun t => (p, t.number))

/-- R174, R176: the records of `sent` enter the queue at `place`, before those sent later at the same event; what
no longer has room is discarded. -/
def EventQueue.insert (q : EventQueue) (place : Nat) (sent : EventQueue) : EventQueue :=
  let records := q.records.take place ++ sent.records ++ q.records.drop place
  let full := sent.lost || decide (Config.eventQueueSize < records.length)
  { records := records.take Config.eventQueueSize, lost := q.lost || full, discarded := q.discarded || full }

def Dev.setEvents (d : Dev) (p : Port) (q : EventQueue) : Dev := d.modifyPort p (fun s => { s with events := q })

/-- R174: the end of `r` at the turn `turn` comes before what `x` may still send. The ends of an event stand in the
order of a tree: each is followed by all that it released, and those that one end released stand in the order of
their turns, as do those that none released. -/
def Released.before (r x : Released) (turn : Nat) : Bool := decide (r.line ++ [turn] < x.line ++ [turn + 1])

/-- R174: the end of `r` sends `count` records at the turn `turn`: a ticket of its port whose place is after that of
`r`, or is the same but after it in the order of the ends, has its place after them. -/
def Released.after (x r : Released) (turn count : Nat) : Released :=
  if x.port == r.port && (decide (r.place < x.place) || (x.place == r.place && r.before x turn)) then
    { x with place := x.place + count }
  else x

/-- R174: what `act` does, with the records it sends to the port of `r` entering that port's queue at the place
of `r`, and the tickets then released. Of two tickets that one end released, the one that ends first stands
first, with all that its own end released (DESIGN CHOICE, notes/assumptions/23.md). -/
def Dev.inPlace (d : Dev) (act : Dev → Dev) (turn : Nat) (r : Released) (released : List Released) :
    Dev × List Released :=
  let p := r.port
  let d1 := act (d.setEvents p .empty)
  let sent := (d1.port p).events
  let count := sent.records.length
  (d1.setEvents p ((d.port p).events.insert r.place sent),
    released.map (fun x => x.after r turn count) ++
      Dev.releasedSince d d1 turn (fun q => if q = p then r.place + count else d1.queueEnd q)
        (fun q => if q = p then r.line else []))

/-- R149, R174: a choice is taken and `after` follows; the state, and the tickets released at this event. -/
def Dev.takeChoice (after : Dev → Dev) (turn : Nat) (released : List Released) (d : Dev) (c : Choice) :
    Dev × List Released :=
  let act := fun (x : Dev) => after (x.perform c)
  let place := match d.choiceTicket c with
    | some (p, n) => released.find? (fun r => r.port == p && r.number == n)
    | none => none
  match place with
  | some r => d.inPlace act turn r released
  | none => (act d, released ++ Dev.releasedLast d (act d) turn)

/-- R146, R149: choices are made until the engine has a current operation or nothing is left to take. A
taken operation that is not issued ends its ticket, whose end may hand over or release other work; `after`
follows each choice, and `turn` numbers it. -/
def Dev.choices (after : Dev → Dev) : Nat → Nat → List Released → Dev → Dev
  | 0, _, _, d => d
  | fuel + 1, turn, released, d =>
    if d.engine.current.isSome then d
    else
      match d.choose with
      | none => d
      | some c =>
        let x := Dev.takeChoice after turn released d c
        Dev.choices after fuel (turn + 1) x.2 x.1

/-- A bound on the choices of one event: each that issues nothing ends a ticket. -/
def Dev.scheduleFuel (d : Dev) : Nat :=
  (d.ring .p0).length + (d.ring .p1).length + (d.ring .p2).length + 1

end Sys2Proof.Machine
end

