-- ==== Sys2Proof/Machine/Journal.lean ====
section
/-!
DEFINITION. The Journal Writer: taking, validating and forming requests (R69, R70), the completion and
failure of a record (R71, R72), the fold (R75–R79) and the DEAD journal (R80).
-/

namespace Sys2Proof.Machine

def Dev.modifyWriter (d : Dev) (f : Writer → Writer) : Dev := { d with writer := f d.writer }

/-- R171: the port's tick-pending flag. -/
def Dev.setTick (d : Dev) (p : Port) (b : Bool) : Dev := d.modifyPort p (fun s => { s with tickPending := b })

/-- R171: a tick request of the port has finished; the flag clears unless another waits. -/
def Dev.finishTick (d : Dev) (p : Port) : Dev := if d.writer.tickWaiting p then d else d.setTick p false

/-- R64: the sequence after `q`, or none when it would exceed 0xFFFFFFFF. -/
def nextSequenceAfter (q : Word32) : Option Word32 := if q = 0xFFFFFFFF#32 then none else some (q + 1)

/-! ## A request that fails -/

/-- R22, R41, R51, R70, R80: a host request fails with a code. A DEFINE's reservation goes, a CLAIM's claim
returns to NONE, a COMMIT's to OPEN, or to NONE for an orphan. -/
def Dev.failRequest (d : Dev) (p : Port) (n : Byte) (body : RequestBody) (r : Result) : Dev :=
  let orphan := match d.ticket p n with
    | some t => t.orphan
    | none => false
  let d1 := match body with
    | .define _ _ _ _ _ => d.dropReservation p
    | .dropFallback i s => d.setClaim i s .unclaimed
    | .commit i s _ _ _ _ => d.setClaim i s (if orphan then .unclaimed else .opened)
    | .delete _ _ => d
    | .grant _ _ _ => d
    | .fix _ _ => d
    | .confirm _ _ => d
    | .revert _ _ => d
  d1.finishTicket p n .failed r

/-- R80: the journal becomes DEAD and the device DEGRADED. PHASE_CHANGED goes out first, then the host
requests fail in the order they stand (the one in hand first), then the ticks are applied in memory. Where the
engine is idle the Scheduler then takes what is ready, so that a ticket that one of these ends released and that
ends now has its TICKET_END before the LIVE_CHANGED records of the ticks (R174; DEDUCED,
notes/assumptions/14.md). Where several ticks are applied their LIVE_CHANGED records go out tick by tick in arrival
order (R80), in ascending index order within each tick only, although R174 orders the records of one kind at one
event by index (DESIGN CHOICE, notes/assumptions/14.md). -/
def Dev.journalDead (d : Dev) : Dev :=
  let w := d.writer
  let requests := (match w.inHand with
    | some h => [h.request]
    | none => []) ++ w.queue
  let d1 : Dev := { d with
    phase := .degraded
    writer := { w with condition := .dead, queue := [], inHand := none, fold := .idle, foldFailures := 0,
                       holdFormation := false } }
  let d2 := d1.sendTo allPorts (phaseEvent .jdead)
  let d3 := d2.forEach requests (fun r d =>
    match r with
    | .host p n body => d.failRequest p n body .jdead
    | .tick _ _ => d)
  let d4 := d3.forEach requests (fun r d =>
    match r with
    | .host _ _ _ => d
    | .tick p n => (d.tickInMemory p n).setTick p false)
  Dev.choices id d4.scheduleFuel 1 (Dev.releasedLast d2 d3 0) d4

/-! ## Taking and forming requests -/

/-- R23, R70: validation of a host request against the table as it stands: the change its record will
carry, or the code of the failed check. -/
def Dev.validate (d : Dev) (p : Port) : RequestBody → Except Result Change
  | .define k base size r label =>
    if Table.meets d.table base.toNat (footprintOf k size) then .error .overlap
    else
      match Table.lowestFree d.table with
      | none => .error .tfull
      | some i => .ok (.define i k p base size r label)
  | .delete i s =>
    match entryCheck d.table p .delete i s with
    | some r => .error r
    | none => .ok (.delete i s)
  | .grant i s r =>
    match entryCheck d.table p (.grant r) i s with
    | some r => .error r
    | none => .ok (.grant i s r)
  | .fix i s =>
    match entryCheck d.table p .fix i s with
    | some r => .error r
    | none => .ok (.fix i s)
  | .dropFallback i s =>
    if !Table.matchesSerial d.table i s then .error .nopart
    else if (d.entry i).locked then .error .locked
    else .ok (.dropFallback i s)
  | .commit i s c l k b =>
    if !Table.matchesSerial d.table i s then .error .nopart else .ok (.commit i s c l k b)
  | .confirm i s =>
    if !Table.matchesSerial d.table i s then .error .nopart
    else if (d.entry i).locked then .error .locked
    else if (d.entry i).phase != .trial then .error .badstate
    else .ok (.confirm i s)
  | .revert i s =>
    if !Table.matchesSerial d.table i s then .error .nopart
    else if (d.entry i).locked then .error .locked
    else if !(d.entry i).revertible then .error .badstate
    else .ok (.revert i s ((d.entry i).phase != .trial))

/-- R69: the oldest waiting request that meets its headroom condition, and the queue without it. -/
def pickRequest (free : Nat) : List Request → Option (Request × List Request)
  | [] => none
  | r :: rs =>
    if r.hasHeadroom free then some (r, rs)
    else
      match pickRequest free rs with
      | some (q, rest) => some (q, r :: rest)
      | none => none

/-- R64, R70: a change record is formed from a request that has passed; `rest` is the queue without it. A
formation that would need a sequence above 0xFFFFFFFF makes the journal DEAD. -/
def Dev.formRecord (d : Dev) (r : Request) (rest : List Request) (c : Change) : Dev :=
  match d.writer.nextSequence with
  | none => d.journalDead
  | some q =>
    let h : InHand := { change := c, slot := d.writer.nextSlot, sequence := q, retryOf := none, request := r }
    d.modifyWriter (fun w =>
      { w with queue := rest, inHand := some h, nextSequence := nextSequenceAfter q, buffer := changePage q none c })

/-- R70: the taken request is dropped, fails, or is formed. -/
def Dev.takeOne (d : Dev) (r : Request) (rest : List Request) : Dev :=
  match r with
  | .tick p n =>
    if Table.hasTrial d.table p then d.formRecord r rest (.tick p n)
    else (d.modifyWriter (fun w => { w with queue := rest })).finishTick p
  | .host p n body =>
    match d.validate p body with
    | .ok c => d.formRecord r rest c
    | .error e => (d.modifyWriter (fun w => { w with queue := rest })).failRequest p n body e

/-- R69: requests are taken while the conditions hold. -/
def Dev.takeRequests : Nat → Dev → Dev
  | 0, d => d
  | fuel + 1, d =>
    if d.mayForm then
      match pickRequest d.writer.freeSlots d.writer.queue with
      | none => d
      | some (r, rest) => Dev.takeRequests fuel (d.takeOne r rest)
    else d

/-- A bound on the requests one event can take: those waiting and one for each ticket of a ring. -/
def Dev.requestFuel (d : Dev) : Nat :=
  d.writer.queue.length + ((d.ring .p0).length + (d.ring .p1).length + (d.ring .p2).length) + 1

def Dev.takeAll (d : Dev) : Dev := Dev.takeRequests d.requestFuel d

/-! ## The fold -/

/-- R75: a fold begins when the state is IDLE, the journal GOOD and 12 or fewer slots are free. -/
def Dev.beginFold (d : Dev) : Dev :=
  if d.writer.fold = .idle ∧ d.writer.condition = .good ∧ d.writer.freeSlots ≤ Config.foldThreshold then
    d.modifyWriter (fun w => { w with fold := .erasing 0, foldFailures := 0 })
  else d

/-- R66: what a checkpoint captures of the table. -/
def Table.persistent (t : Table) : Table := t.map (fun e => { e with held := false, claim := .unclaimed })

/-- R77: checkpoint record `slot` of the capture is formed. -/
def Dev.formCheckpoint (d : Dev) (capture : Table) (slot : Nat) : Dev :=
  match d.writer.nextSequence with
  | none => d.journalDead
  | some q =>
    d.modifyWriter (fun w =>
      { w with fold := .writing capture slot, nextSequence := nextSequenceAfter q,
               buffer := checkpointPage q capture slot })

/-- R77: phase 2 begins. -/
def Dev.beginWriting (d : Dev) : Dev := d.formCheckpoint (Table.persistent d.table) 0

/-- R77: a checkpoint record completes with success; the fifth switches the active half. -/
def Dev.checkpointDone (d : Dev) (capture : Table) (slot : Nat) : Dev :=
  if slot < 4 then d.formCheckpoint capture (slot + 1)
  else
    d.modifyWriter (fun w =>
      { w with activeHalf := otherHalf w.activeHalf, nextSlot := Config.firstChangeSlot, fold := .idle,
               foldFailures := 0 })

/-- R79: a fold failure; `checkpoint` says that a checkpoint record failed. -/
def Dev.foldFailed (d : Dev) (checkpoint : Bool) : Dev :=
  if d.writer.foldFailures = 0 then
    d.modifyWriter (fun w =>
      { w with fold := .erasing 0, foldFailures := 1, holdFormation := w.holdFormation || checkpoint })
  else d.journalDead

/-- R76, R79: the fold's erase of sector `i` of the other half completes with success. -/
def Dev.foldErased (d : Dev) (i : Nat) : Dev :=
  let d1 := if i = 0 then d.modifyWriter (fun w => { w with holdFormation := false }) else d
  if i < 3 then d1.modifyWriter (fun w => { w with fold := .erasing (i + 1) })
  else if d1.writer.inHand.isSome then d1.modifyWriter (fun w => { w with fold := .awaiting })
  else d1.beginWriting

/-- R76: a fold erase completes; after the DEAD event its verdict is discarded (R80). -/
def Dev.foldEraseDone (d : Dev) (ok : Bool) : Dev :=
  match d.writer.fold with
  | .erasing i => if ok then d.foldErased i else d.foldFailed false
  | _ => d

/-! ## The record in hand completes -/

/-- R41: the boundary of a CLAIM at the completion of its DROP_FALLBACK record. -/
def Dev.dropBoundary (d : Dev) (p : Port) (t : Ticket) : Dev :=
  if t.cancelRequested then d.endClaim p t .cancelled .cancelled
  else if t.orphan then d.endClaim p t .done .ok
  else if (d.entry t.target).locked then d.endClaim p t .failed .locked
  else if d.phase = .degraded then d.endClaim p t .failed .jdead
  else d.modifyTicket p t.number (fun t => { t with stage := .operating })

/-- R71 item 4: the requester's end. -/
def Dev.requesterDone (d : Dev) (h : InHand) : Dev :=
  match h.request with
  | .tick p _ => d.finishTick p
  | .host p n body =>
    match body with
    | .define _ _ _ _ _ =>
      let d1 := d.dropReservation p
      let d2 := match h.change with
        | .define i _ _ _ _ _ _ =>
          d1.modifyTicket p n (fun t => { t with index := some i, serial := some h.sequence })
        | _ => d1
      d2.finishTicket p n .done .ok
    | .dropFallback _ _ =>
      match d.ticket p n with
      | some t => d.dropBoundary p t
      | none => d
    | _ => d.finishTicket p n .done .ok

/-- R71 items 6 and 7: a fold begins, or its phase 2. -/
def Dev.afterRecord (d : Dev) : Dev :=
  match d.writer.fold with
  | .awaiting => d.beginWriting
  | _ => d.beginFold

/-- R71: the program of the record in hand completes with success. -/
def Dev.recordDone (d : Dev) (h : InHand) : Dev :=
  let d1 := d.modifyWriter (fun w => { w with nextSlot := h.slot + 1 })
  let d2 : Dev := { d1 with table := applyChange d1.table h.sequence h.change }
  let d3 := d2.sendChangeEvents d.table h.change
  let d4 := d3.requesterDone h
  (d4.modifyWriter (fun w => { w with inHand := none })).afterRecord

/-- R72: the program of the record in hand completes with failure: its slot is spoiled and the record is
formed again in the next slot, or the journal becomes DEAD. -/
def Dev.recordFailed (d : Dev) (h : InHand) : Dev :=
  if h.retryOf.isNone ∧ h.slot < 63 then
    let d1 := d.modifyWriter (fun w => { w with nextSlot := h.slot + 1 })
    match d1.writer.nextSequence with
    | none => d1.journalDead
    | some q =>
      let h2 : InHand := { h with slot := h.slot + 1, sequence := q, retryOf := some h.sequence }
      (d1.modifyWriter (fun w =>
        { w with inHand := some h2, nextSequence := nextSequenceAfter q,
                 buffer := changePage q (some h.sequence) h.change })).beginFold
  else d.journalDead

/-- R151: a program of the Journal Writer completes: the record in hand, or a checkpoint record. -/
def Dev.journalProgramDone (d : Dev) (ok : Bool) : Dev :=
  match d.writer.inHand, d.writer.fold with
  | some h, _ => if ok then d.recordDone h else d.recordFailed h
  | none, .writing capture slot => if ok then d.checkpointDone capture slot else d.foldFailed true
  | none, _ => d

end Sys2Proof.Machine
end

