-- ==== Sys2Proof/Machine/Settle.lean ====
section
/-!
DEFINITION. How an event ends: the requests the Journal Writer takes (R69), the Scheduler's choices (R146, R152),
the suspension of an erase (R153) and the lease's expiry (R165, R166). `Dev.settle` is what every event that
can make an operation ready ends with.
-/

namespace Sys2Proof.Machine

/-- R146, R152: the Scheduler's choices at the end of an event, with the requests that each one hands over. -/
def Dev.schedule (former d : Dev) : Dev :=
  Dev.choices Dev.takeAll d.scheduleFuel 1 (Dev.releasedLast former d 0) d

/-- R153: the conditions of a suspension request. -/
def Dev.wantsSuspension (d : Dev) (e : EraseOp) : Bool :=
  !e.requested && d.shortReady && Config.eraseQuantum ≤ e.since && e.suspends < Config.suspendLimit

/-- R153: the suspension of the current erase is requested at the first event at which all conditions hold. -/
def Dev.requestSuspension (d : Dev) : Dev :=
  match d.engine.current with
  | some (.erase e) =>
    if d.wantsSuspension e then
      d.modifyEngine (fun g => { g with current := some (.erase { e with requested := true, asked := 0 }) })
    else d
  | _ => d

/-- R166: the claims of a port released and LEASE_LOST sent for each, in ascending index order. -/
def Dev.expireLease (d : Dev) (p : Port) : Dev :=
  let d1 := d.modifyPort p (fun s => { s with leaseTime := 0 })
  d1.forEach allIndexes (fun i d =>
    let e := d.entry i
    if e.defined && e.owner == p && e.claim != .unclaimed then
      (d.setEntry i { e with claim := .unclaimed }).send p (partitionEvent .leaseLost i 0)
    else d)

/-- R166: a timer that runs with no time remaining expires. Looked at once, at the end of an event (DEDUCED,
notes/assumptions/12.md). -/
def Dev.checkLease (d : Dev) (p : Port) : Dev :=
  if d.leaseRuns p && (d.port p).leaseTime == 0 then d.expireLease p else d

def Dev.checkLeases (d : Dev) : Dev := d.forEach allPorts (fun p d => d.checkLease p)

/-- R69, R146, R152, R153, R166: how an event ends that began in `former`: requests are taken, the Scheduler
chooses, a suspension is requested if one is due, and a lease with no time left expires if its timer now runs
(DEDUCED, notes/assumptions/12.md). -/
def Dev.settle (former d : Dev) : Dev := (Dev.schedule former d.takeAll).requestSuspension.checkLeases

end Sys2Proof.Machine
end

