-- ==== Sys2Proof/Machine/Mounting.lean ====
section
/-!
DEFINITION. Mount Logic: CHOOSING (R87), LOADING (R88), REPLAYING (R89, R90), the Journal Writer's recovered
position (R91), FORMATTING (R92, R93) and the end of a mount (R96).
-/

namespace Sys2Proof.Machine

def Dev.modifyMount (d : Dev) (f : Mount → Mount) : Dev := { d with mount := f d.mount }

/-- The greater of two sequences (R86). -/
def laterSequence (a b : Word32) : Word32 := if a.toNat < b.toNat then b else a

/-! ## End of a mount -/

/-- R96: a mount ends SERVING. -/
def Dev.mountServing (d : Dev) : Dev :=
  let d1 : Dev := { d with phase := .serving, mount := { d.mount with step := .idle } }
  (d1.sendTo allPorts (phaseEvent .ok)).beginFold

/-- R93, R97: a mount ends DEGRADED after a failed formatting. -/
def Dev.mountDegraded (d : Dev) : Dev :=
  let d1 : Dev := { d with
    table := .empty
    writer := { d.writer with activeHalf := .h0, nextSlot := 64, nextSequence := some 6 }
    mount := { d.mount with step := .idle } }
  d1.journalDead

/-! ## Formatting -/

/-- R92: FORMATTING begins. -/
def Dev.beginFormatting (d : Dev) : Dev :=
  { d with formatted := true, mount := { d.mount with step := .formatErasing 0 } }

/-- R92: the checkpoint program of slot `slot` becomes ready, its record formed in Mount Logic's buffer. -/
def Dev.formFormatting (d : Dev) (slot : Nat) : Dev :=
  d.modifyMount (fun m =>
    { m with step := .formatProgramming slot
             buffer := checkpointPage (BitVec.ofNat 32 (slot + 1)) Table.empty slot })

/-- R92, R93: a formatting erase completes. -/
def Dev.formatEraseDone (d : Dev) (ok : Bool) : Dev :=
  match d.mount.step with
  | .formatErasing i =>
    if !ok then d.mountDegraded
    else if i < 3 then d.modifyMount (fun m => { m with step := .formatErasing (i + 1) })
    else d.formFormatting 0
  | _ => d

/-- R92, R93: a formatting program completes; the fifth ends the mount SERVING. -/
def Dev.formatProgramDone (d : Dev) (ok : Bool) : Dev :=
  match d.mount.step with
  | .formatProgramming slot =>
    if !ok then d.mountDegraded
    else if slot < 4 then d.formFormatting (slot + 1)
    else
      let d1 : Dev := { d with
        table := .empty
        writer := { d.writer with activeHalf := .h0, nextSlot := Config.firstChangeSlot, nextSequence := some 6 }
        mount := { d.mount with lastApplied := 5 } }
      d1.mountServing
  | _ => d

/-! ## Choosing -/

/-- R87: no two defined entries have footprints that share a sector. -/
def footprintsDisjoint : List Entry → Bool
  | [] => true
  | e :: es =>
    (!e.defined || es.all (fun f => !f.defined || !runsMeet e.base.toNat e.footprint f.base.toNat f.footprint)) &&
      footprintsDisjoint es

/-- R87: what slot `slot` (0–4) of a half adds to the scan of that half. -/
def scanSlot (s : Scan) (slot : Nat) (c : PageClass) (page : List Byte) : Scan :=
  match c with
  | .valid q k =>
    if slot = 0 then { good := k == headKind, head := q, entries := [] }
    else
      match bodyEntries page with
      | some es =>
        { s with good := s.good && k == bodyKind && q.toNat == s.head.toNat + slot, entries := s.entries ++ es }
      | none => { s with good := false }
  | _ => { s with good := false }

/-- R87: the head sequence of a half whose five slots make its candidate valid. -/
def Scan.candidate (s : Scan) : Option Word32 :=
  if s.good && footprintsDisjoint s.entries then some s.head else none

/-- R87: the half taken, with its head sequence. -/
def chooseHalf : Option Word32 → Option Word32 → Option (JournalHalf × Word32)
  | some q0, some q1 => if q0.toNat < q1.toNat then some (.h1, q1) else some (.h0, q0)
  | some q0, none => some (.h0, q0)
  | none, some q1 => some (.h1, q1)
  | none, none => none

/-- R87: the decision at the completion of the tenth read, by what the pages hold: a half whose fifth checkpoint
program was cut off or failed is taken where it reads as a valid checkpoint with the higher head, beside R82's
row of phase 2 and R94's second row (DEDUCED, notes/assumptions/22.md). -/
def Dev.decideHalf (d : Dev) : Dev :=
  match chooseHalf d.mount.candidate0 d.mount.candidate1 with
  | none => d.beginFormatting
  | some (h, _) => d.modifyMount (fun m => { m with step := .loading, half := h, slot := 1, chosen := some h })

/-- R87: a read of CHOOSING completes. A half is judged by its content alone, whatever operation left it there
(R11; beside R82 and R94: DEDUCED, notes/assumptions/22.md). -/
def Dev.choosingRead (d : Dev) (c : PageClass) (page : List Byte) : Dev :=
  let m := d.mount
  let scan := scanSlot m.scan m.slot c page
  let d1 := d.modifyMount (fun m => { m with scan := scan })
  if m.slot < 4 then d1.modifyMount (fun m => { m with slot := m.slot + 1 })
  else
    match m.half with
    | .h0 => d1.modifyMount (fun m => { m with candidate0 := scan.candidate, half := .h1, slot := 0 })
    | .h1 => (d1.modifyMount (fun m => { m with candidate1 := scan.candidate })).decideHalf

/-! ## Loading -/

/-- R88: the entries of a checkpoint body written into the table from index `i` on. -/
def loadEntries (t : Table) (i : Nat) : List Entry → Table
  | [] => t
  | e :: es => loadEntries (Table.setEntry t i e) (i + 1) es

/-- R87, R88: the head sequence of the chosen half. -/
def Mount.chosenHead (m : Mount) : Word32 :=
  match m.chosen with
  | some .h0 => m.candidate0.getD 0
  | some .h1 => m.candidate1.getD 0
  | none => 0

/-- R88: a read of LOADING completes. -/
def Dev.loadingRead (d : Dev) (page : List Byte) : Dev :=
  let m := d.mount
  let d1 : Dev := { d with table := loadEntries d.table (6 * (m.slot - 1)) ((bodyEntries page).getD []) }
  if m.slot < 4 then d1.modifyMount (fun m => { m with slot := m.slot + 1 })
  else
    d1.modifyMount (fun m =>
      { m with step := .replaying, slot := Config.firstChangeSlot, lastApplied := m.chosenHead + 4 })

/-! ## Replaying -/

/-- R90: the checks of a record against the table as it stands. -/
def replayable (t : Table) (aliases : List (Nat × Word32)) : Change → Bool
  | .define i k _ base size _ _ =>
    !(Table.entry t i).defined && Config.firstAllocatable ≤ base.toNat &&
      base.toNat + footprintOf k size ≤ Config.sectorCount && !Table.meets t base.toNat (footprintOf k size)
  | .tick _ n => 1 ≤ n && n ≤ Config.maxTickSteps
  | .delete i s => named i s
  | .grant i s _ => named i s
  | .fix i s => named i s
  | .dropFallback i s => named i s
  | .commit i s _ _ _ _ => named i s
  | .confirm i s => named i s
  | .revert i s _ => named i s
where
  /-- R90: the index is defined, and its serial or an alias of it is the one in the body. -/
  named (i : Nat) (s : Word32) : Bool :=
    (Table.entry t i).defined && ((Table.entry t i).serial == s || aliases.contains (i, s))

/-- R89: the alias a skipped DEFINE retry adds. -/
def aliasOf (sequence : Word32) : Change → List (Nat × Word32)
  | .define i _ _ _ _ _ _ => [(i, sequence)]
  | _ => []

/-- R90: a DELETE that is applied removes the aliases of its index. -/
def aliasesAfter (aliases : List (Nat × Word32)) : Change → List (Nat × Word32)
  | .delete i _ => aliases.filter (fun a => a.1 != i)
  | _ => aliases

/-- R89, R90, R182: a valid page in REPLAYING; what pages not formed by the part do is DEDUCED
(notes/assumptions/15.md). Section 5.2 gives the alias list at most 24 pairs and no rule says what a 25th does,
which only such pages can bring: the list here keeps every pair (DESIGN CHOICE, notes/assumptions/15.md). -/
def Dev.replayPage (d : Dev) (q : Word32) (k : Byte) (page : List Byte) : Dev :=
  let m := d.mount
  match if isChangeKind k then changeOfPage page else none with
  | none => d
  | some c =>
    if q.toNat ≤ m.lastApplied.toNat then d
    else if retryField page != 0 && retryField page == m.lastApplied then
      d.modifyMount (fun m => { m with aliases := m.aliases ++ aliasOf q c })
    else if replayable d.table m.aliases c then
      { d with table := applyChange d.table q c
               mount := { m with lastApplied := q, aliases := aliasesAfter m.aliases c } }
    else d

/-- R91: the next sequence from the highest seen and the torn count, or exhausted. -/
def recoveredSequence (highest : Word32) (torn : Nat) : Option Word32 :=
  let n := highest.toNat + 1 + torn + Config.sequenceMargin
  if n ≤ 0xFFFFFFFF then some (BitVec.ofNat 32 n) else none

/-- R91, R96: the Journal Writer's position is set and the mount ends. -/
def Dev.endReplay (d : Dev) : Dev :=
  let m := d.mount
  let slot := match m.highestSlot with
    | some s => s + 1
    | none => Config.firstChangeSlot
  let d1 := d.modifyWriter (fun w =>
    { w with activeHalf := m.half, nextSlot := slot,
             nextSequence := recoveredSequence m.highestSequence m.torn })
  d1.mountServing

/-- R89: a read of REPLAYING completes. -/
def Dev.replayingRead (d : Dev) (c : PageClass) (page : List Byte) : Dev :=
  let d1 := match c with
    | .erased => d
    | _ => d.modifyMount (fun m => { m with highestSlot := some m.slot })
  let d2 := match c with
    | .valid q k => d1.replayPage q k page
    | _ => d1
  if d.mount.slot < 63 then d2.modifyMount (fun m => { m with slot := m.slot + 1 }) else d2.endReplay

/-! ## A mount read -/

/-- R86: a valid page raises the highest sequence seen, a torn page adds 1 to the torn count. A page that
LOADING reads again is counted once (DEDUCED, notes/assumptions/16.md). -/
def Dev.countPage (d : Dev) (c : PageClass) : Dev :=
  match c with
  | .erased => d
  | .valid q _ => d.modifyMount (fun m => { m with highestSequence := laterSequence m.highestSequence q })
  | .torn => if d.mount.step = .loading then d else d.modifyMount (fun m => { m with torn := m.torn + 1 })

/-- R86: a read of Mount Logic completes and the page is classified. -/
def Dev.mountReadDone (d : Dev) (page : List Byte) : Dev :=
  let c := classifyPage page
  let d1 := (d.modifyMount (fun m => { m with buffer := page })).countPage c
  match d.mount.step with
  | .choosing => d1.choosingRead c page
  | .loading => d1.loadingRead page
  | .replaying => d1.replayingRead c page
  | _ => d1

end Sys2Proof.Machine
end

