-- ==== Sys2Proof/Machine/Completions.lean ====
section
/-!
DEFINITION. The commands of the array: completion of a page read (R150), of a page program and of a sector
erase (R151), parking (R155) and the expiry of the erase quantum (R153), with the operation boundaries of
the multi-operation kinds (R20, R42, R49, R50, R126).
-/

namespace Sys2Proof.Machine

/-! ## Page read -/

/-- R124, R150: the page read of a READ ticket completes. -/
def Dev.readTicketDone (d : Dev) (p : Port) (n : Byte) (page : List Byte) : Dev :=
  (d.modifyTicket p n (fun t => { t with progress := 1, buffer := t.buffer.map (fun _ => page) })).finishTicket
    p n .done .ok

/-- R48: the bytes of verification page `k` that lie below the length. -/
def verifiedBytes (length : Word32) (k : Nat) (page : List Byte) : List Byte :=
  page.take (length.toNat - k * Config.pageBytes)

/-- R48: the count of page reads of a verification. -/
def verifyPages (length : Word32) : Nat := (length.toNat + (Config.pageBytes - 1)) / Config.pageBytes

/-- R52: the Verify Unit is released. -/
def Dev.releaseVerify (d : Dev) : Dev := { d with verify := { d.verify with holder := none } }

/-- R49: a COMMIT ends at a boundary with its claim at `c` and the Verify Unit released. -/
def Dev.endVerify (d : Dev) (p : Port) (t : Ticket) (c : Claim) (st : TicketState) (r : Result) : Dev :=
  ((d.releaseVerify).setClaim t.target (t.serial.getD 0) c).finishTicket p t.number st r

/-- R50: the final comparison. -/
def Dev.compareCheck (d : Dev) (p : Port) (t : Ticket) (length check : Word32) (budget : BitVec 4) : Dev :=
  if crcFinish d.verify.crc = check then
    let i := t.target
    let serial := t.serial.getD 0
    let copy := spareOf (d.entry i).live
    ((d.releaseVerify).setClaim i serial .committing).handOver p t.number
      (.commit i serial copy length check budget)
  else d.endVerify p t .opened .failed .badcheck

/-- R49: the boundary of a COMMIT at a verification read; `t` is its record with progress counted. -/
def Dev.verifyBoundary (d : Dev) (p : Port) (t : Ticket) (length check : Word32) (budget : BitVec 4) : Dev :=
  if t.orphan then d.endVerify p t .unclaimed .done .ok
  else if t.cancelRequested then d.endVerify p t .opened .cancelled .cancelled
  else if (d.entry t.target).locked then d.endVerify p t .opened .failed .locked
  else if d.phase = .degraded then d.endVerify p t .opened .failed .jdead
  else if t.progress < verifyPages length then d
  else d.compareCheck p t length check budget

/-- R48, R150: a verification read completes. -/
def Dev.verifyReadDone (d : Dev) (p : Port) (n : Byte) (page : List Byte) : Dev :=
  match d.ticket p n with
  | none => d
  | some t =>
    match t.kind with
    | .commit length check budget =>
      let crc := crcAdvance d.verify.crc (verifiedBytes length t.progress page)
      let t1 := { t with progress := t.progress + 1 }
      let d1 : Dev := { d with verify := { d.verify with crc := crc, buffer := page } }
      (d1.modifyTicket p n (fun _ => t1)).verifyBoundary p t1 length check budget
    | _ => d

/-- R150: the data of a page read reaches its requester. -/
def Dev.readDone (d : Dev) (r : Requester) (page : List Byte) : Dev :=
  match r with
  | .ticket p n => d.readTicketDone p n page
  | .verify p n => d.verifyReadDone p n page
  | .journal => d
  | .mount => d.mountReadDone page

/-! ## Page program -/

def verdictOk : Verdict → Bool
  | .success => true
  | .failure _ => false

/-- R125: the page program of a PROGRAM ticket completes. -/
def Dev.programTicketDone (d : Dev) (p : Port) (n : Byte) (ok : Bool) : Dev :=
  if ok then (d.modifyTicket p n (fun t => { t with progress := 1 })).finishTicket p n .done .ok
  else d.finishTicket p n .failed .arrayfail

/-- R151: the verdict of a page program reaches its requester. -/
def Dev.programDone (d : Dev) (r : Requester) (ok : Bool) : Dev :=
  match r with
  | .ticket p n => d.programTicketDone p n ok
  | .verify _ _ => d
  | .journal => d.journalProgramDone ok
  | .mount => d.formatProgramDone ok

/-! ## Sector erase -/

/-- R126: the boundary of an ERASE; `t` is its record with progress counted. -/
def Dev.eraseBoundary (d : Dev) (p : Port) (t : Ticket) (count : Half16) : Dev :=
  if count.toNat ≤ t.progress then d.finishTicket p t.number .done .ok
  else if t.cancelRequested then d.finishTicket p t.number .cancelled .cancelled
  else if t.orphan then d.finishTicket p t.number .done .ok
  else if (d.entry t.target).locked then d.finishTicket p t.number .failed .locked
  else d

/-- R42: the boundary of a CLAIM at a spare erase. -/
def Dev.claimBoundary (d : Dev) (p : Port) (t : Ticket) : Dev :=
  if (d.entry t.target).size.toNat ≤ t.progress then
    let d1 := if t.orphan then d else d.setClaim t.target (t.serial.getD 0) .opened
    d1.finishTicket p t.number .done .ok
  else if t.cancelRequested then d.endClaim p t .cancelled .cancelled
  else if t.orphan then d.endClaim p t .done .ok
  else if (d.entry t.target).locked then d.endClaim p t .failed .locked
  else if d.phase = .degraded then d.endClaim p t .failed .jdead
  else d

/-- R20: the boundary of a PLAIN DEFINE's scrub. -/
def Dev.scrubBoundary (d : Dev) (p : Port) (t : Ticket) (body : RequestBody) (sectors : Nat) : Dev :=
  if t.cancelRequested then (d.dropReservation p).finishTicket p t.number .cancelled .cancelled
  else if t.orphan then (d.dropReservation p).finishTicket p t.number .done .ok
  else if d.phase = .degraded then (d.dropReservation p).finishTicket p t.number .failed .jdead
  else if t.progress < sectors then d
  else d.handOver p t.number body

/-- R20, R42, R126: a sector erase of a ticket completes. -/
def Dev.eraseTicketDone (d : Dev) (p : Port) (n : Byte) (ok : Bool) : Dev :=
  match d.ticket p n with
  | none => d
  | some t =>
    if ok then
      let t1 := { t with progress := t.progress + 1 }
      let d1 := d.modifyTicket p n (fun _ => t1)
      match t.kind with
      | .erase _ count => d1.eraseBoundary p t1 count
      | .claim => d1.claimBoundary p t1
      | .define k base size r label => d1.scrubBoundary p t1 (.define k base size r label) (footprintOf k size)
      | _ => d
    else
      match t.kind with
      | .erase _ _ => d.finishTicket p n .failed .arrayfail
      | .claim => d.endClaim p t .failed .arrayfail
      | .define _ _ _ _ _ => (d.dropReservation p).finishTicket p n .failed .arrayfail
      | _ => d

/-- R151: the verdict of a sector erase reaches its requester. -/
def Dev.eraseDone (d : Dev) (r : Requester) (ok : Bool) : Dev :=
  match r with
  | .ticket p n => d.eraseTicketDone p n ok
  | .verify _ _ => d
  | .journal => d.foldEraseDone ok
  | .mount => d.formatEraseDone ok

/-! ## The commands -/

/-- R150–R152: the current operation becomes absent. -/
def Dev.noCurrent (d : Dev) : Dev := d.modifyEngine (fun e => { e with current := none })

/-- R150: PAGE_READ_COMPLETE. The page holds what the array holds at completion (R4). -/
def execPageReadComplete (s : State) : Host.Outcome State Fault Refusal :=
  match s.dev.engine.current with
  | some (.read sector page r age) =>
    if (Operation.read sector page r age).inArray then
      .next (s.modifyDev (fun d => Dev.settle d (d.noCurrent.readDone r (s.array.readPage sector page))))
    else .fault .outsideArray
  | _ => cannotFall "PAGE_READ_COMPLETE"

/-- R6, R10, R151: PAGE_PROGRAM_COMPLETE. -/
def execPageProgramComplete (v : Verdict) (s : State) : Host.Outcome State Fault Refusal :=
  match s.dev.engine.current with
  | some (.program sector page first data r age) =>
    if (Operation.program sector page first data r age).inArray then
      .next { s with
        array := s.array.programPage sector page first data v
        dev := Dev.settle s.dev (s.dev.noCurrent.programDone r (verdictOk v)) }
    else .fault .outsideArray
  | _ => cannotFall "PAGE_PROGRAM_COMPLETE"

/-- R5, R10, R151: SECTOR_ERASE_COMPLETE. An erase completes only while it is current. -/
def execSectorEraseComplete (v : Verdict) (s : State) : Host.Outcome State Fault Refusal :=
  match s.dev.engine.current with
  | some (.erase e) =>
    if (Operation.erase e).inArray then
      .next { s with
        array := s.array.eraseSector e.sector v
        dev := Dev.settle s.dev (s.dev.noCurrent.eraseDone e.requester (verdictOk v)) }
    else .fault .outsideArray
  | _ => cannotFall "SECTOR_ERASE_COMPLETE"

/-- R155: the current erase is parked. -/
def Dev.park (d : Dev) (e : EraseOp) : Dev :=
  let q : ParkedErase := { sector := e.sector, run := e.run, suspends := e.suspends + 1, requester := e.requester }
  d.modifyEngine (fun g => { g with current := none, parked := some q })

/-- R155: ERASE_PARKED, the answer to a suspension request. -/
def execEraseParked (s : State) : Host.Outcome State Fault Refusal :=
  match s.dev.engine.current with
  | some (.erase e) =>
    if e.requested then .next (s.modifyDev (fun d => Dev.settle d (d.park e))) else cannotFall "ERASE_PARKED"
  | _ => cannotFall "ERASE_PARKED"

/-- R153, R154: ERASE_QUANTUM_EXPIRY, the event at which the run time since issue or resumption reaches
1 ms (DESIGN CHOICE, notes/assumptions/2.md). The time it stands for is added to the run time, which stays within 400 ms (R8). -/
def execEraseQuantumExpiry (s : State) : Host.Outcome State Fault Refusal :=
  match s.dev.engine.current with
  | some (.erase e) =>
    let run := e.run + (Config.eraseQuantum - e.since)
    if e.since < Config.eraseQuantum ∧ run ≤ Config.maxEraseTime then
      let e1 := { e with run := run, since := Config.eraseQuantum }
      .next (s.modifyDev (fun d =>
        (d.modifyEngine (fun g => { g with current := some (.erase e1) })).requestSuspension))
    else cannotFall "ERASE_QUANTUM_EXPIRY"
  | _ => cannotFall "ERASE_QUANTUM_EXPIRY"

/-- R166: LEASE_EXPIRY, the event at which a running timer's remaining time reaches 0 (DESIGN CHOICE,
notes/assumptions/2.md). No timer runs while
the device is in reset (R84). -/
def execLeaseExpiry (p : Port) (s : State) : Host.Outcome State Fault Refusal :=
  if s.outOfReset && s.dev.leaseRuns p then .next (s.modifyDev (fun d => d.expireLease p)) else cannotFall "LEASE_EXPIRY"

end Sys2Proof.Machine
end

