-- ==== Sys2Proof/Machine/Operands.lean ====
section
/-!
DEFINITION. The operand forms of frames: the command codes and parameter counts of spec/12, section 12.1
and spec/06, section 6.3, a frame's bytes written from its command and read back (R99, R100, R103, R104).
-/

namespace Sys2Proof.Machine

/-- The commands of the table of section 6.3, by name. -/
inductive Opcode
  | status
  | events
  | ticket
  | fetch
  | retire
  | cancel
  | table
  | setlease
  | hold
  | read
  | program
  | erase
  | claim
  | release
  | commit
  | confirm
  | revert
  | define
  | delete
  | grant
  | fix
deriving DecidableEq, Repr

/-- Section 12.1: the low seven bits of the command byte. -/
def Opcode.code : Opcode → Byte
  | .status => 0x10
  | .events => 0x11
  | .ticket => 0x12
  | .fetch => 0x13
  | .retire => 0x14
  | .cancel => 0x15
  | .table => 0x16
  | .setlease => 0x17
  | .hold => 0x18
  | .read => 0x20
  | .program => 0x21
  | .erase => 0x22
  | .claim => 0x30
  | .release => 0x31
  | .commit => 0x32
  | .confirm => 0x33
  | .revert => 0x34
  | .define => 0x40
  | .delete => 0x41
  | .grant => 0x42
  | .fix => 0x43

def allOpcodes : List Opcode :=
  [.status, .events, .ticket, .fetch, .retire, .cancel, .table, .setlease, .hold, .read, .program, .erase,
   .claim, .release, .commit, .confirm, .revert, .define, .delete, .grant, .fix]

/-- Section 6.3: the ticket commands; the others are immediate. -/
def Opcode.isTicket : Opcode → Bool
  | .status => false
  | .events => false
  | .ticket => false
  | .fetch => false
  | .retire => false
  | .cancel => false
  | .table => false
  | .setlease => false
  | .hold => false
  | .read => true
  | .program => true
  | .erase => true
  | .claim => true
  | .release => true
  | .commit => true
  | .confirm => true
  | .revert => true
  | .define => true
  | .delete => true
  | .grant => true
  | .fix => true

/-- Section 6.3: the fixed count of parameter bytes. -/
def Opcode.paramCount : Opcode → Nat
  | .status => 0
  | .events => 0
  | .ticket => 1
  | .fetch => 1
  | .retire => 1
  | .cancel => 1
  | .table => 1
  | .setlease => 1
  | .hold => 1
  | .read => 8
  | .program => 7
  | .erase => 5
  | .claim => 1
  | .release => 1
  | .commit => 10
  | .confirm => 1
  | .revert => 1
  | .define => 10
  | .delete => 1
  | .grant => 2
  | .fix => 1

/-- Section 6.3: the commands that answer in the frame. -/
def Opcode.answers : Opcode → Bool
  | .status => true
  | .events => true
  | .ticket => true
  | .fetch => true
  | .table => true
  | _ => false

/-- R104: what a command byte names: a command and whether bit 7 asks for notify. Bit 7 makes an immediate
command's byte unknown. -/
def opcodeOf (b : Byte) : Option (Opcode × Bool) :=
  let notify := b.getLsbD 7
  match allOpcodes.find? (fun o => o.code == (b &&& 0x7F)) with
  | some o => if notify && !o.isTicket then none else some (o, notify)
  | none => none

/-- Section 12.1: the command byte, with notify in bit 7. -/
def commandByte (o : Opcode) (notify : Bool) : Byte := if notify then o.code ||| 0x80 else o.code

/-- A command with its parameters as its frame carries them (section 12.1). -/
inductive Command
  | status
  | events
  | ticket (number : Byte)
  | fetch (number : Byte)
  | retire (number : Byte)
  | cancel (number : Byte)
  | table (index : Byte)
  | setlease (value : Byte)
  | hold (partition : Byte)
  | read (partition view : Byte) (offset : Word32) (length : Half16)
  | program (partition : Byte) (offset : Word32) (length : Half16) (data : List Byte)
  | erase (partition : Byte) (firstSector count : Half16)
  | claim (partition : Byte)
  | release (partition : Byte)
  | commit (partition : Byte) (length check : Word32) (budget : Byte)
  | confirm (partition : Byte)
  | revert (partition : Byte)
  | define (kind : Byte) (base size : Half16) (readers : Byte) (label : Word32)
  | delete (partition : Byte)
  | grant (partition readers : Byte)
  | fix (partition : Byte)
deriving DecidableEq, Repr

def Command.opcode : Command → Opcode
  | .status => .status
  | .events => .events
  | .ticket _ => .ticket
  | .fetch _ => .fetch
  | .retire _ => .retire
  | .cancel _ => .cancel
  | .table _ => .table
  | .setlease _ => .setlease
  | .hold _ => .hold
  | .read _ _ _ _ => .read
  | .program _ _ _ _ => .program
  | .erase _ _ _ => .erase
  | .claim _ => .claim
  | .release _ => .release
  | .commit _ _ _ _ => .commit
  | .confirm _ => .confirm
  | .revert _ => .revert
  | .define _ _ _ _ _ => .define
  | .delete _ => .delete
  | .grant _ _ => .grant
  | .fix _ => .fix

/-- Section 12.1: the parameter bytes, and a PROGRAM's data after them. -/
def Command.params : Command → List Byte
  | .status => []
  | .events => []
  | .ticket n => [n]
  | .fetch n => [n]
  | .retire n => [n]
  | .cancel n => [n]
  | .table i => [i]
  | .setlease v => [v]
  | .hold i => [i]
  | .read i v o l => [i, v] ++ bytesOf32 o ++ bytesOf16 l
  | .program i o l d => [i] ++ bytesOf32 o ++ bytesOf16 l ++ d
  | .erase i f c => [i] ++ bytesOf16 f ++ bytesOf16 c
  | .claim i => [i]
  | .release i => [i]
  | .commit i l c b => [i] ++ bytesOf32 l ++ bytesOf32 c ++ [b]
  | .confirm i => [i]
  | .revert i => [i]
  | .define k b s r l => [k] ++ bytesOf16 b ++ bytesOf16 s ++ [r] ++ bytesOf32 l
  | .delete i => [i]
  | .grant i r => [i, r]
  | .fix i => [i]

/-- The bytes of a command's frame up to its last parameter or data byte. -/
def Command.frameBytes (c : Command) (notify : Bool) : List Byte := commandByte c.opcode notify :: c.params

/-- R99, R100: the command of an opcode whose parameters are the bytes after the command byte. -/
def commandOf (o : Opcode) (bs : List Byte) : Command :=
  let b := fun i => bs.getD i 0
  match o with
  | .status => .status
  | .events => .events
  | .ticket => .ticket (b 1)
  | .fetch => .fetch (b 1)
  | .retire => .retire (b 1)
  | .cancel => .cancel (b 1)
  | .table => .table (b 1)
  | .setlease => .setlease (b 1)
  | .hold => .hold (b 1)
  | .read => .read (b 1) (b 2) (word32At bs 3) (half16At bs 7)
  | .program => .program (b 1) (word32At bs 2) (half16At bs 6) (bs.drop 8)
  | .erase => .erase (b 1) (half16At bs 2) (half16At bs 4)
  | .claim => .claim (b 1)
  | .release => .release (b 1)
  | .commit => .commit (b 1) (word32At bs 2) (word32At bs 6) (b 10)
  | .confirm => .confirm (b 1)
  | .revert => .revert (b 1)
  | .define => .define (b 1) (half16At bs 2) (half16At bs 4) (b 6) (word32At bs 7)
  | .delete => .delete (b 1)
  | .grant => .grant (b 1) (b 2)
  | .fix => .fix (b 1)

/-- What the bytes of a frame that ends amount to (R102). -/
inductive Parsed
  /-- No byte was completed. -/
  | empty
  /-- R104: the command byte names no command. -/
  | unknown (command : Byte)
  /-- R103: incomplete parameters, or a PROGRAM's wrong data count. -/
  | malformed (command : Byte)
  /-- A well-formed frame (R100). -/
  | command (c : Command) (notify : Bool)
deriving DecidableEq, Repr

/-- R103: for a PROGRAM the data count equals the length field. -/
def dataCountRight : Command → Bool
  | .program _ _ l d => d.length == l.toNat
  | _ => true

/-- R100, R103, R104: the complete bytes of a frame at its end. -/
def parseFrame : List Byte → Parsed
  | [] => .empty
  | c :: bs =>
    match opcodeOf c with
    | none => .unknown c
    | some (o, notify) =>
      if bs.length < o.paramCount then .malformed c
      else
        let cmd := commandOf o (c :: bs)
        if dataCountRight cmd then .command cmd notify else .malformed c

end Sys2Proof.Machine
end

