-- ==== Sys2Proof/Machine/Frames.lean ====
section
/-!
DEFINITION. Frames at a port: the frame shifter and the level of SOn (R98–R101, R109, R177), the acceptance of
ticket frames (R106–R110), what each command does at its frame end (R102–R105, R112), and how a frame
command runs the part of its frame that it covers (R98, R111).
-/

namespace Sys2Proof.Machine

/-! ## What a turnaround takes (R101) -/

/-- R129: the result of a FETCH. -/
def fetchAnswer (t : Option Ticket) : Answer :=
  match t with
  | none => { result := .unknown, data := [] }
  | some t =>
    match t.kind with
    | .read _ offset length =>
      match t.state with
      | .queued => { result := .notdone, data := [] }
      | .running => { result := .notdone, data := [] }
      | .done => { result := .ok, data := fetchBytes offset length (t.buffer.getD []) }
      | .failed => { result := .badstate, data := [] }
      | .cancelled => { result := .badstate, data := [] }
    | _ => { result := .badstate, data := [] }

/-- R33, R101, R105, R113, R128, R129, R177: the result and response of an answering command, taken from
the state as it stands; `bs` are the frame's bytes up to the turnaround. -/
def State.answerTo (s : State) (p : Port) (o : Opcode) (bs : List Byte) : Answer :=
  if o = .status then { result := .ok, data := statusBytes s p }
  else if s.dev.phase = .mounting then { result := .notready, data := [] }
  else
    match o with
    | .events => { result := .ok, data := eventsBytes (s.dev.port p).events }
    | .ticket =>
      match s.dev.ticketOfFrame p (bs.getD 1 0) with
      | some t => { result := .ok, data := ticketBytes t }
      | none => { result := .unknown, data := [] }
    | .fetch => fetchAnswer (s.dev.ticketOfFrame p (bs.getD 1 0))
    | .table =>
      match indexOfCode (bs.getD 1 0) with
      | some i => { result := .ok, data := tableBytes (s.dev.entry i) }
      | none => { result := .badarg, data := [] }
    | _ => { result := .badcmd, data := [] }

def State.modifyShifter (s : State) (p : Port) (f : Shifter → Shifter) : State :=
  s.modifyHost p (fun h => { h with shifter := f h.shifter })

/-- R101, R177: the turnaround event; for EVENTS the watch for discarded events begins. -/
def State.turnaround (s : State) (p : Port) (o : Opcode) (bs : List Byte) : State :=
  let a := s.answerTo p o bs
  let s1 := s.modifyShifter p (fun h => { h with answer := some a })
  if o = .events ∧ a.result = .ok then
    s1.modifyDev (fun d => d.modifyPort p (fun q => { q with events := { q.events with discarded := false } }))
  else s1

/-- R177: at the completion of the count byte the lost flag is set if an event has been discarded since the
turnaround, and clear otherwise. -/
def State.countByteDone (s : State) (p : Port) : State :=
  s.modifyDev (fun d =>
    d.modifyPort p (fun q => { q with events := { q.events with lost := q.events.discarded } }))

/-- R109: at its seventh parameter byte a PROGRAM frame asks for its buffer. -/
def State.requestFrameBuffer (s : State) (p : Port) (bs : List Byte) : State :=
  let length := (half16At bs 6).toNat
  if s.dev.phase ≠ .mounting ∧ 1 ≤ length ∧ length ≤ Config.pageBytes ∧ s.dev.pool.grants p then
    (s.modifyDev (fun d => d.takeBuffer p)).modifyShifter p (fun h => { h with buffer := some [] })
  else s

/-- R109: a data byte of a PROGRAM fills the buffer the frame holds, up to length bytes. -/
def State.fillFrameBuffer (s : State) (p : Port) (bs : List Byte) (b : Byte) : State :=
  s.modifyShifter p (fun h =>
    { h with buffer := h.buffer.map (fun data =>
        if data.length < (half16At bs 6).toNat then data ++ [b] else data) })

/-- R101: the byte SOn carries while byte `i` of the frame is clocked, most significant bit first (R99). -/
def Shifter.outByte (h : Shifter) (i : Nat) : Byte :=
  match h.answer, h.bytes with
  | some a, c :: _ =>
    match opcodeOf c with
    | some (o, _) => if o.paramCount + 2 ≤ i then (resultCode a.result :: a.data).getD (i - (o.paramCount + 2)) 0xFF else 0xFF
    | none => 0xFF
  | _, _ => 0xFF

/-- The count of bits the shifter has received (R98). -/
def Shifter.bitCount (h : Shifter) : Nat := 8 * h.bytes.length + h.bits.length

/-- R99, R101: the bit SOn carries as bit `n` of the frame, counted from 0. -/
def Shifter.outBit (h : Shifter) (n : Nat) : Bool := (h.outByte (n / 8)).getMsbD (n % 8)

/-- What SOn shows (R98). -/
inductive SoPin
  | highImpedance
  | level (b : Bool)
  /-- CSn# is asserted at a port that takes frames, but no frame is in progress (R98, R111): no rule gives a
  level, and the model gives none (notes/assumptions/20.md). -/
  | unstated
deriving DecidableEq, Repr

/-- R98, R99: SOn at this instant. The first bit is presented at the assertion of CSn# and each following one
at the falling edge after a rising edge; until that edge the bit just sampled stays. -/
def State.soPin (s : State) (p : Port) : SoPin :=
  let h := (s.host p).shifter
  if !s.drivesSo p then .highImpedance
  else if h.active then .level (h.outBit (h.bitCount - (if h.risen then 1 else 0)))
  else .unstated

/-- R99, R100: what the completion of byte `i`, the last of `bs`, brings about. -/
def State.onByte (s : State) (p : Port) (bs : List Byte) (i : Nat) (b : Byte) : State :=
  match opcodeOf (bs.getD 0 0) with
  | none => s
  | some (o, _) =>
    if o.answers then
      if i = o.paramCount then s.turnaround p o bs
      else if o = .events ∧ i = 3 ∧ ((s.host p).shifter.answer.map (·.result)) = some .ok then s.countByteDone p
      else s
    else if o = .program then
      if i = o.paramCount then s.requestFrameBuffer p bs
      else if o.paramCount < i then s.fillFrameBuffer p bs b
      else s
    else s

/-- R99: the completion of a byte clocked in on SIn, with the byte clocked out on SOn. -/
def State.byteDone (s : State) (p : Port) (b : Byte) : State :=
  let h := (s.host p).shifter
  let i := h.bytes.length
  let bs := h.bytes ++ [b]
  let s1 := s.modifyHost p (fun g =>
    { g with so := g.so ++ [h.outByte i], soBits := [], shifter := { h with bytes := bs, bits := [] } })
  s1.onByte p bs i b

/-! ## Acceptance of ticket frames -/

/-- R107 step 1, R18: the ticket kind and partition index of a command whose arguments that do not depend
on the table are in range. -/
def ticketRequest (p : Port) : Command → Option (TicketKind × Option Nat)
  | .read i v o l => do
    let index ← indexOfCode i
    let view ← viewOfCode v
    if 1 ≤ l.toNat ∧ l.toNat ≤ Config.pageBytes ∧ o.toNat % Config.pageBytes + l.toNat ≤ Config.pageBytes then
      some (.read view o l, some index)
    else none
  | .program i o l _ => do
    let index ← indexOfCode i
    if 1 ≤ l.toNat ∧ l.toNat ≤ Config.pageBytes ∧ o.toNat % Config.pageBytes + l.toNat ≤ Config.pageBytes then
      some (.program o l, some index)
    else none
  | .erase i f c => do
    let index ← indexOfCode i
    if 1 ≤ c.toNat then some (.erase f c, some index) else none
  | .claim i => do
    let index ← indexOfCode i
    some (.claim, some index)
  | .release i => do
    let index ← indexOfCode i
    some (.release, some index)
  | .commit i l c b => do
    let index ← indexOfCode i
    let budget ← budgetOfCode b
    if 1 ≤ l.toNat then some (.commit l c budget, some index) else none
  | .confirm i => do
    let index ← indexOfCode i
    some (.confirm, some index)
  | .revert i => do
    let index ← indexOfCode i
    some (.revert, some index)
  | .define k b s r l => do
    let kind ← kindOfCode k
    let readers ← readersOfCode r
    if footprintInRange kind b s && !readersHave readers p then some (.define kind b s readers l, none) else none
  | .delete i => do
    let index ← indexOfCode i
    some (.delete, some index)
  | .grant i r => do
    let index ← indexOfCode i
    let readers ← readersOfCode r
    if readersHave readers p then none else some (.grant readers, some index)
  | .fix i => do
    let index ← indexOfCode i
    some (.fix, some index)
  | _ => none

/-- R7, R12, R107 step 3: the arguments that depend on the entry are in range. -/
def entryArguments (k : TicketKind) (e : Entry) : Bool :=
  let bytes := e.size.toNat * Config.sectorBytes
  match k with
  | .read v o l => o.toNat + l.toNat ≤ bytes && !(v == .staged && e.kind == .plain)
  | .program o l => o.toNat + l.toNat ≤ bytes
  | .erase f c => e.kind == .plain && f.toNat + c.toNat ≤ e.size.toNat
  | .claim => e.kind == .image
  | .release => e.kind == .image
  | .commit l _ _ => e.kind == .image && l.toNat ≤ bytes
  | .confirm => e.kind == .image
  | .revert => e.kind == .image
  | .define _ _ _ _ _ => true
  | .delete => true
  | .grant _ => true
  | .fix => true

/-- R106 steps 2 to 5, for a kind that names an entry. -/
def Dev.acceptEntry (d : Dev) (p : Port) (k : TicketKind) (index : Option Nat) : Option Result :=
  match index with
  | none => none
  | some i =>
    let e := d.entry i
    if !e.defined then some .nopart
    else if !entryArguments k e then some .badarg
    else if !hasRights p k e then some .denied
    else if lockBlocks k e then some .locked
    else none

/-- R106 step 8: a READ can be granted a buffer at this event; a PROGRAM frame holds one. -/
def Dev.bufferAvailable (d : Dev) (p : Port) (k : TicketKind) (frameBuffer : Option (List Byte)) : Bool :=
  match k with
  | .read _ _ _ => d.pool.grants p
  | .program _ _ => frameBuffer.isSome
  | _ => true

/-- R106 steps 2 to 8: the first check that fails. -/
def Dev.acceptCheck (d : Dev) (p : Port) (k : TicketKind) (index : Option Nat) (frameBuffer : Option (List Byte)) :
    Option Result :=
  match d.acceptEntry p k index with
  | some r => some r
  | none =>
    if d.phase = .degraded ∧ refusedInDegraded k (d.entry (index.getD 24)) then some .jdead
    else if Config.ringSize ≤ (d.ring p).length then some .ringfull
    else if !d.bufferAvailable p k frameBuffer then some .nobuf
    else none

/-- R115: the number the ring assigns next. -/
def Dev.assignNumber (d : Dev) (p : Port) : Byte := freeNumber (d.ring p) 256 (d.port p).nextNumber

/-- R116: the record of an accepted ticket. -/
def newTicket (d : Dev) (p : Port) (k : TicketKind) (index : Option Nat) (notify : Bool)
    (buffer : Option (List Byte)) : Ticket :=
  { number := d.assignNumber p, kind := k, index := index, serial := index.map (fun i => (d.entry i).serial),
    notify := notify, state := .queued, result := .ok, progress := 0, buffer := buffer, copyRead := none,
    generationRead := none, cancelRequested := false, orphan := false, stage := .waiting }

/-- R110, R115: the ticket joins the newest end of the ring and the counter moves past its number. -/
def Dev.place (d : Dev) (p : Port) (t : Ticket) : Dev :=
  d.modifyPort p (fun q => { q with ring := q.ring ++ [t], nextNumber := nextNumberAfter t.number })

/-- R110: a frame is accepted: a READ's buffer is granted, the ticket is placed, and it may start at this
same event. -/
def Dev.acceptTicket (d : Dev) (p : Port) (k : TicketKind) (index : Option Nat) (notify : Bool)
    (frameBuffer : Option (List Byte)) : Dev :=
  match k with
  | .read _ _ _ => Dev.settle d ((d.takeBuffer p).place p (newTicket d p k index notify (some [])))
  | .program _ _ => Dev.settle d (d.place p (newTicket d p k index notify frameBuffer))
  | _ => Dev.settle d ((d.place p (newTicket d p k index notify none)).wakePort p)

/-! ## Frame end -/

/-- R112: the last-outcome record is overwritten. -/
def State.setOutcome (s : State) (p : Port) (command : Byte) (r : Result) (n : Byte) : State :=
  s.modifyHost p (fun h => { h with outcome := { command := command, result := r, ticket := n } })

/-- R164: the remaining time becomes the setting times 10 ms. -/
def Dev.reloadLease (d : Dev) (p : Port) : Dev :=
  d.modifyPort p (fun q => { q with leaseTime := q.leaseSetting.toNat * Config.leaseUnit })

/-- R109, R139: the buffer a frame holds returns to the pool. -/
def State.dropFrameBuffer (s : State) (p : Port) (buffer : Option (List Byte)) : State :=
  s.modifyDev (fun d => d.giveBufferIf p buffer.isSome)

/-- R112: the ticket number the outcome of TICKET and FETCH carries: the number named, and 0 where the turnaround
fell in MOUNTING, even if the frame ends after the mount (DEDUCED, notes/assumptions/24.md). -/
def namedNumber (r : Result) (n : Byte) : Byte := if r = .notready then 0 else n

/-- R28: the outcome of a HOLD out of MOUNTING, and whether held becomes yes. -/
def Dev.holdOutcome (d : Dev) (p : Port) (i : Byte) : Result × Bool :=
  match indexOfCode i with
  | none => (.badarg, false)
  | some i =>
    let e := d.entry i
    if !e.defined then (.nopart, false)
    else if p != e.owner then (.denied, false)
    else if e.fixed then (.ok, false)
    else (.ok, true)

/-- R28: HOLD at its frame end. -/
def Dev.holdFrame (d : Dev) (p : Port) (i : Byte) : Dev × Result :=
  match d.holdOutcome p i with
  | (r, true) => (d.setEntry i.toNat { d.entry i.toNat with held := true }, r)
  | (r, false) => (d, r)

/-- R131: RETIRE at its frame end. -/
def Dev.retireFrame (d : Dev) (p : Port) (n : Byte) : Dev × Result :=
  match d.ticketOfFrame p n with
  | none => (d, .unknown)
  | some t =>
    if t.live then (d, .badstate)
    else ((d.giveBufferIf p t.buffer.isSome).removeTicket p n, .ok)

/-- R132: a QUEUED ticket ends CANCELLED; a PLAIN DEFINE's reservation goes with it. -/
def Dev.cancelQueued (d : Dev) (p : Port) (t : Ticket) : Dev :=
  let d1 := if t.stage == .reserved then d.dropReservation p else d
  Dev.settle d (d1.finishTicket p t.number .cancelled .cancelled)

/-- R132, R133: CANCEL at its frame end. -/
def Dev.cancelFrame (d : Dev) (p : Port) (n : Byte) : Dev × Result :=
  match d.ticketOfFrame p n with
  | none => (d, .unknown)
  | some t =>
    match t.state with
    | .queued => (d.cancelQueued p t, .ok)
    | .running => (d.modifyTicket p n (fun t => { t with cancelRequested := true }), .ok)
    | .done => (d, .badstate)
    | .failed => (d, .badstate)
    | .cancelled => (d, .badstate)

/-- R164: SETLEASE at its frame end, with the reload the same frame makes. -/
def Dev.setLeaseFrame (d : Dev) (p : Port) (v : Byte) : Dev :=
  (d.modifyPort p (fun q => { q with leaseSetting := v })).reloadLease p

/-- R178: the count of copied records that an EVENTS frame of `bytes` complete bytes shifted out whole;
before them go the command, turnaround, result and count bytes. -/
def eventsShifted (bytes copied : Nat) : Nat := min copied ((bytes - 4) / 8)

/-- R178: EVENTS at its frame end; `a` is what the turnaround took. -/
def Dev.eventsFrame (d : Dev) (p : Port) (a : Answer) (bytes : Nat) : Dev :=
  if a.result = .ok then
    let k := eventsShifted bytes ((a.data.length - 1) / 8)
    d.modifyPort p (fun q => { q with events := { q.events with records := q.events.records.drop k } })
  else d

/-- R130: FETCH at its frame end: the ticket is retired when every data byte was shifted out; before them
go the command, number, turnaround and result bytes. -/
def Dev.fetchFrame (d : Dev) (p : Port) (n : Byte) (a : Answer) (bytes : Nat) : Dev :=
  if a.result = .ok ∧ a.data.length + 4 ≤ bytes then
    match d.ticketOfFrame p n with
    | some t => (d.giveBufferIf p t.buffer.isSome).removeTicket p n
    | none => d
  else d

/-- R102 step 6, R106, R110: a well-formed ticket frame ends out of MOUNTING. -/
def State.endTicketFrame (s : State) (p : Port) (c : Command) (notify : Bool) (command : Byte)
    (frameBuffer : Option (List Byte)) : State :=
  match ticketRequest p c with
  | none => (s.dropFrameBuffer p frameBuffer).setOutcome p command .badarg 0
  | some (k, index) =>
    match s.dev.acceptCheck p k index frameBuffer with
    | some r => (s.dropFrameBuffer p frameBuffer).setOutcome p command r 0
    | none =>
      (s.modifyDev (fun d => d.acceptTicket p k index notify frameBuffer)).setOutcome p command .ok
        (s.dev.assignNumber p)

/-- The state and result of an immediate frame's effect on the shared side, with its outcome recorded. -/
def State.withFrame (s : State) (p : Port) (command n : Byte) (x : Dev × Result) : State :=
  ({ s with dev := x.1 } : State).setOutcome p command x.2 n

/-- R102 steps 4 to 6: a well-formed frame ends, after its lease reload (R164). `a` is what the turnaround
took, `bytes` the count of the frame's complete bytes. -/
def State.endCommand (s : State) (p : Port) (c : Command) (notify : Bool) (command : Byte) (bytes : Nat)
    (a : Answer) (frameBuffer : Option (List Byte)) : State :=
  match c with
  | .status => s
  | .events => (s.modifyDev (fun d => d.eventsFrame p a bytes)).setOutcome p command a.result 0
  | .ticket n => s.setOutcome p command a.result (namedNumber a.result n)
  | .fetch n => (s.modifyDev (fun d => d.fetchFrame p n a bytes)).setOutcome p command a.result (namedNumber a.result n)
  | .table _ => s.setOutcome p command a.result 0
  | c =>
    if s.dev.phase = .mounting then (s.dropFrameBuffer p frameBuffer).setOutcome p command .notready 0
    else
      match c with
      | .retire n => s.withFrame p command n (s.dev.retireFrame p n)
      | .cancel n => s.withFrame p command n (s.dev.cancelFrame p n)
      | .setlease v => s.withFrame p command 0 (s.dev.setLeaseFrame p v, .ok)
      | .hold i => s.withFrame p command 0 (s.dev.holdFrame p i)
      | c => s.endTicketFrame p c notify command frameBuffer

/-- R102: the release of CSn# ends the frame in progress. -/
def State.endFrame (s : State) (p : Port) : State :=
  let h := (s.host p).shifter
  let s1 := s.modifyShifter p (fun _ => Shifter.empty)
  match parseFrame h.bytes with
  | .empty => s1
  | .malformed c => (s1.dropFrameBuffer p h.buffer).setOutcome p c .frame 0
  | .unknown c => (s1.modifyDev (fun d => d.reloadLease p)).setOutcome p c .badcmd 0
  | .command c notify =>
    (s1.modifyDev (fun d => d.reloadLease p)).endCommand p c notify (h.bytes.getD 0 0) h.bytes.length
      (h.answer.getD { result := .notready, data := [] }) h.buffer

/-! ## Running a frame command -/

/-- R98, R111: CSn# is asserted; a frame begins if the port takes frames. -/
def State.select (s : State) (p : Port) : State :=
  if s.takesFrames p then
    s.modifyHost p (fun h => { h with selected := true, shifter := { Shifter.empty with active := true }, so := [], soBits := [] })
  else s.modifyHost p (fun h => { h with selected := true })

/-- R102, R111: CSn# is released; a frame in progress ends. -/
def State.deselect (s : State) (p : Port) : State :=
  let s1 := s.modifyHost p (fun h => { h with selected := false })
  if (s.host p).shifter.active then s1.endFrame p else s1

/-- R99: complete bytes are clocked; without a frame in progress they have no effect (R111). -/
def State.clockBytes (s : State) (p : Port) (bs : List Byte) : State :=
  if (s.host p).shifter.active then bs.foldl (fun s b => s.byteDone p b) s else s

/-- R99: bits of an incomplete byte are clocked; SOn carries as many bits of the byte that goes out. -/
def State.clockBits (s : State) (p : Port) (bits : List Bool) : State :=
  if (s.host p).shifter.active then
    s.modifyHost p (fun g =>
      { g with soBits := (bitsOf (g.shifter.outByte g.shifter.bytes.length)).take bits.length
               shifter := { g.shifter with bits := bits } })
  else s

/-- R99: where a part of a frame of `n` bits ends: `high` before the falling edge after its last bit. With no
bit clocked, an edge that was still to come stays so or falls. -/
def State.pause (s : State) (p : Port) (n : Nat) (high : Bool) : State :=
  if (s.host p).shifter.active then
    s.modifyShifter p (fun h => { h with risen := high && (n != 0 || h.risen) })
  else s

/-- The bits of the incomplete byte after `n` bits of a frame of bytes `all` and stray bits `stray`. -/
def bitsAfter (all : List Byte) (stray : List Bool) (n : Nat) : List Bool :=
  if n / 8 < all.length then (bitsOf (all.getD (n / 8) 0)).take (n % 8) else stray.take (n - 8 * all.length)

/-- The frame's bits are clocked up to bit `n` from its beginning. -/
def State.clockTo (s : State) (p : Port) (all : List Byte) (stray : List Bool) (n : Nat) : State :=
  (s.clockBytes p ((all.take (n / 8)).drop (s.host p).shifter.bytes.length)).clockBits p (bitsAfter all stray n)

/-- The frame in progress, if there is one, is the one whose bytes and stray bits are given. -/
def Shifter.continues (h : Shifter) (all : List Byte) (stray : List Bool) : Bool :=
  !h.active || (h.bytes.isPrefixOf all && h.bits == bitsAfter all stray h.bitCount)

/-- A frame command: the part of the frame that its span names (R98–R102, R111). `frame` holds the bytes up
to the last parameter or data byte. -/
def runFrame (mnemonic : String) (p : Port) (frame : List Byte) (k : Clocking) (s : State) :
    Host.Outcome State Fault Refusal :=
  let all := frame ++ k.extra
  let h := s.host p
  match k.span with
  | .whole =>
    if h.selected then cannotFall mnemonic
    else .next ((((s.select p).clockBytes p all).clockBits p k.stray).deselect p)
  | .first n =>
    if h.selected then cannotFall mnemonic
    else .next (((s.select p).clockTo p all k.stray n).pause p n k.high)
  | .next n =>
    if h.selected && h.shifter.continues all k.stray then
      .next ((s.clockTo p all k.stray (h.shifter.bitCount + n)).pause p n k.high)
    else cannotFall mnemonic
  | .rest =>
    if h.selected && h.shifter.continues all k.stray then
      .next ((s.clockTo p all k.stray (8 * all.length + k.stray.length)).deselect p)
    else cannotFall mnemonic

/-- A command's frame (R99, section 12.1). -/
def runCommand (mnemonic : String) (p : Port) (c : Command) (notify : Bool) (k : Clocking) (s : State) :
    Host.Outcome State Fault Refusal :=
  runFrame mnemonic p (c.frameBytes notify) k s

end Sys2Proof.Machine
end

