-- ==== Sys2Proof/Machine/Immediate.lean ====
section
/-!
DEFINITION. The immediate commands (spec/06, section 6.3) and the frames that name no command or are
malformed: one meaning for each, over the shared run of a frame (Sys2Proof/Machine/Frames.lean). What
each command does at its turnaround and at its frame end stands there, under its rule.
-/

namespace Sys2Proof.Machine

/-- STATUS (R113). -/
def execStatus (p : Port) (k : Clocking) (s : State) : Host.Outcome State Fault Refusal :=
  runCommand "STATUS" p .status false k s

/-- EVENTS (R177, R178). -/
def execEvents (p : Port) (k : Clocking) (s : State) : Host.Outcome State Fault Refusal :=
  runCommand "EVENTS" p .events false k s

/-- TICKET (R128). -/
def execTicket (p : Port) (number : Byte) (k : Clocking) (s : State) : Host.Outcome State Fault Refusal :=
  runCommand "TICKET" p (.ticket number) false k s

/-- FETCH (R129, R130). -/
def execFetch (p : Port) (number : Byte) (k : Clocking) (s : State) : Host.Outcome State Fault Refusal :=
  runCommand "FETCH" p (.fetch number) false k s

/-- RETIRE (R131). -/
def execRetire (p : Port) (number : Byte) (k : Clocking) (s : State) : Host.Outcome State Fault Refusal :=
  runCommand "RETIRE" p (.retire number) false k s

/-- CANCEL (R132, R133). -/
def execCancel (p : Port) (number : Byte) (k : Clocking) (s : State) : Host.Outcome State Fault Refusal :=
  runCommand "CANCEL" p (.cancel number) false k s

/-- TABLE (R33). -/
def execTable (p : Port) (index : Byte) (k : Clocking) (s : State) : Host.Outcome State Fault Refusal :=
  runCommand "TABLE" p (.table index) false k s

/-- SETLEASE (R164). -/
def execSetlease (p : Port) (value : Byte) (k : Clocking) (s : State) : Host.Outcome State Fault Refusal :=
  runCommand "SETLEASE" p (.setlease value) false k s

/-- HOLD (R28). -/
def execHold (p : Port) (partition : Byte) (k : Clocking) (s : State) : Host.Outcome State Fault Refusal :=
  runCommand "HOLD" p (.hold partition) false k s

/-- A malformed frame (R103). -/
def execMalformedFrame (p : Port) (command : Byte) (bytes : List Byte) (k : Clocking) (s : State) :
    Host.Outcome State Fault Refusal :=
  runFrame "MALFORMED_FRAME" p (command :: bytes) k s

/-- A frame whose command byte names no command (R104). -/
def execUnknownCommand (p : Port) (command : Byte) (k : Clocking) (s : State) :
    Host.Outcome State Fault Refusal :=
  runFrame "UNKNOWN_COMMAND" p [command] k s

end Sys2Proof.Machine
end

