-- ==== Sys2Proof/Machine/Resets.lean ====
section
/-!
DEFINITION. Device reset and what leads to it (R11, R84), port restart and its end (R167–R172), and the
release of CSn#.
-/

namespace Sys2Proof.Machine

/-! ## Cut-off (R11) -/

/-- R1: whether what the engine holds lies in the array. -/
def Engine.inArray (g : Engine) : Bool :=
  (match g.current with
    | some op => op.inArray
    | none => true) &&
  (match g.parked with
    | some e => e.inArray
    | none => true)

/-- R11: the array after the current operation is cut off. -/
def Memory.cutCurrent (m : Memory) (u : Settle) : Option Operation → Memory
  | some (.program s p first data _ _) => m.programPage s p first data (.failure u)
  | some (.erase e) => m.eraseSector e.sector (.failure u)
  | some (.read _ _ _ _) => m
  | none => m

/-- R11: the array after the parked erase is cut off. -/
def Memory.cutParked (m : Memory) (u : Settle) : Option ParkedErase → Memory
  | some e => m.eraseSector e.sector (.failure u)
  | none => m

/-- R11: the array after a cut-off. Every uncertain bit may settle at its target, so a page cut off may read as if
its program had succeeded; the next mount goes by what it reads there (R11, R87), the fifth program of a fold's
checkpoint and of a formatting included, where R82 says that it takes the active half and R94 that it formats
again (DEDUCED, notes/assumptions/22.md). -/
def Memory.cutOff (m : Memory) (g : Engine) (cut : CutOff) : Memory :=
  (m.cutCurrent cut.current g.current).cutParked cut.parked g.parked

/-! ## Device reset -/

/-- R84: the shared side after the event at which device reset begins: the mount's first read is ready at
that event and issued (R86, R142). -/
def Dev.afterReset : Dev := Dev.settle .reset .reset

/-- R84, R98, R112: the host side of a port at device reset. Pin levels are no latched state and stay. -/
def HostPort.afterReset (h : HostPort) : HostPort :=
  { h with shifter := .empty, so := [], soBits := [], outcome := .reset }

/-- R11: the frame in progress ends when the device enters reset. -/
def HostPort.dropFrame (h : HostPort) : HostPort := { h with shifter := .empty }

/-- R135: the buffers that frames in progress hold are back in the pool. -/
def State.devWithoutFrames (s : State) : Dev :=
  s.dev.forEach allPorts (fun p d => d.giveBufferIf p (s.host p).shifter.buffer.isSome)

def PerPort.map {α β : Type} (v : PerPort α) (f : α → β) : PerPort β :=
  { p0 := f v.p0, p1 := f v.p1, p2 := f v.p2 }

/-- R84: DEVICE_RESET, the release of RESET# or power-on, taken in any state (DESIGN CHOICE,
notes/assumptions/9.md). -/
def execDeviceReset (cut : CutOff) (s : State) : Host.Outcome State Fault Refusal :=
  if s.dev.engine.inArray then
    .next { s with
      powered := true
      resetPin := false
      hosts := s.hosts.map HostPort.afterReset
      array := s.array.cutOff s.dev.engine cut
      dev := Dev.afterReset }
  else .fault .outsideArray

/-- The engine without an operation (R84). -/
def Dev.stopEngine (d : Dev) : Dev := d.modifyEngine (fun g => { g with current := none, parked := none })

/-- R11, R84, R135: RESET_ASSERTION. The operations are cut off and the frames in progress end, with their
buffers back in the pool; nothing of the volatile state is seen before device reset gives it its reset value
(DEDUCED, notes/assumptions/11.md). -/
def execResetAssertion (cut : CutOff) (s : State) : Host.Outcome State Fault Refusal :=
  if s.resetPin then cannotFall "RESET_ASSERTION"
  else if s.dev.engine.inArray then
    .next { s with
      resetPin := true
      hosts := s.hosts.map HostPort.dropFrame
      array := s.array.cutOff s.dev.engine cut
      dev := s.devWithoutFrames.stopEngine }
  else .fault .outsideArray

/-- R11: POWER_LOSS. The operations are cut off and every volatile item is lost (notes/assumptions/11.md). -/
def execPowerLoss (cut : CutOff) (s : State) : Host.Outcome State Fault Refusal :=
  if !s.powered then cannotFall "POWER_LOSS"
  else if s.dev.engine.inArray then
    .next { s with
      powered := false
      hosts := s.hosts.map HostPort.afterReset
      array := s.array.cutOff s.dev.engine cut
      dev := Dev.reset }
  else .fault .outsideArray

/-! ## Port restart -/

/-- R163, R167, R174: the port's own registers and queues. -/
def PortState.restart (q : PortState) : PortState :=
  { q with
    nextNumber := 1
    events := .empty
    leaseSetting := Config.resetLease
    leaseTime := Config.resetLease.toNat * Config.leaseUnit }

/-- R168: one ticket of the ring. A RUNNING one becomes an orphan; any other is removed with its buffer,
and a QUEUED DEFINE that holds a reservation loses it. -/
def Dev.restartTicket (p : Port) (t : Ticket) (d : Dev) : Dev :=
  match t.state with
  | .running => d.modifyTicket p t.number (fun t => { t with orphan := true })
  | .queued =>
    let d1 := if t.stage == .reserved then d.dropReservation p else d
    (d1.giveBufferIf p t.buffer.isSome).removeTicket p t.number
  | .done => (d.giveBufferIf p t.buffer.isSome).removeTicket p t.number
  | .failed => (d.giveBufferIf p t.buffer.isSome).removeTicket p t.number
  | .cancelled => (d.giveBufferIf p t.buffer.isSome).removeTicket p t.number

/-- R168: the tickets of the ring. -/
def Dev.restartRing (d : Dev) (p : Port) : Dev := d.forEach (d.ring p) (Dev.restartTicket p)

/-- R169: a claim at a restart of its holder. -/
def restartClaim : Claim → Claim
  | .committing => .committing
  | .unclaimed => .unclaimed
  | .preparing => .unclaimed
  | .opened => .unclaimed
  | .verifying => .unclaimed

/-- R169: one entry at a restart of port `p`. -/
def restartEntry (p : Port) (e : Entry) : Entry :=
  if e.owner = p then { e with claim := restartClaim e.claim } else e

/-- R169: the claims of the port. -/
def Dev.restartClaims (d : Dev) (p : Port) : Dev := { d with table := d.table.map (restartEntry p) }

/-- R68, R170: one step added to the tick request of port `p` that waits. -/
def addTickStep (p : Port) (r : Request) : Request :=
  match r with
  | .tick q n => if q = p then .tick q (min Config.maxTickSteps (n + 1)) else r
  | .host _ _ _ => r

/-- R81, R170, R171: the tick request of a restart. -/
def Dev.restartTick (d : Dev) (p : Port) : Dev :=
  match d.writer.condition with
  | .dead => (d.tickInMemory p 1).setTick p false
  | .good =>
    let d1 :=
      if d.writer.tickWaiting p then d.modifyWriter (fun w => { w with queue := w.queue.map (addTickStep p) })
      else d.enqueue (.tick p 1)
    d1.setTick p true

/-- R167–R171: the effects of a port restart on the shared side. -/
def Dev.restartPort (d : Dev) (p : Port) : Dev :=
  (((d.modifyPort p PortState.restart).restartRing p).restartClaims p).restartTick p

/-- R111, R167: the frame in progress is discarded and the last outcome reset. -/
def HostPort.restarted (h : HostPort) : HostPort :=
  { h with restart := true, shifter := .empty, outcome := .reset }

/-- R167: HRST_ASSERT. An assertion while the device is in reset has no effect but the line's level. -/
def execHrstAssert (p : Port) (s : State) : Host.Outcome State Fault Refusal :=
  let h := s.host p
  if h.restart then cannotFall "HRST_ASSERT"
  else if s.outOfReset then
    .next ((s.modifyHost p HostPort.restarted).modifyDev (fun d =>
      Dev.settle d ((d.giveBufferIf p h.shifter.buffer.isSome).restartPort p)))
  else .next (s.modifyHost p (fun h => { h with restart := true }))

/-- R172: HRST_RELEASE changes nothing but the line's level. -/
def execHrstRelease (p : Port) (s : State) : Host.Outcome State Fault Refusal :=
  if (s.host p).restart then .next (s.modifyHost p (fun h => { h with restart := false }))
  else cannotFall "HRST_RELEASE"

/-! ## The release of CSn# -/

/-- R102, R111: SELECT_RELEASE, the release of CSn# by itself: it has no effect where no frame began, and
ends a frame that is in progress (DESIGN CHOICE, notes/assumptions/5.md). -/
def execSelectRelease (p : Port) (s : State) : Host.Outcome State Fault Refusal :=
  if (s.host p).selected then .next (s.deselect p) else cannotFall "SELECT_RELEASE"

end Sys2Proof.Machine
end

