-- ==== Sys2Proof/Machine/TicketFrames.lean ====
section
/-!
DEFINITION. The ticket commands (spec/06, section 6.3): one meaning for each, over the shared run of a
frame (Sys2Proof/Machine/Frames.lean). Acceptance stands there (R106–R110); the start of a ticket stands in
Tickets.lean and Scheduler.lean, its boundaries and end in Completions.lean and Journal.lean.
-/

namespace Sys2Proof.Machine

/-- READ (R124). -/
def execRead (p : Port) (notify : Bool) (partition view : Byte) (offset : Word32) (length : Half16)
    (k : Clocking) (s : State) : Host.Outcome State Fault Refusal :=
  runCommand "READ" p (.read partition view offset length) notify k s

/-- PROGRAM (R109, R125). -/
def execProgram (p : Port) (notify : Bool) (partition : Byte) (offset : Word32) (length : Half16)
    (data : List Byte) (k : Clocking) (s : State) : Host.Outcome State Fault Refusal :=
  runCommand "PROGRAM" p (.program partition offset length data) notify k s

/-- ERASE (R126). -/
def execErase (p : Port) (notify : Bool) (partition : Byte) (firstSector count : Half16) (k : Clocking)
    (s : State) : Host.Outcome State Fault Refusal :=
  runCommand "ERASE" p (.erase partition firstSector count) notify k s

/-- CLAIM (R40–R43). -/
def execClaim (p : Port) (notify : Bool) (partition : Byte) (k : Clocking) (s : State) :
    Host.Outcome State Fault Refusal :=
  runCommand "CLAIM" p (.claim partition) notify k s

/-- RELEASE (R46). -/
def execRelease (p : Port) (notify : Bool) (partition : Byte) (k : Clocking) (s : State) :
    Host.Outcome State Fault Refusal :=
  runCommand "RELEASE" p (.release partition) notify k s

/-- COMMIT (R47–R53). -/
def execCommit (p : Port) (notify : Bool) (partition : Byte) (length check : Word32) (budget : Byte)
    (k : Clocking) (s : State) : Host.Outcome State Fault Refusal :=
  runCommand "COMMIT" p (.commit partition length check budget) notify k s

/-- CONFIRM (R54). -/
def execConfirm (p : Port) (notify : Bool) (partition : Byte) (k : Clocking) (s : State) :
    Host.Outcome State Fault Refusal :=
  runCommand "CONFIRM" p (.confirm partition) notify k s

/-- REVERT (R55, R56). -/
def execRevert (p : Port) (notify : Bool) (partition : Byte) (k : Clocking) (s : State) :
    Host.Outcome State Fault Refusal :=
  runCommand "REVERT" p (.revert partition) notify k s

/-- DEFINE (R18–R22). -/
def execDefine (p : Port) (notify : Bool) (kind : Byte) (base size : Half16) (readers : Byte)
    (label : Word32) (k : Clocking) (s : State) : Host.Outcome State Fault Refusal :=
  runCommand "DEFINE" p (.define kind base size readers label) notify k s

/-- DELETE (R24, R25). -/
def execDelete (p : Port) (notify : Bool) (partition : Byte) (k : Clocking) (s : State) :
    Host.Outcome State Fault Refusal :=
  runCommand "DELETE" p (.delete partition) notify k s

/-- GRANT (R26). -/
def execGrant (p : Port) (notify : Bool) (partition readers : Byte) (k : Clocking) (s : State) :
    Host.Outcome State Fault Refusal :=
  runCommand "GRANT" p (.grant partition readers) notify k s

/-- FIX (R27). -/
def execFix (p : Port) (notify : Bool) (partition : Byte) (k : Clocking) (s : State) :
    Host.Outcome State Fault Refusal :=
  runCommand "FIX" p (.fix partition) notify k s

end Sys2Proof.Machine
end

