-- ==== Sys2Proof/Machine/Dispatch.lean ====
section
/-!
DEFINITION. What each command does to everything but the queue: one arm per constructor of Instr.
-/

namespace Sys2Proof.Machine

def exec (i : Instr) (s : State) : Host.Outcome State Fault Refusal :=
  match i with
  | .deviceReset cut => Sys2Proof.Machine.execDeviceReset cut s
  | .hrstAssert p => Sys2Proof.Machine.execHrstAssert p s
  | .hrstRelease p => Sys2Proof.Machine.execHrstRelease p s
  | .status p k => Sys2Proof.Machine.execStatus p k s
  | .events p k => Sys2Proof.Machine.execEvents p k s
  | .ticket p number k => Sys2Proof.Machine.execTicket p number k s
  | .fetch p number k => Sys2Proof.Machine.execFetch p number k s
  | .retire p number k => Sys2Proof.Machine.execRetire p number k s
  | .cancel p number k => Sys2Proof.Machine.execCancel p number k s
  | .table p index k => Sys2Proof.Machine.execTable p index k s
  | .setlease p value k => Sys2Proof.Machine.execSetlease p value k s
  | .hold p partition k => Sys2Proof.Machine.execHold p partition k s
  | .read p notify partition view offset length k => Sys2Proof.Machine.execRead p notify partition view offset length k s
  | .program p notify partition offset length data k => Sys2Proof.Machine.execProgram p notify partition offset length data k s
  | .erase p notify partition firstSector count k => Sys2Proof.Machine.execErase p notify partition firstSector count k s
  | .claim p notify partition k => Sys2Proof.Machine.execClaim p notify partition k s
  | .release p notify partition k => Sys2Proof.Machine.execRelease p notify partition k s
  | .commit p notify partition length check budget k => Sys2Proof.Machine.execCommit p notify partition length check budget k s
  | .confirm p notify partition k => Sys2Proof.Machine.execConfirm p notify partition k s
  | .revert p notify partition k => Sys2Proof.Machine.execRevert p notify partition k s
  | .define p notify kind base size readers label k => Sys2Proof.Machine.execDefine p notify kind base size readers label k s
  | .delete p notify partition k => Sys2Proof.Machine.execDelete p notify partition k s
  | .grant p notify partition readers k => Sys2Proof.Machine.execGrant p notify partition readers k s
  | .fix p notify partition k => Sys2Proof.Machine.execFix p notify partition k s
  | .malformedFrame p command bytes k => Sys2Proof.Machine.execMalformedFrame p command bytes k s
  | .unknownCommand p command k => Sys2Proof.Machine.execUnknownCommand p command k s
  | .pageReadComplete => Sys2Proof.Machine.execPageReadComplete s
  | .pageProgramComplete v => Sys2Proof.Machine.execPageProgramComplete v s
  | .sectorEraseComplete v => Sys2Proof.Machine.execSectorEraseComplete v s
  | .eraseParked => Sys2Proof.Machine.execEraseParked s
  | .eraseQuantumExpiry => Sys2Proof.Machine.execEraseQuantumExpiry s
  | .leaseExpiry p => Sys2Proof.Machine.execLeaseExpiry p s
  | .resetAssertion cut => Sys2Proof.Machine.execResetAssertion cut s
  | .powerLoss cut => Sys2Proof.Machine.execPowerLoss cut s
  | .selectRelease p => Sys2Proof.Machine.execSelectRelease p s

end Sys2Proof.Machine
end

