-- ==== Sys2Proof/Machine/Time.lean ====
section
/-!
DEFINITION. DESIGN CHOICE (notes/assumptions/1.md): one microsecond of time, which is what a step does
when no command waits. Time makes the engine's current operation older (R8, R153) and runs down the lease
timers that run (R165, R166). It stands still once the current operation must have ended (R8, R155).
-/

namespace Sys2Proof.Machine

/-- R8, R155: a microsecond may pass before the current operation must end or park. -/
def Operation.mayAge : Operation → Bool
  | .read _ _ _ age => age < Config.maxReadTime
  | .program _ _ _ _ _ age => age < Config.maxProgramTime
  | .erase e => e.run < Config.maxEraseTime && (!e.requested || e.asked < Config.maxParkTime)

/-- R8, R153: the current operation a microsecond later. -/
def Operation.older : Operation → Operation
  | .read s p r age => .read s p r (age + 1)
  | .program s p f data r age => .program s p f data r (age + 1)
  | .erase e =>
    .erase { e with run := e.run + 1, since := e.since + 1, asked := if e.requested then e.asked + 1 else 0 }

/-- R165: the lease timer of a port a microsecond later. -/
def Dev.runLease (d : Dev) (p : Port) : Dev :=
  if d.leaseRuns p then d.modifyPort p (fun q => { q with leaseTime := q.leaseTime - 1 }) else d

/-- R153, R165, R166: the shared side a microsecond later, with the suspension request or the expiry that
falls then. -/
def Dev.microsecond (d : Dev) : Dev :=
  let d1 := d.modifyEngine (fun g => { g with current := g.current.map Operation.older })
  (d1.forEach allPorts (fun p d => d.runLease p)).requestSuspension.checkLeases

/-- R8, R84: a microsecond may pass: the device is out of reset and no operation must have ended. -/
def State.timeRuns (s : State) : Bool :=
  s.outOfReset &&
    (match s.dev.engine.current with
      | some op => op.mayAge
      | none => true)

/-- A microsecond of time, where one may pass. -/
def State.timePasses (s : State) : State := if s.timeRuns then s.modifyDev Dev.microsecond else s

end Sys2Proof.Machine
end

