-- ==== Sys2Proof/WellFormed.lean ====
section
/-!
DEFINITION. The well-formed commands: those that say what they stand for. A frame command covers a part of
the frame it names, with fewer than 8 bits of an incomplete byte (R99); a MALFORMED_FRAME is malformed
(R103) and an UNKNOWN_COMMAND is unknown (R104); the bits of a verdict lie in the page or sector (R10).
-/

namespace Sys2Proof

/-- R10: the masks lie in a run of `n` bytes. -/
def Settle.wf (u : Settle) (n : Nat) : Bool := u.cells.all (fun c => c.1 < n)

/-- R9, R10. -/
def Verdict.wf (v : Verdict) (n : Nat) : Bool :=
  match v with
  | .success => true
  | .failure u => u.wf n

/-- R11: the current operation is a page program or a sector erase, the parked one a sector erase. -/
def CutOff.wf (c : CutOff) : Bool := c.current.wf Config.sectorBytes && c.parked.wf Config.sectorBytes

/-- R98, R99: the part of a frame of `n` parameter and data bytes that a command covers. -/
def Clocking.wf (k : Clocking) (n : Nat) : Bool :=
  k.stray.length < 8 &&
  (match k.span with
    | .whole => true
    | .first bits => bits ≤ 8 * (n + k.extra.length) + k.stray.length
    | .next bits => bits ≤ 8 * (n + k.extra.length) + k.stray.length
    | .rest => true)

/-- R103: the bytes of a frame are malformed at its end. -/
def malformedBytes (bs : List Byte) : Bool :=
  match Machine.parseFrame bs with
  | .empty => false
  | .unknown _ => false
  | .malformed _ => true
  | .command _ _ => false

/-- The well-formed commands. -/
def Instr.wf : Instr → Bool
  | .deviceReset cut => cut.wf
  | .hrstAssert _ => true
  | .hrstRelease _ => true
  | .status _ k => k.wf 1
  | .events _ k => k.wf 1
  | .ticket _ _ k => k.wf 2
  | .fetch _ _ k => k.wf 2
  | .retire _ _ k => k.wf 2
  | .cancel _ _ k => k.wf 2
  | .table _ _ k => k.wf 2
  | .setlease _ _ k => k.wf 2
  | .hold _ _ k => k.wf 2
  | .read _ _ _ _ _ _ k => k.wf 9
  | .program _ _ _ _ length data k => k.wf (8 + data.length) && data.length == length.toNat && k.extra.isEmpty
  | .erase _ _ _ _ _ k => k.wf 6
  | .claim _ _ _ k => k.wf 2
  | .release _ _ _ k => k.wf 2
  | .commit _ _ _ _ _ _ k => k.wf 11
  | .confirm _ _ _ k => k.wf 2
  | .revert _ _ _ k => k.wf 2
  | .define _ _ _ _ _ _ _ k => k.wf 11
  | .delete _ _ _ k => k.wf 2
  | .grant _ _ _ _ k => k.wf 3
  | .fix _ _ _ k => k.wf 2
  | .malformedFrame _ command bytes k =>
    k.wf (1 + bytes.length) && k.extra.isEmpty && malformedBytes (command :: bytes)
  | .unknownCommand _ command k => k.wf 1 && (Machine.opcodeOf command).isNone
  | .pageReadComplete => true
  | .pageProgramComplete v => v.wf Config.pageBytes
  | .sectorEraseComplete v => v.wf Config.sectorBytes
  | .eraseParked => true
  | .eraseQuantumExpiry => true
  | .leaseExpiry _ => true
  | .resetAssertion cut => cut.wf
  | .powerLoss cut => cut.wf
  | .selectRelease _ => true

end Sys2Proof
end

