-- ==== Sys2Proof/Safety.lean ====
section
/-!
DEFINITION. The terms in which claims speak of states and runs: when an event has nothing to settle, when
nothing but one ticket is at work, which port a command reaches, and the invariants of a run.
-/

namespace Sys2Proof.Machine

/-! ## Events with nothing to settle -/

/-- R8: a page read or a page program. -/
def Operation.isShort : Operation → Bool
  | .read _ _ _ _ => true
  | .program _ _ _ _ _ _ => true
  | .erase _ => false

/-- The engine is busy with a page read or a page program, which no event but its completion ends (R150,
R151). -/
def Dev.EngineShort (d : Dev) : Prop := ∃ op, d.engine.current = some op ∧ op.isShort = true

/-- R69: the Journal Writer takes no request now. -/
def Dev.TakesNone (d : Dev) : Prop := d.mayForm = false ∨ d.writer.queue = []

/-- R166: no lease timer runs with no time left. -/
def Dev.LeasesFresh (d : Dev) : Prop := ∀ p, d.leaseRuns p = true → (d.port p).leaseTime ≠ 0

/-- No event of another block falls with the present one: the engine stays busy, no request is taken and
no lease expires. -/
def Dev.Still (d : Dev) : Prop := d.EngineShort ∧ d.TakesNone ∧ d.LeasesFresh

/-- No ticket of any ring is live (section 7.4). -/
def Dev.NoLive (d : Dev) : Prop := ∀ p, ∀ t ∈ d.ring p, t.live = false

/-- Every live ticket is the one of port `p` with number `n`. -/
def Dev.OnlyLive (d : Dev) (p : Port) (n : Byte) : Prop :=
  ∀ q, ∀ t ∈ d.ring q, t.live = true → q = p ∧ t.number = n

/-- R163, R166: every port that holds a claim has lease time left, or a lease setting of 0, with which its timer
does not run. -/
def Dev.LeasesLeft (d : Dev) : Prop :=
  ∀ p, d.holdsClaim p = true → (d.port p).leaseTime ≠ 0 ∨ (d.port p).leaseSetting = 0

/-- Nothing waits but the tickets: no erase is parked, the Journal Writer and Mount Logic have no work and
no lease in use has run out. -/
def Dev.Quiet (d : Dev) : Prop :=
  d.engine.parked = none ∧ d.writer.inHand = none ∧ d.writer.fold = .idle ∧ d.writer.queue = [] ∧
    d.mount.step = .idle ∧ d.LeasesLeft

/-- R119: no modifying ticket of the port waits to start at once: the oldest live one, if there is one, has
begun, or its start is the taking of its first operation (R122). -/
def Dev.NothingWaits (d : Dev) (p : Port) : Prop :=
  ∀ t, d.oldestModifying p = some t →
    (t.state == .queued && t.stage == .waiting && d.startsWhenStartable t) = false

/-- Commands one after another; none where one stops. -/
def execAll : List Instr → State → Option State
  | [], s => some s
  | i :: is, s =>
    match exec i s with
    | .next t => execAll is t
    | .fault _ => none
    | .refused _ => none

/-! ## Frames clocked whole -/

/-- R98: CSn# is released and the port takes frames. -/
def State.Ready (s : State) (p : Port) : Prop := (s.host p).selected = false ∧ s.takesFrames p = true

/-- R101: the bytes SOn carries over a frame of `n` bytes of an answering command with `params` parameter
bytes: 0xFF up to and with the turnaround byte, then the response, then 0xFF. -/
def soBytes (params n : Nat) (response : List Byte) : List Byte :=
  (List.range n).map (fun i => if params + 2 ≤ i then response.getD (i - (params + 2)) 0xFF else 0xFF)

/-- R101: the bytes SOn carries over a frame that does not answer. -/
def silentBytes (n : Nat) : List Byte := List.replicate n 0xFF

/-- The state after a frame of port `p`: its CSn# is released, its shifter is empty, SOn has carried `so`, its
last outcome is `o` and the shared side is `d`. Nothing else differs from `s`. -/
def State.ended (s : State) (p : Port) (so : List Byte) (o : LastOutcome) (d : Dev) : State :=
  { s with
    hosts := s.hosts.modify p (fun h =>
      { h with selected := false, shifter := Shifter.empty, so := so, soBits := [], outcome := o })
    dev := d }

/-- R164: the remaining time of the port's lease becomes its setting times 10 ms. -/
def Dev.leaseReloaded (d : Dev) (p : Port) : Dev :=
  d.modifyPort p (fun q => { q with leaseTime := q.leaseSetting.toNat * 10000 })

/-! ## Invariants of a run -/

/-- The array holds its canonical form. -/
def State.ArrayCanonical (s : State) : Prop := s.array.wf

/-- R98, R111: a frame is in progress at a port only while its CSn# is asserted and it takes frames, and
its shifter holds nothing otherwise. -/
def State.FramesInProgress (s : State) : Prop :=
  ∀ p, if (s.host p).shifter.active = true then (s.host p).selected = true ∧ s.takesFrames p = true
    else (s.host p).shifter = Shifter.empty

/-- R114, R115, R174: every ring holds up to 8 tickets, no two of one number, every event queue up to 16
records, and no number counter stands at 0. -/
def State.WithinCapacity (s : State) : Prop :=
  ∀ p, (s.dev.ring p).length ≤ 8 ∧ ((s.dev.ring p).map (fun t => t.number)).Nodup ∧
    (s.dev.port p).events.records.length ≤ 16 ∧ (s.dev.port p).nextNumber ≠ 0

/-! ## Acceptance -/

/-- R106 steps 2 to 7: a frame of kind `k` and partition index `index` passes every check after its own
arguments; the buffer of step 8 is not part of it. -/
def Dev.Accepts (d : Dev) (p : Port) (k : TicketKind) (index : Option Nat) : Prop :=
  (∀ i, index = some i →
    (d.entry i).defined = true ∧ entryArguments k (d.entry i) = true ∧ hasRights p k (d.entry i) = true ∧
      lockBlocks k (d.entry i) = false) ∧
  ¬ (d.phase = .degraded ∧ refusedInDegraded k (d.entry (index.getD 24)) = true) ∧ (d.ring p).length < 8

/-- R110, R116: the record of a ticket that is placed now. -/
def Dev.queued (d : Dev) (p : Port) (k : TicketKind) (index : Option Nat) (notify : Bool)
    (buffer : Option (List Byte)) : Ticket :=
  { number := d.assignNumber p, kind := k, index := index, serial := index.map (fun i => (d.entry i).serial),
    notify := notify, state := .queued, result := .ok, progress := 0, buffer := buffer, copyRead := none,
    generationRead := none, cancelRequested := false, orphan := false, stage := .waiting }

/-- R110, R115: the ticket stands at the newest end of the ring and the counter past its number. -/
def Dev.withTicket (d : Dev) (p : Port) (t : Ticket) : Dev :=
  d.modifyPort p (fun q =>
    { q with ring := q.ring ++ [t], nextNumber := if t.number = 255 then 1 else t.number + 1 })

/-- R109, R110, R138: the buffer a ticket holds from its acceptance on: a READ's, still to be filled, and a
PROGRAM's with the frame's data. -/
def Command.ticketBuffer : Command → Option (List Byte)
  | .read _ _ _ _ => some []
  | .program _ _ _ data => some data
  | _ => none

/-- R110, R136: the ticket stands in its ring, and the buffer it holds is taken from the pool. -/
def Dev.accepted (d : Dev) (p : Port) (t : Ticket) : Dev :=
  ({ d with pool := if t.buffer.isSome then d.pool.take p else d.pool } : Dev).withTicket p t

/-- R39, R122: the kinds whose start event is becoming startable; a CLAIM where its entry has a fallback. -/
def TicketKind.startsAtOnce (k : TicketKind) (e : Entry) : Bool :=
  match k with
  | .read _ _ _ => false
  | .program _ _ => false
  | .erase _ _ => false
  | .claim => e.fallback
  | .release => true
  | .commit _ _ _ => false
  | .confirm => true
  | .revert => true
  | .define _ _ _ _ _ => true
  | .delete => true
  | .grant _ => true
  | .fix => true

/-- The ticket of number `n` of a port replaced by its image under `f`, and the port's event queue by its image
under `g`. -/
def Dev.withEnd (d : Dev) (p : Port) (n : Byte) (f : Ticket → Ticket) (g : EventQueue → EventQueue) : Dev :=
  d.modifyPort p (fun q =>
    { q with ring := q.ring.map (fun u => if u.number == n then f u else u), events := g q.events })

/-- The engine with another current operation. -/
def Dev.withCurrent (d : Dev) (current : Option Operation) : Dev :=
  { d with engine := { d.engine with current := current } }

/-- R5: a sector erase as it is issued. -/
def issuedErase (sector : Nat) (r : Requester) : Operation :=
  .erase
    { sector := sector, run := 0, since := 0, suspends := 0, requested := false, asked := 0, requester := r }

/-- R12: the first sector a write to the entry resolves to: of the copy that is not live, of A where none is
live; of the footprint for PLAIN. -/
def Entry.spareSector (e : Entry) : Nat :=
  if e.kind = .image ∧ e.live = some .a then e.base.toNat + e.size.toNat else e.base.toNat

/-- R127 item 4, R175: TICKET_END is sent if notify is set. -/
def EventQueue.afterEnd (q : EventQueue) (t : Ticket) (r : Result) : EventQueue :=
  if t.notify then
    q.append { kind := .ticketEnd, ticket := t.number, partition := t.index, result := r, generation := 0 }
  else q

end Sys2Proof.Machine

namespace Sys2Proof

/-! ## What a command reaches -/

/-- The port whose host sends a command, or whose pins it stands for; none for an event of the array or of
the whole part. -/
def Instr.port : Instr → Option Port
  | .deviceReset _ => none
  | .hrstAssert p => some p
  | .hrstRelease p => some p
  | .status p _ => some p
  | .events p _ => some p
  | .ticket p _ _ => some p
  | .fetch p _ _ => some p
  | .retire p _ _ => some p
  | .cancel p _ _ => some p
  | .table p _ _ => some p
  | .setlease p _ _ => some p
  | .hold p _ _ => some p
  | .read p _ _ _ _ _ _ => some p
  | .program p _ _ _ _ _ _ => some p
  | .erase p _ _ _ _ _ => some p
  | .claim p _ _ _ => some p
  | .release p _ _ _ => some p
  | .commit p _ _ _ _ _ _ => some p
  | .confirm p _ _ _ => some p
  | .revert p _ _ _ => some p
  | .define p _ _ _ _ _ _ _ => some p
  | .delete p _ _ _ => some p
  | .grant p _ _ _ _ => some p
  | .fix p _ _ _ => some p
  | .malformedFrame p _ _ _ => some p
  | .unknownCommand p _ _ => some p
  | .pageReadComplete => none
  | .pageProgramComplete _ => none
  | .sectorEraseComplete _ => none
  | .eraseParked => none
  | .eraseQuantumExpiry => none
  | .leaseExpiry _ => none
  | .resetAssertion _ => none
  | .powerLoss _ => none
  | .selectRelease p => some p

/-- The bytes of the frame that a frame command names, up to the last parameter or data byte, with its
port and clocking. -/
def Instr.frame : Instr → Option (Port × List Byte × Clocking)
  | .deviceReset _ => none
  | .hrstAssert _ => none
  | .hrstRelease _ => none
  | .status p k => some (p, Machine.Command.frameBytes .status false, k)
  | .events p k => some (p, Machine.Command.frameBytes .events false, k)
  | .ticket p n k => some (p, Machine.Command.frameBytes (.ticket n) false, k)
  | .fetch p n k => some (p, Machine.Command.frameBytes (.fetch n) false, k)
  | .retire p n k => some (p, Machine.Command.frameBytes (.retire n) false, k)
  | .cancel p n k => some (p, Machine.Command.frameBytes (.cancel n) false, k)
  | .table p i k => some (p, Machine.Command.frameBytes (.table i) false, k)
  | .setlease p v k => some (p, Machine.Command.frameBytes (.setlease v) false, k)
  | .hold p i k => some (p, Machine.Command.frameBytes (.hold i) false, k)
  | .read p b i v o l k => some (p, Machine.Command.frameBytes (.read i v o l) b, k)
  | .program p b i o l d k => some (p, Machine.Command.frameBytes (.program i o l d) b, k)
  | .erase p b i f c k => some (p, Machine.Command.frameBytes (.erase i f c) b, k)
  | .claim p b i k => some (p, Machine.Command.frameBytes (.claim i) b, k)
  | .release p b i k => some (p, Machine.Command.frameBytes (.release i) b, k)
  | .commit p b i l c n k => some (p, Machine.Command.frameBytes (.commit i l c n) b, k)
  | .confirm p b i k => some (p, Machine.Command.frameBytes (.confirm i) b, k)
  | .revert p b i k => some (p, Machine.Command.frameBytes (.revert i) b, k)
  | .define p b t a n r l k => some (p, Machine.Command.frameBytes (.define t a n r l) b, k)
  | .delete p b i k => some (p, Machine.Command.frameBytes (.delete i) b, k)
  | .grant p b i r k => some (p, Machine.Command.frameBytes (.grant i r) b, k)
  | .fix p b i k => some (p, Machine.Command.frameBytes (.fix i) b, k)
  | .malformedFrame p c bs k => some (p, c :: bs, k)
  | .unknownCommand p c k => some (p, [c], k)
  | .pageReadComplete => none
  | .pageProgramComplete _ => none
  | .sectorEraseComplete _ => none
  | .eraseParked => none
  | .eraseQuantumExpiry => none
  | .leaseExpiry _ => none
  | .resetAssertion _ => none
  | .powerLoss _ => none
  | .selectRelease _ => none

/-- R5, R6, R11: the commands that end or cut off an operation, which are those that can change the array. -/
def Instr.endsOperation : Instr → Bool
  | .deviceReset _ => true
  | .pageProgramComplete _ => true
  | .sectorEraseComplete _ => true
  | .resetAssertion _ => true
  | .powerLoss _ => true
  | _ => false

/-- R11, R84: the commands that reach every port's host side. -/
def Instr.resets : Instr → Bool
  | .deviceReset _ => true
  | .resetAssertion _ => true
  | .powerLoss _ => true
  | _ => false

/-- R18, R182, section 12.5: the change can be written in a record: its index is 0–23, its readers do not
name the owner, its size is in range, its step count takes one byte. -/
def Machine.Change.encodable : Machine.Change → Bool
  | .define i k o _ size r _ =>
    i < 24 && !Machine.readersHave r o && 1 ≤ size.toNat &&
      (match k with
        | .plain => size.toNat ≤ 4088
        | .image => size.toNat ≤ 2044)
  | .delete i _ => i < 24
  | .grant i _ _ => i < 24
  | .fix i _ => i < 24
  | .dropFallback i _ => i < 24
  | .commit i _ _ _ _ _ => i < 24
  | .confirm i _ => i < 24
  | .revert i _ _ => i < 24
  | .tick _ n => n < 256

/-- The frame command that sends a command. -/
def Instr.ofCommand (p : Port) (c : Machine.Command) (notify : Bool) (k : Clocking) : Instr :=
  match c with
  | .status => .status p k
  | .events => .events p k
  | .ticket n => .ticket p n k
  | .fetch n => .fetch p n k
  | .retire n => .retire p n k
  | .cancel n => .cancel p n k
  | .table i => .table p i k
  | .setlease v => .setlease p v k
  | .hold i => .hold p i k
  | .read i v o l => .read p notify i v o l k
  | .program i o l d => .program p notify i o l d k
  | .erase i f c => .erase p notify i f c k
  | .claim i => .claim p notify i k
  | .release i => .release p notify i k
  | .commit i l c b => .commit p notify i l c b k
  | .confirm i => .confirm p notify i k
  | .revert i => .revert p notify i k
  | .define k' b n r l => .define p notify k' b n r l k
  | .delete i => .delete p notify i k
  | .grant i r => .grant p notify i r k
  | .fix i => .fix p notify i k

/-- A frame clocked whole, with `extra` bytes after its parameters. -/
def Clocking.whole (extra : List Byte) : Clocking := { extra := extra, stray := [], span := .whole }

end Sys2Proof
end

