-- ==== Sys2Proof/Certificates/Slice0/Obligations.lean ====
section
/-!
DEFINITION. The statements for the provers. Each names the rules of spec/ that it formalises; a clause
that rests on a choice of the model names its log entry. A frame of a statement is clocked whole
(Clocking.whole) at a port that takes frames (State.Ready), and State.ended gives the whole of the state
after it.
-/

open Sys2Proof Sys2Proof.Machine

/-! ## Frames that answer nothing -/

/-- R104: which command bytes are unknown, and what a frame of one does in every phase. -/
def Obligations.UnknownCommandRefused : Prop :=
  (∀ b : Byte, opcodeOf b = none ↔
    ((∀ o : Opcode, o.code ≠ b &&& 0x7F) ∨
      ((b &&& 0x80) = 0x80 ∧ ∃ o : Opcode, o.code = b &&& 0x7F ∧ o.isTicket = false))) ∧
  (∀ o : Opcode, o.isTicket = true →
    opcodeOf o.code = some (o, false) ∧ opcodeOf (o.code ||| 0x80) = some (o, true)) ∧
  ∀ (p : Port) (c : Byte) (bytes : List Byte) (s : State), s.Ready p → opcodeOf c = none →
    exec (.unknownCommand p c (Clocking.whole bytes)) s =
      .next (s.ended p (silentBytes (1 + bytes.length)) { command := c, result := .badcmd, ticket := 0 }
        (s.dev.leaseReloaded p))

/-- R103: a malformed frame gives FRAME and has no other effect: a buffer that a PROGRAM frame was granted is
back in the pool, and the lease is not reloaded. A grant finds a free buffer (PoolGuarantee). -/
def Obligations.MalformedFrameRefused : Prop :=
  ∀ (p : Port) (c : Byte) (bytes : List Byte) (s : State), s.Ready p → malformedBytes (c :: bytes) = true →
    (s.dev.pool.grants p = true → 1 ≤ s.dev.pool.free) →
    exec (.malformedFrame p c bytes (Clocking.whole [])) s =
      .next (s.ended p (silentBytes (1 + bytes.length)) { command := c, result := .frame, ticket := 0 } s.dev)

/-- R105: during MOUNTING every well-formed frame but STATUS gives NOTREADY and nothing acts; the lease is
reloaded (R164). -/
def Obligations.MountingRefusesFrames : Prop :=
  ∀ (p : Port) (c : Command) (notify : Bool) (extra : List Byte) (s : State), s.Ready p →
    s.dev.phase = .mounting → c ≠ .status → dataCountRight c = true → (c.opcode = .program → extra = []) →
    exec (Instr.ofCommand p c notify (Clocking.whole extra)) s =
      .next (s.ended p
        (if c.opcode.answers then soBytes c.opcode.paramCount (1 + c.params.length + extra.length) [0x01]
         else silentBytes (1 + c.params.length + extra.length))
        { command := commandByte c.opcode (notify && c.opcode.isTicket), result := .notready, ticket := 0 }
        (s.dev.leaseReloaded p))

/-- R106, R107, R108, R30, R18: the checks of a ticket frame other than PROGRAM, in their order and written out for
each kind. The first that fails gives the code; the frame leaves nothing but its outcome and the reload of the
lease (R164). -/
def Obligations.TicketFrameRefusals : Prop :=
  ∀ (p : Port) (c : Command) (notify : Bool) (extra : List Byte) (s : State), s.Ready p →
    s.dev.phase ≠ .mounting →
    let refused := fun (r : Result) =>
      exec (Instr.ofCommand p c notify (Clocking.whole extra)) s =
        .next (s.ended p (silentBytes (1 + c.params.length + extra.length))
          { command := commandByte c.opcode notify, result := r, ticket := 0 } (s.dev.leaseReloaded p))
    let answers := fun (checks : List (Prop × Result)) =>
      checks.foldr (fun x rest => (x.1 → refused x.2) ∧ (¬ x.1 → rest)) True
    let e := fun (i : Byte) => s.dev.entry i.toNat
    let bytes := fun (i : Byte) => (e i).size.toNat * 4096
    let others := fun (readers : Byte) => readers.toNat < 8 ∧ readers.getLsbD (portNumber p) = false
    let full := 8 ≤ (s.dev.ring p).length
    let held := fun (i : Byte) => (e i).fixed = true ∨ (e i).held = true
    let degraded := s.dev.phase = .degraded
    -- the checks of a modifying kind that names entry `i`
    let named := fun (i : Byte) (ranges inEntry locked jdead : Prop) =>
      answers
        [(¬ (i.toNat < 24 ∧ ranges), .badarg), ((e i).defined = false, .nopart), (¬ inEntry, .badarg),
          ((e i).owner ≠ p, .denied), (locked, .locked), (jdead, .jdead), (full, .ringfull)]
    match c with
    | .read i view offset length =>
      answers
        [(¬ (i.toNat < 24 ∧ (view = 0 ∨ view = 1) ∧ 1 ≤ length.toNat ∧ length.toNat ≤ 256 ∧
              offset.toNat % 256 + length.toNat ≤ 256), .badarg),
          ((e i).defined = false, .nopart),
          (bytes i < offset.toNat + length.toNat ∨ (view = 1 ∧ (e i).kind = .plain), .badarg),
          ((e i).owner ≠ p ∧ ¬ (view = 0 ∧ readersHave (e i).readers p = true), .denied),
          (full, .ringfull), (s.dev.pool.grants p = false, .nobuf)]
    | .erase i first count =>
      named i (1 ≤ count.toNat) ((e i).kind = .plain ∧ first.toNat + count.toNat ≤ (e i).size.toNat) (held i) False
    | .claim i => named i True ((e i).kind = .image) (held i) degraded
    | .release i => named i True ((e i).kind = .image) ((e i).fixed = true) False
    | .commit i length _ budget =>
      named i (1 ≤ length.toNat ∧ budget.toNat < 16) ((e i).kind = .image ∧ length.toNat ≤ bytes i) (held i) degraded
    | .confirm i => named i True ((e i).kind = .image) (held i) degraded
    | .revert i => named i True ((e i).kind = .image) (held i) degraded
    | .delete i => named i True True (held i) degraded
    | .grant i readers => named i (others readers) True (held i) degraded
    | .fix i => named i True True (held i) degraded
    | .define kind base size readers _ =>
      answers
        [(¬ ((kind = 0 ∧ size.toNat ≤ 4088 ∧ base.toNat + size.toNat ≤ 4096 ∨
                kind = 1 ∧ size.toNat ≤ 2044 ∧ base.toNat + 2 * size.toNat ≤ 4096) ∧
              1 ≤ size.toNat ∧ 8 ≤ base.toNat ∧ others readers), .badarg),
          (degraded, .jdead), (full, .ringfull)]
    | _ => True

/-- R106, R109: a PROGRAM frame that any check refuses, or that the pool refused its buffer, leaves nothing
but its outcome and the reload of the lease: a buffer it held is back in the pool. -/
def Obligations.ProgramFrameRefusals : Prop :=
  ∀ (p : Port) (notify : Bool) (i : Byte) (offset : Word32) (length : Half16) (data : List Byte) (s : State),
    s.Ready p → s.dev.phase ≠ .mounting → data.length = length.toNat →
    (s.dev.pool.grants p = true → 1 ≤ s.dev.pool.free) →
    let refused := fun (r : Result) =>
      exec (.program p notify i offset length data (Clocking.whole [])) s =
        .next (s.ended p (silentBytes (8 + data.length))
          { command := commandByte .program notify, result := r, ticket := 0 } (s.dev.leaseReloaded p))
    let e := s.dev.entry i.toNat
    if ¬ (i.toNat < 24 ∧ 1 ≤ length.toNat ∧ length.toNat ≤ 256 ∧ offset.toNat % 256 + length.toNat ≤ 256) then
      refused .badarg
    else if e.defined = false then refused .nopart
    else if e.size.toNat * 4096 < offset.toNat + length.toNat then refused .badarg
    else if e.owner ≠ p then refused .denied
    else if e.fixed = true ∨ e.held = true then refused .locked
    else if s.dev.phase = .degraded ∧ e.kind = .image then refused .jdead
    else if 8 ≤ (s.dev.ring p).length then refused .ringfull
    else s.dev.pool.grants p = false → refused .nobuf

/-! ## Frames that answer -/

/-- R113, section 12.3: STATUS in every phase. The twelve bytes after the result byte, and nothing else but
the reload of the lease (R164): the last outcome stays (R112). -/
def Obligations.StatusAnswers : Prop :=
  ∀ (p : Port) (extra : List Byte) (s : State), s.Ready p →
    let q := s.dev.port p
    let o := (s.host p).outcome
    let response : List Byte :=
      [match s.dev.phase with
        | .mounting => 0
        | .serving => 1
        | .degraded => 2,
       (if s.dev.formatted then 1 else 0) + (if q.events.lost then 2 else 0) + (if q.tickPending then 4 else 0),
       BitVec.ofNat 8 q.ring.length,
       BitVec.ofNat 8 (s.dev.pool.held.get p),
       BitVec.ofNat 8 s.dev.pool.free,
       BitVec.ofNat 8 q.events.records.length,
       q.leaseSetting,
       if s.dev.holdsClaim p = true ∧ q.leaseSetting ≠ 0 then BitVec.ofNat 8 ((q.leaseTime + 9999) / 10000) else 0,
       BitVec.ofNat 8 (64 - s.dev.writer.nextSlot),
       o.command, resultCode o.result, o.ticket]
    exec (.status p (Clocking.whole extra)) s =
      .next (s.ended p (soBytes 0 (1 + extra.length) (0x00 :: response)) o (s.dev.leaseReloaded p))

/-- R177, R178: an EVENTS frame out of MOUNTING. With the count byte shifted out the lost flag clears, since
nothing is discarded within a frame clocked whole, and the records shifted out whole leave the queue; a
shorter frame removes nothing and leaves the lost flag. `discarded` is the model's note of a discard since
the turnaround (log entry 10). -/
def Obligations.EventsShiftedOut : Prop :=
  ∀ (p : Port) (extra : List Byte) (s : State), s.Ready p → s.dev.phase ≠ .mounting →
    let q := (s.dev.port p).events
    let count : Byte := BitVec.ofNat 8 q.records.length ||| (if q.lost then 0x80 else 0)
    let rest := extra.length - 3
    let queue : EventQueue :=
      if 3 ≤ extra.length then
        { records := q.records.drop (min q.records.length (rest / 8)), lost := false, discarded := false }
      else { q with discarded := false }
    exec (.events p (Clocking.whole extra)) s =
      .next (s.ended p
        (soBytes 0 (1 + extra.length) (0x00 :: count :: q.records.flatMap (fun e =>
          [eventKindCode e.kind, e.ticket, indexCode e.partition, resultCode e.result] ++ bytesOf32 e.generation)))
        { command := 0x11, result := .ok, ticket := 0 }
        ((s.dev.modifyPort p (fun r => { r with events := queue })).leaseReloaded p))

/-- R128, R134, section 12.3: a TICKET frame out of MOUNTING answers with the 17 bytes of the ticket of that
number that is no orphan, or UNKNOWN, and changes nothing in the ring. -/
def Obligations.TicketAnswers : Prop :=
  ∀ (p : Port) (n : Byte) (extra : List Byte) (s : State), s.Ready p → s.dev.phase ≠ .mounting →
    let found := (s.dev.ring p).find? (fun t => t.number == n && !t.orphan)
    let response : List Byte :=
      match found with
      | none => [0x10]
      | some t =>
        [0x00, t.number, ticketKindCode t.kind, ticketStateCode t.state, resultCode t.result, indexCode t.index] ++
          bytesOf32 (t.serial.getD 0) ++ bytesOf16 (BitVec.ofNat 16 t.progress) ++ [copyCode t.copyRead] ++
          bytesOf32 (if t.copyRead = none then 0 else t.generationRead.getD 0) ++
          [(if t.notify then 1 else 0) + (if t.cancelRequested then 2 else 0) + (if t.buffer.isSome then 4 else 0)]
    exec (.ticket p n (Clocking.whole extra)) s =
      .next (s.ended p (soBytes 1 (2 + extra.length) response)
        { command := 0x12, result := if found.isSome then .ok else .unknown, ticket := n } (s.dev.leaseReloaded p))

/-- R124, R129, R130: a FETCH frame out of MOUNTING. Of a DONE READ it answers with the bytes that offset and
length select, and the ticket leaves the ring with its buffer when all of them were shifted out; every
other case is refused and changes no ticket and no buffer. -/
def Obligations.FetchAnswers : Prop :=
  ∀ (p : Port) (n : Byte) (extra : List Byte) (s : State), s.Ready p → s.dev.phase ≠ .mounting →
    let answered := fun (response : List Byte) (r : Result) (d : Dev) =>
      exec (.fetch p n (Clocking.whole extra)) s =
        .next (s.ended p (soBytes 1 (2 + extra.length) response) { command := 0x13, result := r, ticket := n }
          (d.leaseReloaded p))
    match (s.dev.ring p).find? (fun t => t.number == n && !t.orphan) with
    | none => answered [0x10] .unknown s.dev
    | some t =>
      match t.kind with
      | .read _ offset length =>
        match t.state with
        | .queued => answered [0x11] .notdone s.dev
        | .running => answered [0x11] .notdone s.dev
        | .failed => answered [0x0A] .badstate s.dev
        | .cancelled => answered [0x0A] .badstate s.dev
        | .done =>
          let data := (List.range length.toNat).map (fun i => (t.buffer.getD []).getD (offset.toNat % 256 + i) 0)
          answered (0x00 :: data) .ok
            (if 2 + length.toNat ≤ extra.length then
              (if t.buffer.isSome then { s.dev with pool := s.dev.pool.give p } else s.dev).modifyPort p
                (fun q => { q with ring := q.ring.filter (fun u => u.number != n) })
            else s.dev)
      | _ => answered [0x0A] .badstate s.dev

/-- R33, section 12.3: a TABLE frame out of MOUNTING answers any port with the 43 bytes of the entry as it
stands, all zero for an undefined one and zero in the image fields for a PLAIN one; an index over 23 is
refused BADARG. -/
def Obligations.TableAnswers : Prop :=
  ∀ (p : Port) (i : Byte) (extra : List Byte) (s : State), s.Ready p → s.dev.phase ≠ .mounting →
    let e := s.dev.entry i.toNat
    let response : List Byte :=
      if 24 ≤ i.toNat then [0x04]
      else if e.defined = false then 0x00 :: List.replicate 43 0
      else
        [0x00, 1, kindCode e.kind, portCode e.owner] ++ bytesOf16 e.base ++ bytesOf16 e.size ++
          [e.readers.zeroExtend 8, if e.fixed then 1 else 0] ++ bytesOf32 e.label ++ bytesOf32 e.serial ++
          (match e.kind with
            | .plain => List.replicate 24 0
            | .image =>
              [copyCode e.live, imagePhaseCode e.phase, e.attempts.zeroExtend 8, if e.fallback then 1 else 0] ++
                bytesOf32 e.generation ++ bytesOf32 e.liveLength ++ bytesOf32 e.liveCheck ++
                bytesOf32 e.fallbackLength ++ bytesOf32 e.fallbackCheck) ++
          [if e.held then 1 else 0,
           match e.kind with
            | .plain => 0
            | .image => claimCode e.claim]
    exec (.table p i (Clocking.whole extra)) s =
      .next (s.ended p (soBytes 1 (2 + extra.length) response)
        { command := 0x16, result := if 24 ≤ i.toNat then .badarg else .ok, ticket := 0 } (s.dev.leaseReloaded p))

/-! ## Immediate frames that act at their end -/

/-- R131: RETIRE out of MOUNTING. -/
def Obligations.RetireFrame : Prop :=
  ∀ (p : Port) (n : Byte) (extra : List Byte) (s : State), s.Ready p → s.dev.phase ≠ .mounting →
    let outcome := fun (r : Result) (d : Dev) =>
      exec (.retire p n (Clocking.whole extra)) s =
        .next (s.ended p (silentBytes (2 + extra.length)) { command := 0x14, result := r, ticket := n }
          (d.leaseReloaded p))
    match (s.dev.ring p).find? (fun t => t.number == n && !t.orphan) with
    | none => outcome .unknown s.dev
    | some t =>
      if t.state = .queued ∨ t.state = .running then outcome .badstate s.dev
      else
        outcome .ok
          ((if t.buffer.isSome then { s.dev with pool := s.dev.pool.give p } else s.dev).modifyPort p
            (fun q => { q with ring := q.ring.filter (fun u => u.number != n) }))

/-- R119, R132, R133: CANCEL out of MOUNTING. A QUEUED ticket ends CANCELLED with its buffer, and its reservation
if it is a PLAIN DEFINE that has started, given back; the clause is that of a device in which no other
event falls with the frame end (Dev.Still) and of a port whose oldest other live modifying ticket, if there is
one, has begun or does not start when startable. -/
def Obligations.CancelFrame : Prop :=
  ∀ (p : Port) (n : Byte) (extra : List Byte) (s : State), s.Ready p → s.dev.phase ≠ .mounting →
    let outcome := fun (r : Result) (d : Dev) =>
      exec (.cancel p n (Clocking.whole extra)) s =
        .next (s.ended p (silentBytes (2 + extra.length)) { command := 0x15, result := r, ticket := n }
          (d.leaseReloaded p))
    match (s.dev.ring p).find? (fun t => t.number == n && !t.orphan) with
    | none => outcome .unknown s.dev
    | some t =>
      match t.state with
      | .running =>
        outcome .ok (s.dev.modifyPort p (fun q =>
          { q with ring := q.ring.map (fun u => if u.number == n then { u with cancelRequested := true } else u) }))
      | .queued =>
        s.dev.Still → s.dev.ticket p n = some t →
        (∀ u, (s.dev.ring p).find? (fun u => u.number != n && u.modifying && u.live) = some u →
          ¬ (u.state = .queued ∧ u.stage = .waiting ∧
            u.kind.startsAtOnce (s.dev.entry (u.index.getD 24)) = true)) →
        outcome .ok
          (({ s.dev with
              pool := if t.buffer.isSome then s.dev.pool.give p else s.dev.pool
              reservations :=
                if t.stage = .reserved then s.dev.reservations.filter (fun r => r.port != p)
                else s.dev.reservations } : Dev).modifyPort p (fun q =>
            { q with
              ring := q.ring.map (fun u =>
                if u.number == n then { u with state := .cancelled, result := .cancelled, buffer := none } else u)
              events :=
                if t.notify then
                  q.events.append
                    { kind := .ticketEnd, ticket := t.number, partition := t.index, result := .cancelled,
                      generation := 0 }
                else q.events }))
      | .done => outcome .badstate s.dev
      | .failed => outcome .badstate s.dev
      | .cancelled => outcome .badstate s.dev

/-- R164: SETLEASE out of MOUNTING: the setting takes the value, and the reload of the same frame uses it. -/
def Obligations.SetleaseFrame : Prop :=
  ∀ (p : Port) (v : Byte) (extra : List Byte) (s : State), s.Ready p → s.dev.phase ≠ .mounting →
    exec (.setlease p v (Clocking.whole extra)) s =
      .next (s.ended p (silentBytes (2 + extra.length)) { command := 0x17, result := .ok, ticket := 0 }
        (s.dev.modifyPort p (fun q => { q with leaseSetting := v, leaseTime := v.toNat * 10000 })))

/-- R28: the outcome and effect of HOLD, row by row. -/
def Obligations.HoldFrame : Prop :=
  ∀ (p : Port) (i : Byte) (extra : List Byte) (s : State), s.Ready p →
    let e := s.dev.entry i.toNat
    let outcome := fun (r : Result) (d : Dev) =>
      exec (.hold p i (Clocking.whole extra)) s =
        .next (s.ended p (silentBytes (2 + extra.length)) { command := 0x18, result := r, ticket := 0 }
          (d.leaseReloaded p))
    if s.dev.phase = .mounting then outcome .notready s.dev
    else if 23 < i.toNat then outcome .badarg s.dev
    else if e.defined = false then outcome .nopart s.dev
    else if e.owner ≠ p then outcome .denied s.dev
    else if e.fixed = true then outcome .ok s.dev
    else if e.held = true then outcome .ok s.dev
    else outcome .ok (s.dev.setEntry i.toNat { e with held := true })

/-- R115: the number a ring of up to 8 tickets assigns is the first from the counter's value upward, from 255
on to 1, that no ticket of the ring carries; it is found within 9 steps and is never 0. Placing the ticket
sets the counter past it. -/
def Obligations.TicketNumberAssigned : Prop :=
  ∀ (d : Dev) (p : Port), (d.ring p).length ≤ 8 → (d.port p).nextNumber ≠ 0 →
    (∃ k, k ≤ 8 ∧ d.assignNumber p = nextNumberAfter^[k] (d.port p).nextNumber ∧
      (∀ j, j < k → ∃ t ∈ d.ring p, t.number = nextNumberAfter^[j] (d.port p).nextNumber)) ∧
    (∀ t ∈ d.ring p, t.number ≠ d.assignNumber p) ∧ d.assignNumber p ≠ 0 ∧
    ∀ t : Ticket,
      ((d.place p t).port p).nextNumber = (if t.number = 255 then 1 else t.number + 1) ∧
      (d.place p t).ring p = d.ring p ++ [t]

/-! ## The step and the invariants of a run -/

/-- The command at the front of the queue runs on the state with the queue's rest. -/
def Obligations.StepRunsFrontCommand : Prop :=
  ∀ (c : Instr) (rest : List Instr) (s : State), s.pending = c :: rest →
    step s = exec c { s with pending := rest }

/-- The model's choice (log entry 1): where no command waits a step is a microsecond. It runs down the lease
timers that run (R165) and makes the engine's current operation older (R8, R153); in reset nothing runs
(R84), and time stands still once the current operation must have ended. -/
def Obligations.IdleStepPassesTime : Prop :=
  ∀ s : State, s.pending = [] →
    (s.outOfReset = false → step s = .next s) ∧
    (∀ op, s.dev.engine.current = some op → op.mayAge = false → step s = .next s) ∧
    (s.outOfReset = true → (∀ p, s.dev.leaseRuns p = true → 2 ≤ (s.dev.port p).leaseTime) →
      let older := fun (current : Option Operation) =>
        ({ s with
            dev := { s.dev with
              engine := { s.dev.engine with current := current }
              ports :=
                let later := fun p =>
                  if s.dev.leaseRuns p = true then
                    { s.dev.port p with leaseTime := (s.dev.port p).leaseTime - 1 }
                  else s.dev.port p
                { p0 := later .p0, p1 := later .p1, p2 := later .p2 } } } : State)
      match s.dev.engine.current with
      | none => step s = .next (older none)
      | some (.read sector page r age) => age < 25 → step s = .next (older (some (.read sector page r (age + 1))))
      | some (.program sector page first data r age) =>
        age < 3000 → step s = .next (older (some (.program sector page first data r (age + 1))))
      | some (.erase e) =>
        e.run < 400000 → e.requested = false → (s.dev.shortReady = false ∨ e.since + 1 < 1000 ∨ 24 ≤ e.suspends) →
          step s = .next (older (some (.erase { e with run := e.run + 1, since := e.since + 1, asked := 0 }))))

/-- What the state after device reset of a part as delivered holds: R1, R84, R98, R112, R115, R135, R142, R163,
R174; and the invariants of a run. That the part starts as delivered is log entry 7, and the value of the CRC
register, to which the spec gives none at reset, is the model's choice (DESIGN CHOICE, log entry 8). -/
def Obligations.ResetState : Prop :=
  let s := State.reset
  s.ArrayCanonical ∧ s.FramesInProgress ∧ s.WithinCapacity ∧
  (∀ a, s.array.byteAt a = 0xFF) ∧ s.outOfReset = true ∧ s.dev.phase = .mounting ∧ s.dev.formatted = false ∧
  (∀ i, s.dev.entry i = Entry.undefined) ∧ s.dev.reservations = [] ∧ s.dev.pool.free = 10 ∧
  (∀ p, s.dev.pool.held.get p = 0 ∧ s.dev.ring p = [] ∧ (s.dev.port p).nextNumber = 1 ∧
    (s.dev.port p).events.records = [] ∧ (s.dev.port p).events.lost = false ∧ (s.dev.port p).leaseSetting = 100 ∧
    (s.dev.port p).leaseTime = 0 ∧ (s.dev.port p).tickPending = false ∧
    (s.host p).shifter = Shifter.empty ∧ (s.host p).outcome = { command := 0, result := .ok, ticket := 0 } ∧
    s.attention p = false) ∧
  s.dev.verify.holder = none ∧ s.dev.verify.crc = 0xFFFFFFFF ∧
  s.dev.engine =
    { current := some (.read 0 0 .mount 0), parked := none, readPointer := .system, programPointer := .system,
      erasePointer := .system } ∧
  s.dev.writer.activeHalf = .h0 ∧ s.dev.writer.nextSlot = 64 ∧ s.dev.writer.nextSequence = some 1 ∧
  s.dev.writer.queue = [] ∧ s.dev.writer.inHand = none ∧ s.dev.writer.fold = .idle ∧
  s.dev.writer.foldFailures = 0 ∧ s.dev.writer.holdFormation = false ∧ s.dev.writer.condition = .good ∧
  s.dev.mount.step = .choosing

/-- The array keeps its canonical form at every step. -/
def Obligations.ArrayCanonicalKept : Prop :=
  ∀ s t : State, s.ArrayCanonical → step s = .next t → t.ArrayCanonical

/-- R98, R111: at every step a frame stays in progress only while its CSn# is asserted and its port takes
frames, and a shifter without a frame stays empty. -/
def Obligations.FramesInProgressKept : Prop :=
  ∀ s t : State, s.FramesInProgress → step s = .next t → t.FramesInProgress

/-- R114, R115, R174, R176: every step keeps the rings within 8 tickets of distinct numbers, the event queues
within 16 records and the number counters off 0; an event that finds 16 records waiting is discarded and sets
the lost flag, and one that finds fewer joins the newest end. -/
def Obligations.CapacitiesKept : Prop :=
  (∀ s t : State, s.WithinCapacity → step s = .next t → t.WithinCapacity) ∧
  ∀ (q : EventQueue) (e : Event),
    (q.records.length < 16 → (q.append e).records = q.records ++ [e] ∧ (q.append e).lost = q.lost) ∧
    (16 ≤ q.records.length → (q.append e).records = q.records ∧ (q.append e).lost = true)

/-- What no command reaches (section 6.1, chapter 6): the array, but for the commands that end or cut off an
operation (R5, R6, R11); the host side of a port other than the command's own, but for the resets of the part;
the supply and RESET#, but for those. That no command reaches the queue of waiting commands is said of the
model's own field (log entries 4 and 10). -/
def Obligations.CommandsReachNoFurther : Prop :=
  ∀ (i : Instr) (s t : State), exec i s = .next t →
    t.pending = s.pending ∧
    (i.endsOperation = false → t.array = s.array) ∧
    (i.resets = false → ∀ q, i.port ≠ some q → t.host q = s.host q) ∧
    (i.resets = false → t.powered = s.powered ∧ t.resetPin = s.resetPin)

/-! ## Encodings -/

/-- R181, section 12.6: the check value of the nine ASCII digits, and the worked DEFINE frame and record. -/
def Obligations.WorkedEncodings : Prop :=
  crc32 [0x31, 0x32, 0x33, 0x34, 0x35, 0x36, 0x37, 0x38, 0x39] = 0xCBF43926 ∧
  (Command.define 0x00 3000 8 0x00 0).frameBytes false =
    [0x40, 0x00, 0x0B, 0xB8, 0x00, 0x08, 0x00, 0x00, 0x00, 0x00, 0x00] ∧
  ((Command.define 0x00 3000 8 0x00 0).frameBytes true).head? = some 0xC0 ∧
  (changePage 402 none (.define 17 .plain .p1 3000 8 0 0)).take 252 =
    [0x00, 0x00, 0x01, 0x92, 0x10, 0x00, 0x00, 0x00, 0x00, 0x11, 0x00, 0x01, 0x0B, 0xB8, 0x00, 0x08] ++
      List.replicate 236 0x00

/-- R99, R100, R103, section 12.1: the bytes of a command's frame read back as that command, whatever
follows them (for PROGRAM nothing may follow its data), and every shorter frame is malformed, a PROGRAM frame
cut within its data too; for STATUS and EVENTS there is none. -/
def Obligations.FrameRoundTrip : Prop :=
  ∀ (c : Command) (notify : Bool) (extra : List Byte), (notify = true → c.opcode.isTicket = true) →
    (c.opcode = .program → extra = []) → dataCountRight c = true →
    parseFrame (c.frameBytes notify ++ extra) = .command c notify ∧
    ∀ n, 1 ≤ n → n < (c.frameBytes notify).length →
      parseFrame ((c.frameBytes notify).take n) = .malformed (commandByte c.opcode notify)

/-- R63, R65, R182, section 12.5: a change record's page is valid and gives back its sequence, its kind, its
retry field and its change. -/
def Obligations.ChangeRecordRoundTrip : Prop :=
  ∀ (q : Word32) (retryOf : Option Word32) (c : Change), c.encodable = true →
    (changePage q retryOf c).length = 256 ∧
    classifyPage (changePage q retryOf c) = .valid q (changeKind c) ∧
    changeOfPage (changePage q retryOf c) = some c ∧
    retryField (changePage q retryOf c) = retryOf.getD 0

/-- R66, R88, R182: the five pages of a checkpoint are valid, the first as its head, and the bodies give back
the entries of the capture. -/
def Obligations.CheckpointRoundTrip : Prop :=
  ∀ (q : Word32) (capture : Table),
    (∀ i, (Table.entry capture i).sound = true ∧ (Table.entry capture i).held = false ∧
      (Table.entry capture i).claim = .unclaimed) →
    classifyPage (checkpointPage q capture 0) = .valid q 0x01 ∧
    ∀ slot, 1 ≤ slot → slot ≤ 4 →
      (checkpointPage q capture slot).length = 256 ∧
      classifyPage (checkpointPage q capture slot) = .valid q 0x02 ∧
      bodyEntries (checkpointPage q capture slot) =
        some ((List.range 6).map (fun j => Table.entry capture (6 * (slot - 1) + j)))

/-! ## How a frame is clocked -/

/-- R98, R99, R101: a frame clocked in two parts with nothing between them ends as the frame clocked whole,
wherever it is cut. At the cut SOn shows the next bit of the frame, or the one just sampled before the falling
edge after it (`high`). The parts are the model's own (log entries 5 and 20), and so is the record of what SOn has
carried (log entry 10). -/
def Obligations.FrameInTwoParts : Prop :=
  ∀ (p : Port) (c : Command) (notify : Bool) (extra : List Byte) (stray : List Bool) (n : Nat) (high : Bool) (s : State),
    s.Ready p → s.FramesInProgress →
    n ≤ 8 * (1 + c.params.length + extra.length) + stray.length →
    ∃ t w,
      exec (Instr.ofCommand p c notify { extra := extra, stray := stray, span := .first n, high := high }) s = .next t ∧
      exec (Instr.ofCommand p c notify { extra := extra, stray := stray, span := .whole }) s = .next w ∧
      exec (Instr.ofCommand p c notify { extra := extra, stray := stray, span := .rest }) t = .next w ∧
      (t.host p).selected = true ∧ (t.host p).shifter.active = true ∧
      (stray.length < 8 →
        let bits := (w.host p).so.flatMap (fun b => (List.range 8).map (fun i => b.getMsbD i)) ++ (w.host p).soBits
        bits.length = 8 * (1 + c.params.length + extra.length) + stray.length ∧
        (high = false → n < bits.length → t.soPin p = .level (bits.getD n true)) ∧
        (high = true → 1 ≤ n → t.soPin p = .level (bits.getD (n - 1) true)))

/-- R111, R172: the release of a CSn# without a frame in progress, and the release of HRSTn#, change nothing but
the line's level. -/
def Obligations.LineReleases : Prop :=
  ∀ (p : Port) (s : State),
    ((s.host p).selected = true → (s.host p).shifter.active = false →
      exec (.selectRelease p) s =
        .next { s with hosts := s.hosts.modify p (fun h => { h with selected := false }) }) ∧
    ((s.host p).restart = true →
      exec (.hrstRelease p) s = .next { s with hosts := s.hosts.modify p (fun h => { h with restart := false }) })

/-! ## Acceptance of ticket frames -/

/-- R110, R115, R116: the kind, arguments and partition index of the ticket that each command asks for; and an
accepted frame places a QUEUED ticket and records its number, where nothing starts at the same event: no other
event falls with the frame end (Dev.Still), and the ticket is no modifying ticket that starts when startable,
or an older live one stands before it. -/
def Obligations.TicketFrameQueued : Prop :=
  (∀ (p : Port) (c : Command) (k : TicketKind) (index : Option Nat), ticketRequest p c = some (k, index) →
    match c with
    | .read i view offset length =>
      k = .read (if view = 0 then .live else .staged) offset length ∧ index = some i.toNat
    | .program i offset length _ => k = .program offset length ∧ index = some i.toNat
    | .erase i first count => k = .erase first count ∧ index = some i.toNat
    | .claim i => k = .claim ∧ index = some i.toNat
    | .release i => k = .release ∧ index = some i.toNat
    | .commit i length check budget =>
      k = .commit length check (BitVec.ofNat 4 budget.toNat) ∧ index = some i.toNat
    | .confirm i => k = .confirm ∧ index = some i.toNat
    | .revert i => k = .revert ∧ index = some i.toNat
    | .define kind base size readers label =>
      k = .define (if kind = 0 then .plain else .image) base size (BitVec.ofNat 3 readers.toNat) label ∧ index = none
    | .delete i => k = .delete ∧ index = some i.toNat
    | .grant i readers => k = .grant (BitVec.ofNat 3 readers.toNat) ∧ index = some i.toNat
    | .fix i => k = .fix ∧ index = some i.toNat
    | _ => False) ∧
  ∀ (p : Port) (c : Command) (notify : Bool) (extra : List Byte) (k : TicketKind) (index : Option Nat) (s : State),
    s.Ready p → s.dev.phase ≠ .mounting → (c.opcode = .program → extra = []) → dataCountRight c = true →
    ticketRequest p c = some (k, index) → s.dev.Accepts p k index →
    (c.ticketBuffer.isSome = true → s.dev.pool.grants p = true) → s.dev.Still → s.dev.NothingWaits p →
    (k.startsAtOnce (s.dev.entry (index.getD 24)) = false ∨ ∃ u, s.dev.oldestModifying p = some u) →
    let t := s.dev.queued p k index notify c.ticketBuffer
    exec (Instr.ofCommand p c notify (Clocking.whole extra)) s =
      .next (s.ended p (silentBytes (1 + c.params.length + extra.length))
        { command := commandByte c.opcode notify, result := .ok, ticket := t.number }
        ((s.dev.accepted p t).leaseReloaded p))

/-- R117, R147 to R149: on a device with nothing else to do, an accepted READ, PROGRAM, ERASE, CLAIM without a
fallback or COMMIT issues its first array operation at the frame end: the ticket is RUNNING, the class
pointer names its port, a CLAIM's claim is PREPARING (R40), a COMMIT has the Verify Unit and its claim is
VERIFYING (R47, R48). The operation is the one R12, R48, R124, R125 and R126 resolve. -/
def Obligations.FirstOperationIssued : Prop :=
  ∀ (p : Port) (c : Command) (notify : Bool) (extra : List Byte) (k : TicketKind) (i : Nat) (s : State),
    s.Ready p → s.dev.phase ≠ .mounting → (c.opcode = .program → extra = []) → dataCountRight c = true →
    ticketRequest p c = some (k, some i) → s.dev.Accepts p k (some i) →
    (c.ticketBuffer.isSome = true → s.dev.pool.grants p = true) →
    s.dev.Quiet → s.dev.NoLive → s.dev.engine.current = none →
    let e := s.dev.entry i
    let t : Ticket := { s.dev.queued p k (some i) notify c.ticketBuffer with state := .running, stage := .operating }
    let d := s.dev.accepted p t
    let ends := fun (x : Dev) =>
      exec (Instr.ofCommand p c notify (Clocking.whole extra)) s =
        .next (s.ended p (silentBytes (1 + c.params.length + extra.length))
          { command := commandByte c.opcode notify, result := .ok, ticket := t.number } (x.leaseReloaded p))
    let erase := fun (sector : Nat) => issuedErase sector (.ticket p t.number)
    match k with
    | .read view offset _ =>
      (s.dev.port p).tickPending = false → (e.kind = .image → view = .live → e.live ≠ none) →
      let copy : Option Copy :=
        match e.kind with
        | .plain => none
        | .image => if view = .live then e.live else some (if e.live = some .a then .b else .a)
      let sector := e.base.toNat + (if copy = some .b then e.size.toNat else 0) + offset.toNat / 4096
      let t2 : Ticket :=
        { t with
            copyRead := copy
            generationRead := if e.kind = .image then some e.generation else none }
      ends { s.dev.accepted p t2 with
        engine := { d.engine with
          current := some (.read sector (offset.toNat % 4096 / 256) (.ticket p t.number) 0), readPointer := .port p } }
    | .program offset _ =>
      (e.kind = .image → e.claim = .opened) →
      ends { d with engine := { d.engine with
        current := some (.program (e.spareSector + offset.toNat / 4096) (offset.toNat % 4096 / 256)
          (offset.toNat % 256) (c.ticketBuffer.getD []) (.ticket p t.number) 0)
        programPointer := .port p } }
    | .erase first _ =>
      ends { d with engine := { d.engine with
        current := some (erase (e.base.toNat + first.toNat)), erasePointer := .port p } }
    | .claim =>
      e.claim = .unclaimed → e.phase = .settled → e.fallback = false →
      ends { d.setEntry i { e with claim := .preparing } with
        engine := { d.engine with
          current := some (erase e.spareSector)
          erasePointer := .port p } }
    | .commit _ _ _ =>
      e.claim = .opened → s.dev.verify.holder = none →
      ends { d.setEntry i { e with claim := .verifying } with
        verify := { d.verify with holder := some (p, t.number), crc := 0xFFFFFFFF }
        engine := { d.engine with
          current := some (.read e.spareSector 0 (.verify p t.number) 0)
          readPointer := .port p } }
    | _ => True

/-- R122, R123, R127: a ticket that starts when it becomes startable and fails its start check at acceptance
ends FAILED at the same event: BADSTATE where the state of its entry does not allow its kind (R24, R27, R40, R46,
R54, R55), OVERLAP or TFULL for a DEFINE (R19). The earlier checks of R123 are those acceptance has just made. -/
def Obligations.StartFailsAtAcceptance : Prop :=
  ∀ (p : Port) (c : Command) (notify : Bool) (extra : List Byte) (k : TicketKind) (index : Option Nat) (s : State),
    s.Ready p → s.dev.phase ≠ .mounting → ticketRequest p c = some (k, index) → s.dev.Accepts p k index →
    s.dev.Still → s.dev.oldestModifying p = none →
    let e := s.dev.entry (index.getD 24)
    let t := s.dev.queued p k index notify none
    let fails := fun (r : Result) =>
      exec (Instr.ofCommand p c notify (Clocking.whole extra)) s =
        .next (s.ended p (silentBytes (1 + c.params.length + extra.length))
          { command := commandByte c.opcode notify, result := .ok, ticket := t.number }
          (((s.dev.accepted p { t with state := .failed, result := r }).modifyPort p (fun q =>
            { q with events := q.events.afterEnd t r })).leaseReloaded p))
    match k with
    | .release => e.claim ≠ .opened → fails .badstate
    | .confirm => e.phase = .settled → fails .badstate
    | .revert => (e.claim ≠ .unclaimed ∨ (e.phase = .settled ∧ e.fallback = false)) → fails .badstate
    | .delete => e.claim ≠ .unclaimed → fails .badstate
    | .fix => (e.claim ≠ .unclaimed ∨ e.phase = .trial) → fails .badstate
    | .claim => e.fallback = true → (e.claim ≠ .unclaimed ∨ e.phase = .trial) → fails .badstate
    | .define kind base size _ _ =>
      let n := match kind with
        | .plain => size.toNat
        | .image => 2 * size.toNat
      if Table.meets s.dev.table base.toNat n = true ∨ s.dev.meetsReservation base.toNat n = true then fails .overlap
      else 24 ≤ Table.definedCount s.dev.table + s.dev.reservations.length → fails .tfull
    | _ => True

/-- R46: a RELEASE with no live modifying ticket before it and its claim OPEN has its effect at the frame end:
the claim returns to NONE and the ticket ends DONE OK. -/
def Obligations.ReleaseAtAcceptance : Prop :=
  ∀ (p : Port) (i : Byte) (notify : Bool) (extra : List Byte) (s : State),
    s.Ready p → s.dev.phase ≠ .mounting → i.toNat < 24 → s.dev.Accepts p .release (some i.toNat) →
    s.dev.Still → s.dev.oldestModifying p = none → (s.dev.entry i.toNat).claim = .opened →
    let t := s.dev.queued p .release (some i.toNat) notify none
    exec (.release p notify i (Clocking.whole extra)) s =
      .next (s.ended p (silentBytes (2 + extra.length))
        { command := commandByte .release notify, result := .ok, ticket := t.number }
        ((((s.dev.accepted p { t with state := .done }).modifyPort p (fun q =>
          { q with events := q.events.afterEnd t .ok })).setEntry i.toNat
            { s.dev.entry i.toNat with claim := .unclaimed }).leaseReloaded p))

/-- R19, R40, R54, R55, R68, R117, R122: a CONFIRM, REVERT, DELETE, GRANT, FIX, IMAGE DEFINE, or CLAIM of an
entry with a fallback, that passes its start check at acceptance is RUNNING with its record request at the
tail of the Journal Writer's queue, which takes none now (R69). The CLAIM's claim is PREPARING and the
DEFINE holds its reservation. -/
def Obligations.RecordRequestHandedOver : Prop :=
  ∀ (p : Port) (c : Command) (notify : Bool) (extra : List Byte) (k : TicketKind) (index : Option Nat) (s : State),
    s.Ready p → s.dev.phase ≠ .mounting → ticketRequest p c = some (k, index) → s.dev.Accepts p k index →
    s.dev.EngineShort → s.dev.mayForm = false → s.dev.LeasesFresh → s.dev.oldestModifying p = none →
    let i := index.getD 24
    let e := s.dev.entry i
    let t : Ticket := { s.dev.queued p k index notify none with state := .running, stage := .recording }
    let d := s.dev.accepted p t
    let hands := fun (x : Dev) (body : RequestBody) =>
      exec (Instr.ofCommand p c notify (Clocking.whole extra)) s =
        .next (s.ended p (silentBytes (1 + c.params.length + extra.length))
          { command := commandByte c.opcode notify, result := .ok, ticket := t.number }
          (({ x with
              writer := { x.writer with
                queue := x.writer.queue ++ [Request.host p t.number body] } } : Dev).leaseReloaded p))
    match k with
    | .confirm => e.phase = .trial → hands d (.confirm i e.serial)
    | .revert => e.claim = .unclaimed → (e.phase = .trial ∨ e.fallback = true) → hands d (.revert i e.serial)
    | .delete => e.claim = .unclaimed → hands d (.delete i e.serial)
    | .grant readers => hands d (.grant i e.serial readers)
    | .fix => e.claim = .unclaimed → e.phase = .settled → hands d (.fix i e.serial)
    | .claim =>
      e.claim = .unclaimed → e.phase = .settled → e.fallback = true →
        hands (d.setEntry i { e with claim := .preparing }) (.dropFallback i e.serial)
    | .define .image base size readers label =>
      Table.meets s.dev.table base.toNat (2 * size.toNat) = false →
      s.dev.meetsReservation base.toNat (2 * size.toNat) = false →
      Table.definedCount s.dev.table + s.dev.reservations.length < 24 →
        hands
          { d with
              reservations :=
                d.reservations ++ [{ port := p, base := base.toNat, sectors := 2 * size.toNat }] }
          (.define .image base size readers label)
    | _ => True

/-- R19, R20, R22, R122: a PLAIN DEFINE that passes its start checks at acceptance holds its reservation and stays
QUEUED for its scrub; on a device with nothing else to do its first erase is issued at the same event. At each
erase's completion the boundary comes: a failure, a cancel request or DEGRADED ends it with its reservation
removed, an orphan is removed with it, the next sector is erased, and after the last one its record is
handed over, formed and issued (R21, R64, R68 to R70). -/
def Obligations.PlainDefineReserves : Prop :=
  (∀ (p : Port) (notify : Bool) (base size : Half16) (readers : Byte) (rights : Readers) (label : Word32)
    (extra : List Byte) (s : State),
    s.Ready p → s.dev.phase ≠ .mounting → readersOfCode readers = some rights → readersHave rights p = false →
    footprintInRange .plain base size = true →
    s.dev.Accepts p (.define .plain base size rights label) none → s.dev.oldestModifying p = none →
    Table.meets s.dev.table base.toNat size.toNat = false →
    s.dev.meetsReservation base.toNat size.toNat = false →
    Table.definedCount s.dev.table + s.dev.reservations.length < 24 →
    let t : Ticket :=
      { s.dev.queued p (.define .plain base size rights label) none notify none with stage := .reserved }
    let reservations := s.dev.reservations ++ [{ port := p, base := base.toNat, sectors := size.toNat }]
    let ends := fun (d : Dev) =>
      exec (.define p notify 0 base size readers label (Clocking.whole extra)) s =
        .next (s.ended p (silentBytes (11 + extra.length))
          { command := commandByte .define notify, result := .ok, ticket := t.number } (d.leaseReloaded p))
    (s.dev.Still → ends { s.dev.accepted p t with reservations := reservations }) ∧
    (s.dev.Quiet → s.dev.NoLive → s.dev.engine.current = none →
      ends { s.dev.accepted p { t with state := .running, stage := .operating } with
        reservations := reservations
        engine := { s.dev.engine with
          current := some (issuedErase base.toNat (.ticket p t.number)), erasePointer := .port p } })) ∧
  ∀ (p : Port) (n : Byte) (t : Ticket) (base size : Half16) (readers : Readers) (label : Word32) (op : EraseOp)
    (v : Verdict) (s : State),
    s.dev.engine.current = some (.erase op) → op.requester = .ticket p n → op.sector < 4096 →
    s.dev.ticket p n = some t → t.kind = .define .plain base size readers label → t.state = .running →
    t.stage = .operating → t.buffer = none → s.dev.OnlyLive p n → s.dev.Quiet →
    let d := s.dev.withCurrent none
    let gone : Dev := { d with reservations := s.dev.reservations.filter (fun r => r.port != p) }
    let k := t.progress + 1
    let ends := fun (x : Dev) =>
      exec (.sectorEraseComplete v) s = .next { s with array := s.array.eraseSector op.sector v, dev := x }
    if t.orphan = true then
      ends (gone.modifyPort p (fun q => { q with ring := q.ring.filter (fun u => u.number != n) }))
    else
      match v with
      | .failure _ =>
        ends (gone.withEnd p n (fun u => { u with state := .failed, result := .arrayfail, buffer := none })
          (fun q => q.afterEnd t .arrayfail))
      | .success =>
        if t.cancelRequested = true then
          ends (gone.withEnd p n (fun _ => { t with progress := k, state := .cancelled, result := .cancelled })
            (fun q => q.afterEnd t .cancelled))
        else if s.dev.phase = .degraded then
          ends (gone.withEnd p n (fun _ => { t with progress := k, state := .failed, result := .jdead })
            (fun q => q.afterEnd t .jdead))
        else if k < size.toNat then
          ends { d.withEnd p n (fun _ => { t with progress := k }) id with
            engine := { d.engine with
              current := some (issuedErase (base.toNat + k) (.ticket p n)), erasePointer := .port p } }
        else
          s.dev.phase = .serving → s.dev.writer.condition = .good → s.dev.writer.holdFormation = false →
          s.dev.writer.nextSlot ≤ 59 → Table.meets s.dev.table base.toNat size.toNat = false →
          ∀ q i, s.dev.writer.nextSequence = some q → i < 24 → (s.dev.entry i).defined = false →
          (∀ j, j < i → (s.dev.entry j).defined = true) →
          let change := Change.define i .plain p base size readers label
          let slot := s.dev.writer.nextSlot
          ends { d.withEnd p n (fun _ => { t with progress := k, state := .running, stage := .recording }) id with
            writer := { d.writer with
              inHand := some
                { change := change, slot := slot, sequence := q, retryOf := none,
                  request := .host p n (.define .plain base size readers label) }
              nextSequence := if q = 0xFFFFFFFF then none else some (q + 1)
              buffer := changePage q none change }
            engine := { d.engine with
              current := some (.program ((match d.writer.activeHalf with
                | .h0 => 0
                | .h1 => 4) + slot / 16) (slot % 16) 0 (changePage q none change) .journal 0) } }

/-- R21, R40, R64, R69, R70: where the Journal Writer may form a record, has nothing waiting and 5 free slots, the
record of a CONFIRM, REVERT, DELETE, GRANT, FIX, IMAGE DEFINE or CLAIM of an entry with a fallback is formed at
its acceptance in the next slot, with the next sequence and retry field 0. A DEFINE's record names the lowest
index that is not defined. -/
def Obligations.RecordFormedAtAcceptance : Prop :=
  ∀ (p : Port) (c : Command) (notify : Bool) (extra : List Byte) (k : TicketKind) (index : Option Nat) (q : Word32)
    (s : State),
    s.Ready p → s.dev.phase ≠ .mounting → ticketRequest p c = some (k, index) → s.dev.Accepts p k index →
    s.dev.EngineShort → s.dev.mayForm = true → s.dev.writer.queue = [] → s.dev.writer.nextSlot ≤ 59 →
    s.dev.writer.nextSequence = some q → s.dev.LeasesFresh → s.dev.oldestModifying p = none →
    let i := index.getD 24
    let e := s.dev.entry i
    let t : Ticket := { s.dev.queued p k index notify none with state := .running, stage := .recording }
    let d := s.dev.accepted p t
    let forms := fun (x : Dev) (body : RequestBody) (change : Change) =>
      exec (Instr.ofCommand p c notify (Clocking.whole extra)) s =
        .next (s.ended p (silentBytes (1 + c.params.length + extra.length))
          { command := commandByte c.opcode notify, result := .ok, ticket := t.number }
          (({ x with
              writer := { x.writer with
                inHand := some
                  { change := change, slot := x.writer.nextSlot, sequence := q, retryOf := none,
                    request := .host p t.number body }
                nextSequence := if q = 0xFFFFFFFF then none else some (q + 1)
                buffer := changePage q none change } } : Dev).leaseReloaded p))
    match k with
    | .confirm => e.phase = .trial → forms d (.confirm i e.serial) (.confirm i e.serial)
    | .revert =>
      e.claim = .unclaimed → (e.phase = .trial ∨ e.fallback = true) →
        forms d (.revert i e.serial) (.revert i e.serial (if e.phase = .trial then false else true))
    | .delete => e.claim = .unclaimed → forms d (.delete i e.serial) (.delete i e.serial)
    | .grant readers => forms d (.grant i e.serial readers) (.grant i e.serial readers)
    | .fix => e.claim = .unclaimed → e.phase = .settled → forms d (.fix i e.serial) (.fix i e.serial)
    | .claim =>
      e.claim = .unclaimed → e.phase = .settled → e.fallback = true →
        forms (d.setEntry i { e with claim := .preparing }) (.dropFallback i e.serial) (.dropFallback i e.serial)
    | .define .image base size readers label =>
      Table.meets s.dev.table base.toNat (2 * size.toNat) = false →
      s.dev.meetsReservation base.toNat (2 * size.toNat) = false →
      Table.definedCount s.dev.table + s.dev.reservations.length < 24 →
      ∀ j, j < 24 → (s.dev.entry j).defined = false → (∀ l, l < j → (s.dev.entry l).defined = true) →
        forms
          { d with
              reservations :=
                d.reservations ++ [{ port := p, base := base.toNat, sectors := 2 * size.toNat }] }
          (.define .image base size readers label) (.define j .image p base size readers label)
    | _ => True

/-! ## Array operations that end -/

/-- R124, R127, R150: the page read of a READ completes. The ticket ends DONE with the page as the array holds
it, keeps its buffer, and TICKET_END goes out if notify is set; nothing else is at work. -/
def Obligations.ReadCompletes : Prop :=
  ∀ (p : Port) (n : Byte) (t : Ticket) (sector page age : Nat) (s : State),
    s.dev.engine.current = some (.read sector page (.ticket p n) age) → sector < 4096 → page < 16 →
    s.dev.ticket p n = some t → t.modifying = false → t.orphan = false → s.dev.OnlyLive p n → s.dev.Quiet →
    let bytes := (List.range 256).map (fun b => s.array.byteAt (sector * 4096 + page * 256 + b))
    exec .pageReadComplete s =
      .next { s with
        dev := (s.dev.withCurrent none).withEnd p n
          (fun u => { u with progress := 1, state := .done, result := .ok, buffer := u.buffer.map (fun _ => bytes) })
          (fun q => q.afterEnd t .ok) }

/-- R48 to R52, R68 to R70: a verification read of a COMMIT completes, with its entry unlocked and nothing else
at work. Before the last page the next read is issued; a check value that does not match ends it FAILED
BADCHECK with its claim OPEN; one that matches hands its record over, and a Journal Writer that may form it
does, and its program is issued. The Verify Unit is released at the final comparison. -/
def Obligations.VerificationRead : Prop :=
  ∀ (p : Port) (n : Byte) (t : Ticket) (length check : Word32) (budget : BitVec 4) (sector page age i : Nat)
    (s : State),
    s.dev.engine.current = some (.read sector page (.verify p n) age) → sector < 4096 → page < 16 →
    s.dev.ticket p n = some t → t.kind = .commit length check budget → t.index = some i → i < 24 →
    t.state = .running → t.stage = .operating → t.orphan = false → t.cancelRequested = false → t.buffer = none →
    s.dev.phase = .serving → s.dev.OnlyLive p n → s.dev.Quiet →
    let e := s.dev.entry i
    e.defined = true → t.serial = some e.serial → e.fixed = false → e.held = false → e.claim = .verifying →
    let bytes := (List.range 256).map (fun b => s.array.byteAt (sector * 4096 + page * 256 + b))
    let k := t.progress + 1
    let crc := crcAdvance s.dev.verify.crc (bytes.take (length.toNat - t.progress * 256))
    let d : Dev := { s.dev.withCurrent none with verify := { s.dev.verify with crc := crc, buffer := bytes } }
    let matched := k * 256 ≥ length.toNat
    (k * 256 < length.toNat →
      exec .pageReadComplete s =
        .next { s with
          dev := { d.withEnd p n (fun _ => { t with progress := k }) id with
            engine := { d.engine with
              current := some (.read (e.spareSector + k / 16) (k % 16) (.verify p n) 0), readPointer := .port p } } }) ∧
    (matched → crc ^^^ 0xFFFFFFFF ≠ check →
      exec .pageReadComplete s =
        .next { s with
          dev := ({ d with verify := { d.verify with holder := none } }.setEntry i { e with claim := .opened }).withEnd
            p n (fun _ => { t with progress := k, state := .failed, result := .badcheck })
            (fun q => q.afterEnd t .badcheck) }) ∧
    (matched → crc ^^^ 0xFFFFFFFF = check → s.dev.writer.condition = .good →
      s.dev.writer.holdFormation = false → s.dev.writer.nextSlot ≤ 59 →
      ∀ q, s.dev.writer.nextSequence = some q →
      let copy := if e.live = some .a then Copy.b else Copy.a
      let change := Change.commit i e.serial copy length check budget
      let slot := s.dev.writer.nextSlot
      exec .pageReadComplete s =
        .next { s with
          dev := { (({ d with verify := { d.verify with holder := none } } : Dev).setEntry i
              { e with claim := .committing }).withEnd p n
                (fun _ => { t with progress := k, state := .running, stage := .recording }) id with
            writer := { d.writer with
              inHand := some
                { change := change, slot := slot, sequence := q, retryOf := none,
                  request := .host p n (.commit i e.serial copy length check budget) }
              nextSequence := if q = 0xFFFFFFFF then none else some (q + 1)
              buffer := changePage q none change }
            engine := { d.engine with
              current := some (.program ((match d.writer.activeHalf with
                | .h0 => 0
                | .h1 => 4) + slot / 16) (slot % 16) 0 (changePage q none change) .journal 0) } } })

/-- R125, R127, R151: the page program of a PROGRAM completes: the ticket ends DONE OK or FAILED ARRAYFAIL with its
buffer back in the pool, and the page holds what the verdict leaves (Obligations.ArrayBytes). -/
def Obligations.ProgramCompletes : Prop :=
  ∀ (p : Port) (n : Byte) (t : Ticket) (sector page first age : Nat) (data : List Byte) (v : Verdict) (s : State),
    s.dev.engine.current = some (.program sector page first data (.ticket p n) age) → sector < 4096 → page < 16 →
    first + data.length ≤ 256 →
    s.dev.ticket p n = some t → t.modifying = true → t.orphan = false → s.dev.OnlyLive p n → s.dev.Quiet →
    let d : Dev :=
      { s.dev.withCurrent none with pool := if t.buffer.isSome then s.dev.pool.give p else s.dev.pool }
    exec (.pageProgramComplete v) s =
      .next { s with
        array := s.array.programPage sector page first data v
        dev :=
          match v with
          | .success =>
            d.withEnd p n (fun u => { u with progress := 1, state := .done, result := .ok, buffer := none })
              (fun q => q.afterEnd t .ok)
          | .failure _ =>
            d.withEnd p n (fun u => { u with state := .failed, result := .arrayfail, buffer := none })
              (fun q => q.afterEnd t .arrayfail) }

/-- R126, R127, R151: a sector erase of an ERASE completes. A failure ends it FAILED ARRAYFAIL; after a success the
boundary ends it DONE at its last sector, CANCELLED at a cancel request, FAILED LOCKED at a locked entry, in
that order, and issues the next sector's erase otherwise. -/
def Obligations.EraseCompletes : Prop :=
  ∀ (p : Port) (n : Byte) (t : Ticket) (first count : Half16) (op : EraseOp) (v : Verdict) (i : Nat) (s : State),
    s.dev.engine.current = some (.erase op) → op.requester = .ticket p n → op.sector < 4096 →
    s.dev.ticket p n = some t → t.kind = .erase first count → t.index = some i → t.state = .running →
    t.stage = .operating → t.orphan = false → t.buffer = none → s.dev.OnlyLive p n → s.dev.Quiet →
    let e := s.dev.entry i
    let d := s.dev.withCurrent none
    let k := t.progress + 1
    let ends := fun (x : Dev) =>
      exec (.sectorEraseComplete v) s = .next { s with array := s.array.eraseSector op.sector v, dev := x }
    match v with
    | .failure _ =>
      ends (d.withEnd p n (fun u => { u with state := .failed, result := .arrayfail, buffer := none })
        (fun q => q.afterEnd t .arrayfail))
    | .success =>
      if count.toNat ≤ k then
        ends (d.withEnd p n (fun _ => { t with progress := k, state := .done, result := .ok })
          (fun q => q.afterEnd t .ok))
      else if t.cancelRequested = true then
        ends (d.withEnd p n (fun _ => { t with progress := k, state := .cancelled, result := .cancelled })
          (fun q => q.afterEnd t .cancelled))
      else if e.defined = true ∧ (e.fixed = true ∨ e.held = true) then
        ends (d.withEnd p n (fun _ => { t with progress := k, state := .failed, result := .locked })
          (fun q => q.afterEnd t .locked))
      else
        ends { d.withEnd p n (fun _ => { t with progress := k }) id with
          engine := { d.engine with
            current := some (issuedErase (e.base.toNat + first.toNat + k) (.ticket p n)), erasePointer := .port p } }

/-- R42, R43, R151: a spare erase of a CLAIM completes. The last success ends it DONE with its claim OPEN; a
failure ends it FAILED ARRAYFAIL and a cancel request or a locked entry before the last sector CANCELLED or
FAILED LOCKED, each with its claim back at NONE; otherwise the next spare sector's erase is issued. -/
def Obligations.ClaimErases : Prop :=
  ∀ (p : Port) (n : Byte) (t : Ticket) (op : EraseOp) (v : Verdict) (i : Nat) (s : State),
    s.dev.engine.current = some (.erase op) → op.requester = .ticket p n → op.sector < 4096 →
    s.dev.ticket p n = some t → t.kind = .claim → t.index = some i → i < 24 → t.state = .running →
    t.stage = .operating → t.orphan = false → t.buffer = none → s.dev.phase = .serving → s.dev.OnlyLive p n →
    s.dev.Quiet →
    let e := s.dev.entry i
    e.defined = true → t.serial = some e.serial → e.claim = .preparing →
    let d := s.dev.withCurrent none
    let k := t.progress + 1
    let ends := fun (x : Dev) =>
      exec (.sectorEraseComplete v) s = .next { s with array := s.array.eraseSector op.sector v, dev := x }
    match v with
    | .failure _ =>
      ends ((d.setEntry i { e with claim := .unclaimed }).withEnd p n
        (fun u => { u with state := .failed, result := .arrayfail, buffer := none }) (fun q => q.afterEnd t .arrayfail))
    | .success =>
      if e.size.toNat ≤ k then
        ends ((d.setEntry i { e with claim := .opened }).withEnd p n
          (fun _ => { t with progress := k, state := .done, result := .ok }) (fun q => q.afterEnd t .ok))
      else if t.cancelRequested = true then
        ends ((d.setEntry i { e with claim := .unclaimed }).withEnd p n
          (fun _ => { t with progress := k, state := .cancelled, result := .cancelled })
          (fun q => q.afterEnd t .cancelled))
      else if e.fixed = true ∨ e.held = true then
        ends ((d.setEntry i { e with claim := .unclaimed }).withEnd p n
          (fun _ => { t with progress := k, state := .failed, result := .locked }) (fun q => q.afterEnd t .locked))
      else
        ends { d.withEnd p n (fun _ => { t with progress := k }) id with
          engine := { d.engine with
            current := some (issuedErase (e.spareSector + k) (.ticket p n)), erasePointer := .port p } }

/-! ## The Journal Writer's programs and erases -/

/-- R58, R71, R127, R171, R175: the record in hand completes, with no fold due and nothing else at work. Its change
is applied to the table with the record's sequence and its events go out: ACCESS_CHANGED to the readers of a new
entry (R21) and to the ports whose right a GRANT changes (R26), PART_REMOVED to the readers of a deleted entry
(R25), LIVE_CHANGED with the new generation to the owner and the readers of an entry whose live copy a COMMIT
(R53), a REVERT (R56) or a TICK that its budget no longer covers (R57) changes, in ascending index order. Then
its requester ends DONE OK: a DEFINE with its index and serial and its reservation gone; a port's tick-pending
flag clears. -/
def Obligations.RecordCompletes : Prop :=
  ∀ (h : InHand) (sector page first age : Nat) (data : List Byte) (s : State),
    s.dev.engine.current = some (.program sector page first data .journal age) → sector < 4096 → page < 16 →
    first + data.length ≤ 256 → s.dev.writer.inHand = some h → s.dev.writer.fold = .idle →
    s.dev.writer.queue = [] → h.slot ≤ 50 → s.dev.engine.parked = none → s.dev.mount.step = .idle →
    s.dev.LeasesLeft →
    let table := applyChange s.dev.table h.sequence h.change
    let former := s.dev.entry
    let now := Table.entry table
    let about := fun (kind : EventKind) (i : Nat) (generation : Word32) =>
      ({ kind := kind, ticket := 0, partition := some i, result := .ok, generation := generation } : Event)
    let live := fun (i : Nat) =>
      (fun (p : Port) => p == (now i).owner || readersHave (now i).readers p, about .liveChanged i (now i).generation)
    -- who is sent which record, in the order the records go out
    let sends : List ((Port → Bool) × Event) :=
      match h.change with
      | .define i _ _ _ _ readers _ => [(readersHave readers, about .accessChanged i 0)]
      | .delete i _ => [(readersHave (former i).readers, about .partRemoved i 0)]
      | .grant i _ readers =>
        [(fun p => readersHave (former i).readers p != readersHave readers p, about .accessChanged i 0)]
      | .fix _ _ => []
      | .dropFallback _ _ => []
      | .commit i _ _ _ _ _ => [live i]
      | .confirm _ _ => []
      | .revert i _ _ => [live i]
      | .tick p steps =>
        ((List.range 24).filter (fun i =>
          (former i).defined && (former i).kind == .image && (former i).owner == p && (former i).phase == .trial &&
            (former i).attempts.toNat < steps)).map live
    let told := fun (p : Port) (q : PortState) =>
      { q with events := sends.foldl (fun events x => if x.1 p then events.append x.2 else events) q.events }
    let d : Dev :=
      { s.dev.withCurrent none with
          table := table
          writer := { s.dev.writer with nextSlot := h.slot + 1, inHand := none }
          ports :=
            { p0 := told .p0 s.dev.ports.p0, p1 := told .p1 s.dev.ports.p1, p2 := told .p2 s.dev.ports.p2 } }
    let ends := fun (x : Dev) =>
      exec (.pageProgramComplete .success) s =
        .next { s with array := s.array.programPage sector page first data .success, dev := x }
    match h.request with
    | .tick p _ => s.dev.NoLive → ends (d.modifyPort p (fun q => { q with tickPending := false }))
    | .host p n body =>
      ∀ t, s.dev.ticket p n = some t → t.modifying = true → t.orphan = false → t.buffer = none →
        s.dev.OnlyLive p n →
        match body with
        | .define _ _ _ _ _ =>
          ∀ i kind owner base size readers label, h.change = .define i kind owner base size readers label →
            ends (({ d with reservations := s.dev.reservations.filter (fun r => r.port != p) } : Dev).withEnd p n
              (fun u => { u with index := some i, serial := some h.sequence, state := .done, result := .ok,
                                 buffer := none })
              (fun q => q.afterEnd { t with index := some i } .ok))
        | .dropFallback _ _ => True
        | _ =>
          ends (d.withEnd p n (fun u => { u with state := .done, result := .ok, buffer := none })
            (fun q => q.afterEnd t .ok))

/-- R41, R71: the DROP_FALLBACK record of a CLAIM completes and the CLAIM goes on to its first spare erase, or
ends at the boundary with its claim back at NONE. -/
def Obligations.DropFallbackCompletes : Prop :=
  ∀ (p : Port) (n : Byte) (t : Ticket) (h : InHand) (i sector page first age : Nat) (serial : Word32)
    (data : List Byte) (s : State),
    s.dev.engine.current = some (.program sector page first data .journal age) → sector < 4096 → page < 16 →
    first + data.length ≤ 256 → s.dev.writer.inHand = some h → s.dev.writer.fold = .idle →
    s.dev.writer.queue = [] → h.slot ≤ 50 → s.dev.engine.parked = none → s.dev.mount.step = .idle →
    s.dev.LeasesLeft → s.dev.phase = .serving →
    h.change = .dropFallback i serial → h.request = .host p n (.dropFallback i serial) →
    s.dev.ticket p n = some t → t.kind = .claim → t.index = some i → i < 24 → t.serial = some serial →
    t.state = .running → t.orphan = false → t.buffer = none → t.progress = 0 → s.dev.OnlyLive p n →
    let e := s.dev.entry i
    e.defined = true → e.kind = .image → e.serial = serial →
    let dropped := { e with fallback := false, fallbackLength := 0, fallbackCheck := 0 }
    let d : Dev :=
      { s.dev.withCurrent none with
        writer := { s.dev.writer with nextSlot := h.slot + 1, inHand := none } }
    let ends := fun (x : Dev) =>
      exec (.pageProgramComplete .success) s =
        .next { s with array := s.array.programPage sector page first data .success, dev := x }
    if t.cancelRequested = true then
      ends ((d.setEntry i { dropped with claim := .unclaimed }).withEnd p n
        (fun u => { u with state := .cancelled, result := .cancelled, buffer := none })
        (fun q => q.afterEnd t .cancelled))
    else if e.fixed = true ∨ e.held = true then
      ends ((d.setEntry i { dropped with claim := .unclaimed }).withEnd p n
        (fun u => { u with state := .failed, result := .locked, buffer := none }) (fun q => q.afterEnd t .locked))
    else
      ends { (d.setEntry i dropped).withEnd p n (fun u => { u with stage := .operating }) id with
        engine := { d.engine with
          current := some (issuedErase e.spareSector (.ticket p n)), erasePointer := .port p } }

/-- R64, R72: a first program of the record in hand fails with a slot left in the half: its slot is spoiled and
the record is formed again in the next slot, with a new sequence and the spoiled one in its retry field, and
its program is issued. -/
def Obligations.RecordRetried : Prop :=
  ∀ (h : InHand) (sector page first age : Nat) (data : List Byte) (bits : Settle) (q : Word32) (s : State),
    s.dev.engine.current = some (.program sector page first data .journal age) → sector < 4096 → page < 16 →
    first + data.length ≤ 256 → s.dev.writer.inHand = some h → h.retryOf = none → h.slot < 63 →
    s.dev.writer.nextSequence = some q → (s.dev.writer.fold = .idle → h.slot ≤ 50) → s.dev.LeasesFresh →
    let slot := h.slot + 1
    let bytes := changePage q (some h.sequence) h.change
    exec (.pageProgramComplete (.failure bits)) s =
      .next { s with
        array := s.array.programPage sector page first data (.failure bits)
        dev := { s.dev with
          writer := { s.dev.writer with
            nextSlot := slot
            inHand := some { h with slot := slot, sequence := q, retryOf := some h.sequence }
            nextSequence := if q = 0xFFFFFFFF then none else some (q + 1)
            buffer := bytes }
          engine := { s.dev.engine with
            current := some (.program ((match s.dev.writer.activeHalf with
              | .h0 => 0
              | .h1 => 4) + slot / 16) (slot % 16) 0 bytes .journal 0) } } }

/-- R22, R41, R51, R72, R80: a record in hand that cannot be retried fails: the journal is DEAD and the device
DEGRADED, PHASE_CHANGED goes to every port, and the record's ticket ends FAILED JDEAD, with a DEFINE's reservation
removed, a CLAIM's claim back at NONE and a COMMIT's at OPEN. That the fold's failure count and the
hold-formation flag are cleared at that event is the model's reading (DEDUCED, log entry 14). -/
def Obligations.JournalDies : Prop :=
  ∀ (p : Port) (n : Byte) (t : Ticket) (body : RequestBody) (h : InHand) (sector page first age : Nat)
    (data : List Byte) (bits : Settle) (s : State),
    s.dev.engine.current = some (.program sector page first data .journal age) → sector < 4096 → page < 16 →
    first + data.length ≤ 256 → s.dev.writer.inHand = some h → (h.retryOf ≠ none ∨ 63 ≤ h.slot) →
    s.dev.writer.queue = [] → s.dev.engine.parked = none → s.dev.mount.step = .idle →
    s.dev.LeasesLeft → h.request = .host p n body →
    s.dev.ticket p n = some t → t.modifying = true → t.orphan = false → t.buffer = none → s.dev.OnlyLive p n →
    let phase : Event :=
      { kind := .phaseChanged, ticket := 0, partition := none, result := .jdead, generation := 0 }
    let told := fun (q : PortState) => { q with events := q.events.append phase }
    let d : Dev :=
      { s.dev.withCurrent none with
        phase := .degraded
        ports := { p0 := told s.dev.ports.p0, p1 := told s.dev.ports.p1, p2 := told s.dev.ports.p2 }
        writer := { s.dev.writer with
          condition := .dead, inHand := none, fold := .idle, foldFailures := 0, holdFormation := false } }
    let ends := fun (x : Dev) =>
      exec (.pageProgramComplete (.failure bits)) s =
        .next { s with
          array := s.array.programPage sector page first data (.failure bits)
          dev := x.withEnd p n (fun u => { u with state := .failed, result := .jdead, buffer := none })
            (fun q => q.afterEnd t .jdead) }
    let claims := fun (i : Nat) (serial : Word32) =>
      i < 24 ∧ (s.dev.entry i).defined = true ∧ (s.dev.entry i).serial = serial ∧ (s.dev.entry i).claim ≠ .unclaimed
    match body with
    | .define _ _ _ _ _ => ends { d with reservations := s.dev.reservations.filter (fun r => r.port != p) }
    | .dropFallback i serial =>
      claims i serial → ends (d.setEntry i { s.dev.entry i with claim := .unclaimed })
    | .commit i serial _ _ _ _ =>
      claims i serial → ends (d.setEntry i { s.dev.entry i with claim := .opened })
    | _ => ends d

/-- R62, R66, R77: a checkpoint record of a fold completes, with nothing else at work: the next is formed with the
next sequence and its program issued; after the fifth the other half is active from slot 5 on. -/
def Obligations.CheckpointCompletes : Prop :=
  ∀ (capture : Table) (slot sector page first age : Nat) (data : List Byte) (s : State),
    s.dev.engine.current = some (.program sector page first data .journal age) → sector < 4096 → page < 16 →
    first + data.length ≤ 256 → s.dev.writer.inHand = none → s.dev.writer.fold = .writing capture slot →
    s.dev.writer.queue = [] → s.dev.NoLive → s.dev.engine.parked = none → s.dev.mount.step = .idle →
    s.dev.LeasesLeft →
    let ends := fun (x : Dev) =>
      exec (.pageProgramComplete .success) s =
        .next { s with array := s.array.programPage sector page first data .success, dev := x }
    (slot < 4 → ∀ q, s.dev.writer.nextSequence = some q →
      ends { s.dev.withCurrent (some (.program (match s.dev.writer.activeHalf with
            | .h0 => 4
            | .h1 => 0) (slot + 1) 0 (checkpointPage q capture (slot + 1)) .journal 0)) with
        writer := { s.dev.writer with
          fold := .writing capture (slot + 1)
          nextSequence := if q = 0xFFFFFFFF then none else some (q + 1)
          buffer := checkpointPage q capture (slot + 1) } }) ∧
    (slot = 4 →
      ends { s.dev.withCurrent none with
        writer := { s.dev.writer with
          activeHalf :=
            match s.dev.writer.activeHalf with
            | .h0 => .h1
            | .h1 => .h0
          nextSlot := 5
          fold := .idle
          foldFailures := 0 } })

/-- R76, R77, R79: an erase of a fold completes, with nothing else at work: the next sector of the other half is
erased, after the fourth the first checkpoint record of the table as it stands is formed and issued, and a
first failure begins the fold's erases again. -/
def Obligations.FoldErases : Prop :=
  ∀ (i : Nat) (op : EraseOp) (v : Verdict) (s : State),
    s.dev.engine.current = some (.erase op) → op.requester = .journal → op.sector < 4096 →
    s.dev.writer.inHand = none → s.dev.writer.fold = .erasing i → i ≤ 3 → s.dev.writer.queue = [] →
    s.dev.NoLive → s.dev.engine.parked = none → s.dev.mount.step = .idle →
    s.dev.LeasesLeft →
    let base := match s.dev.writer.activeHalf with
      | .h0 => 4
      | .h1 => 0
    let ends := fun (x : Dev) =>
      exec (.sectorEraseComplete v) s = .next { s with array := s.array.eraseSector op.sector v, dev := x }
    let erases := fun (j : Nat) (w : Writer) =>
      ends { s.dev with
        writer := { w with fold := .erasing j }
        engine := { s.dev.engine with
          current := some (issuedErase (base + j) .journal), erasePointer := .system } }
    match v with
    | .failure _ => s.dev.writer.foldFailures = 0 → erases 0 { s.dev.writer with foldFailures := 1 }
    | .success =>
      let hold := if i = 0 then false else s.dev.writer.holdFormation
      if i < 3 then erases (i + 1) { s.dev.writer with holdFormation := hold }
      else
        ∀ q, s.dev.writer.nextSequence = some q →
          let capture : Table := s.dev.table.map (fun e => { e with held := false, claim := .unclaimed })
          ends { s.dev.withCurrent (some (.program base 0 0 (checkpointPage q capture 0) .journal 0)) with
            writer := { s.dev.writer with
              fold := .writing capture 0
              holdFormation := hold
              nextSequence := if q = 0xFFFFFFFF then none else some (q + 1)
              buffer := checkpointPage q capture 0 } }

/-! ## Mounting -/

/-- R86, R87, R92: the tenth read of CHOOSING completes: the valid candidate with the later head sequence is
taken, half 0 at equal ones, and LOADING reads its slot 1; with no valid candidate FORMATTING erases
sector 0. -/
def Obligations.MountChooses : Prop :=
  ∀ (sector page age : Nat) (s : State),
    s.dev.engine.current = some (.read sector page .mount age) → sector < 4096 → page < 16 →
    s.dev.mount.step = .choosing → s.dev.mount.half = .h1 → s.dev.mount.slot = 4 → s.dev.NoLive →
    s.dev.engine.parked = none → s.dev.phase = .mounting → s.dev.writer = Writer.reset →
    (∀ p, (s.dev.port p).leaseTime ≠ 0 ∨ s.dev.leaseRuns p = false) →
    let bytes := (List.range 256).map (fun b => s.array.byteAt (sector * 4096 + page * 256 + b))
    let class' := classifyPage bytes
    let scan := scanSlot s.dev.mount.scan 4 class' bytes
    let m : Mount :=
      { s.dev.mount with
          buffer := bytes
          scan := scan
          candidate1 := scan.candidate
          highestSequence :=
            match class' with
            | .valid q _ => if s.dev.mount.highestSequence.toNat < q.toNat then q else s.dev.mount.highestSequence
            | _ => s.dev.mount.highestSequence
          torn := if class' = .torn then s.dev.mount.torn + 1 else s.dev.mount.torn }
    let loads := fun (h : JournalHalf) =>
      exec .pageReadComplete s =
        .next { s with
          dev := { s.dev with
            mount := { m with step := .loading, half := h, slot := 1, chosen := some h }
            engine := { s.dev.engine with
              current := some (.read (match h with
                | .h0 => 0
                | .h1 => 4) 1 .mount 0)
              readPointer := .system } } }
    match s.dev.mount.candidate0, scan.candidate with
    | some q0, some q1 => if q1.toNat ≤ q0.toNat then loads .h0 else loads .h1
    | some _, none => loads .h0
    | none, some _ => loads .h1
    | none, none =>
      exec .pageReadComplete s =
        .next { s with
          dev := { s.dev with
            formatted := true
            mount := { m with step := .formatErasing 0 }
            engine := { s.dev.engine with current := some (issuedErase 0 .mount), erasePointer := .system } } }

/-- R86, R88 to R91, R96: a read of LOADING or REPLAYING completes. In LOADING the six entries of a checkpoint body
are written to the table, and after slot 4 REPLAYING begins at slot 5 with last applied at the head's sequence
plus 4. In REPLAYING the record of a valid change page is applied, where its sequence is above last applied, its
retry field does not name last applied and it passes its check; a DEFINE skipped as a retry adds its alias. After
slot 63 the Journal Writer stands after the highest slot that is not erased, its sequence 8 and the torn count
past the highest seen, and the device is SERVING; a fold that is due begins (R75). What pages that the part did
not form do is the model's reading (log entry 15), and so is that LOADING counts no page (log entry 16). -/
def Obligations.MountEnds : Prop :=
  ∀ (sector page age : Nat) (s : State),
    s.dev.engine.current = some (.read sector page .mount age) → sector < 4096 → page < 16 → s.dev.NoLive →
    s.dev.engine.parked = none → s.dev.phase = .mounting → s.dev.writer = Writer.reset →
    (∀ p, (s.dev.port p).leaseTime ≠ 0 ∨ s.dev.leaseRuns p = false) →
    let bytes := (List.range 256).map (fun b => s.array.byteAt (sector * 4096 + page * 256 + b))
    let m := s.dev.mount
    let class' := classifyPage bytes
    let highest :=
      match class' with
      | .valid q _ => if m.highestSequence.toNat < q.toNat then q else m.highestSequence
      | _ => m.highestSequence
    let base := fun (h : JournalHalf) =>
      match h with
      | .h0 => 0
      | .h1 => 4
    let reads := fun (after : Mount) (table : Table) =>
      exec .pageReadComplete s =
        .next { s with
          dev := { s.dev with
            table := table
            mount := after
            engine := { s.dev.engine with
              current := some (.read (base m.half + after.slot / 16) (after.slot % 16) .mount 0)
              readPointer := .system } } }
    let finishes := fun (after : Mount) (table : Table) =>
      let told := fun (q : PortState) =>
        { q with
          events := q.events.append
            { kind := .phaseChanged, ticket := 0, partition := none, result := .ok, generation := 0 } }
      let next := after.highestSequence.toNat + 1 + after.torn + 8
      let slot := match after.highestSlot with
        | some n => n + 1
        | none => 5
      let other := 4 - base m.half
      exec .pageReadComplete s =
        .next { s with
          dev := { s.dev with
            phase := .serving
            table := table
            ports := { p0 := told s.dev.ports.p0, p1 := told s.dev.ports.p1, p2 := told s.dev.ports.p2 }
            mount := { after with step := .idle }
            writer := { Writer.reset with
              activeHalf := m.half
              nextSlot := slot
              nextSequence := if next ≤ 0xFFFFFFFF then some (BitVec.ofNat 32 next) else none
              fold := if 52 ≤ slot then .erasing 0 else .idle }
            engine :=
              if 52 ≤ slot then
                { s.dev.engine with current := some (issuedErase other .journal), erasePointer := .system }
              else { s.dev.engine with current := none } } }
    ((∀ b, b < 256 → s.array.byteAt (sector * 4096 + page * 256 + b) = 0xFF) → class' = .erased) ∧
    (m.step = .loading → 1 ≤ m.slot → m.slot ≤ 4 → ∀ entries, bodyEntries bytes = some entries →
      ∃ table : Table,
        (∀ i, i < 24 → Table.entry table i =
          if 6 * (m.slot - 1) ≤ i ∧ i < 6 * m.slot then entries.getD (i - 6 * (m.slot - 1)) Entry.undefined
          else s.dev.entry i) ∧
        let after := { m with buffer := bytes, highestSequence := highest }
        if m.slot < 4 then reads { after with slot := m.slot + 1 } table
        else
          ∀ h q, m.chosen = some h →
            (match h with
              | .h0 => m.candidate0
              | .h1 => m.candidate1) = some q →
            reads { after with step := .replaying, slot := 5, lastApplied := q + 4 } table) ∧
    (m.step = .replaying →
      let ends := fun (after : Mount) (table : Table) =>
        if m.slot < 63 then reads { after with slot := m.slot + 1 } table else finishes after table
      let seen := { m with buffer := bytes, highestSequence := highest, highestSlot := some m.slot }
      match class' with
      | .erased => ends { m with buffer := bytes } s.dev.table
      | .torn => ends { seen with torn := m.torn + 1 } s.dev.table
      | .valid q kind =>
        match if isChangeKind kind = true then changeOfPage bytes else none with
        | none => ends seen s.dev.table
        | some c =>
          let retry := word32At bytes 5
          let named := fun (i : Nat) (serial : Word32) =>
            (s.dev.entry i).defined = true ∧ ((s.dev.entry i).serial = serial ∨ (i, serial) ∈ m.aliases)
          let passes : Prop :=
            match c with
            | .define i kind _ base size _ _ =>
              let n := match kind with
                | .plain => size.toNat
                | .image => 2 * size.toNat
              (s.dev.entry i).defined = false ∧ 8 ≤ base.toNat ∧ base.toNat + n ≤ 4096 ∧
                Table.meets s.dev.table base.toNat n = false
            | .delete i serial => named i serial
            | .grant i serial _ => named i serial
            | .fix i serial => named i serial
            | .dropFallback i serial => named i serial
            | .commit i serial _ _ _ _ => named i serial
            | .confirm i serial => named i serial
            | .revert i serial _ => named i serial
            | .tick _ n => 1 ≤ n ∧ n ≤ 15
          let skippedRetry :=
            match c with
            | .define i _ _ _ _ _ _ => { seen with aliases := m.aliases ++ [(i, q)] }
            | _ => seen
          let applied :=
            { seen with
              lastApplied := q
              aliases :=
                match c with
                | .delete i _ => m.aliases.filter (fun a => a.1 != i)
                | _ => m.aliases }
          (q.toNat ≤ m.lastApplied.toNat → ends seen s.dev.table) ∧
          (m.lastApplied.toNat < q.toNat → retry ≠ 0 → retry = m.lastApplied → ends skippedRetry s.dev.table) ∧
          (m.lastApplied.toNat < q.toNat → (retry = 0 ∨ retry ≠ m.lastApplied) →
            (passes → ends applied (applyChange s.dev.table q c)) ∧ (¬ passes → ends seen s.dev.table)))

/-- R84 to R87, R92, R96: the first mount of a part as delivered: ten reads, four erases and five programs, each
with success, leave it SERVING and formatted, with an empty table and half 0 active from slot 5 on. -/
def Obligations.DeliveredPartFormats : Prop :=
  ∃ t : State,
    execAll (List.replicate 10 .pageReadComplete ++ List.replicate 4 (.sectorEraseComplete .success) ++
      List.replicate 5 (.pageProgramComplete .success)) State.reset = some t ∧
    t.dev.phase = .serving ∧ t.dev.formatted = true ∧ t.dev.table = Table.empty ∧
    t.dev.writer.activeHalf = .h0 ∧ t.dev.writer.nextSlot = 5 ∧ t.dev.writer.nextSequence = some 6 ∧
    t.dev.engine.current = none ∧ t.attention .p0 = true ∧ t.array.readPage 0 4 = checkpointPage 5 Table.empty 4

/-! ## Suspension of an erase, leases -/

/-- R147, R155, R157: ERASE_PARKED answers a suspension request: the erase is parked with one suspension more and
the record in hand is programmed; with no other operation ready the parked erase is resumed at once. -/
def Obligations.EraseParks : Prop :=
  ∀ (e : EraseOp) (s : State),
    s.dev.engine.current = some (.erase e) → e.requested = true → s.dev.LeasesFresh →
    (∀ h, s.dev.writer.inHand = some h →
      exec .eraseParked s =
        .next { s with
          dev := { s.dev with
            engine := { s.dev.engine with
              parked := some
                { sector := e.sector, run := e.run, suspends := e.suspends + 1, requester := e.requester }
              current := some (.program ((match s.dev.writer.activeHalf with
                | .h0 => 0
                | .h1 => 4) + h.slot / 16) (h.slot % 16) 0 s.dev.writer.buffer .journal 0) } } }) ∧
    (s.dev.shortReady = false → s.dev.TakesNone → s.dev.engine.parked = none →
      exec .eraseParked s =
        .next { s with
          dev := { s.dev with
            engine := { s.dev.engine with
              parked := none
              current := some (.erase
                { sector := e.sector, run := e.run, since := 0, suspends := e.suspends + 1, requested := false,
                  asked := 0, requester := e.requester }) } } })

/-- R153, R159: ERASE_QUANTUM_EXPIRY: the current erase has run 1 ms since issue or resumption, and its suspension
is requested if a record, read or program operation is ready and it has been suspended fewer than 24 times. That
the command may come with the quantum not run, adds the rest of it to the run time and lets nothing else of the
part age is the model's choice (DESIGN CHOICE, log entry 2). -/
def Obligations.QuantumExpiry : Prop :=
  ∀ (e : EraseOp) (s : State),
    s.dev.engine.current = some (.erase e) → e.since < 1000 → e.run + (1000 - e.since) ≤ 400000 →
    e.requested = false →
    let asks := s.dev.shortReady = true ∧ e.suspends < 24
    exec .eraseQuantumExpiry s =
      .next { s with
        dev := s.dev.withCurrent (some (.erase
          { e with
              run := e.run + (1000 - e.since), since := 1000, requested := decide asks
              asked := if asks then 0 else e.asked })) }

/-- R165, R166: LEASE_EXPIRY: every claim of the port is released, in ascending index order, with a LEASE_LOST
event for each, and nothing else changes. That the command may come with any time left, makes it 0 and lets no
other time pass is the model's choice (DESIGN CHOICE, log entry 2). -/
def Obligations.LeaseExpires : Prop :=
  ∀ (p : Port) (s : State), s.outOfReset = true → s.dev.leaseRuns p = true →
    let held := (List.range 24).filter (fun i =>
      (s.dev.entry i).defined && (s.dev.entry i).owner == p && (s.dev.entry i).claim != .unclaimed)
    exec (.leaseExpiry p) s =
      .next { s with
        dev := ({ s.dev with
            table := s.dev.table.map (fun e =>
              if e.defined = true ∧ e.owner = p then { e with claim := .unclaimed } else e) } : Dev).modifyPort p (fun q =>
          { q with
              leaseTime := 0
              events := held.foldl (fun q i =>
                q.append { kind := .leaseLost, ticket := 0, partition := some i, result := .ok, generation := 0 })
                q.events }) }

/-! ## Device reset and port restart -/

/-- R11, R84, R86, R98, R112, R142: DEVICE_RESET in any state. The operations are cut off, the shared side is as
it is in State.reset, with the first read of the mount issued, and every port's frame, SOn record and last
outcome are gone; the lines' levels and the array's other bytes stay. That it may fall in any state is the
model's choice (log entry 9); the SOn record is its own (log entry 10). -/
def Obligations.DeviceResets : Prop :=
  ∀ (cut : CutOff) (s : State), s.dev.engine.inArray = true →
    let fresh := fun (h : HostPort) =>
      { h with shifter := Shifter.empty, so := [], soBits := [], outcome := { command := 0, result := .ok, ticket := 0 } }
    exec (.deviceReset cut) s =
      .next { s with
        powered := true
        resetPin := false
        hosts := { p0 := fresh s.hosts.p0, p1 := fresh s.hosts.p1, p2 := fresh s.hosts.p2 }
        array := s.array.cutOff s.dev.engine cut
        dev := State.reset.dev }

/-- R11, R84, R98, R135: RESET_ASSERTION and POWER_LOSS cut off the operations, and nothing runs and no port takes
frames or drives a pin until device reset. A buffer that a frame in progress held at RESET_ASSERTION is back in
the pool. That RESET_ASSERTION itself empties the shifters, and that the supply's loss gives the shared side its
reset values at once, is the model's reading (DEDUCED, log entry 11). -/
def Obligations.ResetBegins : Prop :=
  ∀ (cut : CutOff) (s : State), s.dev.engine.inArray = true →
    (s.resetPin = false →
      ∃ t, exec (.resetAssertion cut) s = .next t ∧ t.outOfReset = false ∧
        t.array = s.array.cutOff s.dev.engine cut ∧ t.dev.engine.current = none ∧ t.dev.engine.parked = none ∧
        (let held := fun (p : Port) => if (s.host p).shifter.buffer.isSome then 1 else 0
         t.dev.pool.free = s.dev.pool.free + held .p0 + held .p1 + held .p2 ∧
          ∀ p, t.dev.pool.held.get p = s.dev.pool.held.get p - held p) ∧
        (∀ p, (t.host p).shifter = Shifter.empty ∧ t.takesFrames p = false ∧ t.drivesSo p = false ∧
          t.attention p = false)) ∧
    (s.powered = true →
      ∃ t, exec (.powerLoss cut) s = .next t ∧ t.outOfReset = false ∧
        t.array = s.array.cutOff s.dev.engine cut ∧ t.dev = Dev.reset ∧
        (∀ p, (t.host p).shifter = Shifter.empty ∧ t.takesFrames p = false ∧ t.drivesSo p = false ∧
          t.attention p = false))

/-- R81, R111, R167 to R171: HRST_ASSERT on a running device whose engine stays busy and whose Journal Writer
takes no request now. RUNNING tickets become orphans and every other ticket goes with its buffer; claims
other than COMMITTING return to NONE; a step joins the port's waiting tick request, or a request of one step
joins the queue. -/
def Obligations.PortRestarts : Prop :=
  ∀ (p : Port) (s : State),
    (s.host p).restart = false → s.outOfReset = true → s.dev.EngineShort → s.dev.mayForm = false →
    s.dev.LeasesFresh → s.dev.writer.condition = .good → s.WithinCapacity →
    let ring := s.dev.ring p
    let gone := ring.filter (fun t => t.state != .running)
    let frame := (s.host p).shifter.buffer.isSome
    let freed := (gone.filter (fun t => t.buffer.isSome)).length + (if frame = true then 1 else 0)
    let waits := s.dev.writer.queue.any (fun r =>
      match r with
      | .tick q _ => q == p
      | .host _ _ _ => false)
    exec (.hrstAssert p) s =
      .next { s with
        hosts := s.hosts.modify p (fun h =>
          { h with
              restart := true, shifter := Shifter.empty
              outcome := { command := 0, result := .ok, ticket := 0 } })
        dev := ({ s.dev with
            pool :=
              { free := s.dev.pool.free + freed, held := s.dev.pool.held.modify p (fun n => n - freed) }
            reservations :=
              if gone.any (fun t => t.state == .queued && t.stage == .reserved) then
                s.dev.reservations.filter (fun r => r.port != p)
              else s.dev.reservations
            table := s.dev.table.map (fun e =>
              if e.owner = p ∧ e.claim ≠ .committing then { e with claim := .unclaimed } else e)
            writer := { s.dev.writer with
              queue :=
                if waits then
                  s.dev.writer.queue.map (fun r =>
                    match r with
                    | .tick q n => if q = p then .tick q (min 15 (n + 1)) else r
                    | .host _ _ _ => r)
                else s.dev.writer.queue ++ [.tick p 1] } } : Dev).modifyPort p (fun q =>
          { ring := (q.ring.filter (fun t => t.state == .running)).map (fun t => { t with orphan := true })
            nextNumber := 1
            events := { records := [], lost := false, discarded := false }
            leaseSetting := 100
            leaseTime := 1000000
            tickPending := true }) }

/-! ## What the rules say of one part -/

/-- R136, R139: the guarantee of two buffers. While the ten buffers are in the pool or held, and the free ones
cover what the ports are still owed, a grant keeps both and is never refused to a port that holds fewer than
two; a release keeps both. -/
def Obligations.PoolGuarantee : Prop :=
  let sound := fun (b : Pool) =>
    b.free + b.held.p0 + b.held.p1 + b.held.p2 = 10 ∧ (2 - b.held.p0) + (2 - b.held.p1) + (2 - b.held.p2) ≤ b.free
  (∀ (b : Pool) (p : Port), sound b → b.grants p = true → 1 ≤ b.free ∧ sound (b.take p)) ∧
  (∀ (b : Pool) (p : Port), sound b → b.held.get p < 2 → b.grants p = true) ∧
  (∀ (b : Pool) (p : Port), sound b → 1 ≤ b.held.get p → sound (b.give p))

/-- R57: a TICK of port p with step count n over the table. A partition of p in TRIAL loses n attempts, or
reverts where n exceeds its budget; every other entry is unchanged. -/
def Obligations.TickBudget : Prop :=
  ∀ (t : Table) (q : Word32) (p : Port) (n i : Nat), i < 24 →
    let e := Table.entry t i
    let after := Table.entry (applyChange t q (.tick p n)) i
    if e.defined = true ∧ e.kind = .image ∧ e.owner = p ∧ e.phase = .trial then
      if n ≤ e.attempts.toNat then after = { e with attempts := e.attempts - BitVec.ofNat 4 n }
      else
        after =
          { e with
              live := if e.fallback = true then e.live.map (fun c => if c = .a then .b else .a) else none
              liveLength := if e.fallback = true then e.fallbackLength else 0
              liveCheck := if e.fallback = true then e.fallbackCheck else 0
              fallback := false, fallbackLength := 0, fallbackCheck := 0, phase := .settled, attempts := 0
              generation := e.generation + 1 }
    else after = e

/-- R14, R16, R21, R25, R26, R27, R41, R53, R54, R56: what a change record does to the entry it names, IMAGE for
the image changes, and that it changes no other entry. R56 gives the settled case of a REVERT for fallback PRESENT;
that the same exchange is made with fallback ABSENT or live NONE, which only a page that the part did not form can
bring, is the model's choice (DESIGN CHOICE, log entry 15). -/
def Obligations.TableChanges : Prop :=
  ∀ (t : Table) (q : Word32) (i : Nat), i < 24 →
    let e := Table.entry t i
    let makes := fun (c : Change) (after : Entry) =>
      Table.entry (applyChange t q c) i = after ∧
        ∀ j, j ≠ i → Table.entry (applyChange t q c) j = Table.entry t j
    let other := fun (c : Copy) => if c = .a then Copy.b else Copy.a
    (∀ kind owner base size readers label,
      makes (.define i kind owner base size readers label)
        { Entry.undefined with
            defined := true, kind := kind, owner := owner, base := base, size := size, readers := readers
            label := label, serial := q }) ∧
    (∀ serial, makes (.delete i serial) Entry.undefined) ∧
    (∀ serial readers, makes (.grant i serial readers) { e with readers := readers }) ∧
    (∀ serial, makes (.fix i serial) { e with fixed := true }) ∧
    (e.kind = .image →
      (∀ serial, makes (.dropFallback i serial) { e with fallback := false, fallbackLength := 0, fallbackCheck := 0 }) ∧
      (∀ serial copy length check budget,
        makes (.commit i serial copy length check budget)
          { e with
              fallback := decide (e.live ≠ none)
              fallbackLength := if e.live ≠ none then e.liveLength else 0
              fallbackCheck := if e.live ≠ none then e.liveCheck else 0
              live := some copy, liveLength := length, liveCheck := check, generation := e.generation + 1
              phase := if budget = 0 then .settled else .trial
              attempts := budget, claim := .unclaimed }) ∧
      (∀ serial, makes (.confirm i serial) { e with phase := .settled, attempts := 0 }) ∧
      (∀ serial,
        makes (.revert i serial false)
          { e with
              live := if e.fallback = true then e.live.map other else none
              liveLength := if e.fallback = true then e.fallbackLength else 0
              liveCheck := if e.fallback = true then e.fallbackCheck else 0
              fallback := false, fallbackLength := 0, fallbackCheck := 0, phase := .settled, attempts := 0
              generation := e.generation + 1 }) ∧
      (∀ serial,
        makes (.revert i serial true)
          { e with
              live := e.live.map other, liveLength := e.fallbackLength, liveCheck := e.fallbackCheck
              fallback := true, fallbackLength := e.liveLength, fallbackCheck := e.liveCheck
              phase := .settled, attempts := 0, generation := e.generation + 1 }))

/-- R147, R148: the Scheduler's choice: a record program; a read; a program of the program class; the resumption
of the parked erase; an erase, none while one is parked. Within a class the member after the one its pointer
names comes first. -/
def Obligations.SchedulerOrder : Prop :=
  ∀ d : Dev,
    let members : List Member := [.port .p0, .port .p1, .port .p2, .system]
    let place := fun (m : Member) =>
      match m with
      | .port .p0 => 0
      | .port .p1 => 1
      | .port .p2 => 2
      | .system => 3
    let turns := fun (m : Member) =>
      (List.range 4).map (fun k => members.getD ((place m + 1 + k) % 4) .system)
    d.choose =
      if d.recordReady.isSome = true then some .record
      else
        match (turns d.engine.readPointer).find? d.readReady with
        | some m => some (.read m)
        | none =>
          match (turns d.engine.programPointer).find? d.programReady with
          | some m => some (.program m)
          | none =>
            if d.engine.parked ≠ none then some .resume
            else
              match (turns d.engine.erasePointer).find? d.eraseReady with
              | some m => some (.erase m)
              | none => none

/-- R5, R6, R10, R11: the byte at every address after a page program, a sector erase and a cut-off. A programmed
byte is ANDed with the supplied one, an erased one is 0xFF; where the operation fails or is cut off, the bits
its mask marks took their target value and the others, and every byte outside, stayed. That a command names those
bits by a mask is the model's choice (DESIGN CHOICE, log entry 6). -/
def Obligations.ArrayBytes : Prop :=
  ∀ (m : Memory) (x : Nat), m.wf →
    let mask := fun (u : Settle) (i : Nat) => ((u.cells.find? (fun c => c.1 == i)).map (·.2)).getD u.fill
    (∀ (sector page first : Nat) (data : List Byte),
      let a := sector * 4096 + page * 256 + first
      (x < a ∨ a + data.length ≤ x → ∀ v, (m.programPage sector page first data v).byteAt x = m.byteAt x) ∧
      ∀ i, i < data.length → x = a + i →
        (m.programPage sector page first data .success).byteAt x = m.byteAt x &&& data.getD i 0 ∧
        ∀ u, (m.programPage sector page first data (.failure u)).byteAt x =
          m.byteAt x &&& (data.getD i 0 ||| ~~~ mask u i)) ∧
    (∀ sector,
      (x < sector * 4096 ∨ sector * 4096 + 4096 ≤ x → ∀ v, (m.eraseSector sector v).byteAt x = m.byteAt x) ∧
      ∀ i, i < 4096 → x = sector * 4096 + i →
        (m.eraseSector sector .success).byteAt x = 0xFF ∧
        ∀ u, (m.eraseSector sector (.failure u)).byteAt x = m.byteAt x ||| mask u i) ∧
    ∀ (g : Engine) (cut : CutOff),
      m.cutOff g cut =
        let m1 :=
          match g.current with
          | some (.program sector page first data _ _) => m.programPage sector page first data (.failure cut.current)
          | some (.erase e) => m.eraseSector e.sector (.failure cut.current)
          | some (.read _ _ _ _) => m
          | none => m
        match g.parked with
        | some e => m1.eraseSector e.sector (.failure cut.parked)
        | none => m1
end

