-- ==== Sys2Proof/Laws/State.lean ====
section
/-!
SUPPORT. What each update of the state leaves of each field: one lemma per field per update, so that no
later proof unfolds a record update.
-/

namespace Sys2Proof.Laws

open Sys2Proof.Machine

/-! ## One value per port -/

section PerPortLaws
variable {α β : Type} (v : PerPort α) (p q : Port) (x : α) (f : α → α)

@[simp] theorem get_set_same : (v.set p x).get p = x := by cases p <;> rfl

theorem get_set_other (h : q ≠ p) : (v.set p x).get q = v.get q := by
  cases p <;> cases q <;> first | rfl | exact absurd rfl h

theorem get_set : (v.set p x).get q = if q = p then x else v.get q := by
  cases p <;> cases q <;> rfl

@[simp] theorem get_modify_same : (v.modify p f).get p = f (v.get p) := by cases p <;> rfl

theorem get_modify_other (h : q ≠ p) : (v.modify p f).get q = v.get q := by
  cases p <;> cases q <;> first | rfl | exact absurd rfl h

theorem get_modify : (v.modify p f).get q = if q = p then f (v.get p) else v.get q := by
  cases p <;> cases q <;> rfl

@[simp] theorem get_map (g : α → β) : (v.map g).get p = g (v.get p) := by cases p <;> rfl

@[simp] theorem modify_modify (g : α → α) : (v.modify p f).modify p g = v.modify p (fun a => g (f a)) := by
  cases p <;> rfl

@[simp] theorem modify_id : v.modify p (fun a => a) = v := by cases p <;> rfl

theorem modify_congr {g : α → α} (h : f (v.get p) = g (v.get p)) : v.modify p f = v.modify p g := by
  cases p <;> simp only [PerPort.modify, PerPort.set, PerPort.get] at * <;> rw [h]

/-- Two values per port that agree at every port are one. -/
theorem perPort_ext {v w : PerPort α} (h : ∀ p, v.get p = w.get p) : v = w := by
  cases v; cases w
  have h0 := h .p0; have h1 := h .p1; have h2 := h .p2
  simp only [PerPort.get] at h0 h1 h2
  subst h0 h1 h2; rfl

end PerPortLaws

/-! ## A port of the shared side -/

section PortLaws
variable (d : Dev) (p q : Port) (f g : PortState → PortState)

@[simp] theorem modifyPort_phase : (d.modifyPort p f).phase = d.phase := rfl
@[simp] theorem modifyPort_formatted : (d.modifyPort p f).formatted = d.formatted := rfl
@[simp] theorem modifyPort_ports : (d.modifyPort p f).ports = d.ports.modify p f := rfl
@[simp] theorem modifyPort_pool : (d.modifyPort p f).pool = d.pool := rfl
@[simp] theorem modifyPort_table : (d.modifyPort p f).table = d.table := rfl
@[simp] theorem modifyPort_reservations : (d.modifyPort p f).reservations = d.reservations := rfl
@[simp] theorem modifyPort_verify : (d.modifyPort p f).verify = d.verify := rfl
@[simp] theorem modifyPort_engine : (d.modifyPort p f).engine = d.engine := rfl
@[simp] theorem modifyPort_writer : (d.modifyPort p f).writer = d.writer := rfl
@[simp] theorem modifyPort_mount : (d.modifyPort p f).mount = d.mount := rfl
@[simp] theorem modifyPort_entry (i : Nat) : (d.modifyPort p f).entry i = d.entry i := rfl
@[simp] theorem modifyPort_port_same : (d.modifyPort p f).port p = f (d.port p) := get_modify_same _ _ _

theorem modifyPort_port (q : Port) : (d.modifyPort p f).port q = if q = p then f (d.port p) else d.port q :=
  get_modify _ _ _ _

theorem modifyPort_port_other (h : q ≠ p) : (d.modifyPort p f).port q = d.port q := get_modify_other _ _ _ _ h

@[simp] theorem modifyPort_modifyPort :
    (d.modifyPort p f).modifyPort p g = d.modifyPort p (fun s => g (f s)) := by
  simp [Dev.modifyPort]

end PortLaws

/-! ## Blocks of the shared side -/

section BlockLaws
variable (d : Dev) (p : Port)

@[simp] theorem modifyEngine_phase (f : Engine → Engine) : (d.modifyEngine f).phase = d.phase := rfl
@[simp] theorem modifyEngine_formatted (f : Engine → Engine) : (d.modifyEngine f).formatted = d.formatted := rfl
@[simp] theorem modifyEngine_ports (f : Engine → Engine) : (d.modifyEngine f).ports = d.ports := rfl
@[simp] theorem modifyEngine_pool (f : Engine → Engine) : (d.modifyEngine f).pool = d.pool := rfl
@[simp] theorem modifyEngine_table (f : Engine → Engine) : (d.modifyEngine f).table = d.table := rfl
@[simp] theorem modifyEngine_reservations (f : Engine → Engine) :
    (d.modifyEngine f).reservations = d.reservations := rfl
@[simp] theorem modifyEngine_verify (f : Engine → Engine) : (d.modifyEngine f).verify = d.verify := rfl
@[simp] theorem modifyEngine_engine (f : Engine → Engine) : (d.modifyEngine f).engine = f d.engine := rfl
@[simp] theorem modifyEngine_writer (f : Engine → Engine) : (d.modifyEngine f).writer = d.writer := rfl
@[simp] theorem modifyEngine_mount (f : Engine → Engine) : (d.modifyEngine f).mount = d.mount := rfl
@[simp] theorem modifyEngine_port (f : Engine → Engine) : (d.modifyEngine f).port p = d.port p := rfl
@[simp] theorem modifyEngine_entry (f : Engine → Engine) (i : Nat) : (d.modifyEngine f).entry i = d.entry i := rfl

@[simp] theorem modifyWriter_phase (f : Writer → Writer) : (d.modifyWriter f).phase = d.phase := rfl
@[simp] theorem modifyWriter_formatted (f : Writer → Writer) : (d.modifyWriter f).formatted = d.formatted := rfl
@[simp] theorem modifyWriter_ports (f : Writer → Writer) : (d.modifyWriter f).ports = d.ports := rfl
@[simp] theorem modifyWriter_pool (f : Writer → Writer) : (d.modifyWriter f).pool = d.pool := rfl
@[simp] theorem modifyWriter_table (f : Writer → Writer) : (d.modifyWriter f).table = d.table := rfl
@[simp] theorem modifyWriter_reservations (f : Writer → Writer) :
    (d.modifyWriter f).reservations = d.reservations := rfl
@[simp] theorem modifyWriter_verify (f : Writer → Writer) : (d.modifyWriter f).verify = d.verify := rfl
@[simp] theorem modifyWriter_engine (f : Writer → Writer) : (d.modifyWriter f).engine = d.engine := rfl
@[simp] theorem modifyWriter_writer (f : Writer → Writer) : (d.modifyWriter f).writer = f d.writer := rfl
@[simp] theorem modifyWriter_mount (f : Writer → Writer) : (d.modifyWriter f).mount = d.mount := rfl
@[simp] theorem modifyWriter_port (f : Writer → Writer) : (d.modifyWriter f).port p = d.port p := rfl

@[simp] theorem modifyMount_phase (f : Mount → Mount) : (d.modifyMount f).phase = d.phase := rfl
@[simp] theorem modifyMount_ports (f : Mount → Mount) : (d.modifyMount f).ports = d.ports := rfl
@[simp] theorem modifyMount_table (f : Mount → Mount) : (d.modifyMount f).table = d.table := rfl
@[simp] theorem modifyMount_engine (f : Mount → Mount) : (d.modifyMount f).engine = d.engine := rfl
@[simp] theorem modifyMount_writer (f : Mount → Mount) : (d.modifyMount f).writer = d.writer := rfl
@[simp] theorem modifyMount_mount (f : Mount → Mount) : (d.modifyMount f).mount = f d.mount := rfl
@[simp] theorem modifyMount_port (f : Mount → Mount) : (d.modifyMount f).port p = d.port p := rfl

end BlockLaws

/-! ## The ring, the event queue, the pool -/

section RingLaws
variable (d : Dev) (p q : Port)

@[simp] theorem setRing_ring_same (r : List Ticket) : (d.setRing p r).ring p = r := by
  simp [Dev.setRing, Dev.ring]

theorem setRing_ring_other (r : List Ticket) (h : q ≠ p) : (d.setRing p r).ring q = d.ring q := by
  simp [Dev.setRing, Dev.ring, modifyPort_port_other _ _ _ _ h]

@[simp] theorem modifyTicket_ring_same (n : Byte) (f : Ticket → Ticket) :
    (d.modifyTicket p n f).ring p = (d.ring p).map (fun t => if t.number == n then f t else t) :=
  setRing_ring_same _ _ _

@[simp] theorem removeTicket_ring_same (n : Byte) :
    (d.removeTicket p n).ring p = (d.ring p).filter (fun t => t.number != n) := setRing_ring_same _ _ _

@[simp] theorem send_events_same (e : Event) :
    ((d.send p e).port p).events = (d.port p).events.append e := by simp [Dev.send]

theorem send_port_other (e : Event) (h : q ≠ p) : (d.send p e).port q = d.port q := by
  simp [Dev.send, modifyPort_port_other _ _ _ _ h]

@[simp] theorem send_ring (e : Event) : (d.send p e).ring q = d.ring q := by
  simp only [Dev.send, Dev.ring, modifyPort_port]; split <;> simp_all

@[simp] theorem giveBuffer_pool : (d.giveBuffer p).pool = d.pool.give p := rfl
@[simp] theorem giveBuffer_ports : (d.giveBuffer p).ports = d.ports := rfl
@[simp] theorem takeBuffer_pool : (d.takeBuffer p).pool = d.pool.take p := rfl
@[simp] theorem takeBuffer_ports : (d.takeBuffer p).ports = d.ports := rfl
@[simp] theorem giveBufferIf_false : d.giveBufferIf p false = d := rfl
@[simp] theorem giveBufferIf_true : d.giveBufferIf p true = d.giveBuffer p := rfl

end RingLaws

/-! ## The table -/

section TableLaws
variable (t : Table) (i j : Nat) (e : Entry)

theorem setEntry_entry_same (h : i < 24) : Table.entry (Table.setEntry t i e) i = e := by
  simp [Table.entry, Table.setEntry, h]

theorem setEntry_entry_other (h : j ≠ i) : Table.entry (Table.setEntry t i e) j = Table.entry t j := by
  unfold Table.entry Table.setEntry
  split
  · rw [Vector.getElem_setIfInBounds_ne]; exact fun hij => h hij.symm
  · rfl

theorem entry_beyond (h : ¬ i < 24) : Table.entry t i = Entry.undefined := by simp [Table.entry, h]

theorem map_entry (f : Entry → Entry) (h : i < 24) : Table.entry (t.map f) i = f (Table.entry t i) := by
  simp [Table.entry, h]

end TableLaws

/-! ## The host side -/

section HostLaws
variable (s : State) (p q : Port) (f g : HostPort → HostPort)

@[simp] theorem modifyHost_pending : (s.modifyHost p f).pending = s.pending := rfl
@[simp] theorem modifyHost_powered : (s.modifyHost p f).powered = s.powered := rfl
@[simp] theorem modifyHost_resetPin : (s.modifyHost p f).resetPin = s.resetPin := rfl
@[simp] theorem modifyHost_hosts : (s.modifyHost p f).hosts = s.hosts.modify p f := rfl
@[simp] theorem modifyHost_array : (s.modifyHost p f).array = s.array := rfl
@[simp] theorem modifyHost_dev : (s.modifyHost p f).dev = s.dev := rfl
@[simp] theorem modifyHost_host_same : (s.modifyHost p f).host p = f (s.host p) := get_modify_same _ _ _
theorem modifyHost_host_other (h : q ≠ p) : (s.modifyHost p f).host q = s.host q := get_modify_other _ _ _ _ h
@[simp] theorem modifyHost_modifyHost :
    (s.modifyHost p f).modifyHost p g = s.modifyHost p (fun h => g (f h)) := by simp [State.modifyHost]
@[simp] theorem modifyHost_outOfReset : (s.modifyHost p f).outOfReset = s.outOfReset := rfl

@[simp] theorem modifyDev_pending (h : Dev → Dev) : (s.modifyDev h).pending = s.pending := rfl
@[simp] theorem modifyDev_powered (h : Dev → Dev) : (s.modifyDev h).powered = s.powered := rfl
@[simp] theorem modifyDev_resetPin (h : Dev → Dev) : (s.modifyDev h).resetPin = s.resetPin := rfl
@[simp] theorem modifyDev_hosts (h : Dev → Dev) : (s.modifyDev h).hosts = s.hosts := rfl
@[simp] theorem modifyDev_host (h : Dev → Dev) : (s.modifyDev h).host p = s.host p := rfl
@[simp] theorem modifyDev_array (h : Dev → Dev) : (s.modifyDev h).array = s.array := rfl
@[simp] theorem modifyDev_dev (h : Dev → Dev) : (s.modifyDev h).dev = h s.dev := rfl
@[simp] theorem modifyDev_modifyDev (h k : Dev → Dev) :
    (s.modifyDev h).modifyDev k = s.modifyDev (fun d => k (h d)) := rfl
theorem modifyDev_modifyHost (h : Dev → Dev) :
    (s.modifyDev h).modifyHost p f = (s.modifyHost p f).modifyDev h := rfl

@[simp] theorem modifyShifter_eq (h : Shifter → Shifter) :
    s.modifyShifter p h = s.modifyHost p (fun g => { g with shifter := h g.shifter }) := rfl

end HostLaws

end Sys2Proof.Laws
end

