-- ==== Sys2Proof/Laws/Words.lean ====
section
/-!
SUPPORT. Fields and their bytes (R99): a field written most significant byte first reads back.
-/

namespace Sys2Proof.Laws

open Sys2Proof.Machine

theorem join16 (w : Half16) : w.extractLsb' 8 8 ++ w.extractLsb' 0 8 = w := by
  apply BitVec.eq_of_getLsbD_eq
  intro i hi
  simp only [BitVec.getLsbD_append, BitVec.getLsbD_extractLsb']
  by_cases h : i < 8
  · simp [h]
  · simp [h, show i - 8 < 8 by omega, show 8 + (i - 8) = i by omega]

theorem join32 (w : Word32) :
    w.extractLsb' 24 8 ++ w.extractLsb' 16 8 ++ w.extractLsb' 8 8 ++ w.extractLsb' 0 8 = w := by
  apply BitVec.eq_of_getLsbD_eq
  intro i hi
  simp only [BitVec.getLsbD_append, BitVec.getLsbD_extractLsb']
  by_cases h : i < 8
  · simp [h]
  · by_cases h2 : i - 8 < 8
    · simp [h, h2, show 8 + (i - 8) = i by omega]
    · by_cases h3 : i - 8 - 8 < 8
      · simp [h, h2, h3, show 16 + (i - 8 - 8) = i by omega]
      · simp [h, h2, h3, show i - 8 - 8 - 8 < 8 by omega, show 24 + (i - 8 - 8 - 8) = i by omega]

@[simp] theorem bytesOf16_length (w : Half16) : (bytesOf16 w).length = 2 := rfl
@[simp] theorem bytesOf32_length (w : Word32) : (bytesOf32 w).length = 4 := rfl

/-- R99: a two-byte field after `n` bytes. -/
theorem half16At_append (pre : List Byte) (w : Half16) (post : List Byte) (n : Nat) (h : n = pre.length) :
    half16At (pre ++ (bytesOf16 w ++ post)) n = w := by
  subst h
  have e : bytesOf16 w ++ post = w.extractLsb' 8 8 :: w.extractLsb' 0 8 :: post := rfl
  have g (k : Nat) : (pre ++ (bytesOf16 w ++ post)).getD (pre.length + k) 0 = (bytesOf16 w ++ post).getD k 0 := by
    rw [List.getD_append_right _ _ _ _ (Nat.le_add_right _ _), Nat.add_sub_cancel_left]
  have g0 := g 0
  rw [Nat.add_zero] at g0
  simp only [half16At, g, g0]
  rw [e]
  exact join16 w

/-- R99: a four-byte field after `n` bytes. -/
theorem word32At_append (pre : List Byte) (w : Word32) (post : List Byte) (n : Nat) (h : n = pre.length) :
    word32At (pre ++ (bytesOf32 w ++ post)) n = w := by
  subst h
  have e : bytesOf32 w ++ post =
      w.extractLsb' 24 8 :: w.extractLsb' 16 8 :: w.extractLsb' 8 8 :: w.extractLsb' 0 8 :: post := rfl
  have g (k : Nat) : (pre ++ (bytesOf32 w ++ post)).getD (pre.length + k) 0 = (bytesOf32 w ++ post).getD k 0 := by
    rw [List.getD_append_right _ _ _ _ (Nat.le_add_right _ _), Nat.add_sub_cancel_left]
  have g0 := g 0
  rw [Nat.add_zero] at g0
  simp only [word32At, g, g0]
  rw [e]
  exact join32 w

end Sys2Proof.Laws
end

