-- ==== Sys2Proof/Laws/Frames.lean ====
section
/-!
SUPPORT. A frame clocked whole, said once for each of its three shapes (spec/06, sections 6.3 and 6.4): a
frame that only takes bytes in, a frame that answers, and a PROGRAM frame.
-/

namespace Sys2Proof.Laws

open Sys2Proof.Machine

/-! ## Bytes that bring nothing about -/

/-- R99–R101: a command byte after which no byte of the frame is an event of its own and SOn stays 0xFF. -/
def silent (c : Byte) : Bool :=
  match opcodeOf c with
  | none => true
  | some (o, _) => !o.answers && o != .program

theorem onByte_of_silent (s : State) (p : Port) (bs : List Byte) (i : Nat) (b : Byte)
    (h : silent (bs.getD 0 0) = true) : s.onByte p bs i b = s := by
  unfold silent at h
  unfold State.onByte
  cases ho : opcodeOf (bs.getD 0 0) with
  | none => rfl
  | some x =>
    obtain ⟨o, n⟩ := x
    simp only [ho, Bool.and_eq_true, Bool.not_eq_true', bne_iff_ne, ne_eq] at h
    simp [h.1, h.2]

/-- A shifter in the middle of a frame that has taken `pre` and nothing else. -/
def shifterWith (pre : List Byte) : Shifter :=
  { active := true, bytes := pre, bits := [], risen := false, answer := none, buffer := none }

theorem outByte_shifterWith (pre : List Byte) (i : Nat) : (shifterWith pre).outByte i = 0xFF := rfl

/-- R99: the completion of a byte, with the shifter named. -/
theorem byteDone_of (s : State) (p : Port) (b : Byte) (h : Shifter) (hs : (s.host p).shifter = h) :
    s.byteDone p b =
      (s.modifyHost p (fun g =>
        { g with soBits := [], so := g.so ++ [h.outByte h.bytes.length]
                 shifter := { h with bytes := h.bytes ++ [b], bits := [] } })).onByte p (h.bytes ++ [b])
        h.bytes.length b := by
  subst hs; rfl

/-- Bytes whose completion brings nothing about only enter the shifter. -/
theorem clock_plain (p : Port) (bs : List Byte) : ∀ (pre : List Byte) (s : State),
    (s.host p).shifter = shifterWith pre → (s.host p).soBits = [] →
    (∀ (t : State) (k : Nat) (b : Byte), k < bs.length → (t.host p).shifter.answer = none →
      t.onByte p (pre ++ bs.take (k + 1)) (pre.length + k) b = t) →
    bs.foldl (fun s b => s.byteDone p b) s =
      s.modifyHost p (fun g =>
        { g with soBits := [], so := g.so ++ List.replicate bs.length 0xFF, shifter := shifterWith (pre ++ bs) }) := by
  induction bs with
  | nil =>
    intro pre s hs hb0 _
    simp only [List.foldl_nil, List.length_nil, List.replicate_zero, List.append_nil]
    have : s.modifyHost p (fun g => { g with soBits := [], so := g.so, shifter := shifterWith pre }) =
        s.modifyHost p (fun g => g) := by
      unfold State.modifyHost
      congr 1
      apply modify_congr
      have hh : (s.hosts.get p).shifter = shifterWith pre := hs
      have hs0 : (s.hosts.get p).soBits = [] := hb0
      rw [← hh, ← hs0]
    rw [this]
    simp [State.modifyHost]
  | cons b bs ih =>
    intro pre s hs _ hq
    have e1 : s.byteDone p b =
        s.modifyHost p (fun g => { g with soBits := [], so := g.so ++ [0xFF], shifter := shifterWith (pre ++ [b]) }) := by
      unfold State.byteDone
      rw [hs]
      simp only [outByte_shifterWith]
      have h0 := hq (s.modifyHost p (fun g =>
        { g with soBits := [], so := g.so ++ [0xFF], shifter := shifterWith (pre ++ [b]) })) 0 b (by simp) (by simp [shifterWith])
      simp only [List.take_succ_cons, List.take_zero, Nat.add_zero, Nat.zero_add] at h0
      exact h0
    rw [List.foldl_cons, e1, ih (pre ++ [b])]
    · rw [modifyHost_modifyHost]
      simp [List.replicate_succ]
    · simp
    · simp
    · intro t k c hk ht
      have h1 := hq t (k + 1) c (by simp; omega) ht
      simp only [List.take_succ_cons] at h1
      simp only [List.append_assoc, List.singleton_append, List.length_append, List.length_singleton]
      rw [show pre.length + 1 + k = pre.length + (k + 1) by omega]
      exact h1

/-- Bytes of a silent frame only enter the shifter. -/
theorem clock_silent (p : Port) (bs pre : List Byte) (s : State) (hs : (s.host p).shifter = shifterWith pre)
    (hb : (s.host p).soBits = []) (hq : silent ((pre ++ bs).getD 0 0) = true) :
    bs.foldl (fun s b => s.byteDone p b) s =
      s.modifyHost p (fun g =>
        { g with soBits := [], so := g.so ++ List.replicate bs.length 0xFF, shifter := shifterWith (pre ++ bs) }) := by
  refine clock_plain p bs pre s hs hb (fun t k b hk _ => onByte_of_silent _ _ _ _ _ ?_)
  have : (pre ++ bs.take (k + 1)).getD 0 0 = (pre ++ bs).getD 0 0 := by
    cases pre with
    | nil =>
      cases bs with
      | nil => simp at hk
      | cons c bs => simp
    | cons c pre => rfl
  rw [this]; exact hq

/-! ## The beginning and the end of a frame -/

/-- What the host side of port `p` is after a frame of `n` bytes that drove 0xFF throughout. -/
def afterFrame (s : State) (p : Port) (so : List Byte) : State :=
  s.modifyHost p (fun h => { h with selected := false, shifter := Shifter.empty, soBits := [], so := so })

@[simp] theorem afterFrame_dev (s : State) (p : Port) (so : List Byte) : (afterFrame s p so).dev = s.dev := rfl

theorem takesFrames_modifyHost (s : State) (p : Port) (f : HostPort → HostPort)
    (h : (f (s.host p)).restart = (s.host p).restart) : (s.modifyHost p f).takesFrames p = s.takesFrames p := by
  simp [State.takesFrames, h]

/-- R102: the end of a frame whose shifter holds `h`, for a host side that becomes `afterFrame`. -/
def endedFrame (s1 : State) (p : Port) (h : Shifter) : State :=
  match parseFrame h.bytes with
  | .empty => s1
  | .malformed c => (s1.dropFrameBuffer p h.buffer).setOutcome p c .frame 0
  | .unknown c => (s1.modifyDev (fun d => d.reloadLease p)).setOutcome p c .badcmd 0
  | .command c notify =>
    (s1.modifyDev (fun d => d.reloadLease p)).endCommand p c notify (h.bytes.getD 0 0) h.bytes.length
      (h.answer.getD { result := .notready, data := [] }) h.buffer

theorem deselect_active (s : State) (p : Port) (h : (s.host p).shifter.active = true)
    (hb : (s.host p).soBits = []) :
    s.deselect p = endedFrame (afterFrame s p (s.host p).so) p (s.host p).shifter := by
  have e : (s.modifyHost p (fun h => { h with selected := false })).modifyShifter p (fun _ => Shifter.empty) =
      afterFrame s p (s.host p).so := by
    simp only [modifyShifter_eq, modifyHost_modifyHost, afterFrame]
    unfold State.modifyHost
    congr 1
    apply modify_congr
    have hs0 : (s.hosts.get p).soBits = [] := hb
    rw [← hs0]
    rfl
  unfold State.deselect State.endFrame
  simp only [h, if_true, modifyHost_host_same, e]
  rfl

/-- R98: the assertion of CSn# at a port that takes frames. -/
theorem select_takes (s : State) (p : Port) (h : s.takesFrames p = true) :
    s.select p = s.modifyHost p (fun h => { h with selected := true, shifter := shifterWith [], soBits := [], so := [] }) := by
  simp [State.select, h, shifterWith, Shifter.empty]

/-- A frame clocked whole, with no stray bits: its bytes are clocked in order from an empty shifter and CSn#
is released. -/
theorem runFrame_whole (m : String) (p : Port) (frame extra : List Byte) (s : State)
    (hs : (s.host p).selected = false) (ht : s.takesFrames p = true) :
    runFrame m p frame (Clocking.whole extra) s =
      .next (((((frame ++ extra).foldl (fun s b => s.byteDone p b)
        (s.modifyHost p (fun h => { h with selected := true, shifter := shifterWith [], soBits := [], so := [] }))).clockBits p
          []).deselect p)) := by
  simp only [runFrame, Clocking.whole, hs, Bool.false_eq_true, if_false, select_takes s p ht, State.clockBytes]
  rw [if_pos (by simp [shifterWith])]

/-- Clocking no stray bits changes nothing where none are held. -/
theorem clockBits_nil (s : State) (p : Port) (h : (s.host p).shifter.bits = []) (hb : (s.host p).soBits = []) :
    s.clockBits p [] = s := by
  unfold State.clockBits
  split
  · have : s.modifyHost p (fun g =>
        { g with soBits := (bitsOf (g.shifter.outByte g.shifter.bytes.length)).take 0
                 shifter := { g.shifter with bits := [] } }) = s.modifyHost p (fun g => g) := by
      unfold State.modifyHost
      congr 1
      apply modify_congr
      have hh : (s.hosts.get p).shifter.bits = [] := h
      have hs0 : (s.hosts.get p).soBits = [] := hb
      rw [List.take_zero]
      generalize s.hosts.get p = g at hh hs0 ⊢
      obtain ⟨_, _, ⟨_, _, _, _, _, _⟩, _, _, _⟩ := g
      subst hh hs0
      rfl
    exact this.trans (by simp [State.modifyHost])
  · rfl

/-- R99, R102: a silent frame clocked whole. -/
theorem runFrame_silent (m : String) (p : Port) (frame extra : List Byte) (s : State)
    (hs : (s.host p).selected = false) (ht : s.takesFrames p = true)
    (hq : silent ((frame ++ extra).getD 0 0) = true) :
    runFrame m p frame (Clocking.whole extra) s =
      .next (endedFrame (afterFrame s p (List.replicate (frame ++ extra).length 0xFF)) p
        (shifterWith (frame ++ extra))) := by
  rw [runFrame_whole m p frame extra s hs ht,
    clock_silent p (frame ++ extra) [] _ (by simp) (by simp) (by simpa using hq),
    clockBits_nil _ _ (by simp [shifterWith]) (by simp),
    deselect_active _ _ (by simp [shifterWith]) (by simp)]
  simp only [afterFrame, modifyHost_modifyHost, List.nil_append, modifyHost_host_same]

@[simp] theorem dropFrameBuffer_none (s : State) (p : Port) : s.dropFrameBuffer p none = s := rfl

/-! ## A frame that answers -/

/-- R101: the bytes SOn carries over a frame of `n` bytes of an answering command with `pc` parameter
bytes, when the turnaround has taken `a`. -/
def answered (pc n : Nat) (a : Answer) : List Byte :=
  (List.range n).map (fun i =>
    if pc + 2 ≤ i then (resultCode a.result :: a.data).getD (i - (pc + 2)) 0xFF else 0xFF)

theorem answered_succ (pc n : Nat) (a : Answer) :
    answered pc (n + 1) a = answered pc n a ++
      [if pc + 2 ≤ n then (resultCode a.result :: a.data).getD (n - (pc + 2)) 0xFF else 0xFF] := by
  simp [answered, List.range_succ]

/-- A shifter of an answering frame after its turnaround. -/
def shifterAnswered (bs : List Byte) (a : Answer) : Shifter :=
  { active := true, bytes := bs, bits := [], risen := false, answer := some a, buffer := none }

theorem answerTo_modifyHost (s : State) (p : Port) (f : HostPort → HostPort) (o : Opcode) (bs : List Byte)
    (h : (f (s.host p)).outcome = (s.host p).outcome) : (s.modifyHost p f).answerTo p o bs = s.answerTo p o bs := by
  simp [State.answerTo, statusBytes, h]

theorem onByte_beforeTurnaround (t : State) (p : Port) (bs : List Byte) (i : Nat) (b : Byte) (o : Opcode) (n : Bool)
    (ho : opcodeOf (bs.getD 0 0) = some (o, n)) (hi : i < o.paramCount)
    (ha : (t.host p).shifter.answer = none) : t.onByte p bs i b = t := by
  unfold State.onByte
  simp only [ho, ha]
  rw [if_neg (by omega : ¬ i = o.paramCount), if_neg (by omega : ¬ i = o.paramCount),
    if_neg (by omega : ¬ o.paramCount < i)]
  simp

/-- R101: from its turnaround on, an answering frame changes nothing but the port's own host side; EVENTS
does so from its count byte on. -/
theorem clock_answered (p : Port) (o : Opcode) (nt : Bool) (a : Answer) (ho : o.answers = true) (bs : List Byte) :
    ∀ (pre : List Byte) (s : State), (s.host p).shifter = shifterAnswered pre a →
    (s.host p).soBits = [] → (s.host p).so = answered o.paramCount pre.length a → opcodeOf (pre.getD 0 0) = some (o, nt) →
    o.paramCount < pre.length → (o ≠ .events ∨ 4 ≤ pre.length) →
    bs.foldl (fun s b => s.byteDone p b) s =
      s.modifyHost p (fun g =>
        { g with soBits := [], so := answered o.paramCount (pre.length + bs.length) a
                 shifter := shifterAnswered (pre ++ bs) a }) := by
  induction bs with
  | nil =>
    intro pre s hs hb0 hso _ _ _
    simp only [List.foldl_nil, List.length_nil, Nat.add_zero, List.append_nil]
    have : s.modifyHost p (fun g =>
        { g with soBits := [], so := answered o.paramCount pre.length a, shifter := shifterAnswered pre a }) =
        s.modifyHost p (fun g => g) := by
      unfold State.modifyHost
      congr 1
      apply modify_congr
      have h1 : (s.hosts.get p).shifter = shifterAnswered pre a := hs
      have h2 : (s.hosts.get p).so = answered o.paramCount pre.length a := hso
      have h3 : (s.hosts.get p).soBits = [] := hb0
      rw [← h1, ← h2, ← h3]
    rw [this]; simp [State.modifyHost]
  | cons b bs ih =>
    intro pre s hs _ hso hc hl he
    obtain ⟨c, rest, rfl⟩ : ∃ c rest, pre = c :: rest := by
      cases pre with
      | nil => simp at hl
      | cons c rest => exact ⟨c, rest, rfl⟩
    have e1 : s.byteDone p b = s.modifyHost p (fun g =>
        { g with soBits := [], so := answered o.paramCount ((c :: rest).length + 1) a
                 shifter := shifterAnswered ((c :: rest) ++ [b]) a }) := by
      unfold State.byteDone
      rw [hs]
      have hout : (shifterAnswered (c :: rest) a).outByte (shifterAnswered (c :: rest) a).bytes.length =
          if o.paramCount + 2 ≤ (c :: rest).length then
            (resultCode a.result :: a.data).getD ((c :: rest).length - (o.paramCount + 2)) 0xFF else 0xFF := by
        have hc' : opcodeOf c = some (o, nt) := by simpa using hc
        simp only [Shifter.outByte, shifterAnswered, hc']
        rfl
      have hon : ∀ t : State, t.onByte p ((c :: rest) ++ [b]) (c :: rest).length b = t := by
        intro t
        have hc' : opcodeOf (((c :: rest) ++ [b]).getD 0 0) = some (o, nt) := by simpa using hc
        unfold State.onByte
        simp only [hc', ho, if_true]
        rw [if_neg (by omega : ¬ (c :: rest).length = o.paramCount)]
        rw [if_neg]
        rintro ⟨h1, h2, _⟩
        rcases he with he | he
        · exact he h1
        · omega
      have hh : (s.hosts.get p).so = answered o.paramCount (c :: rest).length a := hso
      refine (hon _).trans ?_
      rw [hout]
      unfold State.modifyHost
      congr 1
      apply modify_congr
      rw [hh, answered_succ]
      rfl
    rw [List.foldl_cons, e1, ih ((c :: rest) ++ [b])]
    · rw [modifyHost_modifyHost, List.append_assoc,
        show ((c :: rest) ++ [b]).length + bs.length = (c :: rest).length + (b :: bs).length by simp; omega]
      rfl
    · simp
    · simp
    · simp
    · simpa using hc
    · simp only [List.length_append]; omega
    · rcases he with he | he
      · exact .inl he
      · exact .inr (by simp at he ⊢; omega)

theorem answered_before (pc n : Nat) (a : Answer) (h : n ≤ pc + 1) :
    answered pc n a = List.replicate n 0xFF := by
  unfold answered
  rw [List.eq_replicate_iff]
  refine ⟨by simp, fun b hb => ?_⟩
  obtain ⟨i, hi, rfl⟩ := List.mem_map.mp hb
  rw [if_neg (by have := List.mem_range.mp hi; omega)]

/-- R101: an answering frame other than EVENTS clocked whole, at least to its turnaround. -/
theorem runFrame_answering (m : String) (p : Port) (o : Opcode) (nt : Bool) (frame extra : List Byte) (s : State)
    (hs : (s.host p).selected = false) (ht : s.takesFrames p = true) (ho : o.answers = true) (he : o ≠ .events)
    (hc : opcodeOf (frame.getD 0 0) = some (o, nt)) (hl : frame.length = o.paramCount + 1) :
    runFrame m p frame (Clocking.whole extra) s =
      .next (endedFrame (afterFrame s p (answered o.paramCount (frame ++ extra).length (s.answerTo p o frame))) p
        (shifterAnswered (frame ++ extra) (s.answerTo p o frame))) := by
  obtain ⟨init, last, rfl⟩ : ∃ init last, frame = init ++ [last] := by
    rcases List.eq_nil_or_concat frame with h | ⟨i, l, h⟩
    · rw [h] at hl; simp at hl
    · exact ⟨i, l, by simpa using h⟩
  have hil : init.length = o.paramCount := by simpa using hl
  generalize hA : s.answerTo p o (init ++ [last]) = A
  rw [runFrame_whole m p _ extra s hs ht, List.foldl_append, List.foldl_append]
  have e1 := clock_plain p init []
    (s.modifyHost p (fun h => { h with selected := true, shifter := shifterWith [], soBits := [], so := [] })) (by simp) (by simp) (by
      intro t k b hk hta
      apply onByte_beforeTurnaround t p _ _ b o nt _ (by simp; omega) hta
      rw [← hc]
      cases init with
      | nil => simp at hk
      | cons c init => simp)
  rw [e1]
  have e2 : [last].foldl (fun s b => s.byteDone p b)
      ((s.modifyHost p (fun h => { h with selected := true, shifter := shifterWith [], soBits := [], so := [] })).modifyHost p
        (fun g => { g with soBits := [], so := g.so ++ List.replicate init.length 0xFF, shifter := shifterWith ([] ++ init) })) =
      s.modifyHost p (fun h =>
        { h with selected := true, shifter := shifterAnswered (init ++ [last]) A
                 soBits := [], so := answered o.paramCount (init.length + 1) A }) := by
    simp only [List.foldl_cons, List.foldl_nil]
    unfold State.byteDone
    simp only [modifyHost_host_same, List.nil_append, modifyHost_modifyHost]
    unfold State.onByte
    rw [show (shifterWith init).bytes = init from rfl, hc]
    simp only [ho, if_true, hil]
    unfold State.turnaround
    rw [answerTo_modifyHost _ _ _ _ _ (by rfl), hA]
    simp only [he, false_and, if_false, modifyShifter_eq, modifyHost_modifyHost]
    unfold State.modifyHost
    congr 1
    apply modify_congr
    rw [answered_before _ _ _ (by omega), List.replicate_succ']
    rfl
  rw [e2, clock_answered p o nt A ho extra (init ++ [last]) _ (by simp) (by simp) (by simp) hc (by simp; omega) (.inl he),
    clockBits_nil _ _ (by simp [shifterAnswered]) (by simp), deselect_active _ _ (by simp [shifterAnswered]) (by simp)]
  congr 2
  · simp only [afterFrame, modifyHost_modifyHost, modifyHost_host_same]
    unfold State.modifyHost
    congr 1
    apply modify_congr
    simp [Nat.add_assoc, Nat.add_comm 1]
  · simp

/-- R177: an EVENTS frame out of MOUNTING clocked whole, at least to its count byte. -/
theorem runFrame_events (m : String) (p : Port) (x y z : Byte) (extra : List Byte) (s : State)
    (hs : (s.host p).selected = false) (ht : s.takesFrames p = true) (hm : s.dev.phase ≠ .mounting) :
    runFrame m p (Command.frameBytes .events false) (Clocking.whole (x :: y :: z :: extra)) s =
      .next (endedFrame
        ((afterFrame s p (answered 0 (4 + extra.length)
          { result := .ok, data := eventsBytes (s.dev.port p).events })).modifyDev (fun d => d.modifyPort p (fun q =>
            { q with events := { q.events with lost := false, discarded := false } }))) p
        (shifterAnswered ([0x11, x, y, z] ++ extra)
          { result := .ok, data := eventsBytes (s.dev.port p).events })) := by
  generalize hA : ({ result := .ok, data := eventsBytes (s.dev.port p).events } : Answer) = A
  have hfb : Command.frameBytes .events false = [0x11] := rfl
  have hop : opcodeOf 0x11 = some (.events, false) := by decide
  have hAr : A.result = .ok := by rw [← hA]
  rw [hfb, runFrame_whole m p _ _ s hs ht]
  have e0 : ([0x11, x, y, z] : List Byte).foldl (fun s b => s.byteDone p b)
      (s.modifyHost p (fun h => { h with selected := true, shifter := shifterWith [], soBits := [], so := [] })) =
      (s.modifyHost p (fun h =>
        { h with selected := true, shifter := shifterAnswered [0x11, x, y, z] A, soBits := [], so := answered 0 4 A })).modifyDev
        (fun d => d.modifyPort p (fun q =>
            { q with events := { q.events with lost := false, discarded := false } })) := by
    have e1 : (s.modifyHost p (fun h => { h with selected := true, shifter := shifterWith [], soBits := [], so := [] })).byteDone p
        0x11 = (s.modifyHost p (fun h =>
          { h with selected := true, shifter := shifterAnswered [0x11] A, soBits := [], so := answered 0 1 A })).modifyDev
          (fun d => d.modifyPort p (fun q => { q with events := { q.events with discarded := false } })) := by
      unfold State.byteDone
      simp only [modifyHost_host_same, modifyHost_modifyHost]
      unfold State.onByte
      rw [show (shifterWith []).bytes = [] from rfl]
      simp only [List.nil_append, List.getD_cons_zero, hop, List.length_nil]
      rw [if_pos (by decide), if_pos (by decide)]
      unfold State.turnaround
      rw [answerTo_modifyHost _ _ _ _ _ (by rfl)]
      have ha : s.answerTo p .events [0x11] = A := by
        rw [← hA]; simp [State.answerTo, hm]
      simp only [ha, hAr, and_self, if_true, modifyShifter_eq, modifyHost_modifyHost]
      rfl
    have e2 (t : State) (bs : List Byte) (b : Byte) (hl : bs.length = 1 ∨ bs.length = 2)
        (hb : bs.getD 0 0 = 0x11) (hne : bs ≠ []) (h1 : (t.host p).shifter = shifterAnswered bs A)
        (h2 : (t.host p).so = answered 0 bs.length A) :
        t.byteDone p b = t.modifyHost p (fun g =>
          { g with soBits := [], so := answered 0 (bs.length + 1) A, shifter := shifterAnswered (bs ++ [b]) A }) := by
      unfold State.byteDone
      rw [h1]
      have hon (u : State) : u.onByte p (bs ++ [b]) bs.length b = u := by
        unfold State.onByte
        rw [show (bs ++ [b]).getD 0 0 = 0x11 by cases bs with
          | nil => exact absurd rfl hne
          | cons c r => simpa using hb, hop]
        simp only [show Opcode.events.answers = true from rfl, if_true]
        rw [if_neg (by show ¬ bs.length = 0; omega), if_neg (by rintro ⟨_, h, _⟩; omega)]
      refine (hon _).trans ?_
      unfold State.modifyHost
      congr 1
      apply modify_congr
      have h2' : (t.hosts.get p).so = answered 0 bs.length A := h2
      have hout : (shifterAnswered bs A).outByte (shifterAnswered bs A).bytes.length =
          if 0 + 2 ≤ bs.length then (resultCode A.result :: A.data).getD (bs.length - (0 + 2)) 0xFF else 0xFF := by
        cases bs with
        | nil => exact absurd rfl hne
        | cons c r =>
          have hc : c = 0x11 := by simpa using hb
          subst hc
          simp only [Shifter.outByte, shifterAnswered, hop]
          rfl
      rw [h2', hout, ← answered_succ]
      rfl
    have e3 (t : State) (h1 : (t.host p).shifter = shifterAnswered [0x11, x, y] A)
        (h2 : (t.host p).so = answered 0 3 A) :
        t.byteDone p z = (t.modifyHost p (fun g =>
          { g with soBits := [], so := answered 0 4 A, shifter := shifterAnswered [0x11, x, y, z] A })).modifyDev
          (fun d => d.modifyPort p (fun q => { q with events := { q.events with lost := q.events.discarded } })) := by
      rw [byteDone_of t p z _ h1]
      unfold State.onByte
      simp only [show (shifterAnswered [0x11, x, y] A).bytes = [0x11, x, y] from rfl]
      simp only [List.cons_append, List.nil_append, List.getD_cons_zero, hop,
        show Opcode.events.answers = true from rfl, if_true, List.length_cons, List.length_nil]
      rw [if_neg (by decide), if_pos ⟨trivial, by decide, by simp [shifterAnswered, hAr]⟩]
      unfold State.countByteDone
      congr 1
      unfold State.modifyHost
      congr 1
      apply modify_congr
      have h2' : (t.hosts.get p).so = answered 0 3 A := h2
      have hout : (shifterAnswered [0x11, x, y] A).outByte 3 =
          if 0 + 2 ≤ 3 then (resultCode A.result :: A.data).getD (3 - (0 + 2)) 0xFF else 0xFF := by
        simp only [Shifter.outByte, shifterAnswered, hop]
        rfl
      rw [h2', hout, ← answered_succ]
      rfl
    simp only [List.foldl_cons, List.foldl_nil]
    rw [e1, e2 _ [0x11] x (.inl rfl) rfl (by simp) (by simp) (by simp),
      e2 _ [0x11, x] y (.inr rfl) rfl (by simp) (by simp) (by simp), e3 _ (by simp) (by simp)]
    simp only [modifyDev_modifyHost, modifyHost_modifyHost, modifyDev_modifyDev, modifyPort_modifyPort]
  rw [show ([0x11] ++ (x :: y :: z :: extra) : List Byte) = [0x11, x, y, z] ++ extra from rfl, List.foldl_append, e0,
    clock_answered p .events false A rfl extra [0x11, x, y, z] _ (by simp) (by simp) (by simp; rfl) hop (Nat.succ_pos _)
      (.inr (Nat.le_refl _)), clockBits_nil _ _ (by simp [shifterAnswered]) (by simp),
    deselect_active _ _ (by simp [shifterAnswered]) (by simp)]
  simp only [afterFrame, modifyDev_modifyHost, modifyHost_modifyHost, modifyDev_host, modifyHost_host_same]
  rfl

/-! ## A PROGRAM frame -/

/-- A shifter of a PROGRAM frame after its parameters. -/
def shifterData (bs : List Byte) (buffer : Option (List Byte)) : Shifter :=
  { active := true, bytes := bs, bits := [], risen := false, answer := none, buffer := buffer }

theorem take_append_take (n : Nat) (x y : List Byte) : (x.take n ++ y).take n = (x ++ y).take n := by
  rw [List.take_append, List.take_append, List.take_take, Nat.min_self, List.length_take]
  by_cases h : n ≤ x.length
  · rw [Nat.min_eq_left h, show n - n = n - x.length by omega]
  · rw [Nat.min_eq_right (by omega)]

/-- R109: data bytes fill the buffer the frame holds up to `n`, the length field. -/
theorem clock_data (p : Port) (nt : Bool) (n : Nat) (bs : List Byte) : ∀ (pre : List Byte)
    (buffer : Option (List Byte)) (s : State), (s.host p).shifter = shifterData pre buffer →
    (s.host p).soBits = [] → 8 ≤ pre.length →
    opcodeOf (pre.getD 0 0) = some (.program, nt) → (half16At pre 6).toNat = n →
    (∀ d, buffer = some d → d.length ≤ n) →
    bs.foldl (fun s b => s.byteDone p b) s =
      s.modifyHost p (fun g =>
        { g with soBits := [], so := g.so ++ List.replicate bs.length 0xFF
                 shifter := shifterData (pre ++ bs) (buffer.map (fun d => (d ++ bs).take n)) }) := by
  induction bs with
  | nil =>
    intro pre buffer s hs hb0 _ _ _ hd
    have hm : buffer.map (fun d => (d ++ []).take n) = buffer := by
      cases buffer with
      | none => rfl
      | some d => simp [List.take_of_length_le (hd d rfl)]
    simp only [List.foldl_nil, List.length_nil, List.replicate_zero, hm]
    simp only [List.append_nil]
    have : s.modifyHost p (fun g => { g with soBits := [], so := g.so, shifter := shifterData pre buffer }) =
        s.modifyHost p (fun g => g) := by
      unfold State.modifyHost
      congr 1
      apply modify_congr
      have hh : (s.hosts.get p).shifter = shifterData pre buffer := hs
      have hs0 : (s.hosts.get p).soBits = [] := hb0
      rw [← hh, ← hs0]
    rw [this]; simp [State.modifyHost]
  | cons b bs ih =>
    intro pre buffer s hs _ hl hc hn hd
    have hhead : (pre ++ [b]).getD 0 0 = pre.getD 0 0 := by
      cases pre with
      | nil => simp at hl
      | cons c r => rfl
    have hlen : half16At (pre ++ [b]) 6 = half16At pre 6 := by
      unfold half16At
      rw [List.getD_append _ _ _ _ (by omega), List.getD_append _ _ _ _ (by omega)]
    have e1 : s.byteDone p b = s.modifyHost p (fun g =>
        { g with soBits := [], so := g.so ++ [0xFF]
                 shifter := shifterData (pre ++ [b]) (buffer.map (fun d => (d ++ [b]).take n)) }) := by
      rw [byteDone_of s p b _ hs]
      unfold State.onByte
      simp only [show (shifterData pre buffer).bytes = pre from rfl]
      rw [hhead, hc]
      simp only [show Opcode.program.answers = false from rfl, Bool.false_eq_true, if_false, if_true]
      rw [if_neg (by show ¬ pre.length = 7; omega), if_pos (by show 7 < pre.length; omega)]
      unfold State.fillFrameBuffer
      rw [modifyShifter_eq, modifyHost_modifyHost]
      unfold State.modifyHost
      congr 1
      apply modify_congr
      rw [hlen, hn]
      have hb : buffer.map (fun data => if data.length < n then data ++ [b] else data) =
          buffer.map (fun d => (d ++ [b]).take n) := by
        cases buffer with
        | none => rfl
        | some d =>
          have := hd d rfl
          simp only [Option.map_some, Option.some.injEq]
          split
          · rw [List.take_of_length_le (by simp; omega)]
          · rw [List.take_append_of_le_length (by omega), List.take_of_length_le (by omega)]
      simp only [shifterData, hb]
      rfl
    rw [List.foldl_cons, e1, ih (pre ++ [b]) (buffer.map (fun d => (d ++ [b]).take n))]
    · rw [modifyHost_modifyHost]
      have hm : (buffer.map (fun d => (d ++ [b]).take n)).map (fun d => (d ++ bs).take n) =
          buffer.map (fun d => (d ++ b :: bs).take n) := by
        cases buffer with
        | none => rfl
        | some d => simp [take_append_take]
      rw [hm]
      simp [List.replicate_succ]
    · simp
    · simp
    · simp; omega
    · rw [hhead]; exact hc
    · rw [hlen]; exact hn
    · intro d h
      cases buffer with
      | none => simp at h
      | some d0 =>
        simp only [Option.map_some, Option.some.injEq] at h
        subst h
        simp

/-- R109: whether a PROGRAM frame whose parameters complete is granted its buffer. -/
def grantsFrame (s : State) (p : Port) (length : Half16) : Prop :=
  s.dev.phase ≠ .mounting ∧ 1 ≤ length.toNat ∧ length.toNat ≤ Config.pageBytes ∧ s.dev.pool.grants p = true

/-- R109: a PROGRAM frame clocked whole, with its eight bytes up to the last parameter and any count of data
bytes. Its buffer is granted or not at its seventh parameter byte. -/
theorem runFrame_programBytes (m : String) (p : Port) (nt : Bool) (seven : List Byte) (last : Byte)
    (data : List Byte) (s : State) (hs : (s.host p).selected = false) (ht : s.takesFrames p = true)
    (hsevenl : seven.length = 7) (hhead : opcodeOf (seven.getD 0 0) = some (.program, nt)) :
    (grantsFrame s p (half16At (seven ++ [last]) 6) →
      runFrame m p (seven ++ [last] ++ data) (Clocking.whole []) s =
        .next (endedFrame
          ((afterFrame s p (List.replicate (8 + data.length) 0xFF)).modifyDev (fun d => d.takeBuffer p)) p
          (shifterData (seven ++ [last] ++ data)
            (some (data.take (half16At (seven ++ [last]) 6).toNat))))) ∧
    (¬ grantsFrame s p (half16At (seven ++ [last]) 6) →
      runFrame m p (seven ++ [last] ++ data) (Clocking.whole []) s =
        .next (endedFrame (afterFrame s p (List.replicate (8 + data.length) 0xFF)) p
          (shifterData (seven ++ [last] ++ data) none))) := by
  obtain ⟨l, hlf⟩ : ∃ l, half16At (seven ++ [last]) 6 = l := ⟨_, rfl⟩
  rw [hlf]
  have hhead8 : (seven ++ [last]).getD 0 0 = seven.getD 0 0 := by
    cases seven with
    | nil => simp at hsevenl
    | cons a r => rfl
  have hrun := runFrame_whole m p (seven ++ [last] ++ data) [] s hs ht
  rw [List.append_nil, List.foldl_append, List.foldl_append] at hrun
  have e1 := clock_plain p seven []
    (s.modifyHost p (fun h => { h with selected := true, shifter := shifterWith [], soBits := [], so := [] })) (by simp) (by simp) (by
      intro t k b hk hta
      have hh : ([] ++ seven.take (k + 1)).getD 0 0 = seven.getD 0 0 := by
        cases seven with
        | nil => simp at hsevenl
        | cons a r => simp
      apply onByte_beforeTurnaround t p _ _ b .program nt (by rw [hh]; exact hhead) (by
        show [].length + k < 7
        simp only [List.length_nil]; omega) hta)
  rw [e1, modifyHost_modifyHost] at hrun
  have e2 (t : State) (h1 : (t.host p).shifter = shifterWith seven) (h2 : t.dev = s.dev) :
      [last].foldl (fun s b => s.byteDone p b) t =
        (t.modifyHost p (fun g =>
          { g with soBits := [], so := g.so ++ [0xFF], shifter := shifterWith (seven ++ [last]) })).requestFrameBuffer p
          (seven ++ [last]) := by
    simp only [List.foldl_cons, List.foldl_nil]
    rw [byteDone_of t p last _ h1]
    unfold State.onByte
    simp only [show (shifterWith seven).bytes = seven from rfl]
    rw [hhead8, hhead]
    simp only [show Opcode.program.answers = false from rfl, Bool.false_eq_true, if_false, if_true]
    rw [if_pos (by show seven.length = 7; exact hsevenl)]
    rfl
  rw [e2 _ (by simp) (modifyHost_dev s p _), modifyHost_modifyHost] at hrun
  have hreq (t : State) (h2 : t.dev = s.dev) : t.requestFrameBuffer p (seven ++ [last]) =
      (open Classical in
        if grantsFrame s p l then (t.modifyDev (fun d => d.takeBuffer p)).modifyShifter p (fun h => { h with buffer := some [] })
        else t) := by
    unfold State.requestFrameBuffer grantsFrame
    simp only [hlf, h2]
    congr
  have hgen (b0 : Option (List Byte)) (f : Dev → Dev) (t : State)
      (h1 : (t.host p).shifter = shifterData (seven ++ [last]) b0)
      (h3 : ∀ d, b0 = some d → d = [])
      (h2 : t = (s.modifyHost p (fun g => { g with
        selected := true
        soBits := [], so := List.replicate 8 0xFF
        shifter := shifterData (seven ++ [last]) b0 })).modifyDev f) :
      ((data.foldl (fun s b => s.byteDone p b) t).clockBits p []).deselect p =
        endedFrame ((afterFrame s p (List.replicate (8 + data.length) 0xFF)).modifyDev f) p
          (shifterData (seven ++ [last] ++ data) (b0.map (fun d => (d ++ data).take l.toNat))) := by
    have h4 : (t.host p).soBits = [] := by rw [h2]; simp
    rw [clock_data p nt l.toNat data (seven ++ [last]) b0 t h1 h4 (by simp [hsevenl]) (by rw [hhead8]; exact hhead)
      (by rw [hlf]) (by intro d hd'; rw [h3 d hd']; simp), clockBits_nil _ _ (by simp [shifterData]) (by simp),
      deselect_active _ _ (by simp [shifterData]) (by simp)]
    subst h2
    simp only [afterFrame, modifyDev_modifyHost, modifyHost_modifyHost, modifyDev_host, modifyHost_host_same,
      List.replicate_append_replicate]
  constructor
  · intro hg
    rw [hrun, hreq _ (modifyHost_dev s p _), if_pos hg, modifyShifter_eq]
    rw [hgen (some []) (fun d => d.takeBuffer p)]
    · rfl
    · simp [shifterWith, shifterData]
    · intro d h; exact (Option.some.inj h).symm
    · rw [modifyDev_modifyHost, modifyHost_modifyHost]
      congr 1
      unfold State.modifyHost
      congr 1
      apply modify_congr
      simp [hsevenl, shifterWith, shifterData]
  · intro hg
    rw [hrun, hreq _ (modifyHost_dev s p _), if_neg hg]
    rw [hgen none (fun d => d)]
    · rfl
    · rw [modifyHost_host_same]; rfl
    · intro d h; cases h
    · rw [show ∀ t : State, t.modifyDev (fun d => d) = t from fun _ => rfl]
      unfold State.modifyHost
      congr 1
      apply modify_congr
      simp [hsevenl, shifterWith, shifterData]

/-- R109: a PROGRAM frame clocked whole with as many data bytes as its length field says. Its buffer is
granted or not at its seventh parameter byte. -/
theorem runFrame_program (m : String) (p : Port) (nt : Bool) (i : Byte) (o : Word32) (l : Half16) (data : List Byte)
    (s : State) (hs : (s.host p).selected = false) (ht : s.takesFrames p = true) (hd : data.length = l.toNat) :
    (grantsFrame s p l →
      runFrame m p (Command.frameBytes (.program i o l data) nt) (Clocking.whole []) s =
        .next (endedFrame
          ((afterFrame s p (List.replicate (8 + data.length) 0xFF)).modifyDev (fun d => d.takeBuffer p)) p
          (shifterData (Command.frameBytes (.program i o l data) nt) (some data)))) ∧
    (¬ grantsFrame s p l →
      runFrame m p (Command.frameBytes (.program i o l data) nt) (Clocking.whole []) s =
        .next (endedFrame (afterFrame s p (List.replicate (8 + data.length) 0xFF)) p
          (shifterData (Command.frameBytes (.program i o l data) nt) none))) := by
  obtain ⟨c, hcv⟩ : ∃ c, c = commandByte .program nt := ⟨_, rfl⟩
  have hop : opcodeOf c = some (.program, nt) := by rw [hcv]; cases nt <;> decide
  have hfb : Command.frameBytes (.program i o l data) nt =
      (([c, i] ++ bytesOf32 o ++ [l.extractLsb' 8 8]) ++ [l.extractLsb' 0 8]) ++ data := by
    rw [hcv]; simp [Command.frameBytes, Command.params, Command.opcode, bytesOf16]
  have hlf : half16At (([c, i] ++ bytesOf32 o ++ [l.extractLsb' 8 8]) ++ [l.extractLsb' 0 8]) 6 = l := by
    have := half16At_append ([c, i] ++ bytesOf32 o) l [] 6 rfl
    simpa [bytesOf16] using this
  have h := runFrame_programBytes m p nt ([c, i] ++ bytesOf32 o ++ [l.extractLsb' 8 8]) (l.extractLsb' 0 8) data s
    hs ht rfl (by simpa using hop)
  rw [hlf, List.take_of_length_le (by omega), ← hfb] at h
  exact h

end Sys2Proof.Laws
end

