-- ==== Sys2Proof/Laws/Memory.lean ====
section
/-!
SUPPORT. The array: what each operation leaves at every address, and that every operation keeps the
canonical form (Memory.wf).
-/

namespace Sys2Proof.Laws

open Sys2Proof.Machine

/-! ## Reading -/

theorem byteAt_nil (x : Nat) : Memory.byteAt [] x = 0xFF := rfl

theorem byteAt_cons (c : Host.Cell) (m : Memory) (x : Nat) :
    Memory.byteAt (c :: m) x = if c.1 = x then c.2 else Memory.byteAt m x := by
  by_cases h : c.1 = x <;> simp [Memory.byteAt, h]

/-- Cells that do not list `x` are passed over. -/
theorem byteAt_append_right (m n : Memory) (x : Nat) (h : ∀ c ∈ m, c.1 ≠ x) :
    Memory.byteAt (m ++ n) x = Memory.byteAt n x := by
  induction m with
  | nil => rfl
  | cons c m ih =>
    rw [List.cons_append, byteAt_cons, if_neg (h c (by simp)), ih (fun d hd => h d (by simp [hd]))]

/-- Cells after those that decide `x` are not looked at, if they do not list it. -/
theorem byteAt_append_left (m n : Memory) (x : Nat) (h : ∀ c ∈ n, c.1 ≠ x) :
    Memory.byteAt (m ++ n) x = Memory.byteAt m x := by
  induction m with
  | nil =>
    have := byteAt_append_right n [] x h
    simpa [byteAt_nil] using this
  | cons c m ih => rw [List.cons_append, byteAt_cons, byteAt_cons, ih]

/-- Keeping at least the cells of `x` keeps its byte. -/
theorem byteAt_filter (m : Memory) (f : Host.Cell → Bool) (x : Nat) (h : ∀ c ∈ m, c.1 = x → f c = true) :
    Memory.byteAt (m.filter f) x = Memory.byteAt m x := by
  induction m with
  | nil => rfl
  | cons c m ih =>
    have ih' := ih (fun d hd => h d (by simp [hd]))
    by_cases hx : c.1 = x
    · rw [List.filter_cons_of_pos (h c (by simp) hx), byteAt_cons, byteAt_cons, if_pos hx, if_pos hx]
    · by_cases hf : f c = true
      · rw [List.filter_cons_of_pos hf, byteAt_cons, byteAt_cons, if_neg hx, if_neg hx, ih']
      · rw [List.filter_cons_of_neg hf, byteAt_cons, if_neg hx, ih']

/-- Dropping every cell of `x` leaves 0xFF there. -/
theorem byteAt_absent (m : Memory) (x : Nat) (h : ∀ c ∈ m, c.1 ≠ x) : Memory.byteAt m x = 0xFF := by
  have := byteAt_append_right m [] x h
  simpa [byteAt_nil] using this

/-! ## A run of cells -/

theorem cellsFrom_bounds (a : Nat) (bs : List Byte) :
    ∀ c ∈ cellsFrom a bs, a ≤ c.1 ∧ c.1 < a + bs.length ∧ c.2 ≠ 0xFF := by
  induction bs generalizing a with
  | nil => simp [cellsFrom]
  | cons b bs ih =>
    intro c hc
    unfold cellsFrom at hc
    split at hc
    · have := ih (a + 1) c hc
      simp only [List.length_cons]; exact ⟨by omega, by omega, this.2.2⟩
    · rcases List.mem_cons.mp hc with rfl | hc
      · exact ⟨Nat.le_refl _, by simp, by assumption⟩
      · have := ih (a + 1) c hc
        simp only [List.length_cons]; exact ⟨by omega, by omega, this.2.2⟩

theorem cellsFrom_sorted (a : Nat) (bs : List Byte) : (cellsFrom a bs).Pairwise (fun c d => c.1 < d.1) := by
  induction bs generalizing a with
  | nil => simp [cellsFrom]
  | cons b bs ih =>
    unfold cellsFrom
    split
    · exact ih (a + 1)
    · refine List.pairwise_cons.mpr ⟨fun c hc => ?_, ih (a + 1)⟩
      have := (cellsFrom_bounds (a + 1) bs c hc).1
      show a < c.1; omega

theorem byteAt_cellsFrom (a : Nat) (bs : List Byte) (x : Nat) :
    Memory.byteAt (cellsFrom a bs) x = if a ≤ x then bs.getD (x - a) 0xFF else 0xFF := by
  induction bs generalizing a with
  | nil => simp [cellsFrom, byteAt_nil]
  | cons b bs ih =>
    unfold cellsFrom
    split
    · rename_i hb
      rw [ih (a + 1)]
      by_cases h : a = x
      · subst h; simp [hb]
      · by_cases h2 : a ≤ x
        · have e : x - a = (x - (a + 1)) + 1 := by omega
          rw [if_pos (by omega), if_pos h2, e]; simp
        · rw [if_neg (by omega), if_neg h2]
    · rw [byteAt_cons, ih (a + 1)]
      by_cases h : a = x
      · subst h; simp
      · by_cases h2 : a ≤ x
        · have e : x - a = (x - (a + 1)) + 1 := by omega
          rw [if_neg h, if_pos (by omega), if_pos h2, e]; simp
        · rw [if_neg h, if_neg (by omega), if_neg h2]

/-! ## Writing and erasing a run -/

/-- A byte after a run is replaced: the run's own inside it, the former one outside. -/
theorem byteAt_writeRun (m : Memory) (a : Nat) (bs : List Byte) (x : Nat) :
    (m.writeRun a bs).byteAt x =
      if a ≤ x ∧ x < a + bs.length then bs.getD (x - a) 0xFF else m.byteAt x := by
  unfold Memory.writeRun
  by_cases h1 : x < a
  · rw [if_neg (by omega), byteAt_append_left, byteAt_filter]
    · intro c _ hc; simp; omega
    · intro c hc
      rcases List.mem_append.mp hc with hc | hc
      · have := (cellsFrom_bounds a bs c hc).1; omega
      · have := (List.mem_filter.mp hc).2; simp at this; omega
  · rw [byteAt_append_right _ _ _ (fun c hc => by have := (List.mem_filter.mp hc).2; simp at this; omega)]
    by_cases h2 : x < a + bs.length
    · rw [if_pos ⟨by omega, h2⟩, byteAt_append_left, byteAt_cellsFrom, if_pos (by omega)]
      intro c hc; have := (List.mem_filter.mp hc).2; simp at this; omega
    · rw [if_neg (by omega),
        byteAt_append_right _ _ _ (fun c hc => by have := cellsFrom_bounds a bs c hc; omega), byteAt_filter]
      intro c _ hc; simp; omega

/-- A byte after a run is erased. -/
theorem byteAt_eraseRun (m : Memory) (a n x : Nat) :
    (m.eraseRun a n).byteAt x = if a ≤ x ∧ x < a + n then 0xFF else m.byteAt x := by
  unfold Memory.eraseRun
  by_cases h : a ≤ x ∧ x < a + n
  · rw [if_pos h, byteAt_absent]
    intro c hc; have := (List.mem_filter.mp hc).2; simp at this; omega
  · rw [if_neg h, byteAt_filter]
    intro c _ hc; simp; omega

/-- The bytes of a run as they are read. -/
theorem readRun_getD (m : Memory) (a n i : Nat) (h : i < n) (d : Byte) :
    (m.readRun a n).getD i d = m.byteAt (a + i) := by
  simp only [Memory.readRun]
  rw [List.getD_eq_getElem?_getD, List.getElem?_map, List.getElem?_range h]
  simp only [Option.map_some, Option.getD_some]
  apply byteAt_filter
  intro c _ hc; simp; omega

@[simp] theorem readRun_length (m : Memory) (a n : Nat) : (m.readRun a n).length = n := by
  simp [Memory.readRun]

@[simp] theorem readPage_length (m : Memory) (s p : Nat) : (m.readPage s p).length = 256 := readRun_length _ _ _

/-- A page of an array that holds nothing else reads back. -/
theorem readPage_cellsFrom (s p : Nat) (bs : List Byte) (h : bs.length = 256) :
    Memory.readPage (cellsFrom (byteAddress s p 0) bs) s p = bs := by
  refine List.ext_getElem (by simp [h]) (fun i h1 h2 => ?_)
  have hi : i < 256 := h ▸ h2
  have hr := readRun_getD (cellsFrom (byteAddress s p 0) bs) (byteAddress s p 0) 256 i hi 0
  rw [byteAt_cellsFrom, if_pos (by omega), Nat.add_sub_cancel_left, List.getD_eq_getElem _ _ h2] at hr
  rw [← hr]
  exact (List.getD_eq_getElem _ _ h1).symm

/-! ## The canonical form -/

theorem wf_nil : Memory.wf [] := ⟨List.Pairwise.nil, fun c hc => absurd hc (by simp)⟩

theorem wf_filter (m : Memory) (f : Host.Cell → Bool) (h : m.wf) : Memory.wf (m.filter f) :=
  ⟨h.1.filter _, fun c hc => h.2 c (List.mem_filter.mp hc).1⟩

/-- Replacing a run inside the array keeps the canonical form. -/
theorem wf_writeRun (m : Memory) (a : Nat) (bs : List Byte) (h : m.wf)
    (hb : a + bs.length ≤ Config.arrayBytes) : (m.writeRun a bs).wf := by
  unfold Memory.writeRun
  refine ⟨?_, fun c hc => ?_⟩
  · refine List.pairwise_append.mpr ⟨h.1.filter _, ?_, ?_⟩
    · refine List.pairwise_append.mpr ⟨cellsFrom_sorted a bs, h.1.filter _, fun c hc d hd => ?_⟩
      have h1 := cellsFrom_bounds a bs c hc
      have h2 := (List.mem_filter.mp hd).2
      simp at h2; omega
    · intro c hc d hd
      have h1 := (List.mem_filter.mp hc).2
      simp at h1
      rcases List.mem_append.mp hd with hd | hd
      · have := cellsFrom_bounds a bs d hd; omega
      · have h2 := (List.mem_filter.mp hd).2
        simp at h2; omega
  · rcases List.mem_append.mp hc with hc | hc
    · exact h.2 c (List.mem_filter.mp hc).1
    · rcases List.mem_append.mp hc with hc | hc
      · have := cellsFrom_bounds a bs c hc
        exact ⟨this.2.2, by omega⟩
      · exact h.2 c (List.mem_filter.mp hc).1

theorem wf_eraseRun (m : Memory) (a n : Nat) (h : m.wf) : (m.eraseRun a n).wf := wf_filter m _ h

theorem programmed_length (f s : List Byte) (h : f.length = s.length) : (programmed f s).length = s.length := by
  simp [programmed, h]

theorem programmedInPart_length (f s : List Byte) (u : Settle) (h : f.length = s.length) :
    (programmedInPart f s u).length = s.length := by
  simp [programmedInPart, h]

/-- A page program inside a page of the array keeps the canonical form, whatever its verdict. -/
theorem wf_programPage (m : Memory) (s p first : Nat) (data : List Byte) (v : Verdict) (h : m.wf)
    (hs : s < Config.sectorCount) (hp : p < Config.pagesPerSector) (hf : first + data.length ≤ Config.pageBytes) :
    (m.programPage s p first data v).wf := by
  have hb : byteAddress s p first + data.length ≤ Config.arrayBytes := by
    simp only [byteAddress, Config.sectorCount, Config.pagesPerSector, Config.pageBytes, Config.sectorBytes,
      Config.arrayBytes] at *
    omega
  unfold Memory.programPage
  cases v with
  | success => exact wf_writeRun _ _ _ h (by rw [programmed_length _ _ (by simp)]; exact hb)
  | failure u => exact wf_writeRun _ _ _ h (by rw [programmedInPart_length _ _ _ (by simp)]; exact hb)

/-- A sector erase keeps the canonical form, whatever its verdict. -/
theorem wf_eraseSector (m : Memory) (s : Nat) (v : Verdict) (h : m.wf) : (m.eraseSector s v).wf := by
  unfold Memory.eraseSector
  cases v with
  | success => exact wf_eraseRun _ _ _ h
  | failure u =>
    refine ⟨?_, fun c hc => ?_⟩
    · refine List.Pairwise.filterMap _ (fun c d hcd c' hc' d' hd' => ?_) h.1
      have e1 : c'.1 = c.1 := by
        simp only at hc'; split at hc'
        · split at hc' <;> simp_all; rw [← hc']
        · simp_all
      have e2 : d'.1 = d.1 := by
        simp only at hd'; split at hd'
        · split at hd' <;> simp_all; rw [← hd']
        · simp_all
      omega
    · obtain ⟨d, hd, he⟩ := List.mem_filterMap.mp hc
      have := h.2 d hd
      simp only at he
      split at he
      · split at he
        · exact absurd he (by simp)
        · rename_i hw
          simp only [Option.some.injEq] at he
          subst he
          exact ⟨hw, this.2⟩
      · simp only [Option.some.injEq] at he
        subst he; exact this

/-- A cut-off keeps the canonical form if what the engine holds lies in the array. -/
theorem wf_cutOff (m : Memory) (g : Engine) (cut : CutOff) (h : m.wf) (hg : g.inArray = true) :
    (m.cutOff g cut).wf := by
  obtain ⟨cur, par, r, pr, e⟩ := g
  have h1 : (m.cutCurrent cut.current cur).wf := by
    cases cur with
    | none => exact h
    | some op =>
      cases op with
      | read _ _ _ _ => exact h
      | program s p first data _ _ =>
        simp only [Engine.inArray, Operation.inArray, Bool.and_eq_true, decide_eq_true_eq] at hg
        exact wf_programPage m s p first data (.failure cut.current) h hg.1.1.1 hg.1.1.2 hg.1.2
      | erase e => exact wf_eraseSector m e.sector (.failure cut.current) h
  unfold Memory.cutOff Memory.cutParked
  cases par with
  | none => exact h1
  | some e => exact wf_eraseSector _ _ _ h1

end Sys2Proof.Laws
end

