-- ==== Sys2Proof/Laws/PerInstr.lean ====
section
/-!
SUPPORT. What holds of each command as syntax: the frame a command names is a frame of its own port and
begins with a byte.
-/

namespace Sys2Proof.Laws.FrameStart

/-- A command that names a frame names one of the port that sends it, and the frame has a command byte. -/
def Statement (i : Instr) : Prop :=
  ∀ p bytes k, i.frame = some (p, bytes, k) → i.port = some p ∧ bytes ≠ []

theorem of_none (i : Instr) (h : i.frame = none) : Statement i := fun p bytes k e => by simp [h] at e

theorem of_some (i : Instr) (p : Port) (c : Byte) (bytes : List Byte) (k : Clocking)
    (h : i.frame = some (p, c :: bytes, k)) (hp : i.port = some p) : Statement i := fun q bs k' e => by
  rw [h] at e
  injection e with e
  injection e with e1 e2
  injection e2 with e2 e3
  exact ⟨e1 ▸ hp, e2 ▸ List.cons_ne_nil c bytes⟩

theorem deviceReset (cut : CutOff) : Statement (.deviceReset cut) := of_none _ rfl
theorem hrstAssert (p : Port) : Statement (.hrstAssert p) := of_none _ rfl
theorem hrstRelease (p : Port) : Statement (.hrstRelease p) := of_none _ rfl
theorem status (p : Port) (k : Clocking) : Statement (.status p k) := of_some _ p _ _ k rfl rfl
theorem events (p : Port) (k : Clocking) : Statement (.events p k) := of_some _ p _ _ k rfl rfl
theorem ticket (p : Port) (number : Byte) (k : Clocking) : Statement (.ticket p number k) :=
  of_some _ p _ _ k rfl rfl
theorem fetch (p : Port) (number : Byte) (k : Clocking) : Statement (.fetch p number k) :=
  of_some _ p _ _ k rfl rfl
theorem retire (p : Port) (number : Byte) (k : Clocking) : Statement (.retire p number k) :=
  of_some _ p _ _ k rfl rfl
theorem cancel (p : Port) (number : Byte) (k : Clocking) : Statement (.cancel p number k) :=
  of_some _ p _ _ k rfl rfl
theorem table (p : Port) (index : Byte) (k : Clocking) : Statement (.table p index k) :=
  of_some _ p _ _ k rfl rfl
theorem setlease (p : Port) (value : Byte) (k : Clocking) : Statement (.setlease p value k) :=
  of_some _ p _ _ k rfl rfl
theorem hold (p : Port) (partition : Byte) (k : Clocking) : Statement (.hold p partition k) :=
  of_some _ p _ _ k rfl rfl
theorem read (p : Port) (notify : Bool) (partition view : Byte) (offset : Word32) (length : Half16)
    (k : Clocking) :
    Statement (.read p notify partition view offset length k) := of_some _ p _ _ k rfl rfl
theorem program (p : Port) (notify : Bool) (partition : Byte) (offset : Word32) (length : Half16)
    (data : List Byte) (k : Clocking) :
    Statement (.program p notify partition offset length data k) := of_some _ p _ _ k rfl rfl
theorem erase (p : Port) (notify : Bool) (partition : Byte) (firstSector count : Half16) (k : Clocking) :
    Statement (.erase p notify partition firstSector count k) := of_some _ p _ _ k rfl rfl
theorem claim (p : Port) (notify : Bool) (partition : Byte) (k : Clocking) :
    Statement (.claim p notify partition k) := of_some _ p _ _ k rfl rfl
theorem release (p : Port) (notify : Bool) (partition : Byte) (k : Clocking) :
    Statement (.release p notify partition k) := of_some _ p _ _ k rfl rfl
theorem commit (p : Port) (notify : Bool) (partition : Byte) (length check : Word32) (budget : Byte)
    (k : Clocking) :
    Statement (.commit p notify partition length check budget k) := of_some _ p _ _ k rfl rfl
theorem confirm (p : Port) (notify : Bool) (partition : Byte) (k : Clocking) :
    Statement (.confirm p notify partition k) := of_some _ p _ _ k rfl rfl
theorem revert (p : Port) (notify : Bool) (partition : Byte) (k : Clocking) :
    Statement (.revert p notify partition k) := of_some _ p _ _ k rfl rfl
theorem define (p : Port) (notify : Bool) (kind : Byte) (base size : Half16) (readers : Byte)
    (label : Word32) (k : Clocking) :
    Statement (.define p notify kind base size readers label k) := of_some _ p _ _ k rfl rfl
theorem delete (p : Port) (notify : Bool) (partition : Byte) (k : Clocking) :
    Statement (.delete p notify partition k) := of_some _ p _ _ k rfl rfl
theorem grant (p : Port) (notify : Bool) (partition readers : Byte) (k : Clocking) :
    Statement (.grant p notify partition readers k) := of_some _ p _ _ k rfl rfl
theorem fix (p : Port) (notify : Bool) (partition : Byte) (k : Clocking) :
    Statement (.fix p notify partition k) := of_some _ p _ _ k rfl rfl
theorem malformedFrame (p : Port) (command : Byte) (bytes : List Byte) (k : Clocking) :
    Statement (.malformedFrame p command bytes k) := of_some _ p _ _ k rfl rfl
theorem unknownCommand (p : Port) (command : Byte) (k : Clocking) : Statement (.unknownCommand p command k) :=
  of_some _ p _ _ k rfl rfl
theorem pageReadComplete : Statement (.pageReadComplete) := of_none _ rfl
theorem pageProgramComplete (v : Verdict) : Statement (.pageProgramComplete v) := of_none _ rfl
theorem sectorEraseComplete (v : Verdict) : Statement (.sectorEraseComplete v) := of_none _ rfl
theorem eraseParked : Statement (.eraseParked) := of_none _ rfl
theorem eraseQuantumExpiry : Statement (.eraseQuantumExpiry) := of_none _ rfl
theorem leaseExpiry (p : Port) : Statement (.leaseExpiry p) := of_none _ rfl
theorem resetAssertion (cut : CutOff) : Statement (.resetAssertion cut) := of_none _ rfl
theorem powerLoss (cut : CutOff) : Statement (.powerLoss cut) := of_none _ rfl
theorem selectRelease (p : Port) : Statement (.selectRelease p) := of_none _ rfl

end Sys2Proof.Laws.FrameStart
end

