-- ==== Sys2Proof/Laws/Settle.lean ====
section
/-!
SUPPORT. The end of an event (Dev.settle): when it leaves the state as it is, and the taking of requests, the
Scheduler's choice and the leases each by itself.
-/

namespace Sys2Proof.Laws

open Sys2Proof.Machine

/-! ## Requests -/

theorem takeRequests_of_none (d : Dev) (h : d.TakesNone) (n : Nat) : Dev.takeRequests n d = d := by
  cases n with
  | zero => rfl
  | succ n =>
    rcases h with h | h
    · simp [Dev.takeRequests, h]
    · simp [Dev.takeRequests, h, pickRequest]

theorem takeAll_of_none (d : Dev) (h : d.TakesNone) : d.takeAll = d := takeRequests_of_none d h _

/-- R69: no request is taken while a record is in hand. -/
theorem takesNone_of_inHand (d : Dev) (h : d.writer.inHand.isSome = true) : d.TakesNone := by
  left
  cases hh : d.writer.inHand <;> simp_all [Dev.mayForm]

/-! ## The Scheduler -/

/-- R143: nothing is chosen while the engine has a current operation. -/
theorem choices_of_current (after : Dev → Dev) (d : Dev) (h : d.engine.current.isSome = true) (n turn : Nat)
    (released : List Released) : Dev.choices after n turn released d = d := by
  cases n with
  | zero => rfl
  | succ n => simp [Dev.choices, h]

/-- R146: nothing is done where nothing is ready. -/
theorem choices_of_idle (after : Dev → Dev) (d : Dev) (h : d.choose = none) (n turn : Nat)
    (released : List Released) : Dev.choices after n turn released d = d := by
  cases n with
  | zero => rfl
  | succ n =>
    unfold Dev.choices
    split
    · rfl
    · simp [h]

theorem schedule_of_current (former d : Dev) (h : d.engine.current.isSome = true) : Dev.schedule former d = d :=
  choices_of_current _ d h _ _ _

theorem schedule_of_idle (former d : Dev) (h : d.choose = none) : Dev.schedule former d = d :=
  choices_of_idle _ d h _ _ _

/-- R149, R174: a choice whose ticket, if it takes one's operation, no end of this event released. -/
theorem takeChoice_of_none (after : Dev → Dev) (d : Dev) (c : Choice) (turn : Nat) :
    (Dev.takeChoice after turn [] d c).1 = after (d.perform c) := by
  unfold Dev.takeChoice
  cases d.choiceTicket c <;> rfl

/-- R174: an end moves no ticket of another port. -/
theorem after_of_port (x r : Released) (h : x.port ≠ r.port) (turn n : Nat) : x.after r turn n = x := by
  simp [Released.after, h]

/-- R174: at the place of `r`, what comes before its end in the order of the ends keeps its place. -/
theorem after_of_not_before (x r : Released) (hp : x.place = r.place) (turn n : Nat) (h : r.before x turn = false) :
    x.after r turn n = x := by
  simp [Released.after, hp, h]

/-- R174: at the place of `r`, what comes after its end in the order of the ends goes behind its records. -/
theorem after_of_before (x r : Released) (hq : x.port = r.port) (hp : x.place = r.place) (turn n : Nat)
    (h : r.before x turn = true) : x.after r turn n = { x with place := x.place + n } := by
  simp [Released.after, hq, hp, h]

theorem append_lt_append (l a b : List Nat) : l ++ a < l ++ b ↔ a < b := by
  induction l with
  | nil => rfl
  | cons n l ih => simp [List.cons_lt_cons_iff, ih]

/-- R174: of two tickets with one line, released by one end, the one that ends first stands first. -/
theorem before_of_line (r x : Released) (h : x.line = r.line) (turn : Nat) : r.before x turn = true := by
  simp [Released.before, h, append_lt_append, List.cons_lt_cons_iff]

/-- R174: what a later end in the line of `r` released stays before what `r` sends at a later turn. -/
theorem not_before_of_newer (r x : Released) (n turn : Nat) (m : List Nat) (h : x.line = r.line ++ n :: m)
    (hn : n < turn) : r.before x turn = false := by
  simp [Released.before, h, append_lt_append, List.cons_lt_cons_iff]
  omega

/-- R174: what an older end of the line of `r`, or no end, released goes behind what `r` sends. -/
theorem before_of_older (r x : Released) (n turn : Nat) (m : List Nat) (h : r.line = x.line ++ n :: m)
    (hn : n < turn) : r.before x turn = true := by
  simp [Released.before, h, append_lt_append, List.cons_lt_cons_iff]
  omega

/-- R174: where two lines part, the one that parts at the earlier turn stands first, whatever they go on to. -/
theorem before_of_parting (r x : Released) (l m k : List Nat) (i j turn : Nat) (hr : r.line = l ++ i :: m)
    (hx : x.line = l ++ j :: k) (h : i ≠ j) : r.before x turn = decide (i < j) := by
  simp [Released.before, hr, hx, append_lt_append, List.cons_lt_cons_iff, h]

/-- R174: an end releases only tickets that were live when the event began. -/
theorem releasedLast_of_noLive (former d : Dev) (h : former.NoLive) (turn : Nat) :
    Dev.releasedLast former d turn = [] := by
  simp only [Dev.releasedLast, Dev.releasedSince, List.flatMap_eq_nil_iff]
  intro p _
  simp only [Dev.releasedAt, List.map_eq_nil_iff, List.filter_eq_nil_iff]
  intro t _ hr
  split at hr
  · rename_i u hu
    have hl : u.live = false := h p u (List.mem_of_find?_eq_some hu)
    simp [hl] at hr
  · simp at hr

/-- R146: one choice that issues an operation, at an event that released no ticket. -/
theorem schedule_of_issue (former d : Dev) (c : Choice) (h0 : d.engine.current = none) (h1 : d.choose = some c)
    (hr : Dev.releasedLast former d 0 = [])
    (h2 : (d.perform c).takeAll.engine.current.isSome = true) :
    Dev.schedule former d = (d.perform c).takeAll := by
  unfold Dev.schedule Dev.scheduleFuel Dev.choices
  rw [hr]
  simp only [h0, h1, Option.isSome_none, Bool.false_eq_true, if_false, takeChoice_of_none]
  exact choices_of_current _ _ h2 _ _ _

theorem requestSuspension_of_none (d : Dev) (h : d.engine.current = none) : d.requestSuspension = d := by
  simp [Dev.requestSuspension, h]

theorem requestSuspension_of_short (d : Dev) (h : d.EngineShort) : d.requestSuspension = d := by
  obtain ⟨op, h1, h2⟩ := h
  cases op with
  | erase e => exact absurd h2 (by simp [Operation.isShort])
  | _ => simp [Dev.requestSuspension, h1]

/-- R153: a suspension is requested only in the current erase. -/
theorem requestSuspension_current (d : Dev) (e : EraseOp) (h : d.engine.current = some (.erase e)) :
    d.requestSuspension =
      if d.wantsSuspension e then
        d.modifyEngine (fun g => { g with current := some (.erase { e with requested := true, asked := 0 }) })
      else d := by
  simp [Dev.requestSuspension, h]

/-! ## Leases -/

/-- R74, R165: nothing of the Journal Writer, a waiting request neither, changes whether a lease's timer runs. -/
@[simp] theorem leaseRuns_of_writer (d : Dev) (w : Writer) (p : Port) :
    ({ d with writer := w } : Dev).leaseRuns p = d.leaseRuns p := rfl

theorem checkLease_of_fresh (d : Dev) (h : d.LeasesFresh) (p : Port) : d.checkLease p = d := by
  unfold Dev.checkLease
  split
  · rename_i hc
    simp only [Bool.and_eq_true, beq_iff_eq] at hc
    exact absurd hc.2 (h p hc.1)
  · rfl

theorem checkLeases_of_fresh (d : Dev) (h : d.LeasesFresh) : d.checkLeases = d := by
  simp [Dev.checkLeases, Dev.forEach, allPorts, checkLease_of_fresh d h]

/-! ## The end of an event -/

/-- An event after which the engine stays busy, no request can be taken and no lease expires ends as it is. -/
theorem settle_of_still (former d : Dev) (h : d.Still) : Dev.settle former d = d := by
  obtain ⟨h1, h2, h3⟩ := h
  have hc : d.engine.current.isSome = true := by obtain ⟨op, e, _⟩ := h1; simp [e]
  unfold Dev.settle
  simp only [takeAll_of_none d h2, schedule_of_current former d hc, requestSuspension_of_short d h1,
    checkLeases_of_fresh d h3]

/-- The end of an event at which nothing is ready and the engine is idle. -/
theorem settle_of_idle (former d : Dev) (h0 : d.engine.current = none) (h1 : d.choose = none) (h2 : d.TakesNone)
    (h3 : d.LeasesFresh) : Dev.settle former d = d := by
  unfold Dev.settle
  simp only [takeAll_of_none d h2, schedule_of_idle former d h1, requestSuspension_of_none d h0,
    checkLeases_of_fresh d h3]

/-! ## Nothing is ready -/

theorem oldestModifying_of_noLive (d : Dev) (h : d.NoLive) (p : Port) : d.oldestModifying p = none := by
  simp only [Dev.oldestModifying, List.find?_eq_none]
  intro t ht
  simp [h p t ht]

theorem oldestRead_of_noLive (d : Dev) (h : d.NoLive) (p : Port) : d.oldestRead p = none := by
  simp only [Dev.oldestRead, List.find?_eq_none]
  intro t ht
  simp [h p t ht]

/-- R127: where no ticket is live, none becomes startable. -/
theorem wakePort_of_noLive (d : Dev) (h : d.NoLive) (p : Port) : d.wakePort p = d := by
  simp [Dev.wakePort, Dev.wake, oldestModifying_of_noLive d h p]

/-- With no live ticket, no parked erase and no work of the Journal Writer or Mount Logic nothing is ready. -/
theorem choose_of_quiet (d : Dev) (h : d.Quiet) (hl : d.NoLive) : d.choose = none := by
  obtain ⟨h1, h2, h3, h4, h5, h6⟩ := h
  have hr : d.recordReady = none := by simp [Dev.recordReady, h2, h3, h5]
  have hread : ∀ m, d.readReady m = false := by
    intro m
    cases m with
    | port p =>
      simp [Dev.readReady, Dev.readCandidate, Dev.verifyCandidate, oldestRead_of_noLive d hl,
        oldestModifying_of_noLive d hl]
    | system => simp [Dev.readReady, Dev.mountReads, h5]
  have hprog : ∀ m, d.programReady m = false := by
    intro m
    cases m with
    | port p => simp [Dev.programReady, Dev.programCandidate, oldestModifying_of_noLive d hl]
    | system => rfl
  have herase : ∀ m, d.eraseReady m = false := by
    intro m
    cases m with
    | port p => simp [Dev.eraseReady, Dev.eraseCandidate, oldestModifying_of_noLive d hl]
    | system => simp [Dev.eraseReady, Dev.systemErase, h3, h5]
  have none_of (f : Member → Bool) (hf : ∀ m, f m = false) (l : List Member) : l.find? f = none := by
    rw [List.find?_eq_none]; intro m _; simp [hf m]
  simp only [Dev.choose, hr, Option.isSome_none, Bool.false_eq_true, if_false, none_of _ hread, none_of _ hprog,
    none_of _ herase, h1]

/-- R165, R166: a timer runs only where a claim is held and the lease setting is not 0. -/
theorem leasesFresh_of_left (d : Dev) (h : d.LeasesLeft) : d.LeasesFresh := by
  intro p hr
  simp only [Dev.leaseRuns, Bool.and_eq_true, bne_iff_ne, ne_eq] at hr
  rcases h p hr.1.1 with h1 | h1
  · exact h1
  · exact absurd h1 hr.2

/-- Leases stay left where no port comes to hold a claim and no lease changes. -/
theorem leasesLeft_mono (d e : Dev) (hc : ∀ p, e.holdsClaim p = true → d.holdsClaim p = true)
    (hp : ∀ p, (e.port p).leaseTime = (d.port p).leaseTime ∧ (e.port p).leaseSetting = (d.port p).leaseSetting)
    (h : d.LeasesLeft) : e.LeasesLeft := by
  intro p he
  rw [(hp p).1, (hp p).2]
  exact h p (hc p he)

theorem leasesFresh_of_quiet (d : Dev) (h : d.Quiet) : d.LeasesFresh := leasesFresh_of_left d h.2.2.2.2.2

/-- The end of an event in a quiet device whose engine is idle and whose tickets are all terminal. -/
theorem settle_of_quiet (former d : Dev) (h0 : d.engine.current = none) (h : d.Quiet) (hl : d.NoLive) :
    Dev.settle former d = d :=
  settle_of_idle former d h0 (choose_of_quiet d h hl) (.inr h.2.2.2.1) (leasesFresh_of_quiet d h)

end Sys2Proof.Laws
end

