-- ==== Sys2Proof/Laws/Time.lean ====
section
/-!
SUPPORT. A microsecond of time: what it leaves, and what it does to the lease timers.
-/

namespace Sys2Proof.Laws

open Sys2Proof.Machine

theorem timePasses_of_runs (s : State) (h : s.timeRuns = true) : s.timePasses = s.modifyDev Dev.microsecond :=
  if_pos h

theorem timePasses_of_stands (s : State) (h : s.timeRuns = false) : s.timePasses = s :=
  if_neg (by simp [h])

/-- Time reaches the shared side alone. -/
theorem timePasses_cases (s : State) : s.timePasses = s ∨ s.timePasses = s.modifyDev Dev.microsecond := by
  cases h : s.timeRuns with
  | true => exact .inr (timePasses_of_runs s h)
  | false => exact .inl (timePasses_of_stands s h)

/-- R165: the ports after a microsecond of the lease timer of `p`. -/
theorem runLease_port (d : Dev) (p q : Port) :
    (d.runLease p).port q =
      if q = p ∧ d.leaseRuns p = true then { d.port p with leaseTime := (d.port p).leaseTime - 1 }
      else d.port q := by
  unfold Dev.runLease
  by_cases h : d.leaseRuns p = true
  · rw [if_pos h, modifyPort_port]; simp [h]
  · rw [if_neg h]; simp [h]

/-- R165: the run condition does not look at the remaining time. -/
theorem runLease_leaseRuns (d : Dev) (p q : Port) : (d.runLease p).leaseRuns q = d.leaseRuns q := by
  have h1 : ∀ r, (d.runLease p).holdsClaim r = d.holdsClaim r := by intro r; unfold Dev.runLease; split <;> rfl
  have h2 : (d.runLease p).ring q = d.ring q := by
    unfold Dev.ring; rw [runLease_port]; split
    · rename_i h; rw [h.1]
    · rfl
  have h3 : ((d.runLease p).port q).leaseSetting = (d.port q).leaseSetting := by
    rw [runLease_port]; split
    · rename_i h; rw [h.1]
    · rfl
  simp only [Dev.leaseRuns, h1, Dev.hasRunning, h2, h3]

theorem runLease_eq (d : Dev) (p : Port) : d.runLease p = { d with ports := (d.runLease p).ports } := by
  unfold Dev.runLease; split <;> rfl

/-- R165: the three lease timers a microsecond later. -/
theorem runLeases_eq (d : Dev) :
    d.forEach allPorts (fun p d => d.runLease p) =
      { d with ports := (d.forEach allPorts (fun p d => d.runLease p)).ports } := by
  have h (e : Dev) (p : Port) (ports : PerPort PortState) (he : e = { d with ports := ports }) :
      e.runLease p = { d with ports := (e.runLease p).ports } := by
    subst he; exact runLease_eq _ _
  exact h _ .p2 _ (h _ .p1 _ (runLease_eq d .p0))
theorem runLeases_port (d : Dev) (q : Port) :
    (d.forEach allPorts (fun p d => d.runLease p)).port q =
      if d.leaseRuns q = true then { d.port q with leaseTime := (d.port q).leaseTime - 1 } else d.port q := by
  show (((d.runLease .p0).runLease .p1).runLease .p2).port q = _
  simp only [runLease_port, runLease_leaseRuns]
  cases q <;> simp

end Sys2Proof.Laws
end

