-- ==== Sys2Proof/Tests/Slice0.lean ====
section
/-!
SUPPORT. Tests of single commands, and for every statement of Sys2Proof/Certificates/Slice0/Obligations.lean
that has hypotheses a concrete state and operands that meet them (the `witness_` theorems). Expected values
come from the text and tables of spec/, most of them from the encodings of spec/12.
-/

namespace Sys2Proof.Tests
open Sys2Proof Sys2Proof.Machine

set_option Elab.async false

/-! ## States to test on -/

/-- A port of a part that has just mounted: nothing waits and its lease has 1 s left. -/
def freshPort : PortState := { PortState.reset with leaseTime := 1000000 }

/-- A mounted part with an empty table, the engine idle and half 0 active from slot 5 on. Port 2 has sent no
frame since device reset (R163). -/
def idleDev : Dev :=
  { Dev.reset with
    phase := .serving
    ports := { p0 := freshPort, p1 := freshPort, p2 := .reset }
    writer := { Writer.reset with nextSlot := 5, nextSequence := some 6 }
    mount := { Mount.start with step := .idle } }

def stateOf (d : Dev) : State := { State.reset with dev := d }

/-- The engine busy with an operation. -/
def busyWith (d : Dev) (op : Operation) : Dev := { d with engine := { d.engine with current := some op } }

/-- A port that keeps the engine busy with a page read of another port's ticket. -/
def busy (d : Dev) : Dev := busyWith d (.read 4000 0 (.ticket .p2 200) 0)

def plainEntry (base size : Half16) : Entry :=
  { Entry.undefined with defined := true, kind := .plain, base := base, size := size, serial := 7 }

def imageEntry (base size : Half16) : Entry :=
  { Entry.undefined with defined := true, kind := .image, base := base, size := size, serial := 7 }

/-- Entries 0 and 1: a PLAIN and an IMAGE partition of port 0; entry 2 a PLAIN one of port 1. -/
def defined (d : Dev) : Dev :=
  ((d.setEntry 0 (plainEntry 8 4)).setEntry 1 (imageEntry 12 2)).setEntry 2 { plainEntry 16 4 with owner := .p1 }

def someTicket (n : Byte) (k : TicketKind) (i : Nat) (st : TicketState) (stage : Stage) : Ticket :=
  { number := n, kind := k, index := some i, serial := some 7, notify := true, state := st, result := .ok,
    progress := 0, buffer := none, copyRead := none, generationRead := none, cancelRequested := false,
    orphan := false, stage := stage }

/-- Port 0's ring replaced. -/
def withRing (d : Dev) (r : List Ticket) : Dev :=
  d.modifyPort .p0 (fun q => { q with ring := r, nextNumber := 9 })

/-- A frame without bytes after its parameters. -/
abbrev sent : Clocking := Clocking.whole []

/-- What holds of the next state; false where a command stops. -/
def nextIs (o : Host.Outcome State Fault Refusal) (f : State → Bool) : Bool :=
  match o with
  | .next t => f t
  | .fault _ => false
  | .refused _ => false

/-- The command is refused as an event that cannot fall. -/
def stops (o : Host.Outcome State Fault Refusal) : Bool :=
  match o with
  | .next _ => false
  | .fault _ => false
  | .refused _ => true

theorem all_ports (P : Port → Prop) : (∀ p, P p) ↔ P .p0 ∧ P .p1 ∧ P .p2 :=
  ⟨fun h => ⟨h _, h _, h _⟩, fun h p => by cases p <;> simp [h]⟩

theorem leasesLeft_iff (d : Dev) :
    d.LeasesLeft ↔
      (allPorts.all (fun p => !d.holdsClaim p || (d.port p).leaseTime != 0 || (d.port p).leaseSetting == 0)) = true := by
  have h (p : Port) : (d.holdsClaim p = true → (d.port p).leaseTime ≠ 0 ∨ (d.port p).leaseSetting = 0) ↔
      (!d.holdsClaim p || (d.port p).leaseTime != 0 || (d.port p).leaseSetting == 0) = true := by
    cases d.holdsClaim p <;> simp
  simp only [Dev.LeasesLeft, all_ports, h, allPorts, List.all_cons, List.all_nil, Bool.and_true, Bool.and_eq_true]

theorem engineShort_iff (d : Dev) :
    d.EngineShort ↔ (match d.engine.current with | some op => op.isShort | none => false) = true := by
  unfold Dev.EngineShort
  cases d.engine.current <;> simp

theorem accepts_some (d : Dev) (p : Port) (k : TicketKind) (i : Nat) :
    d.Accepts p k (some i) ↔
      ((d.entry i).defined = true ∧ entryArguments k (d.entry i) = true ∧ hasRights p k (d.entry i) = true ∧
        lockBlocks k (d.entry i) = false) ∧
      ¬ (d.phase = .degraded ∧ refusedInDegraded k (d.entry i) = true) ∧ (d.ring p).length < 8 := by
  simp [Dev.Accepts]

theorem accepts_none (d : Dev) (p : Port) (k : TicketKind) :
    d.Accepts p k none ↔
      ¬ (d.phase = .degraded ∧ refusedInDegraded k (d.entry 24) = true) ∧ (d.ring p).length < 8 := by
  simp [Dev.Accepts]

theorem nothingWaits_iff (d : Dev) (p : Port) :
    d.NothingWaits p ↔
      (match d.oldestModifying p with
        | some t => t.state == .queued && t.stage == .waiting && d.startsWhenStartable t
        | none => false) = false := by
  unfold Dev.NothingWaits
  cases d.oldestModifying p <;> simp

/-! ## Witnesses: frames at their end -/

theorem ready_reset : State.reset.Ready .p0 := by unfold State.Ready; decide +kernel
theorem ready_idle : (stateOf idleDev).Ready .p0 := by unfold State.Ready; decide +kernel

theorem witness_UnknownCommandRefused :
    (stateOf idleDev).Ready .p0 ∧ opcodeOf 0x00 = none ∧ opcodeOf 0x90 = none ∧ opcodeOf 0xFF = none ∧
      Opcode.read.isTicket = true := ⟨ready_idle, by decide +kernel⟩

/-- A TICKET frame without its number, a DEFINE one byte short and a PROGRAM with a byte too many. -/
theorem witness_MalformedFrameRefused :
    (stateOf idleDev).Ready .p0 ∧ malformedBytes [0x12] = true ∧ malformedBytes (0x40 :: List.replicate 9 0) = true ∧
      malformedBytes [0x21, 0, 0, 0, 0, 0, 0, 1, 5, 5] = true ∧ idleDev.pool.grants .p0 = true ∧
      1 ≤ idleDev.pool.free := ⟨ready_idle, by decide +kernel⟩

/-- The pool drained: port 0 holds six buffers, the others their two (section 8.7). -/
def drainedDev : Dev := { idleDev with pool := { free := 0, held := { p0 := 6, p1 := 2, p2 := 2 } } }

theorem witness_MalformedFrameRefused_drained :
    (stateOf drainedDev).Ready .p0 ∧ drainedDev.pool.grants .p0 = false ∧ drainedDev.pool.free = 0 ∧
      malformedBytes [0x21, 0, 0, 0, 0, 0, 0, 2, 5] = true := ⟨by unfold State.Ready; decide +kernel, by decide +kernel⟩

theorem witness_MountingRefusesFrames :
    State.reset.Ready .p0 ∧ State.reset.dev.phase = .mounting ∧ Command.events ≠ .status ∧
      dataCountRight .events = true ∧ dataCountRight (.program 0 0 1 [5]) = true ∧ Command.program 0 0 1 [5] ≠ .status :=
  ⟨ready_reset, by decide +kernel⟩

/-- A ring of eight ended tickets. -/
def fullRing : List Ticket := (List.range 8).map (fun i => someTicket (BitVec.ofNat 8 (i + 1)) .claim 1 .failed .operating)

def heldEntry : Entry := { imageEntry 12 2 with held := true }

def degradedDev : Dev := { defined idleDev with phase := .degraded }

/-- Port 0 holds its two guaranteed buffers and the free ones are owed to the other ports. -/
def shortDev : Dev := { defined idleDev with pool := { free := 4, held := { p0 := 2, p1 := 0, p2 := 0 } } }

theorem witness_TicketFrameRefusals :
    (stateOf (defined idleDev)).Ready .p0 ∧ (defined idleDev).phase ≠ .mounting :=
  ⟨by unfold State.Ready; decide +kernel, by decide +kernel⟩

/-- The checks of a READ at their boundaries, in their order. -/
theorem witness_TicketFrameRefusals_read :
    ((23 : Byte).toNat < 24 ∧ ¬ (24 : Byte).toNat < 24) ∧ ¬ ((2 : Byte) = 0 ∨ (2 : Byte) = 1) ∧
      (¬ 1 ≤ (0 : Half16).toNat ∧ (256 : Half16).toNat ≤ 256 ∧ ¬ (257 : Half16).toNat ≤ 256) ∧
      ((255 : Word32).toNat % 256 + (1 : Half16).toNat ≤ 256 ∧ ¬ (255 : Word32).toNat % 256 + (2 : Half16).toNat ≤ 256) ∧
      ((defined idleDev).entry 23).defined = false ∧ ((defined idleDev).entry 0).size.toNat * 4096 = 16384 ∧
      ¬ 16384 < (16382 : Word32).toNat + (2 : Half16).toNat ∧ 16384 < (16383 : Word32).toNat + (2 : Half16).toNat ∧
      ((defined idleDev).entry 0).kind = .plain ∧ ((defined idleDev).entry 2).owner ≠ .p0 ∧
      readersHave ((defined idleDev).entry 2).readers .p0 = false ∧ readersHave 0b001 .p0 = true ∧
      (shortDev.ring .p0).length < 8 ∧ shortDev.pool.grants .p0 = false ∧ (defined idleDev).pool.grants .p0 = true := by
  decide +kernel

/-- The checks of the kinds that change a named entry, at their boundaries, in their order. -/
theorem witness_TicketFrameRefusals_named :
    (¬ 1 ≤ (0 : Half16).toNat ∧ (3 : Half16).toNat + (1 : Half16).toNat ≤ ((defined idleDev).entry 0).size.toNat ∧
        ¬ (4 : Half16).toNat + (1 : Half16).toNat ≤ ((defined idleDev).entry 0).size.toNat) ∧
      (¬ 1 ≤ (0 : Word32).toNat ∧ ((defined idleDev).entry 1).size.toNat * 4096 = 8192 ∧ (8192 : Word32).toNat ≤ 8192 ∧
        ¬ (8193 : Word32).toNat ≤ 8192) ∧
      ((15 : Byte).toNat < 16 ∧ ¬ (16 : Byte).toNat < 16) ∧
      ((7 : Byte).toNat < 8 ∧ ¬ (8 : Byte).toNat < 8 ∧ (1 : Byte).getLsbD (portNumber .p0) = true ∧
        (6 : Byte).getLsbD (portNumber .p0) = false) ∧
      ((defined idleDev).entry 0).kind = .plain ∧ ((defined idleDev).entry 1).kind = .image ∧
      ((defined idleDev).entry 1).owner = .p0 ∧ ((defined idleDev).entry 2).owner ≠ .p0 ∧ heldEntry.held = true ∧
      heldEntry.fixed = false ∧ degradedDev.phase = .degraded ∧
      8 ≤ ((withRing (defined idleDev) fullRing).ring .p0).length := by decide +kernel

/-- A DEFINE's arguments at their boundaries: both kinds' greatest sizes from sector 8 on end at sector 4095. -/
theorem witness_TicketFrameRefusals_define :
    ((4088 : Half16).toNat ≤ 4088 ∧ (8 : Half16).toNat + (4088 : Half16).toNat ≤ 4096) ∧
      ¬ (4089 : Half16).toNat ≤ 4088 ∧ ¬ (9 : Half16).toNat + (4088 : Half16).toNat ≤ 4096 ∧
      ((2044 : Half16).toNat ≤ 2044 ∧ (8 : Half16).toNat + 2 * (2044 : Half16).toNat ≤ 4096) ∧
      ¬ (2045 : Half16).toNat ≤ 2044 ∧ ¬ (4094 : Half16).toNat + 2 * (2 : Half16).toNat ≤ 4096 ∧
      ¬ 8 ≤ (7 : Half16).toNat ∧ ¬ ((2 : Byte) = 0 ∨ (2 : Byte) = 1) := by decide

/-- A PROGRAM of 256 bytes of entry 0, at offset 0; its data count is its length. -/
theorem witness_ProgramFrameRefusals :
    (stateOf shortDev).Ready .p0 ∧ shortDev.phase ≠ .mounting ∧
      (List.replicate 256 (0 : Byte)).length = (256 : Half16).toNat ∧ shortDev.pool.grants .p0 = false ∧
      ((0 : Byte).toNat < 24 ∧ 1 ≤ (256 : Half16).toNat ∧ (256 : Half16).toNat ≤ 256 ∧
        (0 : Word32).toNat % 256 + (256 : Half16).toNat ≤ 256) ∧
      (shortDev.entry 0).defined = true ∧ (shortDev.entry 0).owner = .p0 :=
  ⟨by unfold State.Ready; decide +kernel, by decide +kernel⟩

/-- The clauses of the argument checks and of the journal, at their boundaries. -/
theorem witness_ProgramFrameRefusals_clauses :
    ¬ (24 : Byte).toNat < 24 ∧ ¬ (255 : Word32).toNat % 256 + (2 : Half16).toNat ≤ 256 ∧
      (shortDev.entry 23).defined = false ∧
      (shortDev.entry 0).size.toNat * 4096 < (16383 : Word32).toNat + (2 : Half16).toNat ∧
      (shortDev.entry 2).owner ≠ .p0 ∧ heldEntry.held = true ∧
      degradedDev.phase = .degraded ∧ (degradedDev.entry 1).kind = .image := by decide +kernel

/-! ## Witnesses: frames that answer, and immediate frames -/

theorem witness_StatusAnswers : State.reset.Ready .p0 ∧ (stateOf degradedDev).Ready .p1 :=
  ⟨ready_reset, by unfold State.Ready; decide +kernel⟩

/-- Tickets of port 0: a READ that is DONE with the data of a page, one that waits, and a RUNNING CLAIM. -/
def doneRead : Ticket :=
  { someTicket 1 (.read .live 16 4) 0 .done .operating with buffer := some (List.replicate 256 0x5A), progress := 1 }

def waitingRead : Ticket := { someTicket 2 (.read .live 0 256) 0 .queued .waiting with buffer := some [] }

def runningClaim : Ticket := someTicket 3 .claim 1 .running .operating

/-- Port 0's ring with those three, the buffers taken, the engine busy and two events waiting. -/
def frameDev : Dev :=
  ({ withRing (busy (defined idleDev)) [doneRead, waitingRead, runningClaim] with
      pool := { free := 8, held := { p0 := 2, p1 := 0, p2 := 0 } } } : Dev).modifyPort .p0 (fun q =>
    { q with events := { records := [partitionEvent .leaseLost 1 0, phaseEvent .ok], lost := true, discarded := false } })

theorem ready_frameDev : (stateOf frameDev).Ready .p0 := by unfold State.Ready; decide +kernel

theorem frameDev_serving : (stateOf frameDev).dev.phase ≠ .mounting := by decide +kernel

theorem witness_EventsShiftedOut :
    (stateOf frameDev).Ready .p0 ∧ (stateOf frameDev).dev.phase ≠ .mounting ∧
      3 ≤ (List.replicate 3 (0 : Byte)).length ∧ ¬ 3 ≤ (List.replicate 2 (0 : Byte)).length :=
  ⟨ready_frameDev, frameDev_serving, by decide⟩

theorem witness_TicketAnswers :
    (stateOf frameDev).Ready .p0 ∧ (stateOf frameDev).dev.phase ≠ .mounting ∧
      (frameDev.ring .p0).find? (fun t => t.number == 3 && !t.orphan) = some runningClaim ∧
      (frameDev.ring .p0).find? (fun t => t.number == 4 && !t.orphan) = none :=
  ⟨ready_frameDev, frameDev_serving, by decide +kernel⟩

/-- Each row of the table of R129, and the shortest frame that shifts out all four data bytes. -/
theorem witness_FetchAnswers :
    (stateOf frameDev).Ready .p0 ∧ (stateOf frameDev).dev.phase ≠ .mounting ∧
      (frameDev.ring .p0).find? (fun t => t.number == 1 && !t.orphan) = some doneRead ∧ doneRead.state = .done ∧
      (frameDev.ring .p0).find? (fun t => t.number == 2 && !t.orphan) = some waitingRead ∧
      (frameDev.ring .p0).find? (fun t => t.number == 3 && !t.orphan) = some runningClaim ∧
      (frameDev.ring .p0).find? (fun t => t.number == 4 && !t.orphan) = none ∧
      2 + (4 : Half16).toNat ≤ (List.replicate 6 (0 : Byte)).length :=
  ⟨ready_frameDev, frameDev_serving, by decide +kernel⟩

theorem witness_TableAnswers :
    (stateOf frameDev).Ready .p0 ∧ (stateOf frameDev).dev.phase ≠ .mounting ∧ 24 ≤ (24 : Byte).toNat ∧
      (frameDev.entry (23 : Byte).toNat).defined = false ∧ (frameDev.entry 0).kind = .plain ∧
      (frameDev.entry 1).kind = .image ∧ (frameDev.entry 1).defined = true :=
  ⟨ready_frameDev, frameDev_serving, by decide +kernel⟩

theorem witness_RetireFrame :
    (stateOf frameDev).Ready .p0 ∧ (stateOf frameDev).dev.phase ≠ .mounting ∧
      (frameDev.ring .p0).find? (fun t => t.number == 1 && !t.orphan) = some doneRead ∧
      (frameDev.ring .p0).find? (fun t => t.number == 3 && !t.orphan) = some runningClaim ∧
      (frameDev.ring .p0).find? (fun t => t.number == 0 && !t.orphan) = none :=
  ⟨ready_frameDev, frameDev_serving, by decide +kernel⟩

/-- A queued READ of a port whose oldest modifying ticket runs, and of one that has none. -/
theorem witness_CancelFrame :
    (stateOf frameDev).Ready .p0 ∧ (stateOf frameDev).dev.phase ≠ .mounting ∧ frameDev.Still ∧
      frameDev.ticket .p0 2 = some waitingRead ∧ waitingRead.state = .queued ∧
      (frameDev.ring .p0).find? (fun u => u.number != 2 && u.modifying && u.live) = some runningClaim ∧
      runningClaim.state = .running ∧ (withRing frameDev [waitingRead]).Still ∧
      ((withRing frameDev [waitingRead]).ring .p0).find? (fun u => u.number != 2 && u.modifying && u.live) = none :=
  ⟨ready_frameDev, frameDev_serving,
    by simp only [Dev.Still, engineShort_iff, Dev.TakesNone, Dev.LeasesFresh, all_ports]; decide +kernel,
    by decide +kernel, by decide, by decide +kernel, by decide,
    by simp only [Dev.Still, engineShort_iff, Dev.TakesNone, Dev.LeasesFresh, all_ports]; decide +kernel,
    by decide +kernel⟩

/-- A PLAIN DEFINE that holds its reservation and waits for its first erase, behind a busy engine. -/
def reservedTicket : Ticket :=
  { someTicket 4 (.define .plain 60 2 0b110 9) 0 .queued .reserved with index := none, serial := none }

def reservedDev : Dev :=
  { withRing (busy (defined idleDev)) [waitingRead, reservedTicket] with
    reservations := [{ port := .p1, base := 70, sectors := 2 }, { port := .p0, base := 60, sectors := 2 }] }

theorem witness_CancelFrame_reserved :
    (stateOf reservedDev).Ready .p0 ∧ reservedDev.phase ≠ .mounting ∧ reservedDev.Still ∧
      reservedDev.ticket .p0 4 = some reservedTicket ∧ reservedDev.oldestModifying .p0 = some reservedTicket ∧
      (reservedDev.ring .p0).find? (fun u => u.number != 4 && u.modifying && u.live) = none ∧
      nextIs (exec (.cancel .p0 4 sent) (stateOf reservedDev)) (fun t =>
        t.dev.reservations.map (fun r => r.port) == [.p1] &&
          (t.dev.ticket .p0 4).map (fun u => u.state) == some .cancelled) = true :=
  ⟨by unfold State.Ready; decide +kernel, by decide +kernel,
    by simp only [Dev.Still, engineShort_iff, Dev.TakesNone, Dev.LeasesFresh, all_ports]; decide +kernel,
    by decide +kernel⟩

theorem witness_SetleaseFrame : (stateOf frameDev).Ready .p0 ∧ (stateOf frameDev).dev.phase ≠ .mounting :=
  ⟨ready_frameDev, frameDev_serving⟩

theorem witness_HoldFrame :
    State.reset.Ready .p0 ∧ State.reset.dev.phase = .mounting ∧ (stateOf frameDev).Ready .p0 ∧
      frameDev.phase ≠ .mounting ∧ 23 < (24 : Byte).toNat ∧ (frameDev.entry 23).defined = false ∧
      (frameDev.entry 2).owner ≠ .p0 ∧ (frameDev.entry 1).owner = .p0 ∧ (frameDev.entry 1).fixed = false ∧
      (frameDev.entry 1).held = false :=
  ⟨ready_reset, by decide, ready_frameDev, by decide +kernel⟩

/-- A ring of eight whose numbers run through the wrap from 255 to 1. -/
def wrapDev : Dev :=
  (withRing idleDev ((List.range 8).map (fun i =>
    someTicket (if i < 4 then BitVec.ofNat 8 (252 + i) else BitVec.ofNat 8 (i - 3)) .claim 1 .failed .operating))).modifyPort
    .p0 (fun q => { q with nextNumber := 252 })

theorem witness_TicketNumberAssigned :
    (wrapDev.ring .p0).length ≤ 8 ∧ (wrapDev.port .p0).nextNumber ≠ 0 ∧ wrapDev.assignNumber .p0 = 5 := by
  decide +kernel

/-! ## Witnesses: the step, the invariants, the encodings -/

theorem witness_StepRunsFrontCommand :
    ({ stateOf idleDev with pending := [.leaseExpiry .p0] } : State).pending = .leaseExpiry .p0 :: [] := rfl

/-- A program 1 us from its greatest time, an erase 1 us from its greatest run time and one that was asked
to park, with the leases of a part that holds a claim. -/
def agingErase : EraseOp :=
  { sector := 12, run := 399999, since := 998, suspends := 0, requested := false, asked := 0,
    requester := .ticket .p0 3 }

def claimedDev : Dev := idleDev.setEntry 1 { imageEntry 12 2 with claim := .opened }

theorem witness_IdleStepPassesTime :
    (stateOf claimedDev).pending = [] ∧ (stateOf claimedDev).outOfReset = true ∧
      (∀ p, claimedDev.leaseRuns p = true → 2 ≤ (claimedDev.port p).leaseTime) ∧
      claimedDev.leaseRuns .p0 = true ∧ claimedDev.engine.current = none := by
  simp only [all_ports]; decide +kernel

/-- The boundary of each clause on an operation, and the states in which nothing moves. -/
theorem witness_IdleStepPassesTime_operations :
    (busyWith idleDev (.read 8 0 (.ticket .p0 1) 24)).engine.current = some (.read 8 0 (.ticket .p0 1) 24) ∧
      (busyWith idleDev (.program 8 0 0 [] (.ticket .p0 1) 2999)).engine.current =
        some (.program 8 0 0 [] (.ticket .p0 1) 2999) ∧
      agingErase.run < 400000 ∧ agingErase.requested = false ∧
      (busyWith idleDev (.erase agingErase)).shortReady = false ∧ agingErase.since + 1 < 1000 ∧
      (Operation.read 8 0 (.ticket .p0 1) 25).mayAge = false ∧
      ({ State.reset with powered := false } : State).outOfReset = false := by decide +kernel

/-- State.reset meets each invariant, and its first completion answers. -/
theorem witness_invariants :
    State.reset.ArrayCanonical ∧ State.reset.FramesInProgress ∧ State.reset.WithinCapacity ∧
      nextIs (step { State.reset with pending := [.pageReadComplete] }) (fun t => t.dev.mount.slot == 1) = true := by
  refine ⟨?_, ?_, ?_, by decide +kernel⟩
  · unfold State.ArrayCanonical; decide +kernel
  · unfold State.FramesInProgress; simp only [all_ports]; decide +kernel
  · unfold State.WithinCapacity; simp only [all_ports]; decide +kernel

/-- The same for a state with tickets, events and a frame in progress. -/
def framedState : State :=
  { stateOf frameDev with
    hosts := (stateOf frameDev).hosts.modify .p1 (fun h =>
      { h with selected := true, shifter := { Shifter.empty with active := true, bytes := [0x12] } })
    array := [(32768, 0x5A)] }

theorem witness_ArrayCanonicalKept :
    framedState.ArrayCanonical ∧
      nextIs (step { framedState with pending := [.pageReadComplete] }) (fun t => t.array == framedState.array) = true :=
  ⟨by unfold State.ArrayCanonical; decide +kernel, by decide +kernel⟩

theorem witness_FramesInProgressKept :
    framedState.FramesInProgress ∧
      nextIs (step { framedState with pending := [.hrstAssert .p1] })
        (fun t => (t.host .p1).shifter == Shifter.empty) = true :=
  ⟨by unfold State.FramesInProgress; simp only [all_ports]; decide +kernel, by decide +kernel⟩

/-- The state's step, and event queues of 15 and of 16 records. -/
theorem witness_CapacitiesKept :
    framedState.WithinCapacity ∧
      nextIs (step { framedState with pending := [.retire .p0 1 sent] })
        (fun t => (t.dev.ring .p0).length == 2) = true ∧
      (List.replicate 15 (phaseEvent .ok)).length < 16 ∧ 16 ≤ (List.replicate 16 (phaseEvent .ok)).length :=
  ⟨by unfold State.WithinCapacity; simp only [all_ports]; decide +kernel, by decide +kernel⟩

/-- A command that ends no operation, one of another port and one that resets the part answer next states. -/
theorem witness_CommandsReachNoFurther :
    nextIs (exec (.setlease .p0 9 sent) framedState) (fun _ => true) = true ∧
      (Instr.setlease .p0 9 sent).endsOperation = false ∧ (Instr.setlease .p0 9 sent).resets = false ∧
      (Instr.setlease .p0 9 sent).port ≠ some .p1 := by decide +kernel

/-- A DEFINE one byte short, and a PROGRAM cut within its three data bytes. -/
theorem witness_FrameRoundTrip :
    (Command.define 0 8 1 0 0).opcode.isTicket = true ∧ (Command.define 0 8 1 0 0).opcode ≠ .program ∧
      dataCountRight (.define 0 8 1 0 0) = true ∧ dataCountRight (.program 0 0 3 [5, 6, 7]) = true ∧
      10 < ((Command.define 0 8 1 0 0).frameBytes true).length ∧
      10 < ((Command.program 0 0 3 [5, 6, 7]).frameBytes false).length ∧
      1 + Opcode.program.paramCount < 10 := by decide

theorem witness_ChangeRecordRoundTrip :
    (Change.define 23 .image .p2 4 2044 0b011 9).encodable = true ∧
      (Change.define 0 .plain .p0 8 4088 0b110 9).encodable = true ∧ (Change.tick .p1 255).encodable = true := by
  decide

/-- The table of a part with three partitions, as a checkpoint captures it. -/
theorem witness_CheckpointRoundTrip :
    (∀ i, (Table.entry (defined idleDev).table i).sound = true ∧ (Table.entry (defined idleDev).table i).held = false ∧
      (Table.entry (defined idleDev).table i).claim = .unclaimed) ∧ 1 ≤ 4 ∧ 4 ≤ 4 := by
  refine ⟨fun i => ?_, by decide, by decide⟩
  by_cases h : i < 24
  · have all : ∀ j < 24, (Table.entry (defined idleDev).table j).sound = true ∧
        (Table.entry (defined idleDev).table j).held = false ∧
        (Table.entry (defined idleDev).table j).claim = .unclaimed := by decide +kernel
    exact all i h
  · have out : Table.entry (defined idleDev).table i = Entry.undefined := by simp [Table.entry, h]
    rw [out]; decide

/-! ## Witnesses: how a frame is clocked -/

/-- A DEFINE with three bytes too many and five stray bits, cut in the middle of a byte, at its last bit and
after it. -/
theorem witness_FrameInTwoParts :
    (stateOf frameDev).Ready .p0 ∧ (stateOf frameDev).FramesInProgress ∧ [true, false, true, true, false].length < 8 ∧
      (∀ n, n ∈ [1, 37, 116, 117] →
        n ≤ 8 * (1 + (Command.define 0 8 1 0 0).params.length + 3) + 5 ∧ 1 ≤ n ∧ (n ≠ 117 → n < 117)) ∧
      117 = 8 * (1 + (Command.define 0 8 1 0 0).params.length + 3) + 5 :=
  ⟨ready_frameDev, by unfold State.FramesInProgress; simp only [all_ports]; decide +kernel, by decide, by decide, by decide⟩

/-- Lines held low, with no frame at the port. -/
def heldLines : State :=
  { stateOf idleDev with
    hosts := (stateOf idleDev).hosts.modify .p0 (fun h => { h with selected := true, restart := true }) }

theorem witness_LineReleases :
    (heldLines.host .p0).selected = true ∧ (heldLines.host .p0).shifter.active = false ∧
      (heldLines.host .p0).restart = true := by decide

/-! ## Witnesses: acceptance -/

def acceptDev : Dev := busy (defined idleDev)

theorem ready_acceptDev : (stateOf acceptDev).Ready .p0 := by unfold State.Ready; decide +kernel

theorem still_acceptDev : acceptDev.Still := by
  simp only [Dev.Still, engineShort_iff, Dev.TakesNone, Dev.LeasesFresh, all_ports]; decide +kernel

/-- The arguments at the ends of their ranges. -/
theorem witness_TicketFrameQueued_requests :
    ticketRequest .p0 (.read 23 1 255 1) = some (.read .staged 255 1, some 23) ∧
      ticketRequest .p1 (.define 1 8 2044 5 9) = some (.define .image 8 2044 0b101 9, none) ∧
      ticketRequest .p2 (.commit 0 1 2 15) = some (.commit 1 2 15, some 0) ∧
      ticketRequest .p2 (.grant 0 3) = some (.grant 0b011, some 0) := by decide

/-- A READ of a page's last byte joins the ring, with its buffer granted. -/
theorem witness_TicketFrameQueued :
    (stateOf acceptDev).Ready .p0 ∧ acceptDev.phase ≠ .mounting ∧ (Command.read 0 0 16383 1).opcode ≠ .program ∧
      dataCountRight (.read 0 0 16383 1) = true ∧
      ticketRequest .p0 (.read 0 0 16383 1) = some (.read .live 16383 1, some 0) ∧
      acceptDev.Accepts .p0 (.read .live 16383 1) (some 0) ∧ acceptDev.pool.grants .p0 = true ∧ acceptDev.Still ∧
      acceptDev.NothingWaits .p0 ∧ (TicketKind.read .live 16383 1).startsAtOnce (acceptDev.entry 0) = false :=
  ⟨ready_acceptDev, by decide +kernel, by decide, by decide, by decide +kernel,
    (accepts_some _ _ _ _).2 (by decide +kernel), by decide +kernel, still_acceptDev,
    (nothingWaits_iff _ _).2 (by decide +kernel), by decide +kernel⟩

/-- A CONFIRM joins behind the running CLAIM of its port. -/
theorem witness_TicketFrameQueued_behind :
    (stateOf frameDev).Ready .p0 ∧ ticketRequest .p0 (.confirm 1) = some (.confirm, some 1) ∧
      frameDev.Accepts .p0 .confirm (some 1) ∧ frameDev.Still ∧ frameDev.NothingWaits .p0 ∧
      ∃ u, frameDev.oldestModifying .p0 = some u :=
  ⟨ready_frameDev, by decide, (accepts_some _ _ _ _).2 (by decide +kernel),
    by simp only [Dev.Still, engineShort_iff, Dev.TakesNone, Dev.LeasesFresh, all_ports]; decide +kernel,
    (nothingWaits_iff _ _).2 (by decide +kernel), runningClaim, by decide +kernel⟩

/-- Nothing at work: entry 0 is PLAIN, entry 1 an IMAGE with nothing live, entry 3 one with copy B live and
its claim OPEN, entry 4 one that has committed nothing and whose claim is OPEN. -/
def firstDev : Dev :=
  ((defined idleDev).setEntry 3 { imageEntry 24 2 with live := some .b, claim := .opened }).setEntry 4
    { imageEntry 32 2 with claim := .opened }

theorem ready_firstDev : (stateOf firstDev).Ready .p0 := by unfold State.Ready; decide +kernel

theorem quiet_firstDev : firstDev.Quiet ∧ firstDev.NoLive ∧ firstDev.engine.current = none := by
  simp only [Dev.Quiet, leasesLeft_iff, Dev.NoLive, all_ports]; decide +kernel

theorem witness_FirstOperationIssued :
    (stateOf firstDev).Ready .p0 ∧ firstDev.phase ≠ .mounting ∧ firstDev.Quiet ∧ firstDev.NoLive ∧
      firstDev.engine.current = none ∧ firstDev.pool.grants .p0 = true :=
  ⟨ready_firstDev, by decide +kernel, quiet_firstDev.1, quiet_firstDev.2.1, quiet_firstDev.2.2, by decide +kernel⟩

/-- The live view of an IMAGE whose copy B is live, and the staged view of one with nothing live. -/
theorem witness_FirstOperationIssued_read :
    ticketRequest .p0 (.read 3 0 8191 1) = some (.read .live 8191 1, some 3) ∧
      firstDev.Accepts .p0 (.read .live 8191 1) (some 3) ∧ (firstDev.port .p0).tickPending = false ∧
      (firstDev.entry 3).live ≠ none ∧
      ticketRequest .p0 (.read 1 1 4096 256) = some (.read .staged 4096 256, some 1) ∧
      firstDev.Accepts .p0 (.read .staged 4096 256) (some 1) :=
  ⟨by decide, (accepts_some _ _ _ _).2 (by decide +kernel), by decide +kernel, by decide +kernel, by decide,
    (accepts_some _ _ _ _).2 (by decide +kernel)⟩

theorem witness_FirstOperationIssued_program :
    ticketRequest .p0 (.program 3 4097 2 [1, 2]) = some (.program 4097 2, some 3) ∧
      dataCountRight (.program 3 4097 2 [1, 2]) = true ∧ firstDev.Accepts .p0 (.program 4097 2) (some 3) ∧
      (firstDev.entry 3).claim = .opened :=
  ⟨by decide, by decide, (accepts_some _ _ _ _).2 (by decide +kernel), by decide +kernel⟩

theorem witness_FirstOperationIssued_erase :
    ticketRequest .p0 (.erase 0 3 1) = some (.erase 3 1, some 0) ∧ firstDev.Accepts .p0 (.erase 3 1) (some 0) :=
  ⟨by decide, (accepts_some _ _ _ _).2 (by decide +kernel)⟩

theorem witness_FirstOperationIssued_claim :
    ticketRequest .p0 (.claim 1) = some (.claim, some 1) ∧ firstDev.Accepts .p0 .claim (some 1) ∧
      (firstDev.entry 1).claim = .unclaimed ∧ (firstDev.entry 1).phase = .settled ∧
      (firstDev.entry 1).fallback = false :=
  ⟨by decide, (accepts_some _ _ _ _).2 (by decide +kernel), by decide +kernel⟩

theorem witness_FirstOperationIssued_commit :
    ticketRequest .p0 (.commit 4 8192 0 15) = some (.commit 8192 0 15, some 4) ∧
      firstDev.Accepts .p0 (.commit 8192 0 15) (some 4) ∧ (firstDev.entry 4).claim = .opened ∧
      firstDev.verify.holder = none :=
  ⟨by decide, (accepts_some _ _ _ _).2 (by decide +kernel), by decide +kernel⟩

/-- 24 defined entries of one sector, from sector 100 on. -/
def fullDev : Dev :=
  { busy idleDev with table := Vector.ofFn (fun i => plainEntry (BitVec.ofNat 16 (100 + i.val)) 1) }

/-- A DEFINE over entry 0's last sector, and one for which no index is left. -/
theorem witness_StartFailsAtAcceptance_define :
    ticketRequest .p0 (.define 0 11 1 0 0) = some (.define .plain 11 1 0 0, none) ∧
      acceptDev.Accepts .p0 (.define .plain 11 1 0 0) none ∧ Table.meets acceptDev.table 11 1 = true ∧
      (stateOf fullDev).Ready .p0 ∧ fullDev.Still ∧ fullDev.oldestModifying .p0 = none ∧
      fullDev.Accepts .p0 (.define .plain 11 1 0 0) none ∧ Table.meets fullDev.table 11 1 = false ∧
      fullDev.meetsReservation 11 1 = false ∧ 24 ≤ Table.definedCount fullDev.table + fullDev.reservations.length :=
  ⟨by decide, (accepts_none _ _ _).2 (by decide +kernel), by decide +kernel,
    by unfold State.Ready; decide +kernel,
    by simp only [Dev.Still, engineShort_iff, Dev.TakesNone, Dev.LeasesFresh, all_ports]; decide +kernel,
    by decide +kernel, (accepts_none _ _ _).2 (by decide +kernel), by decide +kernel⟩

/-- Entries 3 and 4 of `firstDev`, and an IMAGE in TRIAL, with the engine busy. -/
def recordDev : Dev :=
  (busy firstDev).setEntry 5 { imageEntry 40 2 with live := some .a, fallback := true, phase := .trial, attempts := 3 }

theorem ready_recordDev : (stateOf recordDev).Ready .p0 := by unfold State.Ready; decide +kernel

theorem still_recordDev : recordDev.Still := by
  simp only [Dev.Still, engineShort_iff, Dev.TakesNone, Dev.LeasesFresh, all_ports]; decide +kernel

/-- Of `recordDev`: entry 1 is settled without a claim or a fallback, entry 3 has a claim, entry 5 is in TRIAL. -/
theorem witness_StartFailsAtAcceptance :
    (stateOf recordDev).Ready .p0 ∧ recordDev.phase ≠ .mounting ∧ recordDev.Still ∧ recordDev.oldestModifying .p0 = none ∧
      (ticketRequest .p0 (.release 1) = some (.release, some 1) ∧ ticketRequest .p0 (.confirm 1) = some (.confirm, some 1) ∧
        ticketRequest .p0 (.revert 3) = some (.revert, some 3) ∧ ticketRequest .p0 (.delete 3) = some (.delete, some 3) ∧
        ticketRequest .p0 (.fix 5) = some (.fix, some 5) ∧ ticketRequest .p0 (.claim 5) = some (.claim, some 5)) ∧
      recordDev.Accepts .p0 .release (some 1) ∧ recordDev.Accepts .p0 .confirm (some 1) ∧
      recordDev.Accepts .p0 .revert (some 3) ∧ recordDev.Accepts .p0 .delete (some 3) ∧
      recordDev.Accepts .p0 .fix (some 5) ∧ recordDev.Accepts .p0 .claim (some 5) :=
  ⟨ready_recordDev, by decide +kernel, still_recordDev, by decide +kernel, by decide,
    (accepts_some _ _ _ _).2 (by decide +kernel), (accepts_some _ _ _ _).2 (by decide +kernel),
    (accepts_some _ _ _ _).2 (by decide +kernel), (accepts_some _ _ _ _).2 (by decide +kernel),
    (accepts_some _ _ _ _).2 (by decide +kernel), (accepts_some _ _ _ _).2 (by decide +kernel)⟩

theorem witness_StartFailsAtAcceptance_states :
    (recordDev.entry 1).claim ≠ .opened ∧ (recordDev.entry 1).phase = .settled ∧ (recordDev.entry 1).fallback = false ∧
      (recordDev.entry 3).claim ≠ .unclaimed ∧ (recordDev.entry 5).phase = .trial ∧
      (recordDev.entry 5).fallback = true := by decide +kernel

theorem witness_ReleaseAtAcceptance :
    (stateOf recordDev).Ready .p0 ∧ recordDev.phase ≠ .mounting ∧ (3 : Byte).toNat < 24 ∧
      recordDev.Accepts .p0 .release (some 3) ∧ recordDev.Still ∧ recordDev.oldestModifying .p0 = none ∧
      (recordDev.entry 3).claim = .opened :=
  ⟨ready_recordDev, by decide +kernel, by decide, (accepts_some _ _ _ _).2 (by decide +kernel),
    still_recordDev, by decide +kernel⟩

/-- The same while a record in hand keeps the Journal Writer from forming another. -/
def handOverDev : Dev :=
  let h : InHand :=
    { change := .tick .p2 1, slot := 5, sequence := 6, retryOf := none, request := .tick .p2 1 }
  { (recordDev.setEntry 6 { imageEntry 48 2 with live := some .a, fallback := true }) with
    writer := { recordDev.writer with inHand := some h, nextSequence := some 7 } }

theorem witness_RecordRequestHandedOver :
    (stateOf handOverDev).Ready .p0 ∧ handOverDev.phase ≠ .mounting ∧ handOverDev.EngineShort ∧
      handOverDev.mayForm = false ∧ handOverDev.LeasesFresh ∧ handOverDev.oldestModifying .p0 = none :=
  ⟨by unfold State.Ready; decide +kernel, by decide +kernel, (engineShort_iff _).2 (by decide +kernel),
    by decide +kernel, by simp only [Dev.LeasesFresh, all_ports]; decide +kernel, by decide +kernel⟩

theorem witness_RecordRequestHandedOver_kinds :
    handOverDev.Accepts .p0 .confirm (some 5) ∧ (handOverDev.entry 5).phase = .trial ∧
      handOverDev.Accepts .p0 .revert (some 6) ∧ (handOverDev.entry 6).claim = .unclaimed ∧
      (handOverDev.entry 6).fallback = true ∧ handOverDev.Accepts .p0 .delete (some 0) ∧
      (handOverDev.entry 0).claim = .unclaimed ∧ handOverDev.Accepts .p0 (.grant 0b110) (some 0) ∧
      handOverDev.Accepts .p0 .fix (some 0) ∧ (handOverDev.entry 0).phase = .settled ∧
      handOverDev.Accepts .p0 .claim (some 6) ∧ (handOverDev.entry 6).phase = .settled :=
  ⟨(accepts_some _ _ _ _).2 (by decide +kernel), by decide +kernel, (accepts_some _ _ _ _).2 (by decide +kernel),
    by decide +kernel, by decide +kernel, (accepts_some _ _ _ _).2 (by decide +kernel), by decide +kernel,
    (accepts_some _ _ _ _).2 (by decide +kernel), (accepts_some _ _ _ _).2 (by decide +kernel), by decide +kernel,
    (accepts_some _ _ _ _).2 (by decide +kernel), by decide +kernel⟩

/-- An IMAGE DEFINE that ends at the last sector, and the arguments of the frames above. -/
theorem witness_RecordRequestHandedOver_define :
    ticketRequest .p0 (.define 1 4094 1 6 9) = some (.define .image 4094 1 0b110 9, none) ∧
      handOverDev.Accepts .p0 (.define .image 4094 1 0b110 9) none ∧ Table.meets handOverDev.table 4094 2 = false ∧
      handOverDev.meetsReservation 4094 2 = false ∧
      Table.definedCount handOverDev.table + handOverDev.reservations.length < 24 ∧
      ticketRequest .p0 (.revert 6) = some (.revert, some 6) ∧ ticketRequest .p0 (.delete 0) = some (.delete, some 0) ∧
      ticketRequest .p0 (.grant 0 6) = some (.grant 0b110, some 0) ∧ ticketRequest .p0 (.fix 0) = some (.fix, some 0) :=
  ⟨by decide, (accepts_none _ _ _).2 (by decide +kernel), by decide +kernel⟩

theorem witness_PlainDefineReserves :
    (stateOf acceptDev).Ready .p0 ∧ acceptDev.phase ≠ .mounting ∧ readersOfCode 6 = some 0b110 ∧
      readersHave 0b110 .p0 = false ∧ footprintInRange .plain 4095 1 = true ∧
      acceptDev.Accepts .p0 (.define .plain 4095 1 0b110 0) none ∧ acceptDev.Still ∧
      acceptDev.oldestModifying .p0 = none ∧ Table.meets acceptDev.table 4095 1 = false ∧
      acceptDev.meetsReservation 4095 1 = false ∧
      Table.definedCount acceptDev.table + acceptDev.reservations.length < 24 :=
  ⟨ready_acceptDev, by decide +kernel, by decide, by decide, by decide, (accepts_none _ _ _).2 (by decide +kernel),
    still_acceptDev, by decide +kernel⟩

/-- The same on a device with nothing to do. -/
theorem witness_PlainDefineReserves_first :
    (stateOf firstDev).Ready .p0 ∧ firstDev.Quiet ∧ firstDev.NoLive ∧ firstDev.engine.current = none ∧
      firstDev.Accepts .p0 (.define .plain 60 2 0b110 9) none ∧ firstDev.oldestModifying .p0 = none ∧
      Table.meets firstDev.table 60 2 = false ∧ firstDev.meetsReservation 60 2 = false ∧
      Table.definedCount firstDev.table + firstDev.reservations.length < 24 :=
  ⟨ready_firstDev, quiet_firstDev.1, quiet_firstDev.2.1, quiet_firstDev.2.2,
    (accepts_none _ _ _).2 (by decide +kernel), by decide +kernel⟩

/-- The Journal Writer may form a record, in the last slot that leaves a host request its headroom. -/
def formDev : Dev :=
  { (recordDev.setEntry 6 { imageEntry 48 2 with live := some .a, fallback := true }) with
    writer := { recordDev.writer with nextSlot := 59, fold := .erasing 0 } }

theorem witness_RecordFormedAtAcceptance :
    (stateOf formDev).Ready .p0 ∧ formDev.phase ≠ .mounting ∧ ticketRequest .p0 (.confirm 5) = some (.confirm, some 5) ∧
      formDev.Accepts .p0 .confirm (some 5) ∧ formDev.EngineShort ∧ formDev.mayForm = true ∧
      formDev.writer.queue = [] ∧ formDev.writer.nextSlot ≤ 59 ∧ formDev.writer.nextSequence = some 6 ∧
      formDev.LeasesFresh ∧ formDev.oldestModifying .p0 = none ∧ (formDev.entry 5).phase = .trial :=
  ⟨by unfold State.Ready; decide +kernel, by decide +kernel, by decide, (accepts_some _ _ _ _).2 (by decide +kernel),
    (engineShort_iff _).2 (by decide +kernel), by decide +kernel, by decide +kernel, by decide +kernel,
    by decide +kernel, by simp only [Dev.LeasesFresh, all_ports]; decide +kernel, by decide +kernel⟩

theorem witness_RecordFormedAtAcceptance_kinds :
    formDev.Accepts .p0 .revert (some 5) ∧ (formDev.entry 5).claim = .unclaimed ∧
      formDev.Accepts .p0 .delete (some 0) ∧ (formDev.entry 0).claim = .unclaimed ∧
      formDev.Accepts .p0 (.grant 0b110) (some 0) ∧ formDev.Accepts .p0 .fix (some 0) ∧
      (formDev.entry 0).phase = .settled :=
  ⟨(accepts_some _ _ _ _).2 (by decide +kernel), by decide +kernel, (accepts_some _ _ _ _).2 (by decide +kernel),
    by decide +kernel, (accepts_some _ _ _ _).2 (by decide +kernel), (accepts_some _ _ _ _).2 (by decide +kernel),
    by decide +kernel⟩

/-- A CLAIM of an entry with a fallback, and an IMAGE DEFINE whose lowest free index is 7. -/
theorem witness_RecordFormedAtAcceptance_claim_define :
    formDev.Accepts .p0 .claim (some 6) ∧ (formDev.entry 6).claim = .unclaimed ∧ (formDev.entry 6).phase = .settled ∧
      (formDev.entry 6).fallback = true ∧ formDev.Accepts .p0 (.define .image 4094 1 0b110 9) none ∧
      Table.meets formDev.table 4094 2 = false ∧ formDev.meetsReservation 4094 2 = false ∧
      Table.definedCount formDev.table + formDev.reservations.length < 24 ∧ (formDev.entry 7).defined = false ∧
      ∀ l, l < 7 → (formDev.entry l).defined = true :=
  ⟨(accepts_some _ _ _ _).2 (by decide +kernel), by decide +kernel, by decide +kernel, by decide +kernel,
    (accepts_none _ _ _).2 (by decide +kernel), by decide +kernel⟩

/-! ## Witnesses: operations that end -/

/-- The one ticket of port 0 at work on an operation of the engine. -/
def working (t : Ticket) (op : Operation) : Dev := busyWith (withRing firstDev [t]) op

def readingTicket : Ticket :=
  { someTicket 3 (.read .live 15871 1) 0 .running .operating with buffer := some [] }

def readingDev : Dev := working readingTicket (.read 11 13 (.ticket .p0 3) 25)

theorem witness_ReadCompletes :
    readingDev.engine.current = some (.read 11 13 (.ticket .p0 3) 25) ∧ 11 < 4096 ∧ 13 < 16 ∧
      readingDev.ticket .p0 3 = some readingTicket ∧ readingTicket.modifying = false ∧ readingTicket.orphan = false ∧
      readingDev.OnlyLive .p0 3 ∧ readingDev.Quiet := by
  refine ⟨by decide +kernel, by decide, by decide, by decide +kernel, by decide, by decide, ?_, ?_⟩
  · simp only [Dev.OnlyLive, all_ports]; decide +kernel
  · simp only [Dev.Quiet, leasesLeft_iff]; decide +kernel

/-- A COMMIT of 257 bytes of entry 4 at its verification page `k`. -/
def commitTicket (check : Word32) (k : Nat) : Ticket :=
  { someTicket 3 (.commit 257 check 15) 4 .running .operating with progress := k }

def verifyDev (check : Word32) (k : Nat) (crc : Word32) : Dev :=
  let d := (working (commitTicket check k) (.read 32 k (.verify .p0 3) 25)).setEntry 4
    { imageEntry 32 2 with claim := .verifying }
  { d with verify := { d.verify with holder := some (.p0, 3), crc := crc } }

/-- The first of the two pages, and the second with the check value of one 0xFF byte taken from a fresh
register, which is 0xFF000000, and with another. -/
theorem witness_VerificationRead (check : Word32) (k : Nat) (h : (check, k) ∈ [(0, 0), (0xFF000000, 1), (5, 1)]) :
    let d := verifyDev check k 0xFFFFFFFF
    d.engine.current = some (.read 32 k (.verify .p0 3) 25) ∧ 32 < 4096 ∧ k < 16 ∧
      d.ticket .p0 3 = some (commitTicket check k) ∧ (commitTicket check k).kind = .commit 257 check 15 ∧
      (commitTicket check k).index = some 4 ∧ (commitTicket check k).state = .running ∧
      (commitTicket check k).stage = .operating ∧ (commitTicket check k).orphan = false ∧
      (commitTicket check k).cancelRequested = false ∧ (commitTicket check k).buffer = none ∧
      d.phase = .serving ∧ d.OnlyLive .p0 3 ∧ d.Quiet ∧ (d.entry 4).defined = true ∧
      (commitTicket check k).serial = some (d.entry 4).serial ∧ (d.entry 4).fixed = false ∧
      (d.entry 4).held = false ∧ (d.entry 4).claim = .verifying := by
  simp only [List.mem_cons, Prod.mk.injEq, List.not_mem_nil, or_false] at h
  obtain ⟨rfl, rfl⟩ | ⟨rfl, rfl⟩ | ⟨rfl, rfl⟩ := h <;>
    (simp only [Dev.OnlyLive, Dev.Quiet, leasesLeft_iff, all_ports]; decide +kernel)

/-- The clauses of the final comparison, and of the page before it. -/
theorem witness_VerificationRead_clauses :
    (0 + 1) * 256 < (257 : Word32).toNat ∧ (1 + 1) * 256 ≥ (257 : Word32).toNat ∧
      crcAdvance 0xFFFFFFFF [0xFF] ^^^ 0xFFFFFFFF = 0xFF000000 ∧
      (verifyDev 5 1 0xFFFFFFFF).writer.condition = .good ∧ (verifyDev 5 1 0xFFFFFFFF).writer.holdFormation = false ∧
      (verifyDev 5 1 0xFFFFFFFF).writer.nextSlot ≤ 59 ∧
      (verifyDev 5 1 0xFFFFFFFF).writer.nextSequence = some 6 := by decide +kernel

def programTicket : Ticket :=
  { someTicket 3 (.program 255 1) 0 .running .operating with buffer := some [0x5A] }

/-- A program of the last byte of a page. -/
def programDev : Dev := working programTicket (.program 8 0 255 [0x5A] (.ticket .p0 3) 3000)

theorem witness_ProgramCompletes :
    programDev.engine.current = some (.program 8 0 255 [0x5A] (.ticket .p0 3) 3000) ∧ 8 < 4096 ∧ 0 < 16 ∧
      255 + [(0x5A : Byte)].length ≤ 256 ∧ programDev.ticket .p0 3 = some programTicket ∧
      programTicket.modifying = true ∧ programTicket.orphan = false ∧ programDev.OnlyLive .p0 3 ∧ programDev.Quiet := by
  refine ⟨by decide +kernel, by decide, by decide, by decide, by decide +kernel, by decide, by decide, ?_, ?_⟩
  · simp only [Dev.OnlyLive, all_ports]; decide +kernel
  · simp only [Dev.Quiet, leasesLeft_iff]; decide +kernel

def eraseOf (sector : Nat) : EraseOp :=
  { sector := sector, run := 400000, since := 1000, suspends := 0, requested := false, asked := 0,
    requester := .ticket .p0 3 }

/-- An ERASE of sectors 1 and 2 of entry 0 after `k` of them, with or without a cancel request. -/
def eraseTicket (k : Nat) (cancel : Bool) : Ticket :=
  { someTicket 3 (.erase 1 2) 0 .running .operating with progress := k, cancelRequested := cancel }

def eraseDev (k : Nat) (cancel : Bool) : Dev := working (eraseTicket k cancel) (.erase (eraseOf (9 + k)))

theorem witness_EraseCompletes (k : Nat) (cancel : Bool) (h : (k, cancel) ∈ [(0, false), (0, true), (1, false)]) :
    (eraseDev k cancel).engine.current = some (.erase (eraseOf (9 + k))) ∧
      (eraseOf (9 + k)).requester = .ticket .p0 3 ∧ (eraseOf (9 + k)).sector < 4096 ∧
      (eraseDev k cancel).ticket .p0 3 = some (eraseTicket k cancel) ∧ (eraseTicket k cancel).kind = .erase 1 2 ∧
      (eraseTicket k cancel).index = some 0 ∧ (eraseTicket k cancel).state = .running ∧
      (eraseTicket k cancel).stage = .operating ∧ (eraseTicket k cancel).orphan = false ∧
      (eraseTicket k cancel).buffer = none ∧ (eraseDev k cancel).OnlyLive .p0 3 ∧ (eraseDev k cancel).Quiet := by
  simp only [List.mem_cons, Prod.mk.injEq, List.not_mem_nil, or_false] at h
  obtain ⟨rfl, rfl⟩ | ⟨rfl, rfl⟩ | ⟨rfl, rfl⟩ := h <;>
    (simp only [Dev.OnlyLive, Dev.Quiet, leasesLeft_iff, all_ports]; decide +kernel)

/-- The clauses: the last sector, a cancel request, a lock, and none of them. -/
theorem witness_EraseCompletes_clauses :
    (2 : Half16).toNat ≤ 1 + 1 ∧ ¬ (2 : Half16).toNat ≤ 0 + 1 ∧ (eraseTicket 0 true).cancelRequested = true ∧
      (((eraseDev 0 false).setEntry 0 { plainEntry 8 4 with held := true }).entry 0).held = true ∧
      ((eraseDev 0 false).entry 0).defined = true ∧ ((eraseDev 0 false).entry 0).held = false := by decide +kernel

/-- A CLAIM of entry 1, whose spare copy has two sectors, after `k` of them. -/
def claimTicket (k : Nat) (cancel : Bool) : Ticket :=
  { someTicket 3 .claim 1 .running .operating with progress := k, cancelRequested := cancel }

def claimDev (k : Nat) (cancel : Bool) : Dev :=
  (working (claimTicket k cancel) (.erase (eraseOf (12 + k)))).setEntry 1 { imageEntry 12 2 with claim := .preparing }

theorem witness_ClaimErases (k : Nat) (cancel : Bool) (h : (k, cancel) ∈ [(0, false), (0, true), (1, false)]) :
    (claimDev k cancel).engine.current = some (.erase (eraseOf (12 + k))) ∧
      (eraseOf (12 + k)).requester = .ticket .p0 3 ∧ (eraseOf (12 + k)).sector < 4096 ∧
      (claimDev k cancel).ticket .p0 3 = some (claimTicket k cancel) ∧ (claimTicket k cancel).kind = .claim ∧
      (claimTicket k cancel).index = some 1 ∧ (claimTicket k cancel).state = .running ∧
      (claimTicket k cancel).stage = .operating ∧ (claimTicket k cancel).orphan = false ∧
      (claimTicket k cancel).buffer = none ∧ (claimDev k cancel).phase = .serving ∧
      (claimDev k cancel).OnlyLive .p0 3 ∧ (claimDev k cancel).Quiet ∧ ((claimDev k cancel).entry 1).defined = true ∧
      (claimTicket k cancel).serial = some ((claimDev k cancel).entry 1).serial ∧
      ((claimDev k cancel).entry 1).claim = .preparing := by
  simp only [List.mem_cons, Prod.mk.injEq, List.not_mem_nil, or_false] at h
  obtain ⟨rfl, rfl⟩ | ⟨rfl, rfl⟩ | ⟨rfl, rfl⟩ := h <;>
    (simp only [Dev.OnlyLive, Dev.Quiet, leasesLeft_iff, all_ports]; decide +kernel)

theorem witness_ClaimErases_clauses :
    ((claimDev 1 false).entry 1).size.toNat ≤ 1 + 1 ∧ ¬ ((claimDev 0 false).entry 1).size.toNat ≤ 0 + 1 ∧
      (claimTicket 0 true).cancelRequested = true ∧
      (((claimDev 0 false).setEntry 1 { imageEntry 12 2 with claim := .preparing, held := true }).entry 1).held = true ∧
      ((claimDev 0 false).entry 1).held = false := by decide +kernel

/-- A PLAIN DEFINE of sectors 60 and 61 that has scrubbed `k` of them. -/
def scrubTicket (k : Nat) (cancel orphan : Bool) : Ticket :=
  { someTicket 3 (.define .plain 60 2 0b110 9) 0 .running .operating with
    index := none, serial := none, progress := k, cancelRequested := cancel, orphan := orphan }

def scrubDev (k : Nat) (cancel orphan : Bool) (phase : Phase) : Dev :=
  { working (scrubTicket k cancel orphan) (.erase (eraseOf (60 + k))) with
    phase := phase, reservations := [{ port := .p0, base := 60, sectors := 2 }] }

/-- Each way the boundary goes: the next sector, the last one, a cancel request, an orphan and DEGRADED. -/
theorem witness_PlainDefineReserves_scrub (k : Nat) (cancel orphan : Bool) (phase : Phase)
    (h : (k, cancel, orphan, phase) ∈
      [(0, false, false, .serving), (1, false, false, .serving), (1, true, false, .serving),
        (0, false, true, .serving), (0, false, false, .degraded)]) :
    let d := scrubDev k cancel orphan phase
    let t := scrubTicket k cancel orphan
    d.engine.current = some (.erase (eraseOf (60 + k))) ∧ (eraseOf (60 + k)).requester = .ticket .p0 3 ∧
      (eraseOf (60 + k)).sector < 4096 ∧ d.ticket .p0 3 = some t ∧ t.kind = .define .plain 60 2 0b110 9 ∧
      t.state = .running ∧ t.stage = .operating ∧ t.buffer = none ∧ d.OnlyLive .p0 3 ∧ d.Quiet := by
  simp only [List.mem_cons, Prod.mk.injEq, List.not_mem_nil, or_false] at h
  obtain ⟨rfl, rfl, rfl, rfl⟩ | ⟨rfl, rfl, rfl, rfl⟩ | ⟨rfl, rfl, rfl, rfl⟩ | ⟨rfl, rfl, rfl, rfl⟩ |
    ⟨rfl, rfl, rfl, rfl⟩ := h <;> (simp only [Dev.OnlyLive, Dev.Quiet, leasesLeft_iff, all_ports]; decide +kernel)

/-- The hand-over after the last sector: index 5 is the lowest that is free. -/
theorem witness_PlainDefineReserves_handover :
    let d := scrubDev 1 false false .serving
    d.writer.condition = .good ∧ d.writer.holdFormation = false ∧ d.writer.nextSlot ≤ 59 ∧
      Table.meets d.table 60 2 = false ∧ d.writer.nextSequence = some 6 ∧ (d.entry 5).defined = false ∧
      ∀ j, j < 5 → (d.entry j).defined = true := by decide +kernel

/-! ## Witnesses: the Journal Writer -/

/-- 256 bytes that stand for a record's page where its bytes do not matter. -/
def somePage : List Byte := List.replicate 256 0x5A

/-- A record in hand, its program under way in its slot. -/
def writing (d : Dev) (h : InHand) : Dev :=
  let d1 := busyWith d (.program (h.slot / 16) (h.slot % 16) 0 somePage .journal 0)
  { d1 with
    writer := { d1.writer with inHand := some h, nextSlot := h.slot, nextSequence := some 91
                               buffer := somePage } }

def inHandOf (c : Change) (r : Request) : InHand := { change := c, slot := 50, sequence := 90, retryOf := none, request := r }

/-- A CONFIRM, a DEFINE and a CLAIM whose records are in hand, and a tick. -/
def confirmTicket : Ticket := someTicket 3 .confirm 5 .running .recording

def defineTicket : Ticket :=
  { someTicket 3 (.define .image 60 1 0 9) 0 .running .recording with index := none, serial := none }

def dropTicket (cancel : Bool) : Ticket :=
  { someTicket 3 .claim 6 .running .recording with cancelRequested := cancel }

def recordBase : Dev :=
  (firstDev.setEntry 5 { imageEntry 40 2 with live := some .a, fallback := true, phase := .trial, attempts := 3 }).setEntry 6
    { imageEntry 48 2 with live := some .a, fallback := true, claim := .preparing }

def confirmHand : InHand := inHandOf (.confirm 5 7) (.host .p0 3 (.confirm 5 7))
def defineHand : InHand := inHandOf (.define 7 .image .p0 60 1 0 9) (.host .p0 3 (.define .image 60 1 0 9))
def tickHand : InHand := inHandOf (.tick .p0 1) (.tick .p0 1)
def dropHand : InHand := inHandOf (.dropFallback 6 7) (.host .p0 3 (.dropFallback 6 7))

def confirmDev : Dev := writing (withRing recordBase [confirmTicket]) confirmHand
def defineDev : Dev :=
  { writing (withRing recordBase [defineTicket]) defineHand with
    reservations := [{ port := .p0, base := 60, sectors := 2 }] }
def tickDev : Dev := (writing recordBase tickHand).modifyPort .p0 (fun q => { q with tickPending := true })
def dropDev (cancel : Bool) : Dev := writing (withRing recordBase [dropTicket cancel]) dropHand

/-- What RecordCompletes asks of a state whose record in hand is `h`. -/
def recordHypotheses (d : Dev) (h : InHand) : Prop :=
  d.engine.current = some (.program 3 2 0 somePage .journal 0) ∧
    0 + somePage.length ≤ 256 ∧ d.writer.inHand = some h ∧ d.writer.fold = .idle ∧
    d.writer.queue = [] ∧ h.slot ≤ 50 ∧ d.engine.parked = none ∧ d.mount.step = .idle ∧
    d.LeasesLeft

theorem witness_RecordCompletes :
    recordHypotheses confirmDev confirmHand ∧ recordHypotheses defineDev defineHand ∧
      recordHypotheses tickDev tickHand := by
  simp only [recordHypotheses, leasesLeft_iff]; decide +kernel

theorem witness_RecordCompletes_requesters :
    tickDev.NoLive ∧ confirmDev.ticket .p0 3 = some confirmTicket ∧ confirmTicket.modifying = true ∧
      confirmTicket.orphan = false ∧ confirmTicket.buffer = none ∧ confirmDev.OnlyLive .p0 3 ∧
      defineDev.ticket .p0 3 = some defineTicket ∧ defineTicket.modifying = true ∧ defineTicket.orphan = false ∧
      defineTicket.buffer = none ∧ defineDev.OnlyLive .p0 3 ∧
      defineHand.change = .define 7 .image .p0 60 1 0 9 := by
  simp only [Dev.NoLive, Dev.OnlyLive, all_ports]; decide +kernel

/-- Records whose events have readers: of entry 0, which ports 1 and 2 may read, a DELETE and a GRANT that takes
port 2's right; of entry 4 a COMMIT and of entry 5, which port 1 may read, a REVERT; and a TICK that exceeds
entry 5's budget of 3. -/
def readBase : Dev :=
  ((recordBase.setEntry 0 { plainEntry 8 4 with readers := 0b110 }).setEntry 4
    { imageEntry 32 2 with claim := .committing }).setEntry 5
      { imageEntry 40 2 with live := some .a, fallback := true, phase := .trial, attempts := 3, readers := 0b010 }

def changeHand (c : Change) (b : RequestBody) : InHand := inHandOf c (.host .p0 3 b)

def deleteHand : InHand := changeHand (.delete 0 7) (.delete 0 7)
def grantHand : InHand := changeHand (.grant 0 7 0b010) (.grant 0 7 0b010)
def commitHand : InHand := changeHand (.commit 4 7 .a 257 0 15) (.commit 4 7 .a 257 0 15)
def revertHand : InHand := changeHand (.revert 5 7 false) (.revert 5 7)
def overHand : InHand := inHandOf (.tick .p0 4) (.tick .p0 4)

/-- A ticket of port 0 whose record is in hand. -/
def recordingTicket (k : TicketKind) (i : Nat) : Ticket := someTicket 3 k i .running .recording

def deleteDev : Dev := writing (withRing readBase [recordingTicket .delete 0]) deleteHand
def grantDev : Dev := writing (withRing readBase [recordingTicket (.grant 0b010) 0]) grantHand
def commitDev : Dev := writing (withRing readBase [recordingTicket (.commit 257 0 15) 4]) commitHand
def revertDev : Dev := writing (withRing readBase [recordingTicket .revert 5]) revertHand
def overDev : Dev := (writing readBase overHand).modifyPort .p0 (fun q => { q with tickPending := true })

theorem witness_RecordCompletes_events :
    recordHypotheses deleteDev deleteHand ∧ recordHypotheses grantDev grantHand ∧
      recordHypotheses commitDev commitHand ∧ recordHypotheses revertDev revertHand ∧
      recordHypotheses overDev overHand := by
  simp only [recordHypotheses, leasesLeft_iff]
  refine ⟨?_, ?_, ?_, ?_, ?_⟩ <;> decide +kernel

theorem witness_RecordCompletes_tickets :
    overDev.NoLive ∧ deleteDev.OnlyLive .p0 3 ∧ grantDev.OnlyLive .p0 3 ∧
      commitDev.OnlyLive .p0 3 ∧ revertDev.OnlyLive .p0 3 ∧
      deleteDev.ticket .p0 3 = some (recordingTicket .delete 0) ∧
      grantDev.ticket .p0 3 = some (recordingTicket (.grant 0b010) 0) ∧
      commitDev.ticket .p0 3 = some (recordingTicket (.commit 257 0 15) 4) ∧
      revertDev.ticket .p0 3 = some (recordingTicket .revert 5) := by
  simp only [Dev.NoLive, Dev.OnlyLive, all_ports]
  refine ⟨?_, ?_, ?_, ?_, ?_, ?_⟩ <;> decide +kernel

/-- Who is told: of the GRANT port 2 alone, of the DELETE ports 1 and 2, of the budget exceeded ports 0 and 1. -/
theorem test_events_of_a_record :
    nextIs (exec (.pageProgramComplete .success) (stateOf grantDev)) (fun t =>
      (t.dev.port .p1).events.records.isEmpty && (t.dev.port .p2).events.records == [partitionEvent .accessChanged 0 0]) = true ∧
    nextIs (exec (.pageProgramComplete .success) (stateOf deleteDev)) (fun t =>
      (t.dev.port .p1).events.records == [partitionEvent .partRemoved 0 0] &&
        (t.dev.port .p2).events.records == [partitionEvent .partRemoved 0 0]) = true ∧
    nextIs (exec (.pageProgramComplete .success) (stateOf overDev)) (fun t =>
      (t.dev.port .p0).events.records == [partitionEvent .liveChanged 5 1] &&
        (t.dev.port .p1).events.records == [partitionEvent .liveChanged 5 1] &&
        (t.dev.port .p2).events.records.isEmpty) = true := by decide +kernel

theorem witness_DropFallbackCompletes (cancel : Bool) :
    recordHypotheses (dropDev cancel) dropHand ∧ (dropDev cancel).phase = .serving ∧
      dropHand.change = .dropFallback 6 7 ∧ dropHand.request = .host .p0 3 (.dropFallback 6 7) ∧
      (dropDev cancel).ticket .p0 3 = some (dropTicket cancel) ∧ (dropTicket cancel).kind = .claim ∧
      (dropTicket cancel).index = some 6 ∧ (dropTicket cancel).serial = some 7 ∧
      (dropTicket cancel).state = .running ∧ (dropTicket cancel).orphan = false ∧ (dropTicket cancel).buffer = none ∧
      (dropTicket cancel).progress = 0 ∧ (dropDev cancel).OnlyLive .p0 3 ∧ ((dropDev cancel).entry 6).defined = true ∧
      ((dropDev cancel).entry 6).kind = .image ∧ ((dropDev cancel).entry 6).serial = 7 := by
  simp only [recordHypotheses, leasesLeft_iff, Dev.OnlyLive, all_ports]; cases cancel <;> decide +kernel

/-- The lock clause: the entry may be HELD while the record is programmed (R30). -/
theorem witness_DropFallbackCompletes_locked :
    (((dropDev false).setEntry 6 { (dropDev false).entry 6 with held := true }).entry 6).held = true := by decide +kernel

/-- The last slot from which a retry is possible, with a fold under way. -/
def retryDev : Dev :=
  let d := writing (withRing recordBase [confirmTicket]) { confirmHand with slot := 62 }
  { d with writer := { d.writer with fold := .erasing 1 } }

theorem witness_RecordRetried :
    retryDev.engine.current = some (.program 3 14 0 somePage .journal 0) ∧
      0 + somePage.length ≤ 256 ∧
      retryDev.writer.inHand = some { confirmHand with slot := 62 } ∧ confirmHand.retryOf = none ∧ 62 < 63 ∧
      retryDev.writer.nextSequence = some 91 ∧ retryDev.writer.fold ≠ .idle ∧ retryDev.LeasesFresh ∧
      confirmDev.LeasesFresh ∧ confirmHand.slot ≤ 50 := by
  simp only [Dev.LeasesFresh, all_ports]; decide +kernel

/-- A retry that failed, and a first attempt in the last slot. -/
def lastDev (h : InHand) : Dev := writing (withRing recordBase [confirmTicket]) h

theorem witness_JournalDies (slot : Nat) (retryOf : Option Word32)
    (h : (slot, retryOf) ∈ [(20, some (80 : Word32)), (63, none)]) :
    let hand : InHand := { confirmHand with slot := slot, retryOf := retryOf }
    (lastDev hand).engine.current =
        some (.program (slot / 16) (slot % 16) 0 somePage .journal 0) ∧
      slot / 16 < 4096 ∧ slot % 16 < 16 ∧ 0 + somePage.length ≤ 256 ∧
      (lastDev hand).writer.inHand = some hand ∧ (hand.retryOf ≠ none ∨ 63 ≤ hand.slot) ∧
      (lastDev hand).writer.queue = [] ∧ (lastDev hand).engine.parked = none ∧ (lastDev hand).mount.step = .idle ∧
      (lastDev hand).LeasesLeft ∧ hand.request = .host .p0 3 (.confirm 5 7) ∧
      (lastDev hand).ticket .p0 3 = some confirmTicket ∧ confirmTicket.modifying = true ∧
      confirmTicket.orphan = false ∧ confirmTicket.buffer = none ∧ (lastDev hand).OnlyLive .p0 3 := by
  simp only [List.mem_cons, Prod.mk.injEq, List.not_mem_nil, or_false] at h
  obtain ⟨rfl, rfl⟩ | ⟨rfl, rfl⟩ := h <;> (simp only [Dev.OnlyLive, leasesLeft_iff, all_ports]; decide +kernel)

/-- A DEFINE, a CLAIM and a COMMIT whose records fail in the last slot. -/
def dyingDev (ring : List Ticket) (h : InHand) : Dev :=
  { writing (withRing readBase ring) { h with slot := 63 } with
    reservations := [{ port := .p0, base := 60, sectors := 2 }] }

theorem witness_JournalDies_bodies (ticket : Ticket) (h : InHand)
    (m : (ticket, h) ∈
      [(defineTicket, defineHand), (dropTicket false, dropHand), (recordingTicket (.commit 257 0 15) 4, commitHand)]) :
    let d := dyingDev [ticket] h
    d.engine.current = some (.program 3 15 0 somePage .journal 0) ∧ d.writer.inHand = some { h with slot := 63 } ∧
      d.writer.queue = [] ∧ d.engine.parked = none ∧ d.mount.step = .idle ∧ d.LeasesLeft ∧
      d.ticket .p0 3 = some ticket ∧ ticket.modifying = true ∧ ticket.orphan = false ∧ ticket.buffer = none ∧
      d.OnlyLive .p0 3 ∧ (d.entry 6).serial = 7 ∧ (d.entry 6).claim = .preparing ∧ (d.entry 4).serial = 7 ∧
      (d.entry 4).claim = .committing := by
  simp only [List.mem_cons, Prod.mk.injEq, List.not_mem_nil, or_false] at m
  obtain ⟨rfl, rfl⟩ | ⟨rfl, rfl⟩ | ⟨rfl, rfl⟩ := m <;> (simp only [Dev.OnlyLive, leasesLeft_iff, all_ports]; decide +kernel)

/-- A fold that programs checkpoint record `slot` in the other half. -/
def checkpointDev (slot : Nat) : Dev :=
  let d := busyWith firstDev (.program 4 slot 0 somePage .journal 0)
  { d with
    writer := { d.writer with fold := .writing Table.empty slot, nextSlot := 60, nextSequence := some 91
                              buffer := somePage } }

theorem witness_CheckpointCompletes (slot : Nat) (h : slot ∈ [0, 3, 4]) :
    (checkpointDev slot).engine.current =
        some (.program 4 slot 0 somePage .journal 0) ∧
      slot < 16 ∧ 0 + somePage.length ≤ 256 ∧ (checkpointDev slot).writer.inHand = none ∧
      (checkpointDev slot).writer.fold = .writing Table.empty slot ∧ (checkpointDev slot).writer.queue = [] ∧
      (checkpointDev slot).NoLive ∧ (checkpointDev slot).engine.parked = none ∧
      (checkpointDev slot).mount.step = .idle ∧ (checkpointDev slot).LeasesLeft ∧
      (checkpointDev slot).writer.nextSequence = some 91 := by
  simp only [List.mem_cons, List.not_mem_nil, or_false] at h
  obtain rfl | rfl | rfl := h <;> (simp only [Dev.NoLive, leasesLeft_iff, all_ports]; decide +kernel)

/-- A fold that erases sector `i` of the other half. -/
def foldDev (i : Nat) : Dev :=
  let d := busyWith firstDev (.erase { eraseOf (4 + i) with requester := .journal })
  { d with writer := { d.writer with fold := .erasing i, nextSlot := 60 } }

theorem witness_FoldErases (i : Nat) (h : i ∈ [0, 2, 3]) :
    (foldDev i).engine.current = some (.erase { eraseOf (4 + i) with requester := .journal }) ∧
      (foldDev i).writer.inHand = none ∧ (foldDev i).writer.fold = .erasing i ∧ i ≤ 3 ∧
      (foldDev i).writer.queue = [] ∧ (foldDev i).NoLive ∧ (foldDev i).engine.parked = none ∧
      (foldDev i).mount.step = .idle ∧ (foldDev i).LeasesLeft ∧
      (foldDev i).writer.nextSequence = some 6 ∧ (foldDev i).writer.foldFailures = 0 := by
  simp only [List.mem_cons, List.not_mem_nil, or_false] at h
  obtain rfl | rfl | rfl := h <;> (simp only [Dev.NoLive, leasesLeft_iff, all_ports]; decide +kernel)

/-! ## Witnesses: mounting -/

/-- A part at the tenth read of CHOOSING, with the candidates' heads that half 0 and half 1 gave. -/
def choosingDev (c0 : Option Word32) (scan : Scan) : Dev :=
  let d := busyWith Dev.reset (.read 4 4 .mount 0)
  { d with mount := { d.mount with half := .h1, slot := 4, scan := scan, candidate0 := c0 } }

theorem witness_MountChooses (c0 : Option Word32) (scan : Scan) :
    (choosingDev c0 scan).engine.current = some (.read 4 4 .mount 0) ∧ 4 < 4096 ∧ 4 < 16 ∧
      (choosingDev c0 scan).mount.step = .choosing ∧ (choosingDev c0 scan).mount.half = .h1 ∧
      (choosingDev c0 scan).mount.slot = 4 ∧ (choosingDev c0 scan).NoLive ∧
      (choosingDev c0 scan).engine.parked = none ∧ (choosingDev c0 scan).phase = .mounting ∧
      (choosingDev c0 scan).writer = Writer.reset ∧
      ∀ p, ((choosingDev c0 scan).port p).leaseTime ≠ 0 ∨ (choosingDev c0 scan).leaseRuns p = false := by
  refine ⟨rfl, by decide, by decide, rfl, rfl, rfl, ?_, rfl, rfl, rfl, ?_⟩
  · intro p t ht; cases p <;> exact absurd ht (List.not_mem_nil)
  · intro p; right; cases p <;> rfl

/-- The array of a part whose half 1 holds the last body of a checkpoint of head 50, and its scan so far. -/
def bodyState (c0 : Option Word32) (page : List Byte) : State :=
  { stateOf (choosingDev c0 { good := true, head := 50, entries := [] }) with
    array := cellsFrom (byteAddress 4 4 0) page }

theorem bodyState_page (c0 : Option Word32) (page : List Byte) (h : page.length = 256) :
    (bodyState c0 page).array.readPage 4 4 = page := Laws.readPage_cellsFrom _ _ _ h

set_option maxRecDepth 20000 in
/-- The clauses of the choice: the later head of the two, half 0 at equal ones, the only one, and none. -/
theorem witness_MountChooses_clauses :
    let page := checkpointPage 54 Table.empty 4
    let scan : Scan := { good := true, head := 50, entries := [] }
    page.length = 256 ∧ classifyPage page = .valid 54 0x02 ∧
      (scanSlot scan 4 (classifyPage page) page).candidate = some 50 ∧
      (scanSlot scan 4 (classifyPage (List.replicate 256 0xFF)) (List.replicate 256 0xFF)).candidate = none ∧
      (50 : Word32).toNat ≤ (50 : Word32).toNat ∧ ¬ (50 : Word32).toNat ≤ (49 : Word32).toNat := by decide +kernel

/-- A mounting part that has read `page` of slot `slot` of half 0. -/
def mountState (m : Mount) (page : List Byte) : State :=
  let d := busyWith (defined Dev.reset) (.read (m.slot / 16) (m.slot % 16) .mount 0)
  { stateOf { d with mount := m } with array := cellsFrom (byteAddress (m.slot / 16) (m.slot % 16) 0) page }

/-- LOADING at a body of the checkpoint of head 50. -/
def loadingMount (slot : Nat) : Mount :=
  { Dev.reset.mount with step := .loading, half := .h0, slot := slot, candidate0 := some 50, chosen := some .h0 }

/-- REPLAYING with the record of sequence 60 applied last. -/
def replayMount (slot : Nat) (highest : Option Nat) : Mount :=
  { loadingMount slot with
    step := .replaying, highestSlot := highest, highestSequence := 90, torn := 1, lastApplied := 60 }

theorem witness_MountEnds (m : Mount) (page : List Byte) (h : m.step = .loading ∨ m.step = .replaying) (hs : m.slot < 64) :
    (mountState m page).dev.engine.current = some (.read (m.slot / 16) (m.slot % 16) .mount 0) ∧ m.slot / 16 < 4096 ∧
      m.slot % 16 < 16 ∧ ((mountState m page).dev.mount.step = .loading ∨ (mountState m page).dev.mount.step = .replaying) ∧
      (mountState m page).dev.NoLive ∧ (mountState m page).dev.engine.parked = none ∧
      (mountState m page).dev.phase = .mounting ∧ (mountState m page).dev.writer = Writer.reset ∧
      ∀ p, ((mountState m page).dev.port p).leaseTime ≠ 0 ∨ (mountState m page).dev.leaseRuns p = false := by
  refine ⟨rfl, by omega, by omega, h, ?_, rfl, rfl, rfl, ?_⟩
  · intro p t ht; cases p <;> exact absurd ht (List.not_mem_nil)
  · intro p; right; cases p <;> rfl

theorem mountState_page (m : Mount) (page : List Byte) (h : page.length = 256) :
    (mountState m page).array.readPage (m.slot / 16) (m.slot % 16) = page := Laws.readPage_cellsFrom _ _ _ h

set_option maxRecDepth 20000 in
/-- LOADING at slots 1 and 4: the pages read hold six entries each, entry 0 among the first. -/
theorem witness_MountEnds_loading :
    (checkpointPage 51 (defined idleDev).table 1).length = 256 ∧ (checkpointPage 54 (defined idleDev).table 4).length = 256 ∧
      bodyEntries (checkpointPage 51 (defined idleDev).table 1) =
        some ((List.range 6).map (fun i => (defined idleDev).entry i)) ∧
      (loadingMount 1).slot < 4 ∧ (loadingMount 4).slot = 4 ∧ (loadingMount 4).candidate0 = some 50 := by decide +kernel

set_option maxRecDepth 20000 in
/-- REPLAYING: a record above the last applied that passes its check, one that fails it, one of a lower sequence
and a DEFINE that names the last applied in its retry field; and the highest slot from which a fold is due. -/
theorem witness_MountEnds_replaying :
    let page := changePage 61 none (.delete 0 7)
    page.length = 256 ∧ classifyPage page = .valid 61 0x11 ∧ changeOfPage page = some (.delete 0 7) ∧
      ((defined Dev.reset).entry 0).defined = true ∧ ((defined Dev.reset).entry 0).serial = 7 ∧
      ((defined Dev.reset).entry 0).serial ≠ 8 ∧ (replayMount 5 none).lastApplied.toNat < (61 : Word32).toNat ∧
      (60 : Word32).toNat ≤ (replayMount 5 none).lastApplied.toNat ∧
      word32At (changePage 61 (some 60) (.define 5 .plain .p0 60 2 0 0)) 5 = (replayMount 5 none).lastApplied ∧
      (replayMount 63 (some 51)).highestSlot = some 51 ∧ 52 ≤ 51 + 1 ∧ ¬ 52 ≤ 50 + 1 := by decide +kernel

/-! ## Witnesses: erases and leases -/

/-- An erase that was asked to park, with a record in hand. -/
def askedErase : EraseOp := { eraseOf 9 with run := 2000, since := 1000, suspends := 23, requested := true, asked := 20 }

def parkingDev : Dev :=
  let d := busyWith (withRing recordBase [eraseTicket 0 false]) (.erase askedErase)
  { d with writer := { d.writer with inHand := some tickHand } }

theorem witness_EraseParks :
    parkingDev.engine.current = some (.erase askedErase) ∧ askedErase.requested = true ∧ parkingDev.LeasesFresh ∧
      parkingDev.writer.inHand = some tickHand := by
  simp only [Dev.LeasesFresh, all_ports]; decide +kernel

/-- What asked for the suspension is gone: the erase resumes. -/
def resumingDev : Dev := busyWith (withRing recordBase [eraseTicket 0 false]) (.erase askedErase)

theorem witness_EraseParks_resumes :
    resumingDev.engine.current = some (.erase askedErase) ∧ resumingDev.LeasesFresh ∧
      resumingDev.shortReady = false ∧ resumingDev.TakesNone ∧ resumingDev.engine.parked = none := by
  simp only [Dev.LeasesFresh, Dev.TakesNone, all_ports]; decide +kernel

/-- An erase just issued, and one that could reach its greatest run time at the quantum's end, with and
without an operation ready. -/
theorem witness_QuantumExpiry :
    (busyWith parkingDev (.erase { askedErase with run := 399001, since := 1, requested := false })).engine.current =
        some (.erase { askedErase with run := 399001, since := 1, requested := false }) ∧
      1 < 1000 ∧ 399001 + (1000 - 1) ≤ 400000 ∧
      (busyWith parkingDev (.erase { askedErase with since := 0, requested := false })).shortReady = true ∧
      askedErase.suspends < 24 ∧
      (busyWith resumingDev (.erase { askedErase with since := 999, requested := false })).shortReady = false := by
  decide +kernel

theorem witness_LeaseExpires :
    (stateOf claimedDev).outOfReset = true ∧ claimedDev.leaseRuns .p0 = true ∧
      (claimedDev.entry 1).claim ≠ .unclaimed := by decide +kernel

/-! ## Witnesses: resets and restarts -/

/-- A part with an erase under way and another parked. -/
def busyState : State :=
  stateOf
    { parkingDev with
      engine := { parkingDev.engine with
        parked := some { sector := 4095, run := 0, suspends := 1, requester := .journal } } }

theorem witness_DeviceResets : busyState.dev.engine.inArray = true := by decide +kernel

theorem witness_ResetBegins :
    busyState.dev.engine.inArray = true ∧ busyState.resetPin = false ∧ busyState.powered = true := by decide +kernel

/-- A PROGRAM frame of port 1 in progress, holding its buffer. -/
def grantedState : State :=
  { stateOf { idleDev with pool := { free := 9, held := { p0 := 0, p1 := 1, p2 := 0 } } } with
    hosts := (stateOf idleDev).hosts.modify .p1 (fun h =>
      { h with selected := true, shifter := { Shifter.empty with active := true, bytes := [0x21], buffer := some [] } }) }

theorem witness_ResetBegins_frame :
    grantedState.dev.engine.inArray = true ∧ (grantedState.host .p1).shifter.buffer.isSome = true ∧
      grantedState.resetPin = false := by decide +kernel

/-- Port 0 restarts with three tickets and a claim, while the engine is busy and a record is in hand. -/
def restartDev : Dev :=
  (withRing handOverDev [doneRead, waitingRead, runningClaim]).setEntry 1 { imageEntry 12 2 with claim := .preparing }

theorem witness_PortRestarts :
    ((stateOf restartDev).host .p0).restart = false ∧ (stateOf restartDev).outOfReset = true ∧
      restartDev.EngineShort ∧ restartDev.mayForm = false ∧ restartDev.LeasesFresh ∧
      restartDev.writer.condition = .good ∧ (stateOf restartDev).WithinCapacity :=
  ⟨by decide, by decide, (engineShort_iff _).2 (by decide +kernel), by decide +kernel,
    by simp only [Dev.LeasesFresh, all_ports]; decide +kernel, by decide +kernel,
    by unfold State.WithinCapacity; simp only [all_ports]; decide +kernel⟩

/-- A tick request of the port already waits. -/
theorem witness_PortRestarts_waiting :
    let d : Dev := { restartDev with writer := { restartDev.writer with queue := [.tick .p0 15, .tick .p1 1] } }
    d.EngineShort ∧ d.mayForm = false ∧ d.LeasesFresh :=
  ⟨(engineShort_iff _).2 (by decide +kernel), by decide +kernel,
    by simp only [Dev.LeasesFresh, all_ports]; decide +kernel⟩

/-! ## Witnesses: the rules of one part -/

/-- A pool in which one port has taken all it may: the free buffers are owed to the others. -/
theorem witness_PoolGuarantee :
    let b : Pool := { free := 4, held := { p0 := 6, p1 := 0, p2 := 0 } }
    b.free + b.held.p0 + b.held.p1 + b.held.p2 = 10 ∧ (2 - b.held.p0) + (2 - b.held.p1) + (2 - b.held.p2) ≤ b.free ∧
      b.grants .p0 = false ∧ b.grants .p1 = true ∧ b.held.get .p1 < 2 ∧ 1 ≤ b.held.get .p0 := by decide

theorem witness_TickBudget :
    (recordBase.entry 5).defined = true ∧ (recordBase.entry 5).kind = .image ∧ (recordBase.entry 5).owner = .p0 ∧
      (recordBase.entry 5).phase = .trial ∧ 3 ≤ (recordBase.entry 5).attempts.toNat ∧
      ¬ 4 ≤ (recordBase.entry 5).attempts.toNat ∧ (recordBase.entry 6).phase ≠ .trial := by decide +kernel

theorem witness_TableChanges :
    23 < 24 ∧ (Table.entry recordBase.table 5).kind = .image ∧ (Table.entry recordBase.table 5).fallback = true ∧
      (Table.entry recordBase.table 4).kind = .image ∧ (Table.entry recordBase.table 4).live = none := by decide +kernel

theorem witness_ArrayBytes : Memory.wf [(32768, 0x5A), (32769, 0x00), (16777215, 0xFE)] := by decide

theorem witness_EventQueues :
    (List.replicate 15 (phaseEvent .ok)).length < 16 ∧ 16 ≤ (List.replicate 16 (phaseEvent .ok)).length := by decide

/-! ## Well-formed and ill-formed commands: each check refuses a term -/

def bits (n : Nat) : Settle := { fill := 0, cells := [(n, 1)] }

theorem test_wf_verdict_in_page :
    (Instr.pageProgramComplete (.failure (bits 255))).wf = true ∧
      (Instr.pageProgramComplete (.failure (bits 256))).wf = false := by decide

theorem test_wf_verdict_in_sector :
    (Instr.sectorEraseComplete (.failure (bits 4095))).wf = true ∧
      (Instr.sectorEraseComplete (.failure (bits 4096))).wf = false := by decide

theorem test_wf_cutoff :
    (Instr.powerLoss { current := bits 4095, parked := bits 4095 }).wf = true ∧
      (Instr.powerLoss { current := bits 4096, parked := bits 0 }).wf = false ∧
      (Instr.deviceReset { current := bits 0, parked := bits 4096 }).wf = false ∧
      (Instr.resetAssertion { current := bits 4096, parked := bits 0 }).wf = false := by decide

/-- R99: fewer than 8 bits of an incomplete byte, and a part no longer than the frame. -/
theorem test_wf_clocking :
    (Instr.status .p0 { extra := [0], stray := List.replicate 7 true, span := .first 23 }).wf = true ∧
      (Instr.status .p0 { extra := [0], stray := List.replicate 8 true, span := .whole }).wf = false ∧
      (Instr.status .p0 { extra := [0], stray := [], span := .first 17 }).wf = false ∧
      (Instr.status .p0 { extra := [0], stray := [], span := .next 17 }).wf = false := by decide

/-- R103: a PROGRAM's data count is its length field, and nothing follows its data. -/
theorem test_wf_program :
    (Instr.program .p0 true 0 0 2 [1, 2] sent).wf = true ∧ (Instr.program .p0 true 0 0 2 [1] sent).wf = false ∧
      (Instr.program .p0 true 0 0 2 [1, 2] (Clocking.whole [3])).wf = false := by decide

theorem test_wf_malformed :
    (Instr.malformedFrame .p0 0x12 [] sent).wf = true ∧ (Instr.malformedFrame .p0 0x12 [5] sent).wf = false ∧
      (Instr.malformedFrame .p0 0x12 [] (Clocking.whole [5])).wf = false ∧
      (Instr.malformedFrame .p0 0x00 [] sent).wf = false := by decide

/-- R104: 0x90 is STATUS with bit 7 set, which no immediate command takes. -/
theorem test_wf_unknown :
    (Instr.unknownCommand .p0 0x90 sent).wf = true ∧ (Instr.unknownCommand .p0 0x10 sent).wf = false ∧
      (Instr.unknownCommand .p0 0xA0 sent).wf = false := by decide

/-! ## Encodings -/

/-- R181: the check value of the nine ASCII digits. -/
theorem test_crc_check_value : crc32 [0x31, 0x32, 0x33, 0x34, 0x35, 0x36, 0x37, 0x38, 0x39] = 0xCBF43926 := by
  decide +kernel

/-- Section 12.6: the worked DEFINE frame, read back. -/
theorem test_define_frame :
    parseFrame [0xC0, 0x00, 0x0B, 0xB8, 0x00, 0x08, 0x00, 0x00, 0x00, 0x00, 0x00] =
      .command (.define 0 3000 8 0 0) true := by decide +kernel

/-- Section 12.6: the worked record, read back with the fields of section 12.5. -/
theorem test_define_record :
    changeOfPage ([0x00, 0x00, 0x01, 0x92, 0x10, 0, 0, 0, 0, 0x11, 0x00, 0x01, 0x0B, 0xB8, 0x00, 0x08] ++
      List.replicate 240 0) = some (.define 17 .plain .p1 3000 8 0 0) := by decide +kernel

/-- No row of the table has bits, so no word spells a command. -/
theorem test_no_word : decodeTableWord 8 0x10 = none := rfl

/-! ## Single commands -/

/-- Section 12.6: the worked STATUS response of port 1: three tickets, two of them holding a buffer. -/
def workedDev : Dev :=
  let d := idleDev.modifyPort .p1 (fun q => { q with ring := [waitingRead, doneRead, runningClaim] })
  { d with
    pool := { free := 5, held := { p0 := 2, p1 := 2, p2 := 1 } }
    writer := { d.writer with nextSlot := 24 } }

def workedState : State :=
  { stateOf workedDev with
    hosts := (stateOf workedDev).hosts.modify .p1 (fun h =>
      { h with outcome := { command := 0xA0, result := .ok, ticket := 3 } }) }

theorem test_status_worked_response :
    nextIs (exec (.status .p1 (Clocking.whole (List.replicate 14 0xFF))) workedState) (fun t =>
      (t.host .p1).so ==
        [0xFF, 0xFF, 0x00, 0x01, 0x00, 0x03, 0x02, 0x05, 0x00, 0x64, 0x00, 0x28, 0xA0, 0x00, 0x03]) = true := by
  decide +kernel

/-- Sections 12.2, 12.3: PHASE_CHANGED is kind 0x06; ticket 0, partition 0xFF, OK, generation 0. -/
theorem test_events_phase_changed :
    nextIs (exec (.events .p2 (Clocking.whole (List.replicate 11 0)))
      (stateOf (idleDev.send .p2 (phaseEvent .ok)))) (fun t =>
        (t.host .p2).so == [0xFF, 0xFF, 0x00, 0x01, 0x06, 0x00, 0xFF, 0x00, 0, 0, 0, 0] &&
          (t.dev.port .p2).events.records.isEmpty) = true := by decide +kernel

/-- R178: a frame that stops inside the record removes nothing. -/
theorem test_events_short_frame :
    nextIs (exec (.events .p2 (Clocking.whole (List.replicate 10 0)))
      (stateOf (idleDev.send .p2 (phaseEvent .ok)))) (fun t => (t.dev.port .p2).events.records.length == 1) = true := by
  decide +kernel

/-- R128: the state byte of the worked ring's RUNNING CLAIM, its kind and its cancel flag. -/
theorem test_ticket_unknown :
    nextIs (exec (.ticket .p0 9 (Clocking.whole [0, 0])) (stateOf frameDev)) (fun t =>
      (t.host .p0).so == [0xFF, 0xFF, 0xFF, 0x10] && (t.host .p0).outcome.ticket == 9) = true := by decide +kernel

/-- R129, R130: four bytes from offset 16 of the page; all of them shifted out retire the ticket. -/
theorem test_fetch_retires :
    nextIs (exec (.fetch .p0 1 (Clocking.whole (List.replicate 6 0))) (stateOf frameDev)) (fun t =>
      (t.host .p0).so == [0xFF, 0xFF, 0xFF, 0x00, 0x5A, 0x5A, 0x5A, 0x5A] && t.dev.ticket .p0 1 == none &&
        t.dev.pool.free == 9) = true := by decide +kernel

theorem test_fetch_one_byte_short :
    nextIs (exec (.fetch .p0 1 (Clocking.whole (List.replicate 5 0))) (stateOf frameDev)) (fun t =>
      (t.dev.ticket .p0 1).isSome) = true := by decide +kernel

/-- R131: a live ticket is not retired. -/
theorem test_retire_live_refused :
    nextIs (exec (.retire .p0 3 sent) (stateOf frameDev)) (fun t =>
      (t.host .p0).outcome == { command := 0x14, result := .badstate, ticket := 3 }) = true := by decide +kernel

theorem test_cancel_running :
    nextIs (exec (.cancel .p0 3 sent) (stateOf frameDev)) (fun t =>
      (t.dev.ticket .p0 3).map (fun u => (u.state, u.cancelRequested)) == some (.running, true)) = true := by
  decide +kernel

/-- R33: an entry of another port is readable by all, and the index above 23 is refused. -/
theorem test_table_of_another_port :
    nextIs (exec (.table .p2 2 (Clocking.whole (List.replicate 7 0))) (stateOf frameDev)) (fun t =>
      (t.host .p2).so == [0xFF, 0xFF, 0xFF, 0x00, 0x01, 0x00, 0x01, 0x00, 0x10]) = true := by decide +kernel

/-- R164: 255 units of 10 ms. -/
theorem test_setlease :
    nextIs (exec (.setlease .p1 255 sent) (stateOf idleDev)) (fun t =>
      (t.dev.port .p1).leaseTime == 2550000 && (t.dev.port .p1).leaseSetting == 255) = true := by decide +kernel

theorem test_hold :
    nextIs (exec (.hold .p0 1 sent) (stateOf frameDev)) (fun t => (t.dev.entry 1).held && !(t.dev.entry 0).held) = true := by
  decide +kernel

/-- R103, R139: a PROGRAM frame one data byte short leaves FRAME and no buffer held. -/
theorem test_malformed_program :
    nextIs (exec (.malformedFrame .p0 0x21 [0, 0, 0, 0, 0, 0, 2, 9] sent) (stateOf idleDev)) (fun t =>
      (t.host .p0).outcome == { command := 0x21, result := .frame, ticket := 0 } && t.dev.pool.free == 10) = true := by
  decide +kernel

theorem test_unknown_command :
    nextIs (exec (.unknownCommand .p0 0x7F sent) (stateOf idleDev)) (fun t =>
      (t.host .p0).outcome == { command := 0x7F, result := .badcmd, ticket := 0 }) = true := by decide +kernel

/-- R98, R101: a STATUS frame sent in two parts, cut in its command byte; the response is taken at that
byte's end. -/
theorem test_frame_in_parts :
    nextIs (exec (.status .p0 { extra := [0, 0, 0], stray := [], span := .first 7 }) State.reset) (fun s =>
      nextIs (exec (.status .p0 { extra := [0, 0, 0], stray := [], span := .rest }) { s with dev := idleDev }) (fun t =>
        (t.host .p0).so == [0xFF, 0xFF, 0x00, 0x01])) = true := by decide +kernel

/-- R6: programming clears bits and sets none. -/
theorem test_program_ands :
    (Memory.programPage [(32768, 0x0F)] 8 0 0 [0x5A] .success).byteAt 32768 = 0x0A := by decide +kernel

/-- R10: of the bits that should have cleared, those of the mask did. -/
theorem test_program_failure :
    (Memory.programPage [] 8 0 0 [0x00] (.failure { fill := 0x0F, cells := [] })).byteAt 32768 = 0xF0 := by
  decide +kernel

theorem test_erase_failure :
    (Memory.eraseSector [(32768, 0x00)] 8 (.failure { fill := 0x0F, cells := [] })).byteAt 32768 = 0x0F := by
  decide +kernel

/-- R155: nothing parks that was not asked to, and no operation completes that is not current. -/
theorem test_events_that_cannot_fall :
    stops (exec .eraseParked (stateOf (eraseDev 0 false))) = true ∧ stops (exec .pageReadComplete (stateOf idleDev)) = true ∧
      stops (exec (.pageProgramComplete .success) (stateOf readingDev)) = true ∧
      stops (exec (.leaseExpiry .p0) (stateOf idleDev)) = true ∧ stops (exec (.selectRelease .p0) (stateOf idleDev)) = true ∧
      stops (exec (.hrstRelease .p0) (stateOf idleDev)) = true := by decide +kernel

/-- R167, R172: a restart leaves the lease setting at 100 and the line low until its release. -/
theorem test_restart :
    nextIs (exec (.hrstAssert .p0) (stateOf frameDev)) (fun t =>
      (t.dev.ring .p0).length == 1 && (t.dev.port .p0).leaseSetting == 100 &&
        nextIs (exec (.hrstRelease .p0) t) (fun u => (u.host .p0).restart == false)) = true := by decide +kernel

/-- R84: nothing runs between the assertion of RESET# and its release. -/
theorem test_reset_line :
    nextIs (exec (.resetAssertion { current := bits 0, parked := bits 0 }) busyState) (fun t =>
      !t.outOfReset && t.dev.engine.current == none && !t.takesFrames .p0) = true := by decide +kernel

theorem test_device_reset :
    nextIs (exec (.deviceReset { current := bits 0, parked := bits 0 }) busyState) (fun t =>
      t.dev.phase == .mounting && t.dev.engine.current == some (.read 0 0 .mount 0)) = true := by decide +kernel

/-- Log entry 1: a step without a command is a microsecond. -/
theorem test_idle_step :
    nextIs (step (stateOf claimedDev)) (fun t =>
      (t.dev.port .p0).leaseTime == 999999 && (t.dev.port .p1).leaseTime == 1000000) = true := by decide +kernel

/-- R98, R99: SOn goes on to the response's first bit at the falling edge after the turnaround byte, and floats when
CSn# is high. -/
theorem test_so_pin :
    nextIs (exec (.status .p0 { extra := [0], stray := [], span := .first 16 }) (stateOf idleDev)) (fun t =>
      t.soPin .p0 == .level false && t.soPin .p1 == .highImpedance) = true ∧
    nextIs (exec (.status .p0 { extra := [0], stray := [], span := .first 16, high := true }) (stateOf idleDev)) (fun t =>
      t.soPin .p0 == .level true) = true := by decide +kernel

/-- R135, R139: a frame cut off by RESET# gives its buffer back. -/
theorem test_reset_returns_buffer :
    nextIs (exec (.resetAssertion { current := bits 0, parked := bits 0 }) grantedState) (fun t =>
      t.dev.pool.free == 10 && t.dev.pool.held.get .p1 == 0) = true := by decide +kernel

/-- Port 0's CONFIRM fails for good; its PROGRAM behind it is released, is the Scheduler's only choice and fails in
DEGRADED; port 1's TICK waits and reverts an entry that port 0 may read. -/
def deadDev : Dev :=
  let d := dyingDev [confirmTicket, { someTicket 4 (.program 0 1) 3 .queued .waiting with buffer := some [0x5A] }] confirmHand
  { (d.setEntry 7 { imageEntry 70 2 with owner := .p1, live := some .a, phase := .trial, readers := 0b001 }) with
    pool := { free := 9, held := { p0 := 1, p1 := 0, p2 := 0 } }
    writer := { d.writer with queue := [.tick .p1 1] } }

/-- R174, R80: the order of the events of the DEAD event at port 0. -/
theorem test_dead_event_order :
    nextIs (exec (.pageProgramComplete (.failure (bits 0))) (stateOf deadDev)) (fun t =>
      (t.dev.port .p0).events.records.map (fun e => (e.kind, e.ticket, e.result)) ==
        [(.phaseChanged, 0, .jdead), (.ticketEnd, 3, .jdead), (.ticketEnd, 4, .jdead), (.liveChanged, 0, .ok)]) = true := by
  decide +kernel

/-- Port 0's DELETE ends and releases the READ of its partition and the RELEASE, which ends and releases the PROGRAM:
the READ and the PROGRAM then fail at the Scheduler's choices, the READ first. -/
def chainDev : Dev :=
  let d := writing (withRing readBase [{ recordingTicket .delete 0 with number := 1 }, someTicket 2 .release 6 .queued .waiting,
    { someTicket 3 (.read .live 0 1) 0 .queued .waiting with buffer := some [] },
    { someTicket 4 (.program 0 1) 6 .queued .waiting with buffer := some [0x5A] }])
    (inHandOf (.delete 0 7) (.host .p0 1 (.delete 0 7)))
  { d.setEntry 6 { imageEntry 48 2 with claim := .opened } with pool := { free := 8, held := { p0 := 2, p1 := 0, p2 := 0 } } }

/-- R174: each TICKET_END immediately after the end that released its ticket. -/
theorem test_chain_event_order :
    nextIs (exec (.pageProgramComplete .success) (stateOf chainDev)) (fun t =>
      (t.dev.port .p0).events.records.map (fun e => (e.kind, e.ticket, e.result)) ==
        [(.ticketEnd, 1, .ok), (.ticketEnd, 2, .ok), (.ticketEnd, 4, .badstate), (.ticketEnd, 3, .nopart)]) = true := by
  decide +kernel

/-- Port 0's DELETE ends and releases the PROGRAM of its partition; the older READ, which asks for no event, then
fails and releases the second READ. -/
def silentDev : Dev :=
  let d := writing (withRing readBase [
    { someTicket 1 (.read .live 0 1) 0 .queued .waiting with buffer := some [], notify := false },
    { someTicket 2 (.read .live 0 1) 0 .queued .waiting with buffer := some [] }, recordingTicket .delete 0,
    { someTicket 4 (.program 0 1) 0 .queued .waiting with buffer := some [0x5A] }]) deleteHand
  { d with pool := { free := 7, held := { p0 := 3, p1 := 0, p2 := 0 } } }

/-- R174: a later end that sends nothing does not come between an end and the one it released. -/
theorem test_silent_event_order :
    nextIs (exec (.pageProgramComplete .success) (stateOf silentDev)) (fun t =>
      (t.dev.port .p0).events.records.map (fun e => (e.kind, e.ticket, e.result)) ==
        [(.ticketEnd, 3, .ok), (.ticketEnd, 4, .nopart), (.ticketEnd, 2, .nopart)]) = true := by
  decide +kernel

end Sys2Proof.Tests
end

/-!
PROOF. HOLD (R28): a silent command's frame clocked whole, the rows of the table as facts about Dev.holdFrame, and
the statement put together from them.
-/

namespace Sys2Proof.Proofs

open Sys2Proof Sys2Proof.Machine Sys2Proof.Laws

/-! ## A silent command's frame, from its first bit to its outcome -/

/-- R100: the frame of a command byte with its parameters after it, and a PROGRAM's data count as its length field
says. -/
theorem parseFrame_of_opcodeOf {b : Byte} {bs : List Byte} {o : Opcode} {notify : Bool}
    (ho : opcodeOf b = some (o, notify)) (hparams : o.paramCount ≤ bs.length)
    (hdata : dataCountRight (commandOf o (b :: bs)) = true) :
    parseFrame (b :: bs) = .command (commandOf o (b :: bs)) notify := by
  simp only [parseFrame, ho, if_neg (Nat.not_lt.mpr hparams), hdata, if_true]

/-- R102, R164: a well-formed frame that SOn answers with nothing, clocked whole: the lease is reloaded, and then the
command has its effect. -/
theorem runCommand_silent (m : String) (p : Port) (c : Command) (notify : Bool) (extra : List Byte) (s : State)
    (hr : s.Ready p) (hq : silent (commandByte c.opcode notify) = true)
    (hc : parseFrame (c.frameBytes notify ++ extra) = .command c notify) :
    runCommand m p c notify (Clocking.whole extra) s =
      .next (((afterFrame s p (silentBytes (c.frameBytes notify ++ extra).length)).modifyDev
        (fun d => d.leaseReloaded p)).endCommand p c notify (commandByte c.opcode notify)
          (c.frameBytes notify ++ extra).length { result := .notready, data := [] } none) := by
  obtain ⟨hselected, htakes⟩ := hr
  have hend : runCommand m p c notify (Clocking.whole extra) s = _ :=
    runFrame_silent m p (c.frameBytes notify) extra s hselected htakes hq
  rw [hend, endedFrame, show (shifterWith (c.frameBytes notify ++ extra)).bytes = c.frameBytes notify ++ extra from rfl,
    hc]
  rfl

/-- R112: the outcome recorded on a frame's host side makes the whole state after the frame. -/
theorem setOutcome_afterFrame (s : State) (p : Port) (so : List Byte) (command n : Byte) (r : Result) (f : Dev → Dev) :
    ((afterFrame s p so).modifyDev f).setOutcome p command r n =
      s.ended p so { command := command, result := r, ticket := n } (f s.dev) := by
  simp [State.setOutcome, State.modifyHost, State.modifyDev, State.ended, afterFrame]

/-- R112: the whole state after an immediate command's frame whose effect and result are `x`. -/
theorem withFrame_afterFrame (s : State) (p : Port) (so : List Byte) (command n : Byte) (f : Dev → Dev)
    (x : Dev × Result) :
    ((afterFrame s p so).modifyDev f).withFrame p command n x =
      s.ended p so { command := command, result := x.2, ticket := n } x.1 :=
  setOutcome_afterFrame s p so command n x.2 (fun _ => x.1)

/-! ## The table -/

/-- An entry written back as it stands leaves the table as it is. -/
theorem setEntry_entry (d : Dev) (i : Nat) : d.setEntry i (d.entry i) = d := by
  have htable : Table.setEntry d.table i (Table.entry d.table i) = d.table := by
    ext j hj
    by_cases hij : i = j
    · subst hij
      simp [Table.setEntry, Table.entry, hj]
    · simp [Table.setEntry, hij]
  simp [Dev.setEntry, Dev.entry, htable]

/-! ## The rows of R28's table -/

section Rows
variable {d : Dev} {p : Port} {i : Byte}

theorem indexOfCode_of_le (hi : ¬ 23 < i.toNat) : indexOfCode i = some i.toNat :=
  if_pos (show i.toNat < 24 by omega)

theorem holdOutcome_of_badIndex (hi : 23 < i.toNat) : d.holdOutcome p i = (.badarg, false) := by
  have hnone : indexOfCode i = none := if_neg (show ¬ i.toNat < 24 by omega)
  simp [Dev.holdOutcome, hnone]

theorem holdOutcome_of_undefined (hi : ¬ 23 < i.toNat) (hd : (d.entry i.toNat).defined = false) :
    d.holdOutcome p i = (.nopart, false) := by
  simp [Dev.holdOutcome, indexOfCode_of_le hi, hd]

theorem holdOutcome_of_notOwner (hi : ¬ 23 < i.toNat) (hd : ¬ (d.entry i.toNat).defined = false)
    (ho : (d.entry i.toNat).owner ≠ p) : d.holdOutcome p i = (.denied, false) := by
  simp [Dev.holdOutcome, indexOfCode_of_le hi, hd, ho.symm]

theorem holdOutcome_of_fixed (hi : ¬ 23 < i.toNat) (hd : ¬ (d.entry i.toNat).defined = false)
    (ho : ¬ (d.entry i.toNat).owner ≠ p) (hf : (d.entry i.toNat).fixed = true) :
    d.holdOutcome p i = (.ok, false) := by
  simp [Dev.holdOutcome, indexOfCode_of_le hi, hd, not_not.mp ho, hf]

theorem holdOutcome_of_notFixed (hi : ¬ 23 < i.toNat) (hd : ¬ (d.entry i.toNat).defined = false)
    (ho : ¬ (d.entry i.toNat).owner ≠ p) (hf : ¬ (d.entry i.toNat).fixed = true) :
    d.holdOutcome p i = (.ok, true) := by
  simp [Dev.holdOutcome, indexOfCode_of_le hi, hd, not_not.mp ho, hf]

theorem holdFrame_of_unchanged {r : Result} (h : d.holdOutcome p i = (r, false)) : d.holdFrame p i = (d, r) := by
  simp [Dev.holdFrame, h]

theorem holdFrame_of_set {r : Result} (h : d.holdOutcome p i = (r, true)) :
    d.holdFrame p i = (d.setEntry i.toNat { d.entry i.toNat with held := true }, r) := by
  simp [Dev.holdFrame, h]

/-- R28: the model writes held again where it is yes already; the table stays as it was. -/
theorem setEntry_held_of_held (hh : (d.entry i.toNat).held = true) :
    d.setEntry i.toNat { d.entry i.toNat with held := true } = d := by
  rw [← hh]
  exact setEntry_entry d i.toNat

end Rows

/-- R164: HOLD's decision reads no lease, so the reload of the same frame may be taken last. -/
theorem holdFrame_leaseReloaded (d : Dev) (p : Port) (i : Byte) :
    (d.leaseReloaded p).holdFrame p i = ((d.holdFrame p i).1.leaseReloaded p, (d.holdFrame p i).2) := by
  have hsame : (d.leaseReloaded p).holdOutcome p i = d.holdOutcome p i := rfl
  rcases hx : d.holdOutcome p i with ⟨r, sets⟩
  rw [hx] at hsame
  cases sets with
  | false => rw [holdFrame_of_unchanged hsame, holdFrame_of_unchanged hx]
  | true =>
    rw [holdFrame_of_set hsame, holdFrame_of_set hx]
    rfl

/-! ## HOLD clocked whole -/

section Whole
variable {p : Port} {i : Byte} {extra : List Byte} {s : State}

/-- R100: a HOLD frame reads back as the HOLD of its partition byte, whatever follows. -/
theorem parseFrame_hold (i : Byte) (extra : List Byte) :
    parseFrame (Command.frameBytes (.hold i) false ++ extra) = .command (.hold i) false :=
  have hcode : opcodeOf 0x18 = some (.hold, false) := by decide
  have hparams : Opcode.hold.paramCount ≤ (i :: extra).length := Nat.succ_le_succ (Nat.zero_le _)
  parseFrame_of_opcodeOf hcode hparams rfl

/-- R102: a HOLD frame clocked whole ends with the lease reloaded and then HOLD's effect. -/
theorem exec_hold_whole (hr : s.Ready p) :
    exec (.hold p i (Clocking.whole extra)) s =
      .next (((afterFrame s p (silentBytes (2 + extra.length))).modifyDev (fun d => d.leaseReloaded p)).endCommand p
        (.hold i) false 0x18 (2 + extra.length) { result := .notready, data := [] } none) := by
  have hlength : (Command.frameBytes (.hold i) false ++ extra).length = 2 + extra.length := by
    rw [List.length_append]
    rfl
  have hsilent : silent 0x18 = true := by decide
  have hrun := runCommand_silent "HOLD" p (.hold i) false extra s hr hsilent (parseFrame_hold i extra)
  rw [hlength] at hrun
  exact hrun

/-- R105: the outcome of HOLD in MOUNTING. -/
theorem exec_hold_mounting (hr : s.Ready p) (hm : s.dev.phase = .mounting) :
    exec (.hold p i (Clocking.whole extra)) s =
      .next (s.ended p (silentBytes (2 + extra.length)) { command := 0x18, result := .notready, ticket := 0 }
        (s.dev.leaseReloaded p)) := by
  have hphase : (s.dev.leaseReloaded p).phase = .mounting := hm
  rw [exec_hold_whole hr]
  simp [State.endCommand, hphase, setOutcome_afterFrame]

/-- R28, R164: out of MOUNTING the frame's state and outcome are those of HOLD's effect on the shared side as it
was before the frame, with the lease reloaded. -/
theorem exec_hold_of_holdFrame (hr : s.Ready p) (hm : ¬ s.dev.phase = .mounting) {d : Dev} {r : Result}
    (h : s.dev.holdFrame p i = (d, r)) :
    exec (.hold p i (Clocking.whole extra)) s =
      .next (s.ended p (silentBytes (2 + extra.length)) { command := 0x18, result := r, ticket := 0 }
        (d.leaseReloaded p)) := by
  have hphase : ¬ (s.dev.leaseReloaded p).phase = .mounting := hm
  rw [exec_hold_whole hr]
  simp [State.endCommand, hphase, withFrame_afterFrame, holdFrame_leaseReloaded, h]

end Whole

/-- Settles O14: the rows of R28's table in their order, each by the fact about that row. -/
theorem holdFrame : Obligations.HoldFrame := by
  intro p i extra s hr e outcome
  split_ifs with hm hi hd ho hf hh
  · exact exec_hold_mounting hr hm
  · exact exec_hold_of_holdFrame hr hm (holdFrame_of_unchanged (holdOutcome_of_badIndex hi))
  · exact exec_hold_of_holdFrame hr hm (holdFrame_of_unchanged (holdOutcome_of_undefined hi hd))
  · exact exec_hold_of_holdFrame hr hm (holdFrame_of_unchanged (holdOutcome_of_notOwner hi hd ho))
  · exact exec_hold_of_holdFrame hr hm (holdFrame_of_unchanged (holdOutcome_of_fixed hi hd ho hf))
  · have hkept := holdFrame_of_set (holdOutcome_of_notFixed hi hd ho hf)
    rw [setEntry_held_of_held hh] at hkept
    exact exec_hold_of_holdFrame hr hm hkept
  · exact exec_hold_of_holdFrame hr hm (holdFrame_of_set (holdOutcome_of_notFixed hi hd ho hf))

end Sys2Proof.Proofs

/-!
PROOF. Unknown command bytes (R104): what a command byte names, from the code in its low seven bits, and the frame
of a byte that names nothing.
-/

namespace Sys2Proof.Proofs

open Sys2Proof Sys2Proof.Machine Sys2Proof.Laws

/-! ## What a command byte names -/

/-- Section 12.1: each command has its own code in the table. -/
theorem find_opcode_code (o : Opcode) : allOpcodes.find? (fun x => x.code == o.code) = some o := by
  cases o <;> rfl

/-- Section 12.1: no two commands share a code. -/
theorem code_injective : Function.Injective Opcode.code := by
  intro o o' h
  have hfind := find_opcode_code o'
  rw [← h, find_opcode_code] at hfind
  exact Option.some.inj hfind

/-- Section 12.1: a code leaves bit 7, the notify flag, clear. -/
theorem code_getLsbD_seven (o : Opcode) : o.code.getLsbD 7 = false := by
  cases o <;> rfl

/-- Section 12.1: a code lies in the low seven bits. -/
theorem code_and_low (o : Opcode) : o.code &&& 0x7F = o.code := by
  cases o <;> rfl

/-- Section 12.1: the notify flag leaves the code in the low seven bits as it is. -/
theorem code_notify_and_low (o : Opcode) : (o.code ||| 0x80) &&& 0x7F = o.code := by
  cases o <;> rfl

/-- Section 12.1: the notify flag is bit 7. -/
theorem code_notify_getLsbD_seven (o : Opcode) : (o.code ||| 0x80).getLsbD 7 = true := by
  rw [BitVec.getLsbD_or, code_getLsbD_seven]
  rfl

/-- Section 12.1: bit 7 of a byte, read by its mask. -/
theorem and_bit_seven_iff (b : Byte) : b &&& 0x80 = 0x80 ↔ b.getLsbD 7 = true := by
  have hmask : b &&& 0x80 = if b.getLsbD 7 then 0x80 else 0 := BitVec.and_twoPow b 7
  rw [hmask]
  split <;> simp_all

/-- R104: a byte whose low seven bits are a command's code names that command, unless it asks notify of an
immediate one. -/
theorem opcodeOf_of_code {b : Byte} {o : Opcode} (h : o.code = b &&& 0x7F) :
    opcodeOf b = if b.getLsbD 7 && !o.isTicket then none else some (o, b.getLsbD 7) := by
  simp only [opcodeOf, ← h, find_opcode_code]

/-- R104: a byte whose low seven bits are no command's code names no command. -/
theorem opcodeOf_of_no_code {b : Byte} (h : ∀ o : Opcode, o.code ≠ b &&& 0x7F) : opcodeOf b = none := by
  have hfind : allOpcodes.find? (fun o => o.code == (b &&& 0x7F)) = none :=
    List.find?_eq_none.mpr (fun o _ => by simpa using h o)
  simp only [opcodeOf, hfind]

/-- R104: the unknown command bytes. -/
theorem opcodeOf_eq_none_iff (b : Byte) :
    opcodeOf b = none ↔
      ((∀ o : Opcode, o.code ≠ b &&& 0x7F) ∨
        ((b &&& 0x80) = 0x80 ∧ ∃ o : Opcode, o.code = b &&& 0x7F ∧ o.isTicket = false)) := by
  rw [and_bit_seven_iff]
  by_cases hcode : ∃ o : Opcode, o.code = b &&& 0x7F
  · obtain ⟨o, ho⟩ := hcode
    rw [opcodeOf_of_code ho]
    constructor
    · intro hnone
      obtain ⟨hbit, himmediate⟩ : b.getLsbD 7 = true ∧ o.isTicket = false := by simpa using hnone
      exact .inr ⟨hbit, o, ho, himmediate⟩
    · rintro (hno | ⟨hbit, o', ho', himmediate⟩)
      · exact absurd ho (hno o)
      · obtain rfl := code_injective (ho'.trans ho.symm)
        simp [hbit, himmediate]
  · have hno : ∀ o : Opcode, o.code ≠ b &&& 0x7F := not_exists.mp hcode
    exact ⟨fun _ => .inl hno, fun _ => opcodeOf_of_no_code hno⟩

/-- Section 12.1: a command's code names it, with no notify asked. -/
theorem opcodeOf_code (o : Opcode) : opcodeOf o.code = some (o, false) := by
  rw [opcodeOf_of_code (code_and_low o).symm, code_getLsbD_seven]
  rfl

/-- R104: a ticket command's code with bit 7 set names it with notify requested. -/
theorem opcodeOf_code_notify {o : Opcode} (h : o.isTicket = true) :
    opcodeOf (o.code ||| 0x80) = some (o, true) := by
  rw [opcodeOf_of_code (code_notify_and_low o).symm, code_notify_getLsbD_seven, h]
  rfl

/-! ## The frame of an unknown byte -/

/-- R104: after an unknown command byte the later bytes bring nothing about. -/
theorem silent_of_opcodeOf_none {c : Byte} (h : opcodeOf c = none) : silent c = true := by
  simp only [silent, h]

/-- R104: a frame of an unknown command byte reads back as one, whatever its length. -/
theorem parseFrame_of_opcodeOf_none {c : Byte} (h : opcodeOf c = none) (bytes : List Byte) :
    parseFrame (c :: bytes) = .unknown c := by
  simp only [parseFrame, h]

/-- R104: a frame of an unknown command byte clocked whole: BADCMD with the byte as received, and the lease
reloaded. The phase is not asked. -/
theorem exec_unknownCommand_whole {p : Port} {c : Byte} {s : State} (bytes : List Byte) (hr : s.Ready p)
    (hc : opcodeOf c = none) :
    exec (.unknownCommand p c (Clocking.whole bytes)) s =
      .next (s.ended p (silentBytes (1 + bytes.length)) { command := c, result := .badcmd, ticket := 0 }
        (s.dev.leaseReloaded p)) := by
  obtain ⟨hselected, htakes⟩ := hr
  have hend : exec (.unknownCommand p c (Clocking.whole bytes)) s = _ :=
    runFrame_silent "UNKNOWN_COMMAND" p [c] bytes s hselected htakes (silent_of_opcodeOf_none hc)
  have hbytes : (shifterWith ([c] ++ bytes)).bytes = c :: bytes := rfl
  have hlength : ([c] ++ bytes).length = 1 + bytes.length := List.length_append
  rw [hend, endedFrame, hbytes, parseFrame_of_opcodeOf_none hc, hlength]
  exact congrArg _ (setOutcome_afterFrame s p (silentBytes (1 + bytes.length)) c 0 .badcmd (fun d => d.leaseReloaded p))

/-- Settles O1: the byte's code and bit 7 decide what it names, and a frame of an unknown byte is a silent frame that
ends with BADCMD. -/
theorem unknownCommandRefused : Obligations.UnknownCommandRefused :=
  ⟨opcodeOf_eq_none_iff, fun o ho => ⟨opcodeOf_code o, opcodeOf_code_notify ho⟩,
    fun _ _ bytes _ hr hc => exec_unknownCommand_whole bytes hr hc⟩

end Sys2Proof.Proofs

/-!
PROOF. RETIRE (R131): a ticket that leaves the ring with its buffer, the cases of the rule as facts about
Dev.retireFrame, and the statement put together from them.
-/

namespace Sys2Proof.Proofs

open Sys2Proof Sys2Proof.Machine Sys2Proof.Laws

/-! ## A ticket and its buffer leave -/

/-- R164: a lease reload changes no ring. -/
@[simp] theorem ring_leaseReloaded (d : Dev) (p : Port) : (d.leaseReloaded p).ring p = d.ring p := by
  simp [Dev.leaseReloaded, Dev.ring]

@[simp] theorem ticketOfFrame_leaseReloaded (d : Dev) (p : Port) (n : Byte) :
    (d.leaseReloaded p).ticketOfFrame p n = d.ticketOfFrame p n := by
  simp [Dev.ticketOfFrame]

/-- R114: removal acts on the port's ring as it stands. -/
theorem removeTicket_eq_modifyPort (d : Dev) (p : Port) (n : Byte) :
    d.removeTicket p n = d.modifyPort p (fun q => { q with ring := q.ring.filter (fun u => u.number != n) }) :=
  congrArg (fun v => { d with ports := v }) (modify_congr _ _ _ rfl)

/-- R164: a ticket's removal with its buffer reads no lease, so the reload of the same frame may be taken last. -/
theorem removeTicket_leaseReloaded (d : Dev) (p : Port) (n : Byte) (held : Bool) :
    ((d.leaseReloaded p).giveBufferIf p held).removeTicket p n =
      ((d.giveBufferIf p held).removeTicket p n).leaseReloaded p := by
  have hgive : (d.leaseReloaded p).giveBufferIf p held = (d.giveBufferIf p held).leaseReloaded p := by
    cases held <;> rfl
  rw [hgive]
  simp [removeTicket_eq_modifyPort, Dev.leaseReloaded]

/-! ## The cases of R131 -/

section Retire
variable {d : Dev} {p : Port} {n : Byte} {t : Ticket}

/-- Section 7.4: the two live states. -/
theorem live_iff (t : Ticket) : t.live = true ↔ t.state = .queued ∨ t.state = .running := by
  simp [Ticket.live]

theorem retireFrame_of_none (hfound : d.ticketOfFrame p n = none) : d.retireFrame p n = (d, .unknown) := by
  simp [Dev.retireFrame, hfound]

theorem retireFrame_of_live (hfound : d.ticketOfFrame p n = some t) (hlive : t.live = true) :
    d.retireFrame p n = (d, .badstate) := by
  simp [Dev.retireFrame, hfound, hlive]

theorem retireFrame_of_not_live (hfound : d.ticketOfFrame p n = some t) (hlive : ¬ t.live = true) :
    d.retireFrame p n = ((d.giveBufferIf p t.buffer.isSome).removeTicket p n, .ok) := by
  simp [Dev.retireFrame, hfound, hlive]

/-- R164: RETIRE reads no lease. -/
theorem retireFrame_leaseReloaded (d : Dev) (p : Port) (n : Byte) :
    (d.leaseReloaded p).retireFrame p n = ((d.retireFrame p n).1.leaseReloaded p, (d.retireFrame p n).2) := by
  have hsame := ticketOfFrame_leaseReloaded d p n
  cases hfound : d.ticketOfFrame p n with
  | none => rw [retireFrame_of_none hfound, retireFrame_of_none (hsame.trans hfound)]
  | some t =>
    by_cases hlive : t.live = true
    · rw [retireFrame_of_live hfound hlive, retireFrame_of_live (hsame.trans hfound) hlive]
    · rw [retireFrame_of_not_live hfound hlive, retireFrame_of_not_live (hsame.trans hfound) hlive,
        removeTicket_leaseReloaded]

end Retire

/-! ## RETIRE clocked whole -/

section RetireWhole
variable {p : Port} {n : Byte} {extra : List Byte} {s : State}

/-- R100: a RETIRE frame reads back as the RETIRE of its number, whatever follows. -/
theorem parseFrame_retire (n : Byte) (extra : List Byte) :
    parseFrame (Command.frameBytes (.retire n) false ++ extra) = .command (.retire n) false :=
  have hparams : Opcode.retire.paramCount ≤ (n :: extra).length := Nat.succ_le_succ (Nat.zero_le _)
  parseFrame_of_opcodeOf (opcodeOf_code .retire) hparams rfl

/-- R131, R164: out of MOUNTING the frame's state and outcome are those of RETIRE's effect on the shared side as it
was before the frame, with the lease reloaded. -/
theorem exec_retire_of_retireFrame (hr : s.Ready p) (hm : s.dev.phase ≠ .mounting) {d : Dev} {r : Result}
    (h : s.dev.retireFrame p n = (d, r)) :
    exec (.retire p n (Clocking.whole extra)) s =
      .next (s.ended p (silentBytes (2 + extra.length)) { command := 0x14, result := r, ticket := n }
        (d.leaseReloaded p)) := by
  have hlength : (Command.frameBytes (.retire n) false ++ extra).length = 2 + extra.length := List.length_append
  have hsilent : silent 0x14 = true := by decide
  have hphase : ¬ (s.dev.leaseReloaded p).phase = .mounting := hm
  have hrun : exec (.retire p n (Clocking.whole extra)) s = _ :=
    runCommand_silent "RETIRE" p (.retire n) false extra s hr hsilent (parseFrame_retire n extra)
  rw [hrun, hlength]
  simp [State.endCommand, hphase, withFrame_afterFrame, retireFrame_leaseReloaded, h, commandByte, Command.opcode,
    Opcode.code]

end RetireWhole

/-- Settles O11: no ticket of that number, a live one and a terminal one, each by the fact about that row. -/
theorem retireFrame : Obligations.RetireFrame := by
  intro p n extra s hr hm outcome
  cases hfound : (s.dev.ring p).find? (fun t => t.number == n && !t.orphan) with
  | none => exact exec_retire_of_retireFrame hr hm (retireFrame_of_none hfound)
  | some t =>
    dsimp only
    split_ifs with hlive hbuffer
    · exact exec_retire_of_retireFrame hr hm (retireFrame_of_live hfound ((live_iff t).mpr hlive))
    all_goals
      have hretired := retireFrame_of_not_live hfound (mt (live_iff t).mp hlive)
      simp only [hbuffer, removeTicket_eq_modifyPort] at hretired
      exact exec_retire_of_retireFrame hr hm hretired

end Sys2Proof.Proofs

/-!
PROOF. FETCH (R129, R130): an answering command's frame clocked whole, the rows of the table as facts about
fetchAnswer, what the frame's end retires, and the statement put together from them.
-/

namespace Sys2Proof.Proofs

open Sys2Proof Sys2Proof.Machine Sys2Proof.Laws

/-! ## An answering command's frame, from its first bit to its outcome -/

/-- R101, R164: a well-formed frame of an answering command other than EVENTS, clocked whole: SOn carries what the
turnaround took, the lease is reloaded, and then the command has its effect. -/
theorem runCommand_answering (m : String) (p : Port) (c : Command) (extra : List Byte) (s : State) (hr : s.Ready p)
    (ha : c.opcode.answers = true) (he : c.opcode ≠ .events) (hparams : c.params.length = c.opcode.paramCount)
    (hc : parseFrame (c.frameBytes false ++ extra) = .command c false) {a : Answer}
    (hanswer : s.answerTo p c.opcode (c.frameBytes false) = a) :
    runCommand m p c false (Clocking.whole extra) s =
      .next (((afterFrame s p (soBytes c.opcode.paramCount (c.frameBytes false ++ extra).length
          (resultCode a.result :: a.data))).modifyDev (fun d => d.leaseReloaded p)).endCommand p c false c.opcode.code
        (c.frameBytes false ++ extra).length a none) := by
  obtain ⟨hselected, htakes⟩ := hr
  have hlength : (c.frameBytes false).length = c.opcode.paramCount + 1 := congrArg (· + 1) hparams
  have hend : runCommand m p c false (Clocking.whole extra) s = _ :=
    runFrame_answering m p c.opcode false (c.frameBytes false) extra s hselected htakes ha he
      (opcodeOf_code c.opcode) hlength
  have hbytes (b : Answer) : (shifterAnswered (c.frameBytes false ++ extra) b).bytes = c.frameBytes false ++ extra := rfl
  rw [hend, hanswer, endedFrame, hbytes, hc]
  rfl

/-! ## The rows of R129's table -/

section Fetch
variable {t : Ticket} {v : View} {offset : Word32} {length : Half16}

/-- R129: the row of every kind but READ. -/
theorem fetchAnswer_of_not_read (hkind : ∀ v offset length, t.kind ≠ .read v offset length) :
    fetchAnswer (some t) = { result := .badstate, data := [] } := by
  simp only [fetchAnswer]

theorem fetchAnswer_of_queued (hkind : t.kind = .read v offset length) (hstate : t.state = .queued) :
    fetchAnswer (some t) = { result := .notdone, data := [] } := by
  simp only [fetchAnswer, hkind, hstate]

theorem fetchAnswer_of_running (hkind : t.kind = .read v offset length) (hstate : t.state = .running) :
    fetchAnswer (some t) = { result := .notdone, data := [] } := by
  simp only [fetchAnswer, hkind, hstate]

theorem fetchAnswer_of_failed (hkind : t.kind = .read v offset length) (hstate : t.state = .failed) :
    fetchAnswer (some t) = { result := .badstate, data := [] } := by
  simp only [fetchAnswer, hkind, hstate]

theorem fetchAnswer_of_cancelled (hkind : t.kind = .read v offset length) (hstate : t.state = .cancelled) :
    fetchAnswer (some t) = { result := .badstate, data := [] } := by
  simp only [fetchAnswer, hkind, hstate]

theorem fetchAnswer_of_done (hkind : t.kind = .read v offset length) (hstate : t.state = .done) :
    fetchAnswer (some t) = { result := .ok, data := fetchBytes offset length (t.buffer.getD []) } := by
  simp only [fetchAnswer, hkind, hstate]

/-- R105, R129: NOTREADY is MOUNTING's answer and none of the table's. -/
theorem fetchAnswer_ne_notready (found : Option Ticket) : (fetchAnswer found).result ≠ .notready := by
  unfold fetchAnswer
  repeat' split
  all_goals simp

/-- R124: the data of a DONE READ is as long as the READ. -/
theorem length_fetchBytes (offset : Word32) (length : Half16) (buffer : List Byte) :
    (fetchBytes offset length buffer).length = length.toNat := by
  simp [fetchBytes]

end Fetch

/-! ## FETCH at its frame end -/

section FetchEnd
variable {d : Dev} {p : Port} {n : Byte} {a : Answer} {bytes : Nat} {t : Ticket}

/-- R130: a refused FETCH, and one too short for its data, retires nothing. -/
theorem fetchFrame_of_not_whole (h : ¬ (a.result = .ok ∧ a.data.length + 4 ≤ bytes)) : d.fetchFrame p n a bytes = d :=
  if_neg h

/-- R130: a FETCH that shifted out all its data retires the ticket. -/
theorem fetchFrame_of_whole (hok : a.result = .ok) (hwhole : a.data.length + 4 ≤ bytes)
    (hfound : d.ticketOfFrame p n = some t) :
    d.fetchFrame p n a bytes = (d.giveBufferIf p t.buffer.isSome).removeTicket p n := by
  simp only [Dev.fetchFrame, hok, hwhole, hfound, and_self, if_true]

/-- R164: FETCH's end reads no lease. -/
theorem fetchFrame_leaseReloaded (d : Dev) (p : Port) (n : Byte) (a : Answer) (bytes : Nat) :
    (d.leaseReloaded p).fetchFrame p n a bytes = (d.fetchFrame p n a bytes).leaseReloaded p := by
  unfold Dev.fetchFrame
  rw [ticketOfFrame_leaseReloaded]
  repeat' split
  · exact removeTicket_leaseReloaded d p n _
  · rfl
  · rfl

/-- R130: the end of a FETCH of a DONE READ, by the count `k` of bytes clocked after its number: the turnaround, the
result and the READ's length bytes. -/
theorem fetchFrame_of_done (offset : Word32) (length : Half16) (k : Nat) (hfound : d.ticketOfFrame p n = some t) :
    d.fetchFrame p n { result := .ok, data := fetchBytes offset length (t.buffer.getD []) } (2 + k) =
      if 2 + length.toNat ≤ k then (d.giveBufferIf p t.buffer.isSome).removeTicket p n else d := by
  have hdata := length_fetchBytes offset length (t.buffer.getD [])
  split_ifs with hwhole
  · exact fetchFrame_of_whole rfl (by rw [hdata]; omega) hfound
  · exact fetchFrame_of_not_whole (fun ⟨_, h⟩ => hwhole (by rw [hdata] at h; omega))

end FetchEnd

/-! ## FETCH clocked whole -/

section FetchWhole
variable {p : Port} {n : Byte} {extra : List Byte} {s : State}

/-- R100: a FETCH frame reads back as the FETCH of its number, whatever follows. -/
theorem parseFrame_fetch (n : Byte) (extra : List Byte) :
    parseFrame (Command.frameBytes (.fetch n) false ++ extra) = .command (.fetch n) false :=
  have hparams : Opcode.fetch.paramCount ≤ (n :: extra).length := Nat.succ_le_succ (Nat.zero_le _)
  parseFrame_of_opcodeOf (opcodeOf_code .fetch) hparams rfl

/-- R101, R129: out of MOUNTING the turnaround of a FETCH takes the table's answer for the ticket of its number. -/
theorem answerTo_fetch (hm : s.dev.phase ≠ .mounting) :
    s.answerTo p .fetch (Command.frameBytes (.fetch n) false) = fetchAnswer (s.dev.ticketOfFrame p n) := by
  simp [State.answerTo, hm, Command.frameBytes, Command.params]

/-- R129, R130, R164: out of MOUNTING the frame's bytes and outcome are those of the table's answer, and its state
that of FETCH's end on the shared side as it was before the frame, with the lease reloaded. -/
theorem exec_fetch_of_fetchAnswer (hr : s.Ready p) (hm : s.dev.phase ≠ .mounting) {found : Option Ticket} {a : Answer}
    (hfound : s.dev.ticketOfFrame p n = found) (ha : fetchAnswer found = a) :
    exec (.fetch p n (Clocking.whole extra)) s =
      .next (s.ended p (soBytes 1 (2 + extra.length) (resultCode a.result :: a.data))
        { command := 0x13, result := a.result, ticket := n }
        ((s.dev.fetchFrame p n a (2 + extra.length)).leaseReloaded p)) := by
  subst hfound
  have hlength : (Command.frameBytes (.fetch n) false ++ extra).length = 2 + extra.length := List.length_append
  have hnamed : namedNumber a.result n = n := if_neg (ha ▸ fetchAnswer_ne_notready _)
  have hother : Opcode.fetch ≠ .events := by decide
  have hrun : exec (.fetch p n (Clocking.whole extra)) s = _ :=
    runCommand_answering "FETCH" p (.fetch n) extra s hr rfl hother rfl (parseFrame_fetch n extra)
      ((answerTo_fetch hm).trans ha)
  rw [hrun, hlength]
  simp only [State.endCommand, hnamed, modifyDev_modifyDev, setOutcome_afterFrame, fetchFrame_leaseReloaded]
  rfl

/-- R129: a FETCH that the table refuses leaves the shared side with the lease reloaded. -/
theorem exec_fetch_refused (hr : s.Ready p) (hm : s.dev.phase ≠ .mounting) {found : Option Ticket} {r : Result}
    (hfound : s.dev.ticketOfFrame p n = found) (ha : fetchAnswer found = { result := r, data := [] }) (hne : r ≠ .ok) :
    exec (.fetch p n (Clocking.whole extra)) s =
      .next (s.ended p (soBytes 1 (2 + extra.length) [resultCode r]) { command := 0x13, result := r, ticket := n }
        (s.dev.leaseReloaded p)) := by
  rw [exec_fetch_of_fetchAnswer hr hm hfound ha, fetchFrame_of_not_whole (fun ⟨hok, _⟩ => hne hok)]

end FetchWhole

/-- Settles O9: the rows of R129's table, each by the fact about that row, and R130 for the DONE READ. -/
theorem fetchAnswers : Obligations.FetchAnswers := by
  intro p n extra s hr hm answered
  cases hfound : (s.dev.ring p).find? (fun t => t.number == n && !t.orphan) with
  | none => exact exec_fetch_refused hr hm hfound rfl (by decide)
  | some t =>
    dsimp only
    split
    next v offset length hkind =>
      split
      next hstate => exact exec_fetch_refused hr hm hfound (fetchAnswer_of_queued hkind hstate) (by decide)
      next hstate => exact exec_fetch_refused hr hm hfound (fetchAnswer_of_running hkind hstate) (by decide)
      next hstate => exact exec_fetch_refused hr hm hfound (fetchAnswer_of_failed hkind hstate) (by decide)
      next hstate => exact exec_fetch_refused hr hm hfound (fetchAnswer_of_cancelled hkind hstate) (by decide)
      next hstate =>
        have hrun := exec_fetch_of_fetchAnswer (extra := extra) hr hm hfound (fetchAnswer_of_done hkind hstate)
        rw [fetchFrame_of_done offset length extra.length hfound, removeTicket_eq_modifyPort] at hrun
        exact hrun
    next hkind => exact exec_fetch_refused hr hm hfound (fetchAnswer_of_not_read hkind) (by decide)

end Sys2Proof.Proofs

/-!
PROOF. What a command can do to the block, said once for each command, and from it what no command reaches, the
array's canonical form and the frames in progress (R5, R6, R11, R98, R111).
-/

namespace Sys2Proof.Proofs

set_option Elab.async false

open Sys2Proof Sys2Proof.Machine Sys2Proof.Laws

/-! ## What each command can do -/

section Inversion
variable {s t : State}

/-- A frame command runs its frame. -/
theorem exec_eq_runFrame {i : Instr} {p : Port} {bytes : List Byte} {k : Clocking} (s : State)
    (h : i.frame = some (p, bytes, k)) : ∃ m, exec i s = runFrame m p bytes k s := by
  cases i <;> simp only [Instr.frame, reduceCtorEq, Option.some.injEq, Prod.mk.injEq] at h <;>
    (obtain ⟨rfl, rfl, rfl⟩ := h; exact ⟨_, rfl⟩)

/-- R98: the four parts of a frame that a command may cover. -/
theorem runFrame_next {m : String} {p : Port} {frame : List Byte} {k : Clocking}
    (h : runFrame m p frame k s = .next t) :
    ((s.host p).selected = false ∧
      (t = (((s.select p).clockBytes p (frame ++ k.extra)).clockBits p k.stray).deselect p ∨
        ∃ n, t = ((s.select p).clockTo p (frame ++ k.extra) k.stray n).pause p n k.high)) ∨
    ((s.host p).selected = true ∧
      ((∃ n j, t = (s.clockTo p (frame ++ k.extra) k.stray n).pause p j k.high) ∨
        ∃ n, t = (s.clockTo p (frame ++ k.extra) k.stray n).deselect p)) := by
  unfold runFrame at h
  dsimp only at h
  split at h <;> split at h <;> simp only [cannotFall, reduceCtorEq, Host.Outcome.next.injEq] at h
  · exact .inl ⟨by simpa using ‹¬ (s.host p).selected = true›, .inl h.symm⟩
  · exact .inl ⟨by simpa using ‹¬ (s.host p).selected = true›, .inr ⟨_, h.symm⟩⟩
  · exact .inr ⟨by simp_all, .inl ⟨_, _, h.symm⟩⟩
  · exact .inr ⟨by simp_all, .inr ⟨_, h.symm⟩⟩

theorem execPageReadComplete_next (h : execPageReadComplete s = .next t) :
    ∃ sector page r age, s.dev.engine.current = some (.read sector page r age) ∧
      t = s.modifyDev (fun d => Dev.settle d (d.noCurrent.readDone r (s.array.readPage sector page))) := by
  unfold execPageReadComplete at h
  split at h
  · split at h <;> simp only [reduceCtorEq, Host.Outcome.next.injEq] at h
    exact ⟨_, _, _, _, ‹_›, h.symm⟩
  · cases h

theorem execPageProgramComplete_next {v : Verdict} (h : execPageProgramComplete v s = .next t) :
    ∃ sector page first data r age, s.dev.engine.current = some (.program sector page first data r age) ∧
      (Operation.program sector page first data r age).inArray = true ∧
      t = { s with
        array := s.array.programPage sector page first data v
        dev := Dev.settle s.dev (s.dev.noCurrent.programDone r (verdictOk v)) } := by
  unfold execPageProgramComplete at h
  split at h
  · split at h <;> simp only [reduceCtorEq, Host.Outcome.next.injEq] at h
    exact ⟨_, _, _, _, _, _, ‹_›, ‹_›, h.symm⟩
  · cases h

theorem execSectorEraseComplete_next {v : Verdict} (h : execSectorEraseComplete v s = .next t) :
    ∃ e, s.dev.engine.current = some (.erase e) ∧
      t = { s with
        array := s.array.eraseSector e.sector v
        dev := Dev.settle s.dev (s.dev.noCurrent.eraseDone e.requester (verdictOk v)) } := by
  unfold execSectorEraseComplete at h
  split at h
  · split at h <;> simp only [reduceCtorEq, Host.Outcome.next.injEq] at h
    exact ⟨_, ‹_›, h.symm⟩
  · cases h

theorem execEraseParked_next (h : execEraseParked s = .next t) :
    ∃ e, t = s.modifyDev (fun d => Dev.settle d (d.park e)) := by
  unfold execEraseParked at h
  split at h
  · split at h <;> simp only [cannotFall, reduceCtorEq, Host.Outcome.next.injEq] at h
    exact ⟨_, h.symm⟩
  · cases h

theorem execEraseQuantumExpiry_next (h : execEraseQuantumExpiry s = .next t) :
    ∃ f, t = s.modifyDev (fun d => (d.modifyEngine f).requestSuspension) := by
  unfold execEraseQuantumExpiry at h
  split at h
  · dsimp only at h
    split at h <;> simp only [cannotFall, reduceCtorEq, Host.Outcome.next.injEq] at h
    exact ⟨_, h.symm⟩
  · cases h

theorem execLeaseExpiry_next {p : Port} (h : execLeaseExpiry p s = .next t) :
    t = s.modifyDev (fun d => d.expireLease p) := by
  unfold execLeaseExpiry at h
  split at h <;> simp only [cannotFall, reduceCtorEq, Host.Outcome.next.injEq] at h
  exact h.symm

theorem execSelectRelease_next {p : Port} (h : execSelectRelease p s = .next t) : t = s.deselect p := by
  unfold execSelectRelease at h
  split at h <;> simp only [cannotFall, reduceCtorEq, Host.Outcome.next.injEq] at h
  exact h.symm

theorem execHrstRelease_next {p : Port} (h : execHrstRelease p s = .next t) :
    (s.host p).restart = true ∧ t = s.modifyHost p (fun h => { h with restart := false }) := by
  unfold execHrstRelease at h
  split at h <;> simp only [cannotFall, reduceCtorEq, Host.Outcome.next.injEq] at h
  exact ⟨‹_›, h.symm⟩

theorem execHrstAssert_next {p : Port} (h : execHrstAssert p s = .next t) :
    (s.outOfReset = true ∧ t = (s.modifyHost p HostPort.restarted).modifyDev (fun d =>
      Dev.settle d ((d.giveBufferIf p (s.host p).shifter.buffer.isSome).restartPort p))) ∨
    (s.outOfReset = false ∧ t = s.modifyHost p (fun h => { h with restart := true })) := by
  unfold execHrstAssert at h
  dsimp only at h
  split at h
  · cases h
  · split at h <;> simp only [Host.Outcome.next.injEq] at h
    · exact .inl ⟨‹_›, h.symm⟩
    · exact .inr ⟨by simpa using ‹¬ s.outOfReset = true›, h.symm⟩

theorem execDeviceReset_next {cut : CutOff} (h : execDeviceReset cut s = .next t) :
    s.dev.engine.inArray = true ∧
      t = { s with
        powered := true
        resetPin := false
        hosts := s.hosts.map HostPort.afterReset
        array := s.array.cutOff s.dev.engine cut
        dev := Dev.afterReset } := by
  unfold execDeviceReset at h
  split at h <;> simp only [reduceCtorEq, Host.Outcome.next.injEq] at h
  exact ⟨‹_›, h.symm⟩

theorem execResetAssertion_next {cut : CutOff} (h : execResetAssertion cut s = .next t) :
    s.dev.engine.inArray = true ∧
      t = { s with
        resetPin := true
        hosts := s.hosts.map HostPort.dropFrame
        array := s.array.cutOff s.dev.engine cut
        dev := s.devWithoutFrames.stopEngine } := by
  unfold execResetAssertion at h
  split at h
  · cases h
  · split at h <;> simp only [reduceCtorEq, Host.Outcome.next.injEq] at h
    exact ⟨‹_›, h.symm⟩

theorem execPowerLoss_next {cut : CutOff} (h : execPowerLoss cut s = .next t) :
    s.dev.engine.inArray = true ∧
      t = { s with
        powered := false
        hosts := s.hosts.map HostPort.afterReset
        array := s.array.cutOff s.dev.engine cut
        dev := Dev.reset } := by
  unfold execPowerLoss at h
  split at h
  · cases h
  · split at h <;> simp only [reduceCtorEq, Host.Outcome.next.injEq] at h
    exact ⟨‹_›, h.symm⟩

end Inversion

/-! ## What a frame reaches -/

/-- What an event at port `p` leaves as it is: all but that port's host side and the shared side. -/
structure ReachesPort (p : Port) (s t : State) : Prop where
  pending : t.pending = s.pending
  array : t.array = s.array
  powered : t.powered = s.powered
  resetPin : t.resetPin = s.resetPin
  host : ∀ q, q ≠ p → t.host q = s.host q

section Reach
variable {p : Port} {s t u : State}

theorem ReachesPort.refl (p : Port) (s : State) : ReachesPort p s s := ⟨rfl, rfl, rfl, rfl, fun _ _ => rfl⟩

theorem ReachesPort.trans (h : ReachesPort p s t) (g : ReachesPort p t u) : ReachesPort p s u :=
  ⟨g.pending.trans h.pending, g.array.trans h.array, g.powered.trans h.powered, g.resetPin.trans h.resetPin,
    fun q hq => (g.host q hq).trans (h.host q hq)⟩

@[simp] theorem reachesPort_self : ReachesPort p s s := .refl p s

@[simp] theorem reachesPort_modifyHost (f : HostPort → HostPort) :
    ReachesPort p s (t.modifyHost p f) ↔ ReachesPort p s t := by
  have hother (q : Port) (hq : q ≠ p) : (t.modifyHost p f).host q = t.host q := modifyHost_host_other t p q f hq
  exact ⟨fun h => ⟨h.pending, h.array, h.powered, h.resetPin, fun q hq => hother q hq ▸ h.host q hq⟩,
    fun h => ⟨h.pending, h.array, h.powered, h.resetPin, fun q hq => (hother q hq).trans (h.host q hq)⟩⟩

@[simp] theorem reachesPort_modifyDev (f : Dev → Dev) : ReachesPort p s (t.modifyDev f) ↔ ReachesPort p s t :=
  ⟨fun h => ⟨h.pending, h.array, h.powered, h.resetPin, h.host⟩,
    fun h => ⟨h.pending, h.array, h.powered, h.resetPin, h.host⟩⟩

@[simp] theorem reachesPort_withDev (d : Dev) : ReachesPort p s { t with dev := d } ↔ ReachesPort p s t :=
  reachesPort_modifyDev (fun _ => d)

@[simp] theorem reachesPort_setOutcome (c n : Byte) (r : Result) :
    ReachesPort p s (t.setOutcome p c r n) ↔ ReachesPort p s t := reachesPort_modifyHost _

@[simp] theorem reachesPort_dropFrameBuffer (b : Option (List Byte)) :
    ReachesPort p s (t.dropFrameBuffer p b) ↔ ReachesPort p s t := reachesPort_modifyDev _

theorem select_reachesPort (s : State) (p : Port) : ReachesPort p s (s.select p) := by
  unfold State.select
  split <;> simp

@[simp] theorem reachesPort_withFrame (c n : Byte) (x : Dev × Result) :
    ReachesPort p s (t.withFrame p c n x) ↔ ReachesPort p s t := by simp [State.withFrame]

theorem endTicketFrame_reachesPort (s : State) (p : Port) (c : Command) (notify : Bool) (command : Byte)
    (b : Option (List Byte)) : ReachesPort p s (s.endTicketFrame p c notify command b) := by
  unfold State.endTicketFrame
  repeat' split
  all_goals simp

/-- R102 steps 4 to 6: whatever a frame's command, its end reaches no further. -/
theorem endCommand_reachesPort (s : State) (p : Port) (c : Command) (notify : Bool) (command : Byte) (bytes : Nat)
    (a : Answer) (b : Option (List Byte)) : ReachesPort p s (s.endCommand p c notify command bytes a b) := by
  unfold State.endCommand
  repeat' split
  all_goals first | exact endTicketFrame_reachesPort _ _ _ _ _ _ | simp

theorem deselect_reachesPort (s : State) (p : Port) : ReachesPort p s (s.deselect p) := by
  unfold State.deselect State.endFrame
  dsimp only
  repeat' split
  case h_4 => exact .trans (by simp) (endCommand_reachesPort _ _ _ _ _ _ _ _)
  all_goals simp

end Reach

/-! ## Bits clocked into a frame -/

/-- What the clocking of bits at port `p` keeps besides: the lines, whether a frame is in progress, and a shifter
without one. -/
structure ClocksFrame (p : Port) (s t : State) : Prop extends ReachesPort p s t where
  selected : (t.host p).selected = (s.host p).selected
  restart : (t.host p).restart = (s.host p).restart
  active : (t.host p).shifter.active = (s.host p).shifter.active
  idle : (s.host p).shifter.active = false → (t.host p).shifter = (s.host p).shifter

section Clocks
variable {p : Port} {s t u : State}

theorem ClocksFrame.refl (p : Port) (s : State) : ClocksFrame p s s := ⟨.refl p s, rfl, rfl, rfl, fun _ => rfl⟩

theorem ClocksFrame.trans (h : ClocksFrame p s t) (g : ClocksFrame p t u) : ClocksFrame p s u :=
  ⟨h.toReachesPort.trans g.toReachesPort, g.selected.trans h.selected, g.restart.trans h.restart,
    g.active.trans h.active, fun hi => (g.idle (h.active.trans hi)).trans (h.idle hi)⟩

theorem modifyDev_clocksFrame (s : State) (f : Dev → Dev) : ClocksFrame p s (s.modifyDev f) :=
  ⟨by simp, rfl, rfl, rfl, fun _ => rfl⟩

/-- While a frame is in progress, its shifter and SOn record may change. -/
theorem modifyHost_clocksFrame {f : HostPort → HostPort} (ha : (s.host p).shifter.active = true)
    (h : (f (s.host p)).selected = (s.host p).selected ∧ (f (s.host p)).restart = (s.host p).restart ∧
      (f (s.host p)).shifter.active = (s.host p).shifter.active) :
    ClocksFrame p s (s.modifyHost p f) := by
  obtain ⟨hs, hr, hf⟩ := h
  exact ⟨by simp, by simpa using hs, by simpa using hr, by simpa using hf, fun hi => by simp [hi] at ha⟩

theorem onByte_clocksFrame (ha : (s.host p).shifter.active = true) (bs : List Byte) (i : Nat) (b : Byte) :
    ClocksFrame p s (s.onByte p bs i b) := by
  have hshifter (t : State) (ht : ClocksFrame p s t) (f : Shifter → Shifter) (hf : ∀ h, (f h).active = h.active) :
      ClocksFrame p s (t.modifyShifter p f) :=
    ht.trans (modifyHost_clocksFrame (ht.active.trans ha) ⟨rfl, rfl, hf _⟩)
  unfold State.onByte
  repeat' split
  all_goals try exact .refl p s
  · unfold State.turnaround
    dsimp only
    split
    · exact (hshifter s (.refl p s) _ (by intro; rfl)).trans (modifyDev_clocksFrame _ _)
    · exact hshifter s (.refl p s) _ (fun _ => rfl)
  · exact modifyDev_clocksFrame s _
  · unfold State.requestFrameBuffer
    dsimp only
    split
    · exact hshifter _ (modifyDev_clocksFrame s _) _ (fun _ => rfl)
    · exact .refl p s
  · exact hshifter s (.refl p s) _ (fun _ => rfl)

theorem byteDone_clocksFrame (ha : (s.host p).shifter.active = true) (b : Byte) :
    ClocksFrame p s (s.byteDone p b) := by
  unfold State.byteDone
  exact (modifyHost_clocksFrame ha ⟨rfl, rfl, rfl⟩).trans (onByte_clocksFrame (by simpa using ha) _ _ _)

theorem clockBytes_clocksFrame (s : State) (p : Port) (bs : List Byte) : ClocksFrame p s (s.clockBytes p bs) := by
  have hfold (bs : List Byte) : ∀ t : State, (t.host p).shifter.active = true →
      ClocksFrame p t (bs.foldl (fun s b => s.byteDone p b) t) := by
    induction bs with
    | nil => exact fun t _ => .refl p t
    | cons b bs ih =>
      intro t ha
      have hb := byteDone_clocksFrame ha b
      exact hb.trans (ih _ (hb.active.trans ha))
  unfold State.clockBytes
  split
  · exact hfold bs s ‹_›
  · exact .refl p s

theorem clockBits_clocksFrame (s : State) (p : Port) (bits : List Bool) : ClocksFrame p s (s.clockBits p bits) := by
  unfold State.clockBits
  split
  · exact modifyHost_clocksFrame ‹_› ⟨rfl, rfl, rfl⟩
  · exact .refl p s

theorem clockTo_clocksFrame (s : State) (p : Port) (all : List Byte) (stray : List Bool) (n : Nat) :
    ClocksFrame p s (s.clockTo p all stray n) :=
  (clockBytes_clocksFrame s p _).trans (clockBits_clocksFrame _ p _)

theorem pause_clocksFrame (s : State) (p : Port) (n : Nat) (high : Bool) : ClocksFrame p s (s.pause p n high) := by
  unfold State.pause
  split
  · exact modifyHost_clocksFrame ‹_› ⟨rfl, rfl, rfl⟩
  · exact .refl p s

end Clocks

/-- A frame command reaches its port's host side and the shared side alone. -/
theorem runFrame_reachesPort {m : String} {p : Port} {frame : List Byte} {k : Clocking} {s t : State}
    (h : runFrame m p frame k s = .next t) : ReachesPort p s t := by
  have hselect := select_reachesPort s p
  obtain ⟨_, rfl | ⟨n, rfl⟩⟩ | ⟨_, ⟨n, j, rfl⟩ | ⟨n, rfl⟩⟩ := runFrame_next h
  · exact ((hselect.trans (clockBytes_clocksFrame _ p _).toReachesPort).trans
      (clockBits_clocksFrame _ p _).toReachesPort).trans (deselect_reachesPort _ p)
  · exact (hselect.trans (clockTo_clocksFrame _ p _ _ _).toReachesPort).trans (pause_clocksFrame _ p _ _).toReachesPort
  · exact (clockTo_clocksFrame s p _ _ _).toReachesPort.trans (pause_clocksFrame _ p _ _).toReachesPort
  · exact (clockTo_clocksFrame s p _ _ _).toReachesPort.trans (deselect_reachesPort _ p)

/-! ## What no command reaches -/

/-- What a command that is no frame leaves as it is, by what it ends or cuts off. -/
structure ReachesNoFurther (i : Instr) (s t : State) : Prop where
  pending : t.pending = s.pending
  array : i.endsOperation = false → t.array = s.array
  host : i.resets = false → ∀ q, i.port ≠ some q → t.host q = s.host q
  supply : i.resets = false → t.powered = s.powered ∧ t.resetPin = s.resetPin

theorem ReachesPort.reachesNoFurther {i : Instr} {p : Port} {s t : State} (h : ReachesPort p s t)
    (hp : i.port = some p) : ReachesNoFurther i s t :=
  ⟨h.pending, fun _ => h.array, fun _ q hq => h.host q (fun e => hq (e ▸ hp)), fun _ => ⟨h.powered, h.resetPin⟩⟩

theorem modifyDev_reachesNoFurther (i : Instr) (s : State) (f : Dev → Dev) : ReachesNoFurther i s (s.modifyDev f) :=
  ⟨rfl, fun _ => rfl, fun _ _ _ => rfl, fun _ => ⟨rfl, rfl⟩⟩

theorem ended_reachesNoFurther {i : Instr} (s : State) (m : Memory) (d : Dev) (hi : i.endsOperation = true) :
    ReachesNoFurther i s { s with array := m, dev := d } :=
  ⟨rfl, fun h => by simp [hi] at h, fun _ _ _ => rfl, fun _ => ⟨rfl, rfl⟩⟩

theorem exec_reachesNoFurther {i : Instr} {s t : State} (h : exec i s = .next t) : ReachesNoFurther i s t := by
  cases hframe : i.frame with
  | some x =>
    obtain ⟨p, bytes, k⟩ := x
    obtain ⟨m, hm⟩ := exec_eq_runFrame s hframe
    have hport : i.port = some p := by
      cases i <;> simp only [Instr.frame, reduceCtorEq, Option.some.injEq, Prod.mk.injEq] at hframe <;>
        exact congrArg some hframe.1
    exact (runFrame_reachesPort (hm ▸ h)).reachesNoFurther hport
  | none =>
    cases i with
    | deviceReset cut =>
      obtain ⟨_, rfl⟩ := execDeviceReset_next h
      exact ⟨rfl, nofun, nofun, nofun⟩
    | resetAssertion cut =>
      obtain ⟨_, rfl⟩ := execResetAssertion_next h
      exact ⟨rfl, nofun, nofun, nofun⟩
    | powerLoss cut =>
      obtain ⟨_, rfl⟩ := execPowerLoss_next h
      exact ⟨rfl, nofun, nofun, nofun⟩
    | hrstAssert p =>
      obtain ⟨_, rfl⟩ | ⟨_, rfl⟩ := execHrstAssert_next h <;>
        exact ReachesPort.reachesNoFurther (p := p) (by simp) rfl
    | hrstRelease p =>
      obtain ⟨_, rfl⟩ := execHrstRelease_next h
      exact ReachesPort.reachesNoFurther (p := p) (by simp) rfl
    | selectRelease p =>
      obtain rfl := execSelectRelease_next h
      exact (deselect_reachesPort s p).reachesNoFurther rfl
    | pageReadComplete =>
      obtain ⟨_, _, _, _, _, rfl⟩ := execPageReadComplete_next h
      exact modifyDev_reachesNoFurther _ _ _
    | pageProgramComplete v =>
      obtain ⟨_, _, _, _, _, _, _, _, rfl⟩ := execPageProgramComplete_next h
      exact ended_reachesNoFurther _ _ _ rfl
    | sectorEraseComplete v =>
      obtain ⟨_, _, rfl⟩ := execSectorEraseComplete_next h
      exact ended_reachesNoFurther _ _ _ rfl
    | eraseParked =>
      obtain ⟨_, rfl⟩ := execEraseParked_next h
      exact modifyDev_reachesNoFurther _ _ _
    | eraseQuantumExpiry =>
      obtain ⟨_, rfl⟩ := execEraseQuantumExpiry_next h
      exact modifyDev_reachesNoFurther _ _ _
    | leaseExpiry p =>
      obtain rfl := execLeaseExpiry_next h
      exact modifyDev_reachesNoFurther _ _ _
    | _ => cases hframe

/-- Settles O22: what a frame leaves alone, and each other command by what it can do. -/
theorem commandsReachNoFurther : Obligations.CommandsReachNoFurther := fun _ _ _ h =>
  have hr := exec_reachesNoFurther h
  ⟨hr.pending, hr.array, hr.host, hr.supply⟩

/-! ## The array's canonical form -/

/-- A step is a microsecond, which reaches the shared side alone, or the front command. -/
theorem step_next {s t : State} (h : step s = .next t) :
    t = s ∨ t = s.modifyDev Dev.microsecond ∨ ∃ c rest, exec c { s with pending := rest } = .next t := by
  unfold step at h
  split at h
  · rcases timePasses_cases s with e | e
    · exact .inl (by rw [e] at h; exact (Host.Outcome.next.inj h).symm)
    · exact .inr (.inl (by rw [e] at h; exact (Host.Outcome.next.inj h).symm))
  · exact .inr (.inr ⟨_, _, h⟩)

theorem exec_wf {i : Instr} {s t : State} (hs : s.array.wf) (h : exec i s = .next t) : t.array.wf := by
  cases hends : i.endsOperation with
  | false => rw [(exec_reachesNoFurther h).array hends]; exact hs
  | true =>
    cases i with
    | deviceReset cut =>
      obtain ⟨hin, rfl⟩ := execDeviceReset_next h
      exact wf_cutOff _ _ _ hs hin
    | resetAssertion cut =>
      obtain ⟨hin, rfl⟩ := execResetAssertion_next h
      exact wf_cutOff _ _ _ hs hin
    | powerLoss cut =>
      obtain ⟨hin, rfl⟩ := execPowerLoss_next h
      exact wf_cutOff _ _ _ hs hin
    | pageProgramComplete v =>
      obtain ⟨sector, page, first, data, _, _, _, hin, rfl⟩ := execPageProgramComplete_next h
      simp only [Operation.inArray, Bool.and_eq_true, decide_eq_true_eq] at hin
      obtain ⟨⟨hsector, hpage⟩, hdata⟩ := hin
      exact wf_programPage _ _ _ _ _ _ hs hsector hpage hdata
    | sectorEraseComplete v =>
      obtain ⟨_, _, rfl⟩ := execSectorEraseComplete_next h
      exact wf_eraseSector _ _ _ hs
    | _ => cases hends

/-- Settles O19: the commands that change the array run its three operations, each of which keeps the form. -/
theorem arrayCanonicalKept : Obligations.ArrayCanonicalKept := by
  intro s t hs h
  obtain rfl | rfl | ⟨c, rest, hc⟩ := step_next h
  · exact hs
  · rw [State.ArrayCanonical, modifyDev_array]
    exact hs
  · exact exec_wf (s := { s with pending := rest }) hs hc

/-! ## Frames in progress -/

/-- R98, R111: one port's clause of State.FramesInProgress. -/
def frameAt (s : State) (p : Port) : Prop :=
  if (s.host p).shifter.active = true then (s.host p).selected = true ∧ s.takesFrames p = true
  else (s.host p).shifter = Shifter.empty

section FrameAt
variable {p : Port} {s t : State}

theorem frameAt_of_empty (h : (s.host p).shifter = Shifter.empty) : frameAt s p := by
  simp [frameAt, h, Shifter.empty]

/-- A port that takes no frames has none in progress. -/
theorem shifter_of_idle (h : frameAt s p) (ht : s.takesFrames p = false) : (s.host p).shifter = Shifter.empty := by
  unfold frameAt at h
  split at h
  · simp [ht] at h
  · exact h

/-- The clause reads one port's host side and the part's lines. -/
theorem frameAt_congr (hh : t.host p = s.host p) (hr : t.outOfReset = s.outOfReset) (h : frameAt s p) : frameAt t p := by
  unfold frameAt State.takesFrames at *
  rw [hh, hr]
  exact h

theorem ReachesPort.outOfReset (h : ReachesPort p s t) : t.outOfReset = s.outOfReset := by
  rw [State.outOfReset, State.outOfReset, h.powered, h.resetPin]

/-- An event at a port that keeps the clause there keeps it at every port. -/
theorem ReachesPort.framesInProgress (h : ReachesPort p s t) (hs : s.FramesInProgress) (hp : frameAt t p) :
    t.FramesInProgress := by
  intro q
  by_cases hq : q = p
  · exact hq ▸ hp
  · exact frameAt_congr (h.host q hq) h.outOfReset (hs q)

theorem ClocksFrame.framesInProgress (h : ClocksFrame p s t) (hs : s.FramesInProgress) : t.FramesInProgress := by
  refine h.toReachesPort.framesInProgress hs ?_
  have hp : frameAt s p := hs p
  cases ha : (s.host p).shifter.active with
  | true =>
    simp only [frameAt, ha, if_true] at hp
    simpa only [frameAt, h.active, ha, h.selected, State.takesFrames, h.outOfReset, h.restart, if_true] using hp
  | false =>
    simp only [frameAt, ha] at hp
    exact frameAt_of_empty ((h.idle ha).trans hp)

theorem select_framesInProgress (p : Port) (hs : s.FramesInProgress) : (s.select p).FramesInProgress := by
  refine (select_reachesPort s p).framesInProgress hs ?_
  have hp : frameAt s p := hs p
  unfold State.select
  split
  next htakes =>
    have hin : s.takesFrames p = true := htakes
    simp only [State.takesFrames] at hin
    simp [frameAt, State.takesFrames, hin]
  next htakes =>
    have hidle := shifter_of_idle hp (by simpa using htakes)
    exact frameAt_of_empty (by simpa using hidle)

/-- R102: whatever a frame's end does, the shifter is empty after it. -/
theorem endCommand_shifter (s : State) (p : Port) (c : Command) (notify : Bool) (command : Byte) (bytes : Nat)
    (a : Answer) (b : Option (List Byte)) :
    ((s.endCommand p c notify command bytes a b).host p).shifter = (s.host p).shifter := by
  unfold State.endCommand State.endTicketFrame
  repeat' split
  all_goals simp [State.setOutcome, State.withFrame, State.dropFrameBuffer, State.host]

theorem deselect_framesInProgress (p : Port) (hs : s.FramesInProgress) : (s.deselect p).FramesInProgress := by
  refine (deselect_reachesPort s p).framesInProgress hs (frameAt_of_empty ?_)
  have hp : frameAt s p := hs p
  unfold State.deselect State.endFrame
  dsimp only
  repeat' split
  case isFalse ha => simpa [frameAt, ha] using hp
  all_goals simp [State.setOutcome, State.dropFrameBuffer, endCommand_shifter]

end FrameAt

theorem runFrame_framesInProgress {m : String} {p : Port} {frame : List Byte} {k : Clocking} {s t : State}
    (hs : s.FramesInProgress) (h : runFrame m p frame k s = .next t) : t.FramesInProgress := by
  have hselect := select_framesInProgress p hs
  obtain ⟨_, rfl | ⟨n, rfl⟩⟩ | ⟨_, ⟨n, j, rfl⟩ | ⟨n, rfl⟩⟩ := runFrame_next h
  · exact deselect_framesInProgress p ((clockBytes_clocksFrame _ p _).trans
      (clockBits_clocksFrame _ p _) |>.framesInProgress hselect)
  · exact (clockTo_clocksFrame _ p _ _ _).trans (pause_clocksFrame _ p _ _) |>.framesInProgress hselect
  · exact (clockTo_clocksFrame s p _ _ _).trans (pause_clocksFrame _ p _ _) |>.framesInProgress hs
  · exact deselect_framesInProgress p ((clockTo_clocksFrame s p _ _ _).framesInProgress hs)

theorem framesInProgress_of_empty {s : State} (h : ∀ p, (s.host p).shifter = Shifter.empty) : s.FramesInProgress :=
  fun p => frameAt_of_empty (h p)

/-- An event of the array or of time reaches no port's host side. -/
theorem exec_framesInProgress_of_no_port {i : Instr} {s t : State} (hs : s.FramesInProgress) (h : exec i s = .next t)
    (hport : i.port = none) (hresets : i.resets = false) : t.FramesInProgress := by
  have hr := exec_reachesNoFurther h
  obtain ⟨hpowered, hpin⟩ := hr.supply hresets
  intro q
  exact frameAt_congr (hr.host hresets q (by simp [hport])) (by rw [State.outOfReset, State.outOfReset, hpowered, hpin])
    (hs q)

theorem exec_framesInProgress {i : Instr} {s t : State} (hs : s.FramesInProgress) (h : exec i s = .next t) :
    t.FramesInProgress := by
  cases hframe : i.frame with
  | some x =>
    obtain ⟨p, bytes, k⟩ := x
    obtain ⟨m, hm⟩ := exec_eq_runFrame s hframe
    exact runFrame_framesInProgress hs (hm ▸ h)
  | none =>
    cases i with
    | deviceReset cut =>
      obtain ⟨_, rfl⟩ := execDeviceReset_next h
      exact framesInProgress_of_empty (fun p => by simp [State.host, HostPort.afterReset])
    | resetAssertion cut =>
      obtain ⟨_, rfl⟩ := execResetAssertion_next h
      exact framesInProgress_of_empty (fun p => by simp [State.host, HostPort.dropFrame])
    | powerLoss cut =>
      obtain ⟨_, rfl⟩ := execPowerLoss_next h
      exact framesInProgress_of_empty (fun p => by simp [State.host, HostPort.afterReset])
    | hrstAssert p =>
      obtain ⟨_, rfl⟩ | ⟨hreset, rfl⟩ := execHrstAssert_next h
      · exact ReachesPort.framesInProgress (p := p) (by simp) hs
          (frameAt_of_empty (by simp [HostPort.restarted]))
      · have hidle := shifter_of_idle (hs p) (by simp [State.takesFrames, hreset])
        exact ReachesPort.framesInProgress (p := p) (by simp) hs (frameAt_of_empty (by simpa using hidle))
    | hrstRelease p =>
      obtain ⟨hlow, rfl⟩ := execHrstRelease_next h
      have hidle := shifter_of_idle (hs p) (by simp [State.takesFrames, hlow])
      exact ReachesPort.framesInProgress (p := p) (by simp) hs (frameAt_of_empty (by simpa using hidle))
    | selectRelease p =>
      obtain rfl := execSelectRelease_next h
      exact deselect_framesInProgress p hs
    | pageReadComplete => exact exec_framesInProgress_of_no_port hs h rfl rfl
    | pageProgramComplete v => exact exec_framesInProgress_of_no_port hs h rfl rfl
    | sectorEraseComplete v => exact exec_framesInProgress_of_no_port hs h rfl rfl
    | eraseParked => exact exec_framesInProgress_of_no_port hs h rfl rfl
    | eraseQuantumExpiry => exact exec_framesInProgress_of_no_port hs h rfl rfl
    | leaseExpiry p => exact exec_framesInProgress_of_no_port hs h rfl rfl
    | _ => cases hframe

/-- Settles O20: each part of a frame keeps the port's clause, and what ends a frame leaves its shifter empty. -/
theorem framesInProgressKept : Obligations.FramesInProgressKept := by
  intro s t hs h
  obtain rfl | rfl | ⟨c, rest, hc⟩ := step_next h
  · exact hs
  · exact (modifyDev_clocksFrame (p := .p0) s _).framesInProgress hs
  · exact exec_framesInProgress (s := { s with pending := rest }) hs hc

end Sys2Proof.Proofs

/-!
PROOF. The ring's numbers (R115): the numbers in the order of the counter, and the first free one among them.
-/

namespace Sys2Proof.Proofs

set_option Elab.async false

open Sys2Proof Sys2Proof.Machine Sys2Proof.Laws

/-! ## The numbers in the order of the counter -/

theorem nextNumberAfter_ne_zero (n : Byte) : nextNumberAfter n ≠ 0 := by
  unfold nextNumberAfter
  split
  · decide
  · next h => intro h0; exact h (by bv_omega)

/-- R115: from 1 on the counter runs through the 255 numbers in a circle. -/
theorem toNat_nextNumberAfter {n : Byte} (h : n ≠ 0) : (nextNumberAfter n).toNat = n.toNat % 255 + 1 := by
  have hlt := n.isLt
  unfold nextNumberAfter
  split
  next h255 => subst h255; rfl
  next h255 => bv_omega

theorem toNat_iterate_nextNumberAfter {n : Byte} (h : n ≠ 0) (j : Nat) :
    nextNumberAfter^[j] n ≠ 0 ∧ (nextNumberAfter^[j] n).toNat = (n.toNat - 1 + j) % 255 + 1 := by
  induction j with
  | zero =>
    have h1 : 1 ≤ n.toNat ∧ n.toNat < 256 := by bv_omega
    exact ⟨h, by simp only [Function.iterate_zero, id_eq]; omega⟩
  | succ j ih =>
    obtain ⟨hne, hval⟩ := ih
    rw [Function.iterate_succ_apply']
    refine ⟨nextNumberAfter_ne_zero _, ?_⟩
    rw [toNat_nextNumberAfter hne, hval]
    omega

theorem iterate_nextNumberAfter_injOn {n : Byte} (h : n ≠ 0) {i j : Nat} (hi : i < 255) (hj : j < 255)
    (hij : nextNumberAfter^[i] n = nextNumberAfter^[j] n) : i = j := by
  have hval := congrArg BitVec.toNat hij
  rw [(toNat_iterate_nextNumberAfter h i).2, (toNat_iterate_nextNumberAfter h j).2] at hval
  omega

/-! ## The first free number -/

/-- R115: the count passes over the numbers that the ring carries, and ends at one it does not carry or with its
fuel. -/
theorem freeNumber_eq_iterate (ring : List Ticket) (fuel : Nat) (n : Byte) :
    ∃ k, k ≤ fuel ∧ freeNumber ring fuel n = nextNumberAfter^[k] n ∧
      (∀ j, j < k → ∃ t ∈ ring, t.number = nextNumberAfter^[j] n) ∧
      (k < fuel → ∀ t ∈ ring, t.number ≠ nextNumberAfter^[k] n) := by
  induction fuel generalizing n with
  | zero => exact ⟨0, Nat.le_refl _, rfl, by omega, by omega⟩
  | succ fuel ih =>
    by_cases hcarried : ring.any (fun t => t.number == n) = true
    · obtain ⟨k, hk, hfree, hbefore, hlast⟩ := ih (nextNumberAfter n)
      refine ⟨k + 1, by omega, by simp only [freeNumber, hcarried, if_true]; exact hfree, fun j hj => ?_,
        fun hlt => hlast (by omega)⟩
      cases j with
      | zero => simpa using hcarried
      | succ j => exact hbefore j (by omega)
    · refine ⟨0, by omega, by simp [freeNumber, hcarried], by omega, fun _ => ?_⟩
      simpa using hcarried

/-- Numbers that a ring carries, all different, are no more than its tickets. -/
theorem le_length_of_carried (ring : List Ticket) {n : Byte} (h : n ≠ 0) {k : Nat} (hk : k ≤ 255)
    (hcarried : ∀ j, j < k → ∃ t ∈ ring, t.number = nextNumberAfter^[j] n) : k ≤ ring.length := by
  have hsub : (Finset.range k).image (fun j => nextNumberAfter^[j] n) ⊆ (ring.map (fun t => t.number)).toFinset := by
    intro b hb
    obtain ⟨j, hj, rfl⟩ := Finset.mem_image.mp hb
    simpa using hcarried j (Finset.mem_range.mp hj)
  have hinj : Set.InjOn (fun j => nextNumberAfter^[j] n) (Finset.range k) := by
    intro i hi j hj hij
    have hi' := Finset.mem_range.mp hi
    have hj' := Finset.mem_range.mp hj
    exact iterate_nextNumberAfter_injOn h (by omega) (by omega) hij
  calc k = ((Finset.range k).image (fun j => nextNumberAfter^[j] n)).card := by
        rw [Finset.card_image_of_injOn hinj, Finset.card_range]
    _ ≤ (ring.map (fun t => t.number)).toFinset.card := Finset.card_le_card hsub
    _ ≤ (ring.map (fun t => t.number)).length := List.toFinset_card_le _
    _ = ring.length := List.length_map _

/-- R115: a ring of up to 8 tickets has a free number within 9 of the counter's. -/
theorem assignNumber_spec (d : Dev) (p : Port) (hring : (d.ring p).length ≤ 8) (hnext : (d.port p).nextNumber ≠ 0) :
    ∃ k, k ≤ 8 ∧ d.assignNumber p = nextNumberAfter^[k] (d.port p).nextNumber ∧
      (∀ j, j < k → ∃ t ∈ d.ring p, t.number = nextNumberAfter^[j] (d.port p).nextNumber) ∧
      ∀ t ∈ d.ring p, t.number ≠ d.assignNumber p := by
  obtain ⟨k, _, hfree, hbefore, hlast⟩ := freeNumber_eq_iterate (d.ring p) 256 (d.port p).nextNumber
  have hk : k ≤ 8 := by
    by_contra hlt
    have := le_length_of_carried (d.ring p) hnext (k := 9) (by omega) (fun j hj => hbefore j (by omega))
    omega
  refine ⟨k, hk, hfree, hbefore, ?_⟩
  rw [Dev.assignNumber, hfree]
  exact hlast (by omega)

theorem assignNumber_free {d : Dev} {p : Port} (hring : (d.ring p).length ≤ 8) (hnext : (d.port p).nextNumber ≠ 0) :
    ∀ t ∈ d.ring p, t.number ≠ d.assignNumber p :=
  let ⟨_, _, _, _, hfree⟩ := assignNumber_spec d p hring hnext
  hfree

/-- R115: the counter and the ring after a ticket's placing. -/
theorem place_port (d : Dev) (p : Port) (t : Ticket) :
    (d.place p t).port p = { d.port p with ring := d.ring p ++ [t], nextNumber := nextNumberAfter t.number } :=
  modifyPort_port_same _ _ _

/-- Settles O15: the count from the counter's number ends within 9 steps, and the counter's numbers are never 0. -/
theorem ticketNumberAssigned : Obligations.TicketNumberAssigned := by
  intro d p hring hnext
  obtain ⟨k, hk, hfree, hbefore, hnew⟩ := assignNumber_spec d p hring hnext
  refine ⟨⟨k, hk, hfree, hbefore⟩, hnew, ?_, fun t => ⟨?_, ?_⟩⟩
  · rw [hfree]
    exact (toNat_iterate_nextNumberAfter hnext k).1
  · rw [place_port]
    rfl
  · rw [Dev.ring, place_port]

end Sys2Proof.Proofs

/-!
PROOF. The capacities of rings and event queues (R114, R115, R174, R176): each operation of the shared side keeps
them, block by block in the model's order, and so does every step.
-/

namespace Sys2Proof.Proofs

set_option Elab.async false

open Sys2Proof Sys2Proof.Machine Sys2Proof.Laws

/-- R114, R115, R174: what State.WithinCapacity asks of one port. -/
def PortWithin (q : PortState) : Prop :=
  q.ring.length ≤ 8 ∧ (q.ring.map (fun t => t.number)).Nodup ∧ q.events.records.length ≤ 16 ∧ q.nextNumber ≠ 0

/-- What it asks of all three. -/
def PortsWithin (v : PerPort PortState) : Prop := ∀ p, PortWithin (v.get p)

/-- What it asks of the shared side. -/
def DevWithin (d : Dev) : Prop := PortsWithin d.ports

theorem withinCapacity_iff (s : State) : s.WithinCapacity ↔ DevWithin s.dev := Iff.rfl

/-! ## Operations that reach no port's ring, queue or counter -/

section Unreached
variable {d : Dev} {p : Port}

theorem within_iff_of_ports {e : Dev} (h : e.ports = d.ports) : DevWithin e ↔ DevWithin d := by
  rw [DevWithin, DevWithin, h]

@[simp] theorem portsWithin_ports : PortsWithin d.ports ↔ DevWithin d := Iff.rfl

@[simp] theorem within_mk {phase : Phase} {formatted : Bool} {ports : PerPort PortState} {pool : Pool} {table : Table}
    {reservations : List Reservation} {verify : VerifyUnit} {engine : Engine} {writer : Writer} {mount : Mount} :
    DevWithin ⟨phase, formatted, ports, pool, table, reservations, verify, engine, writer, mount⟩ ↔
      PortsWithin ports := Iff.rfl

@[simp] theorem within_setClaim {i : Nat} {serial : Word32} {c : Claim} :
    DevWithin (d.setClaim i serial c) ↔ DevWithin d := by
  unfold Dev.setClaim
  split <;> rfl

@[simp] theorem within_giveBufferIf {held : Bool} : DevWithin (d.giveBufferIf p held) ↔ DevWithin d := by
  cases held <;> rfl

@[simp] theorem within_setEntry {i : Nat} {e : Entry} : DevWithin (d.setEntry i e) ↔ DevWithin d := Iff.rfl
@[simp] theorem within_giveBuffer : DevWithin (d.giveBuffer p) ↔ DevWithin d := Iff.rfl
@[simp] theorem within_takeBuffer : DevWithin (d.takeBuffer p) ↔ DevWithin d := Iff.rfl
@[simp] theorem within_dropReservation : DevWithin (d.dropReservation p) ↔ DevWithin d := Iff.rfl
@[simp] theorem within_enqueue {r : Request} : DevWithin (d.enqueue r) ↔ DevWithin d := Iff.rfl
@[simp] theorem within_releaseVerify : DevWithin d.releaseVerify ↔ DevWithin d := Iff.rfl
@[simp] theorem within_modifyEngine {f : Engine → Engine} : DevWithin (d.modifyEngine f) ↔ DevWithin d := Iff.rfl
@[simp] theorem within_modifyWriter {f : Writer → Writer} : DevWithin (d.modifyWriter f) ↔ DevWithin d := Iff.rfl
@[simp] theorem within_modifyMount {f : Mount → Mount} : DevWithin (d.modifyMount f) ↔ DevWithin d := Iff.rfl
@[simp] theorem within_issueVerify {t : Ticket} : DevWithin (d.issueVerify p t) ↔ DevWithin d := Iff.rfl
@[simp] theorem within_issueErase {m : Member} {sector : Nat} {r : Requester} :
    DevWithin (d.issueErase m sector r) ↔ DevWithin d := Iff.rfl
@[simp] theorem within_issueRead {m : Member} {sector page : Nat} {r : Requester} :
    DevWithin (d.issueRead m sector page r) ↔ DevWithin d := Iff.rfl
@[simp] theorem within_issueProgram {m : Member} {sector page first : Nat} {data : List Byte} {r : Requester} :
    DevWithin (d.issueProgram m sector page first data r) ↔ DevWithin d := Iff.rfl
@[simp] theorem within_noCurrent : DevWithin d.noCurrent ↔ DevWithin d := Iff.rfl
@[simp] theorem within_park {e : EraseOp} : DevWithin (d.park e) ↔ DevWithin d := Iff.rfl

@[simp] theorem within_resumeErase : DevWithin d.resumeErase ↔ DevWithin d := by
  unfold Dev.resumeErase
  split <;> rfl

@[simp] theorem within_beginFold : DevWithin d.beginFold ↔ DevWithin d := by
  unfold Dev.beginFold
  split <;> rfl

@[simp] theorem within_decideHalf : DevWithin d.decideHalf ↔ DevWithin d := by
  unfold Dev.decideHalf
  split <;> rfl

@[simp] theorem within_countPage {c : PageClass} : DevWithin (d.countPage c) ↔ DevWithin d := by
  unfold Dev.countPage
  repeat' split
  all_goals rfl

@[simp] theorem within_loadingRead {page : List Byte} : DevWithin (d.loadingRead page) ↔ DevWithin d := by
  unfold Dev.loadingRead
  dsimp only
  split <;> rfl

@[simp] theorem within_replayPage {q : Word32} {k : Byte} {page : List Byte} :
    DevWithin (d.replayPage q k page) ↔ DevWithin d := by
  unfold Dev.replayPage
  dsimp only
  repeat' split
  all_goals rfl

end Unreached

/-! ## The primitive operations -/

section Primitives
variable {d : Dev} {p : Port}

theorem within_append {q : EventQueue} (h : q.records.length ≤ 16) (e : Event) : (q.append e).records.length ≤ 16 := by
  unfold EventQueue.append Config.eventQueueSize
  split
  · simp only [List.length_append, List.length_singleton]
    omega
  · exact h

theorem within_insert (q sent : EventQueue) (place : Nat) : (q.insert place sent).records.length ≤ 16 :=
  List.length_take_le _ _

/-- Every change of a port that keeps its capacities keeps them for all. -/
theorem within_modifyPort {f : PortState → PortState} (h : DevWithin d)
    (hf : PortWithin (d.port p) → PortWithin (f (d.port p))) : DevWithin (d.modifyPort p f) := by
  intro q
  have hq : (d.modifyPort p f).ports.get q = (d.modifyPort p f).port q := rfl
  rw [hq, modifyPort_port]
  split
  · exact hf (h p)
  · exact h q

/-- A change of a port that leaves its ring, its counter and its queue's records. -/
@[simp] theorem within_modifyPort_same {f : PortState → PortState} (h : DevWithin d)
    (hr : (f (d.port p)).ring = (d.port p).ring) (hn : (f (d.port p)).nextNumber = (d.port p).nextNumber)
    (he : (f (d.port p)).events.records = (d.port p).events.records) : DevWithin (d.modifyPort p f) := by
  refine within_modifyPort h (fun hp => ?_)
  rw [PortWithin, hr, hn, he]
  exact hp

/-- A change of a port's ring to another of no more tickets whose numbers stood there in that order. -/
theorem within_setRing {r : List Ticket} (h : DevWithin d)
    (hr : (r.map (fun t => t.number)).Sublist ((d.ring p).map (fun t => t.number))) :
    DevWithin (d.setRing p r) := by
  refine within_modifyPort h (fun hp => ?_)
  obtain ⟨hlength, hnodup, hevents, hnext⟩ := hp
  have hle := hr.length_le
  simp only [List.length_map] at hle
  exact ⟨hle.trans hlength, hr.nodup hnodup, hevents, hnext⟩

/-- A change of the tickets of one number that leaves them that number. -/
theorem within_modifyTicket_of {n : Byte} {f : Ticket → Ticket} (h : DevWithin d)
    (hf : ∀ t, t.number = n → (f t).number = n) : DevWithin (d.modifyTicket p n f) := by
  refine within_setRing h ?_
  have hmap : ((d.ring p).map (fun t => if t.number == n then f t else t)).map (fun t => t.number) =
      (d.ring p).map (fun t => t.number) := by
    rw [List.map_map]
    refine List.map_congr_left (fun t _ => ?_)
    simp only [Function.comp_apply]
    split
    next hn => rw [hf t (by simpa using hn)]; exact (by simpa using hn : t.number = n).symm
    next => rfl
  rw [hmap]

@[simp] theorem within_modifyTicket {n : Byte} {f : Ticket → Ticket} (h : DevWithin d)
    (hf : ∀ t, (f t).number = t.number) : DevWithin (d.modifyTicket p n f) :=
  within_modifyTicket_of h (fun t ht => (hf t).trans ht)

@[simp] theorem within_removeTicket {n : Byte} (h : DevWithin d) : DevWithin (d.removeTicket p n) :=
  within_setRing h (List.filter_sublist.map _)

@[simp] theorem within_send {e : Event} (h : DevWithin d) : DevWithin (d.send p e) :=
  within_modifyPort h (fun ⟨hlength, hnodup, hevents, hnext⟩ => ⟨hlength, hnodup, within_append hevents e, hnext⟩)

theorem within_setEvents {q : EventQueue} (h : DevWithin d) (hq : q.records.length ≤ 16) :
    DevWithin (d.setEvents p q) :=
  within_modifyPort h (fun ⟨hlength, hnodup, _, hnext⟩ => ⟨hlength, hnodup, hq, hnext⟩)

/-- R110: a ticket of a number the ring does not carry joins a ring with room. -/
theorem within_place {t : Ticket} (h : DevWithin d) (hroom : (d.ring p).length < 8)
    (hfree : ∀ u ∈ d.ring p, u.number ≠ t.number) : DevWithin (d.place p t) := by
  refine within_modifyPort h (fun ⟨_, hnodup, hevents, _⟩ => ⟨?_, ?_, hevents, nextNumberAfter_ne_zero _⟩)
  · simp only [List.length_append, List.length_singleton]
    exact hroom
  · simp only [List.map_append, List.map_cons, List.map_nil, List.nodup_append, hnodup, List.nodup_singleton, true_and]
    intro a ha b hb hab
    obtain ⟨u, hu, rfl⟩ := List.mem_map.mp ha
    exact hfree u hu (hab.trans (List.mem_singleton.mp hb))

theorem within_forEach {α : Type} {xs : List α} {f : α → Dev → Dev} (h : DevWithin d)
    (hf : ∀ x e, DevWithin e → DevWithin (f x e)) : DevWithin (d.forEach xs f) := by
  unfold Dev.forEach
  induction xs generalizing d with
  | nil => exact h
  | cons x xs ih => exact ih (hf x d h)

end Primitives

/-! ## Events of changes -/

section Changes
variable {d : Dev} {p : Port}

@[simp] theorem within_sendTo {ps : List Port} {e : Event} (h : DevWithin d) :
    DevWithin (d.sendTo ps e) := within_forEach h (fun _ _ hd => within_send hd)

@[simp] theorem within_sendLiveChanged {i : Nat} (h : DevWithin d) : DevWithin (d.sendLiveChanged i) :=
  within_sendTo h

@[simp] theorem within_sendReverts {before : Table} (h : DevWithin d) :
    DevWithin (d.sendReverts before p) := by
  refine within_forEach h (fun i e he => ?_)
  split
  · exact within_sendLiveChanged he
  · exact he

@[simp] theorem within_tickInMemory {n : Nat} (h : DevWithin d) : DevWithin (d.tickInMemory p n) :=
  within_sendReverts (d := { d with table := _ }) h

@[simp] theorem within_sendChangeEvents {before : Table} {c : Change} (h : DevWithin d) :
    DevWithin (d.sendChangeEvents before c) := by
  cases c <;> simp [Dev.sendChangeEvents, h]

@[simp] theorem within_setTick {b : Bool} (h : DevWithin d) : DevWithin (d.setTick p b) :=
  within_modifyPort_same h rfl rfl rfl

@[simp] theorem within_finishTick (h : DevWithin d) : DevWithin (d.finishTick p) := by
  unfold Dev.finishTick
  split <;> simp [h]

end Changes

/-! ## Tickets -/

section Tickets
variable {d : Dev} {p : Port}

@[simp] theorem within_endTicket {n : Byte} {st : TicketState} {r : Result} (h : DevWithin d) :
    DevWithin (d.endTicket p n st r) := by
  unfold Dev.endTicket
  split
  · exact h
  · split
    · exact within_removeTicket (within_giveBufferIf.2 h)
    next t _ _ =>
      have hended (held : Bool) (b : Ticket → Option (List Byte)) :=
        within_modifyTicket (n := n) (p := p) (f := fun t => { t with state := st, result := r, buffer := b t })
          ((within_giveBufferIf (held := held) (p := p)).2 h) (fun _ => rfl)
      dsimp only
      split
      · exact within_send (hended _ _)
      · exact hended _ _

@[simp] theorem within_handOver {n : Byte} {body : RequestBody} (h : DevWithin d) :
    DevWithin (d.handOver p n body) := by simp [Dev.handOver, h]

@[simp] theorem within_beginWork {t : Ticket} (h : DevWithin d) : DevWithin (d.beginWork p t) := by
  unfold Dev.beginWork
  dsimp only
  repeat' split
  all_goals simp [h]

@[simp] theorem within_startTicket {t : Ticket} (h : DevWithin d) : DevWithin (d.startTicket p t) := by
  unfold Dev.startTicket
  split <;> simp [h]

theorem within_wake {fuel : Nat} (h : DevWithin d) : DevWithin (Dev.wake fuel d p) := by
  induction fuel generalizing d with
  | zero => exact h
  | succ fuel ih =>
    unfold Dev.wake
    split
    · split
      · exact ih (within_startTicket h)
      · exact h
    · exact h

@[simp] theorem within_wakePort (h : DevWithin d) : DevWithin (d.wakePort p) := within_wake h

@[simp] theorem within_finishTicket {n : Byte} {st : TicketState} {r : Result} (h : DevWithin d) :
    DevWithin (d.finishTicket p n st r) := by simp [Dev.finishTicket, h]

@[simp] theorem within_endClaim {t : Ticket} {st : TicketState} {r : Result} (h : DevWithin d) :
    DevWithin (d.endClaim p t st r) := by simp [Dev.endClaim, h]

end Tickets

/-! ## The Scheduler -/

section Scheduler
variable {d : Dev} {p : Port}

@[simp] theorem within_running {n : Byte} (h : DevWithin d) : DevWithin (d.running p n) := by
  simp [Dev.running, h]

@[simp] theorem within_takeRead {t : Ticket} (h : DevWithin d) : DevWithin (d.takeRead p t) := by
  unfold Dev.takeRead
  dsimp only
  split
  · split
    · exact within_finishTicket h
    · exact within_issueRead.2 (within_modifyTicket (within_running h) (fun _ => rfl))
  · exact h

@[simp] theorem within_takeVerify {t : Ticket} (h : DevWithin d) : DevWithin (d.takeVerify p t) := by
  unfold Dev.takeVerify
  dsimp only
  repeat' split
  · simp [h]
  · exact within_issueVerify.2 (within_running (within_setClaim.2 h))
  · simp [h]

@[simp] theorem within_takeProgram {t : Ticket} (h : DevWithin d) : DevWithin (d.takeProgram p t) := by
  unfold Dev.takeProgram
  dsimp only
  repeat' split
  all_goals simp [h]

theorem within_takeEraseOfErase {t : Ticket} {first : Half16} (h : DevWithin d) :
    DevWithin (d.takeEraseOfErase p t first) := by
  unfold Dev.takeEraseOfErase
  dsimp only
  repeat' split
  all_goals simp [h]

theorem within_takeEraseOfClaim {t : Ticket} (h : DevWithin d) : DevWithin (d.takeEraseOfClaim p t) := by
  unfold Dev.takeEraseOfClaim
  dsimp only
  repeat' split
  case isFalse => exact within_issueErase.2 (within_running (within_setClaim.2 h))
  all_goals simp [h]

theorem within_takeScrub {t : Ticket} {base : Half16} (h : DevWithin d) : DevWithin (d.takeScrub p t base) := by
  unfold Dev.takeScrub
  dsimp only
  repeat' split
  all_goals simp [h]

theorem within_takePortErase {t : Ticket} (h : DevWithin d) : DevWithin (d.takePortErase p t) := by
  cases hk : t.kind <;> simp only [Dev.takePortErase, hk]
  case erase => exact within_takeEraseOfErase h
  case claim => exact within_takeEraseOfClaim h
  case define => exact within_takeScrub h
  all_goals exact h

/-- What a choice does: it changes the engine, or takes the operation of a ticket. -/
theorem perform_cases (d : Dev) (c : Choice) :
    (∃ f, d.perform c = d.modifyEngine f) ∨
      ∃ p t, d.perform c = d.takeRead p t ∨ d.perform c = d.takeVerify p t ∨ d.perform c = d.takeProgram p t ∨
        d.perform c = d.takePortErase p t := by
  have hnone : ∃ f, d = d.modifyEngine f := ⟨id, rfl⟩
  cases c with
  | record =>
    cases h : d.recordReady with
    | none => exact .inl (by simpa only [Dev.perform, h] using hnone)
    | some x => exact .inl ⟨_, by simp only [Dev.perform, h]; rfl⟩
  | resume =>
    cases h : d.engine.parked with
    | none => exact .inl (by simpa only [Dev.perform, Dev.resumeErase, h] using hnone)
    | some e => exact .inl ⟨_, by simp only [Dev.perform, Dev.resumeErase, h]; rfl⟩
  | read m =>
    cases m with
    | system => exact .inl ⟨fun e => { e with current := some (.read _ _ _ 0), readPointer := _ }, rfl⟩
    | port p =>
      cases h : d.readCandidate p with
      | some t => exact .inr ⟨p, t, .inl (by simp only [Dev.perform, h])⟩
      | none =>
        cases h' : d.verifyCandidate p with
        | some t => exact .inr ⟨p, t, .inr (.inl (by simp only [Dev.perform, h, h']))⟩
        | none => exact .inl (by simpa only [Dev.perform, h, h'] using hnone)
  | program m =>
    cases m with
    | system => exact .inl hnone
    | port p =>
      cases h : d.programCandidate p with
      | some t => exact .inr ⟨p, t, .inr (.inr (.inl (by simp only [Dev.perform, h])))⟩
      | none => exact .inl (by simpa only [Dev.perform, h] using hnone)
  | erase m =>
    cases m with
    | system =>
      cases h : d.systemErase with
      | none => exact .inl (by simpa only [Dev.perform, h] using hnone)
      | some x =>
        exact .inl ⟨fun e => { e with current := some (issuedErase x.1 x.2), erasePointer := .system }, by
          simp only [Dev.perform, h]; rfl⟩
    | port p =>
      cases h : d.eraseCandidate p with
      | some t => exact .inr ⟨p, t, .inr (.inr (.inr (by simp only [Dev.perform, h])))⟩
      | none => exact .inl (by simpa only [Dev.perform, h] using hnone)

@[simp] theorem within_perform {c : Choice} (h : DevWithin d) : DevWithin (d.perform c) := by
  obtain ⟨f, hf⟩ | ⟨p, t, hf | hf | hf | hf⟩ := perform_cases d c <;> rw [hf]
  · exact within_modifyEngine.2 h
  · exact within_takeRead h
  · exact within_takeVerify h
  · exact within_takeProgram h
  · exact within_takePortErase h

/-- R174, R176: records that enter a queue at their place leave it within its capacity. -/
theorem within_takeChoice {after : Dev → Dev} {turn : Nat} {released : List Released} {c : Choice}
    (hafter : ∀ e, DevWithin e → DevWithin (after e)) (h : DevWithin d) :
    DevWithin (Dev.takeChoice after turn released d c).1 := by
  have hact (e : Dev) (he : DevWithin e) : DevWithin (after (e.perform c)) :=
    hafter _ (within_perform he)
  unfold Dev.takeChoice
  dsimp only
  split
  · exact within_setEvents (hact _ (within_setEvents h (Nat.zero_le _))) (within_insert _ _ _)
  · exact hact d h

theorem within_choices {after : Dev → Dev} (hafter : ∀ e, DevWithin e → DevWithin (after e))
    {fuel turn : Nat} {released : List Released} (h : DevWithin d) :
    DevWithin (Dev.choices after fuel turn released d) := by
  induction fuel generalizing turn released d with
  | zero => exact h
  | succ fuel ih =>
    unfold Dev.choices
    split
    · exact h
    · split
      · exact h
      · exact ih (within_takeChoice hafter h)

end Scheduler

/-! ## The Journal Writer -/

section Journal
variable {d : Dev} {p : Port}

@[simp] theorem within_failRequest {n : Byte} {body : RequestBody} {r : Result} (h : DevWithin d) :
    DevWithin (d.failRequest p n body r) := by
  unfold Dev.failRequest
  cases body <;> simp [h]

@[simp] theorem within_journalDead (h : DevWithin d) : DevWithin d.journalDead := by
  unfold Dev.journalDead
  refine within_choices (fun _ he => he) (within_forEach (within_forEach (within_sendTo h) ?_) ?_)
  all_goals
    intro r e he
    cases r <;> simp [he]

@[simp] theorem within_formRecord {r : Request} {rest : List Request} {c : Change} (h : DevWithin d) :
    DevWithin (d.formRecord r rest c) := by
  unfold Dev.formRecord
  split <;> simp [h]

@[simp] theorem within_takeOne {r : Request} {rest : List Request} (h : DevWithin d) :
    DevWithin (d.takeOne r rest) := by
  unfold Dev.takeOne
  repeat' split
  all_goals simp [h]

theorem within_takeRequests {fuel : Nat} (h : DevWithin d) : DevWithin (Dev.takeRequests fuel d) := by
  induction fuel generalizing d with
  | zero => exact h
  | succ fuel ih =>
    unfold Dev.takeRequests
    repeat' split
    · exact h
    · exact ih (within_takeOne h)
    · exact h

@[simp] theorem within_takeAll (h : DevWithin d) : DevWithin d.takeAll := within_takeRequests h

@[simp] theorem within_formCheckpoint {capture : Table} {slot : Nat} (h : DevWithin d) :
    DevWithin (d.formCheckpoint capture slot) := by
  unfold Dev.formCheckpoint
  split <;> simp [h]

@[simp] theorem within_beginWriting (h : DevWithin d) : DevWithin d.beginWriting :=
  within_formCheckpoint h

@[simp] theorem within_checkpointDone {capture : Table} {slot : Nat} (h : DevWithin d) :
    DevWithin (d.checkpointDone capture slot) := by
  unfold Dev.checkpointDone
  split <;> simp [h]

@[simp] theorem within_foldFailed {checkpoint : Bool} (h : DevWithin d) :
    DevWithin (d.foldFailed checkpoint) := by
  unfold Dev.foldFailed
  split <;> simp [h]

@[simp] theorem within_foldErased {i : Nat} (h : DevWithin d) : DevWithin (d.foldErased i) := by
  unfold Dev.foldErased
  dsimp only
  repeat' split
  all_goals simp [h]

@[simp] theorem within_foldEraseDone {ok : Bool} (h : DevWithin d) : DevWithin (d.foldEraseDone ok) := by
  unfold Dev.foldEraseDone
  repeat' split
  all_goals simp [h]

@[simp] theorem within_dropBoundary {t : Ticket} (h : DevWithin d) : DevWithin (d.dropBoundary p t) := by
  unfold Dev.dropBoundary
  repeat' split
  all_goals simp [h]

@[simp] theorem within_requesterDone {i : InHand} (h : DevWithin d) : DevWithin (d.requesterDone i) := by
  unfold Dev.requesterDone
  dsimp only
  repeat' split
  all_goals simp [h]

@[simp] theorem within_afterRecord (h : DevWithin d) : DevWithin d.afterRecord := by
  unfold Dev.afterRecord
  split <;> simp [h]

theorem within_recordDone {i : InHand} (h : DevWithin d) : DevWithin (d.recordDone i) :=
  within_afterRecord (within_modifyWriter.2 (within_requesterDone (within_sendChangeEvents h)))

theorem within_recordFailed {i : InHand} (h : DevWithin d) : DevWithin (d.recordFailed i) := by
  unfold Dev.recordFailed
  dsimp only
  repeat' split
  all_goals simp [h]

@[simp] theorem within_journalProgramDone {ok : Bool} (h : DevWithin d) :
    DevWithin (d.journalProgramDone ok) := by
  unfold Dev.journalProgramDone
  repeat' split
  all_goals simp [h, within_recordDone, within_recordFailed]

end Journal

/-! ## The end of an event -/

section Settle
variable {d : Dev} {p : Port}

@[simp] theorem within_requestSuspension (h : DevWithin d) : DevWithin d.requestSuspension := by
  unfold Dev.requestSuspension
  repeat' split
  all_goals simp [h]

@[simp] theorem within_expireLease (h : DevWithin d) : DevWithin (d.expireLease p) := by
  refine within_forEach (within_modifyPort_same h rfl rfl rfl) (fun i e he => ?_)
  dsimp only
  split
  · exact within_send he
  · exact he

@[simp] theorem within_checkLeases (h : DevWithin d) : DevWithin d.checkLeases := by
  refine within_forEach h (fun q e he => ?_)
  unfold Dev.checkLease
  split <;> simp [he]

@[simp] theorem within_settle {former : Dev} (h : DevWithin d) : DevWithin (Dev.settle former d) :=
  within_checkLeases (within_requestSuspension (within_choices (fun _ he => within_takeAll he) (within_takeAll h)))

end Settle

/-! ## Mounting -/

section Mounting
variable {d : Dev} {p : Port}

@[simp] theorem within_mountServing (h : DevWithin d) : DevWithin d.mountServing :=
  within_beginFold.2 (within_sendTo h)

@[simp] theorem within_mountDegraded (h : DevWithin d) : DevWithin d.mountDegraded :=
  within_journalDead h

@[simp] theorem within_formatEraseDone {ok : Bool} (h : DevWithin d) :
    DevWithin (d.formatEraseDone ok) := by
  unfold Dev.formatEraseDone Dev.formFormatting
  repeat' split
  all_goals simp [h]

@[simp] theorem within_formatProgramDone {ok : Bool} (h : DevWithin d) :
    DevWithin (d.formatProgramDone ok) := by
  unfold Dev.formatProgramDone Dev.formFormatting
  repeat' split
  all_goals simp [h]

@[simp] theorem within_choosingRead {c : PageClass} {page : List Byte} (h : DevWithin d) :
    DevWithin (d.choosingRead c page) := by
  unfold Dev.choosingRead
  dsimp only
  repeat' split
  all_goals simp [h]

@[simp] theorem within_endReplay (h : DevWithin d) : DevWithin d.endReplay :=
  within_mountServing (within_modifyWriter.2 h)

@[simp] theorem within_replayingRead {c : PageClass} {page : List Byte} (h : DevWithin d) :
    DevWithin (d.replayingRead c page) := by
  unfold Dev.replayingRead
  dsimp only
  repeat' split
  all_goals simp [h]

@[simp] theorem within_mountReadDone {page : List Byte} (h : DevWithin d) :
    DevWithin (d.mountReadDone page) := by
  unfold Dev.mountReadDone
  dsimp only
  split <;> simp [h]

end Mounting

/-! ## Completions -/

section Completions
variable {d : Dev} {p : Port}

/-- The ticket that a number names carries it. -/
theorem number_of_ticket {n : Byte} {t : Ticket} (h : d.ticket p n = some t) : t.number = n := by
  have := List.find?_some h
  simpa using this

@[simp] theorem within_readTicketDone {n : Byte} {page : List Byte} (h : DevWithin d) :
    DevWithin (d.readTicketDone p n page) := by simp [Dev.readTicketDone, h]

@[simp] theorem within_endVerify {t : Ticket} {c : Claim} {st : TicketState} {r : Result} (h : DevWithin d) :
    DevWithin (d.endVerify p t c st r) := by simp [Dev.endVerify, h]

theorem within_verifyBoundary {t : Ticket} {length check : Word32} {budget : BitVec 4} (h : DevWithin d) :
    DevWithin (d.verifyBoundary p t length check budget) := by
  unfold Dev.verifyBoundary Dev.compareCheck
  dsimp only
  repeat' split
  all_goals simp [h]

@[simp] theorem within_verifyReadDone {n : Byte} {page : List Byte} (h : DevWithin d) :
    DevWithin (d.verifyReadDone p n page) := by
  unfold Dev.verifyReadDone
  split
  · exact h
  · split
    · exact within_verifyBoundary (within_modifyTicket_of (d := { d with verify := _ }) h
        (fun _ _ => (number_of_ticket ‹d.ticket p n = some _› :)))
    · exact h

@[simp] theorem within_readDone {r : Requester} {page : List Byte} (h : DevWithin d) :
    DevWithin (d.readDone r page) := by
  unfold Dev.readDone
  split <;> simp [h]

@[simp] theorem within_programDone {r : Requester} {ok : Bool} (h : DevWithin d) :
    DevWithin (d.programDone r ok) := by
  unfold Dev.programDone Dev.programTicketDone
  repeat' split
  all_goals simp [h]

theorem within_eraseBoundary {t : Ticket} {count : Half16} (h : DevWithin d) :
    DevWithin (d.eraseBoundary p t count) := by
  unfold Dev.eraseBoundary
  repeat' split
  all_goals simp [h]

theorem within_claimBoundary {t : Ticket} (h : DevWithin d) : DevWithin (d.claimBoundary p t) := by
  unfold Dev.claimBoundary
  dsimp only
  repeat' split
  all_goals simp [h]

theorem within_scrubBoundary {t : Ticket} {body : RequestBody} {sectors : Nat} (h : DevWithin d) :
    DevWithin (d.scrubBoundary p t body sectors) := by
  unfold Dev.scrubBoundary
  repeat' split
  all_goals simp [h]

@[simp] theorem within_eraseTicketDone {n : Byte} {ok : Bool} (h : DevWithin d) :
    DevWithin (d.eraseTicketDone p n ok) := by
  cases ht : d.ticket p n with
  | none => simpa only [Dev.eraseTicketDone, ht] using h
  | some t =>
    have hcounted (u : Ticket) (hu : u.number = t.number) : DevWithin (d.modifyTicket p n (fun _ => u)) :=
      within_modifyTicket_of h (fun _ _ => hu.trans (number_of_ticket ht))
    cases ok with
    | true =>
      cases hk : t.kind <;> simp only [Dev.eraseTicketDone, ht, hk, if_true]
      case erase => exact within_eraseBoundary (hcounted _ rfl)
      case claim => exact within_claimBoundary (hcounted _ rfl)
      case define => exact within_scrubBoundary (hcounted _ rfl)
      all_goals exact h
    | false =>
      cases hk : t.kind <;> simp only [Dev.eraseTicketDone, ht, hk, Bool.false_eq_true, if_false]
      case erase => exact within_finishTicket h
      case claim => exact within_endClaim h
      case define => exact within_finishTicket (within_dropReservation.2 h)
      all_goals exact h

@[simp] theorem within_eraseDone {r : Requester} {ok : Bool} (h : DevWithin d) :
    DevWithin (d.eraseDone r ok) := by
  unfold Dev.eraseDone
  split <;> simp [h]

end Completions

/-! ## Frames -/

section Frames
variable {s : State} {p : Port}

@[simp] theorem within_reloadLease {d : Dev} (h : DevWithin d) : DevWithin (d.reloadLease p) :=
  within_modifyPort_same h rfl rfl rfl

theorem within_onByte (h : DevWithin s.dev) (bs : List Byte) (i : Nat) (b : Byte) :
    DevWithin (s.onByte p bs i b).dev := by
  unfold State.onByte State.turnaround State.countByteDone State.requestFrameBuffer State.fillFrameBuffer
  dsimp only
  repeat' split
  all_goals simp [h]

theorem within_byteDone (h : DevWithin s.dev) (b : Byte) : DevWithin (s.byteDone p b).dev := by
  unfold State.byteDone
  exact within_onByte (by simpa using h) _ _ _

theorem within_clockBytes (h : DevWithin s.dev) (bs : List Byte) : DevWithin (s.clockBytes p bs).dev := by
  unfold State.clockBytes
  split
  · induction bs generalizing s with
    | nil => exact h
    | cons b bs ih =>
      have ha := (byteDone_clocksFrame ‹(s.host p).shifter.active = true› b).active
      exact ih (within_byteDone h b) (ha.trans ‹_›)
  · exact h

theorem within_clockBits (h : DevWithin s.dev) (bits : List Bool) : DevWithin (s.clockBits p bits).dev := by
  unfold State.clockBits
  split <;> exact h

theorem within_clockTo (h : DevWithin s.dev) (all : List Byte) (stray : List Bool) (n : Nat) :
    DevWithin (s.clockTo p all stray n).dev := within_clockBits (within_clockBytes h _) _

theorem within_pause (h : DevWithin s.dev) (n : Nat) (high : Bool) : DevWithin (s.pause p n high).dev := by
  unfold State.pause
  split <;> exact h

theorem within_select (h : DevWithin s.dev) : DevWithin (s.select p).dev := by
  unfold State.select
  split <;> exact h

/-- R106 step 7: an accepted frame finds room in its ring. -/
theorem room_of_acceptCheck {d : Dev} {k : TicketKind} {index : Option Nat} {b : Option (List Byte)}
    (h : d.acceptCheck p k index b = none) : (d.ring p).length < 8 := by
  unfold Dev.acceptCheck at h
  split at h
  · cases h
  · split_ifs at h with _ hfull
    exact Nat.lt_of_not_le hfull

/-- R110: an accepted ticket's place in its ring. -/
theorem within_place_newTicket {d e : Dev} (h : DevWithin e) (hring : e.ring p = d.ring p)
    (hnext : (e.port p).nextNumber = (d.port p).nextNumber) (hroom : (d.ring p).length < 8) {k : TicketKind}
    {index : Option Nat} {notify : Bool} {b : Option (List Byte)} :
    DevWithin (e.place p (newTicket d p k index notify b)) := by
  obtain ⟨_, _, _, hne⟩ : PortWithin (e.port p) := h p
  refine within_place h (hring ▸ hroom) (hring ▸ assignNumber_free hroom.le (hnext ▸ hne))

theorem within_acceptTicket {d : Dev} (h : DevWithin d) {k : TicketKind} {index : Option Nat} {notify : Bool}
    {b : Option (List Byte)} (hroom : (d.ring p).length < 8) : DevWithin (d.acceptTicket p k index notify b) := by
  unfold Dev.acceptTicket
  split
  · exact within_settle (within_place_newTicket (within_takeBuffer.2 h) rfl rfl hroom)
  · exact within_settle (within_place_newTicket h rfl rfl hroom)
  · exact within_settle (within_wakePort (within_place_newTicket h rfl rfl hroom))

theorem within_endTicketFrame (h : DevWithin s.dev) (c : Command) (notify : Bool) (command : Byte)
    (b : Option (List Byte)) : DevWithin (s.endTicketFrame p c notify command b).dev := by
  unfold State.endTicketFrame
  repeat' split
  · exact within_giveBufferIf.2 h
  · exact within_giveBufferIf.2 h
  · exact within_acceptTicket h (room_of_acceptCheck ‹_›)

section Immediate
variable {d : Dev}

theorem within_eventsFrame (h : DevWithin d) (a : Answer) (n : Nat) : DevWithin (d.eventsFrame p a n) := by
  unfold Dev.eventsFrame
  split
  · refine within_modifyPort h (fun ⟨hlength, hnodup, hevents, hnext⟩ => ⟨hlength, hnodup, ?_, hnext⟩)
    exact (List.drop_sublist _ _).length_le.trans hevents
  · exact h

theorem within_fetchFrame (h : DevWithin d) (n : Byte) (a : Answer) (bytes : Nat) :
    DevWithin (d.fetchFrame p n a bytes) := by
  unfold Dev.fetchFrame
  repeat' split
  all_goals simp [h]

theorem within_retireFrame (h : DevWithin d) (n : Byte) : DevWithin (d.retireFrame p n).1 := by
  unfold Dev.retireFrame
  repeat' split
  all_goals simp [h]

theorem within_cancelQueued (h : DevWithin d) (t : Ticket) : DevWithin (d.cancelQueued p t) := by
  unfold Dev.cancelQueued
  refine within_settle (within_finishTicket ?_)
  split <;> exact h

theorem within_cancelFrame (h : DevWithin d) (n : Byte) : DevWithin (d.cancelFrame p n).1 := by
  unfold Dev.cancelFrame
  repeat' split
  all_goals dsimp only
  · exact h
  · exact within_cancelQueued h _
  · exact within_modifyTicket h (fun _ => rfl)
  all_goals exact h

theorem within_holdFrame (h : DevWithin d) (i : Byte) : DevWithin (d.holdFrame p i).1 := by
  unfold Dev.holdFrame
  split <;> exact h

theorem within_setLeaseFrame (h : DevWithin d) (v : Byte) : DevWithin (d.setLeaseFrame p v) :=
  within_reloadLease (within_modifyPort_same h rfl rfl rfl)

end Immediate

theorem within_endCommand (h : DevWithin s.dev) (c : Command) (notify : Bool) (command : Byte) (bytes : Nat)
    (a : Answer) (b : Option (List Byte)) : DevWithin (s.endCommand p c notify command bytes a b).dev := by
  unfold State.endCommand
  split
  · exact h
  · exact within_eventsFrame h a bytes
  · exact h
  · exact within_fetchFrame h _ a bytes
  · exact h
  · split
    · exact within_giveBufferIf.2 h
    · split
      · exact within_retireFrame h _
      · exact within_cancelFrame h _
      · exact within_setLeaseFrame h _
      · exact within_holdFrame h _
      · exact within_endTicketFrame h _ _ _ _

theorem within_deselect (h : DevWithin s.dev) : DevWithin (s.deselect p).dev := by
  unfold State.deselect State.endFrame
  dsimp only
  repeat' split
  · exact h
  · exact within_giveBufferIf.2 h
  · exact within_reloadLease h
  · exact within_endCommand (within_reloadLease h) _ _ _ _ _ _
  · exact h

theorem within_runFrame {m : String} {frame : List Byte} {k : Clocking} {t : State} (h : DevWithin s.dev)
    (ht : runFrame m p frame k s = .next t) : DevWithin t.dev := by
  obtain ⟨_, rfl | ⟨n, rfl⟩⟩ | ⟨_, ⟨n, j, rfl⟩ | ⟨n, rfl⟩⟩ := runFrame_next ht
  · exact within_deselect (within_clockBits (within_clockBytes (within_select h) _) _)
  · exact within_pause (within_clockTo (within_select h) _ _ _) _ _
  · exact within_pause (within_clockTo h _ _ _) _ _
  · exact within_deselect (within_clockTo h _ _ _)

end Frames

/-! ## Resets and restarts -/

section Resets
variable {d : Dev} {p : Port}

theorem within_reset : DevWithin Dev.reset := by
  intro p
  have hport : Dev.reset.ports.get p = PortState.reset := by cases p <;> rfl
  rw [hport]
  exact ⟨by decide, by decide, by decide, by decide⟩

theorem within_afterReset : DevWithin Dev.afterReset := by
  unfold Dev.afterReset
  exact within_settle within_reset

theorem within_devWithoutFrames {s : State} (h : DevWithin s.dev) : DevWithin s.devWithoutFrames :=
  within_forEach h (fun _ _ he => within_giveBufferIf.2 he)

theorem within_restartTicket {t : Ticket} (h : DevWithin d) : DevWithin (Dev.restartTicket p t d) := by
  unfold Dev.restartTicket
  dsimp only
  repeat' split
  all_goals simp [h]

/-- R68, R170: the tick request of a restart reaches no ring and no queue. -/
theorem within_restartTick (h : DevWithin d) : DevWithin (d.restartTick p) := by
  unfold Dev.restartTick
  dsimp only
  repeat' split
  all_goals simp [h]

theorem within_restartPort (h : DevWithin d) : DevWithin (d.restartPort p) := by
  have hport : DevWithin (d.modifyPort p PortState.restart) :=
    within_modifyPort h (fun ⟨hlength, hnodup, _, _⟩ => ⟨hlength, hnodup, Nat.zero_le _, (by decide : (1 : Byte) ≠ 0)⟩)
  have hring : DevWithin ((d.modifyPort p PortState.restart).restartRing p) :=
    within_forEach hport (fun _ _ he => within_restartTicket he)
  exact within_restartTick hring

end Resets

/-! ## The step -/

theorem within_microsecond {d : Dev} (h : DevWithin d) : DevWithin d.microsecond := by
  refine within_checkLeases (within_requestSuspension (within_forEach h (fun p e he => ?_)))
  unfold Dev.runLease
  split
  · exact within_modifyPort_same he rfl rfl rfl
  · exact he

theorem within_exec {i : Instr} {s t : State} (h : DevWithin s.dev) (ht : exec i s = .next t) : DevWithin t.dev := by
  cases hframe : i.frame with
  | some x =>
    obtain ⟨p, bytes, k⟩ := x
    obtain ⟨m, hm⟩ := exec_eq_runFrame s hframe
    exact within_runFrame h (hm ▸ ht)
  | none =>
    cases i with
    | deviceReset cut =>
      obtain ⟨_, rfl⟩ := execDeviceReset_next ht
      dsimp only
      exact within_afterReset
    | resetAssertion cut =>
      obtain ⟨_, rfl⟩ := execResetAssertion_next ht
      dsimp only
      exact within_modifyEngine.2 (within_devWithoutFrames h)
    | powerLoss cut =>
      obtain ⟨_, rfl⟩ := execPowerLoss_next ht
      dsimp only
      exact within_reset
    | hrstAssert p =>
      obtain ⟨_, rfl⟩ | ⟨_, rfl⟩ := execHrstAssert_next ht
      · rw [modifyDev_dev]
        exact within_settle (within_restartPort (within_giveBufferIf.2 h))
      · exact h
    | hrstRelease p =>
      obtain ⟨_, rfl⟩ := execHrstRelease_next ht
      exact h
    | selectRelease p =>
      obtain rfl := execSelectRelease_next ht
      exact within_deselect h
    | pageReadComplete =>
      obtain ⟨_, _, _, _, _, rfl⟩ := execPageReadComplete_next ht
      rw [modifyDev_dev]
      exact within_settle (within_readDone (within_noCurrent.2 h))
    | pageProgramComplete v =>
      obtain ⟨_, _, _, _, _, _, _, _, rfl⟩ := execPageProgramComplete_next ht
      dsimp only
      exact within_settle (within_programDone (within_noCurrent.2 h))
    | sectorEraseComplete v =>
      obtain ⟨_, _, rfl⟩ := execSectorEraseComplete_next ht
      dsimp only
      exact within_settle (within_eraseDone (within_noCurrent.2 h))
    | eraseParked =>
      obtain ⟨_, rfl⟩ := execEraseParked_next ht
      rw [modifyDev_dev]
      exact within_settle (within_park.2 h)
    | eraseQuantumExpiry =>
      obtain ⟨_, rfl⟩ := execEraseQuantumExpiry_next ht
      rw [modifyDev_dev]
      exact within_requestSuspension (within_modifyEngine.2 h)
    | leaseExpiry p =>
      obtain rfl := execLeaseExpiry_next ht
      rw [modifyDev_dev]
      exact within_expireLease h
    | _ => cases hframe

/-- R174, R176: a queue with room takes an event at its newest end. -/
theorem append_of_room {q : EventQueue} (h : q.records.length < 16) (e : Event) :
    (q.append e).records = q.records ++ [e] ∧ (q.append e).lost = q.lost := by
  have : q.append e = { q with records := q.records ++ [e] } := if_pos h
  rw [this]
  exact ⟨rfl, rfl⟩

/-- R176: a full queue discards an event and says so. -/
theorem append_of_full {q : EventQueue} (h : 16 ≤ q.records.length) (e : Event) :
    (q.append e).records = q.records ∧ (q.append e).lost = true := by
  have : q.append e = { q with lost := true, discarded := true } := if_neg (Nat.not_lt.mpr h)
  rw [this]
  exact ⟨rfl, rfl⟩

/-- Settles O21: every command and a microsecond keep the capacities, operation by operation. -/
theorem capacitiesKept : Obligations.CapacitiesKept := by
  refine ⟨fun s t hs h => ?_, fun q e => ⟨fun hq => append_of_room hq e, fun hq => append_of_full hq e⟩⟩
  rw [withinCapacity_iff] at *
  obtain rfl | rfl | ⟨c, rest, hc⟩ := step_next h
  · exact hs
  · rw [modifyDev_dev]
    exact within_microsecond hs
  · exact within_exec (s := { s with pending := rest }) hs hc

end Sys2Proof.Proofs

/-!
PROOF. The rules of one part each: the step, the pool, the table's changes, the Scheduler's order, the array's bytes,
the lines, the state after device reset and the first mount.
-/

namespace Sys2Proof.Proofs

set_option Elab.async false

open Sys2Proof Sys2Proof.Machine Sys2Proof.Laws

/-- Settles O16: the step reads the queue alone to find its command. -/
theorem stepRunsFrontCommand : Obligations.StepRunsFrontCommand := by
  intro c rest s h
  simp only [step, h]

/-! ## The Buffer Pool (R136, R139) -/

/-- R136: a port below the guarantee is granted a buffer, and so is one that leaves the others theirs. -/
theorem grants_iff (b : Pool) (p : Port) :
    b.grants p = true ↔ b.held.get p < 2 ∨ b.otherDeficits p + 1 ≤ b.free := by
  unfold Pool.grants
  rw [Bool.or_eq_true, decide_eq_true_iff, decide_eq_true_iff]
  rfl

/-- Settles O56: a port below two is covered by what the ports are owed, and a grant or a release moves one buffer. -/
theorem poolGuarantee : Obligations.PoolGuarantee := by
  refine ⟨?_, fun b p _ hheld => (grants_iff b p).mpr (.inl hheld), ?_⟩
  · rintro ⟨free, h0, h1, h2⟩ p ⟨hten, howed⟩ hgrant
    rw [grants_iff] at hgrant
    cases p <;>
      simp only [Pool.take, Pool.otherDeficits, Pool.deficit, Config.guaranteedBuffers, PerPort.modify, PerPort.set,
        PerPort.get] at hten howed hgrant ⊢ <;>
      omega
  · rintro ⟨free, h0, h1, h2⟩ p ⟨hten, howed⟩ hheld
    simp only at hten howed
    cases p <;> simp only [Pool.give, PerPort.modify, PerPort.set, PerPort.get] at hheld ⊢ <;> omega

/-! ## Ticks (R57) -/

/-- R57: steps that the budget covers are taken from it. -/
theorem tickSteps_of_le (n : Nat) (e : Entry) (h : n ≤ e.attempts.toNat) :
    tickSteps n e = { e with attempts := e.attempts - BitVec.ofNat 4 n } := by
  induction n generalizing e with
  | zero => simp [tickSteps]
  | succ n ih =>
    have hlt := e.attempts.isLt
    have hne : ¬ e.attempts = 0 := fun h0 => by simp [h0] at h
    have hless : (e.attempts - 1).toNat = e.attempts.toNat - 1 := by bv_omega
    have hsub : e.attempts - 1 - BitVec.ofNat 4 n = e.attempts - BitVec.ofNat 4 (n + 1) := by
      bv_omega
    rw [tickSteps, if_neg hne, ih _ (by simp only [hless]; omega)]
    simp only [hsub]

/-- R57: steps beyond the budget revert the trial, whatever was left of the budget. -/
theorem tickSteps_of_lt (n : Nat) (e : Entry) (h : e.attempts.toNat < n) : tickSteps n e = revertTrial e := by
  induction n generalizing e with
  | zero => omega
  | succ n ih =>
    rw [tickSteps]
    split
    · rfl
    next hne =>
      have hless : (e.attempts - 1).toNat = e.attempts.toNat - 1 := by bv_omega
      rw [ih _ (by simp only [hless]; bv_omega)]
      rfl

theorem otherCopy_eq (c : Copy) : otherCopy c = if c = .a then .b else .a := by cases c <;> rfl

theorem onTrialOf_iff (e : Entry) (p : Port) :
    e.onTrialOf p = true ↔ e.defined = true ∧ e.kind = .image ∧ e.owner = p ∧ e.phase = .trial := by
  simp [Entry.onTrialOf, and_assoc]

/-- Settles O57: by whether the budget covers the steps. -/
theorem tickBudget : Obligations.TickBudget := by
  intro t q p n i hi e after
  have hafter : after = tickEntry p n e := map_entry t i (tickEntry p n) hi
  rw [hafter, tickEntry]
  simp only [onTrialOf_iff]
  by_cases htrial : e.defined = true ∧ e.kind = .image ∧ e.owner = p ∧ e.phase = .trial
  · rw [if_pos htrial, if_pos htrial]
    by_cases hn : n ≤ e.attempts.toNat
    · rw [if_pos hn]
      exact tickSteps_of_le n e hn
    · rw [if_neg hn, tickSteps_of_lt n e (Nat.lt_of_not_le hn), revertTrial, funext otherCopy_eq]
  · rw [if_neg htrial, if_neg htrial]

/-! ## Changes (R21 to R56) -/

/-- A change of one entry leaves the others. -/
theorem modifyEntry_entry (t : Table) {i : Nat} (hi : i < 24) (f : Entry → Entry) :
    Table.entry (Table.modifyEntry t i f) i = f (Table.entry t i) ∧
      ∀ j, j ≠ i → Table.entry (Table.modifyEntry t i f) j = Table.entry t j :=
  ⟨setEntry_entry_same t i _ hi, fun j hj => setEntry_entry_other t i j _ hj⟩

/-- R14: on an IMAGE entry an image change is made. -/
theorem modifyEntry_onImage (t : Table) {i : Nat} (hi : i < 24) (f : Entry → Entry)
    (hk : (Table.entry t i).kind = .image) :
    Table.entry (Table.modifyEntry t i (onImage f)) i = f (Table.entry t i) ∧
      ∀ j, j ≠ i → Table.entry (Table.modifyEntry t i (onImage f)) j = Table.entry t j := by
  have himage : onImage f (Table.entry t i) = f (Table.entry t i) := by simp only [onImage, hk]
  exact himage ▸ modifyEntry_entry t hi (onImage f)

/-- Settles O58: each change replaces the entry it names by the one its rule gives. -/
theorem tableChanges : Obligations.TableChanges := by
  intro t q i hi e makes other
  have hset (x : Entry) : Table.entry (Table.setEntry t i x) i = x ∧
      ∀ j, j ≠ i → Table.entry (Table.setEntry t i x) j = Table.entry t j :=
    ⟨setEntry_entry_same t i x hi, fun j hj => setEntry_entry_other t i j x hj⟩
  have hother : otherCopy = other := funext otherCopy_eq
  refine ⟨fun _ _ _ _ _ _ => hset _, fun _ => hset _, fun _ _ => modifyEntry_entry t hi _,
    fun _ => modifyEntry_entry t hi _, fun hk => ⟨fun _ => modifyEntry_onImage t hi dropFallback hk, ?_,
      fun _ => modifyEntry_onImage t hi confirmTrial hk, ?_, ?_⟩⟩
  · intro _ copy length check budget
    have h := modifyEntry_onImage t hi (switchLive copy length check budget) hk
    cases hl : e.live <;> simpa [makes, applyChange, switchLive, e, hl] using h
  · intro _
    have h := modifyEntry_onImage t hi revertTrial hk
    rw [← hother]
    exact h
  · intro _
    have h := modifyEntry_onImage t hi revertSettled hk
    rw [← hother]
    exact h

/-! ## The Scheduler's order (R147, R148) -/

/-- Settles O59: the cyclic order written out for each pointer. -/
theorem schedulerOrder : Obligations.SchedulerOrder := by
  intro d members place turns
  have hturns (m : Member) : turns m = memberOrder m := by
    cases m with
    | port p => cases p <;> simp [turns, place, members, memberOrder, List.range_succ]
    | system => simp [turns, place, members, memberOrder, List.range_succ]
  rw [hturns, hturns, hturns, Dev.choose]
  cases d.engine.parked <;> rfl

/-! ## Lines (R111, R172) -/

/-- Settles O28. -/
theorem lineReleases : Obligations.LineReleases := by
  intro p s
  refine ⟨fun hs ha => ?_, fun hr => ?_⟩
  · simp only [exec, execSelectRelease, hs, if_true, State.deselect, ha]
    rfl
  · simp only [exec, execHrstRelease, hr, if_true]
    rfl

end Sys2Proof.Proofs

/-!
PROOF. The array's bytes (R5, R6, R10, R11), the state after device reset and the worked encodings.
-/

namespace Sys2Proof.Proofs

set_option Elab.async false

open Sys2Proof Sys2Proof.Machine Sys2Proof.Laws

/-! ## A page program and a sector erase, byte by byte -/

section ArrayBytes
variable (m : Memory) (x : Nat)

theorem byteAddress_eq (sector page first : Nat) :
    byteAddress sector page first = sector * 4096 + page * 256 + first := rfl

/-- R10: the mask of a byte that a failure or a cut-off leaves uncertain. -/
theorem settleMask_eq (u : Settle) (i : Nat) :
    settleMask u i = ((u.cells.find? (fun c => c.1 == i)).map (·.2)).getD u.fill := by
  unfold settleMask
  cases u.cells.find? (fun c => c.1 == i) <;> rfl

/-- A run ANDed with the bytes supplied for it; every other byte stays. -/
theorem byteAt_writeRun_and (a : Nat) (supplied : List Byte) :
    (m.writeRun a (List.zipWith (· &&& ·) (m.readRun a supplied.length) supplied)).byteAt x =
      if a ≤ x ∧ x < a + supplied.length then m.byteAt x &&& supplied.getD (x - a) 0 else m.byteAt x := by
  rw [byteAt_writeRun, List.length_zipWith, readRun_length, Nat.min_self]
  by_cases hin : a ≤ x ∧ x < a + supplied.length
  · have hi : x - a < supplied.length := by omega
    have hread := readRun_getD m a supplied.length (x - a) hi 0
    rw [show a + (x - a) = x by omega, List.getD_eq_getElem _ _ (by simpa using hi)] at hread
    rw [if_pos hin, if_pos hin, List.getD_eq_getElem _ _ (by simpa using hi), List.getElem_zipWith, hread,
      List.getD_eq_getElem _ _ hi]
  · rw [if_neg hin, if_neg hin]

/-- R6: a programmed byte is the former one ANDed with the supplied one; every other byte stays. -/
theorem byteAt_programPage_success (sector page first : Nat) (data : List Byte) :
    (m.programPage sector page first data .success).byteAt x =
      if byteAddress sector page first ≤ x ∧ x < byteAddress sector page first + data.length then
        m.byteAt x &&& data.getD (x - byteAddress sector page first) 0
      else m.byteAt x :=
  byteAt_writeRun_and m x _ data

/-- R10: a program that fails clears of the bits supplied 0 those its mask marks; every other byte stays. -/
theorem byteAt_programPage_failure (sector page first : Nat) (data : List Byte) (u : Settle) :
    (m.programPage sector page first data (.failure u)).byteAt x =
      if byteAddress sector page first ≤ x ∧ x < byteAddress sector page first + data.length then
        m.byteAt x &&& (data.getD (x - byteAddress sector page first) 0 |||
          ~~~(settleMask u (x - byteAddress sector page first)))
      else m.byteAt x := by
  have hrun := byteAt_writeRun_and m x (byteAddress sector page first)
    (data.mapIdx (fun i b => b ||| ~~~(settleMask u i)))
  rw [List.length_mapIdx] at hrun
  refine hrun.trans (if_ctx_congr Iff.rfl (fun hin => ?_) (fun _ => rfl))
  have hi : x - byteAddress sector page first < data.length := by omega
  rw [List.getD_eq_getElem _ _ (by simpa using hi), List.getElem_mapIdx, List.getD_eq_getElem _ _ hi]

/-- R5: an erased byte is 0xFF; every other byte stays. -/
theorem byteAt_eraseSector_success (sector : Nat) :
    (m.eraseSector sector .success).byteAt x =
      if byteAddress sector 0 0 ≤ x ∧ x < byteAddress sector 0 0 + 4096 then 0xFF else m.byteAt x :=
  byteAt_eraseRun m _ _ x

/-- Cells in ascending order, each kept at its address or dropped, hold at `x` what the cell of `x` became. -/
theorem byteAt_filterMap (f : Host.Cell → Option Host.Cell) (hf : ∀ c d, f c = some d → d.1 = c.1)
    (hm : m.Pairwise (fun c d => c.1 < d.1)) (g : Byte → Byte) (hblank : g 0xFF = 0xFF)
    (hg : ∀ c ∈ m, c.1 = x → f c = some (c.1, g c.2) ∨ (f c = none ∧ g c.2 = 0xFF)) :
    Memory.byteAt (m.filterMap f) x = g (Memory.byteAt m x) := by
  induction m with
  | nil => exact hblank.symm
  | cons c m ih =>
    obtain ⟨hlater, hrest⟩ := List.pairwise_cons.mp hm
    have ih' := ih hrest (fun d hd => hg d (List.mem_cons_of_mem _ hd))
    rw [byteAt_cons]
    by_cases hx : c.1 = x
    · rw [if_pos hx]
      rcases hg c List.mem_cons_self hx with hkept | ⟨hdropped, hff⟩
      · rw [List.filterMap_cons_some hkept, byteAt_cons, if_pos hx]
      · rw [List.filterMap_cons_none hdropped, ih', hff,
          byteAt_absent m x (fun d hd => by have := hlater d hd; omega), hblank]
    · rw [if_neg hx, ← ih']
      cases hc : f c with
      | none => rw [List.filterMap_cons_none hc]
      | some d => rw [List.filterMap_cons_some hc, byteAt_cons, if_neg (hf c d hc ▸ hx)]

/-- R10: an erase that fails sets of the bits that were 0 those its mask marks; every other byte stays. -/
theorem byteAt_eraseSector_failure (hm : m.wf) (sector : Nat) (u : Settle) :
    (m.eraseSector sector (.failure u)).byteAt x =
      if byteAddress sector 0 0 ≤ x ∧ x < byteAddress sector 0 0 + 4096 then
        m.byteAt x ||| settleMask u (x - byteAddress sector 0 0)
      else m.byteAt x := by
  have hones (w : Byte) : 0xFF ||| w = 0xFF := BitVec.allOnes_or
  have haddress (c d : Host.Cell) (h : (if byteAddress sector 0 0 ≤ c.1 && c.1 < byteAddress sector 0 0 + 4096 then
      if c.2 ||| settleMask u (c.1 - byteAddress sector 0 0) = 0xFF then none
      else some (c.1, c.2 ||| settleMask u (c.1 - byteAddress sector 0 0)) else some c) = some d) : d.1 = c.1 := by
    split_ifs at h <;> cases h <;> rfl
  by_cases hin : byteAddress sector 0 0 ≤ x ∧ x < byteAddress sector 0 0 + 4096
  · rw [if_pos hin]
    refine byteAt_filterMap m x _ haddress hm.1 (· ||| settleMask u (x - byteAddress sector 0 0)) (hones _)
      (fun c _ hx => ?_)
    subst hx
    by_cases hff : c.2 ||| settleMask u (c.1 - byteAddress sector 0 0) = 0xFF
    · exact .inr ⟨by simp [hin, hff], hff⟩
    · exact .inl (by simpa [hin] using hff)
  · rw [if_neg hin]
    refine byteAt_filterMap m x _ haddress hm.1 id rfl (fun c _ hx => .inl ?_)
    subst hx
    have hout : (decide (byteAddress sector 0 0 ≤ c.1) && decide (c.1 < byteAddress sector 0 0 + 4096)) = false := by
      simpa [not_and] using hin
    simp [hout]

end ArrayBytes

/-- Settles O60: each operation's byte by the rule of its verdict, at an address inside its run or outside it. -/
theorem arrayBytes : Obligations.ArrayBytes := by
  intro m x hm mask
  have hmask : settleMask = mask := by
    funext u i
    exact settleMask_eq u i
  refine ⟨fun sector page first data => ⟨fun hout v => ?_, fun i hi hx => ⟨?_, fun u => ?_⟩⟩,
    fun sector => ⟨fun hout v => ?_, fun i hi hx => ⟨?_, fun u => ?_⟩⟩, fun g cut => ?_⟩
  · cases v with
    | success => rw [byteAt_programPage_success, byteAddress_eq, if_neg (by omega)]
    | failure u => rw [byteAt_programPage_failure, byteAddress_eq, if_neg (by omega)]
  · rw [byteAt_programPage_success, byteAddress_eq, if_pos (by omega), hx, Nat.add_sub_cancel_left]
  · rw [byteAt_programPage_failure, byteAddress_eq, if_pos (by omega), hx, Nat.add_sub_cancel_left, hmask]
  · cases v with
    | success => rw [byteAt_eraseSector_success, byteAddress_eq, if_neg (by omega)]
    | failure u => rw [byteAt_eraseSector_failure m x hm, byteAddress_eq, if_neg (by omega)]
  · rw [byteAt_eraseSector_success, byteAddress_eq, if_pos (by omega)]
  · rw [byteAt_eraseSector_failure m x hm, byteAddress_eq, if_pos (by omega), hx,
      show sector * 4096 + i - (sector * 4096 + 0 * 256 + 0) = i by omega, hmask]
  · obtain ⟨current, parked, _, _, _⟩ := g
    rcases current with _ | (_ | _ | _) <;> cases parked <;> rfl

/-! ## The state after device reset, and the worked encodings -/

/-- R84: every entry of the empty table is undefined. -/
theorem entry_empty (i : Nat) : Table.entry Table.empty i = Entry.undefined := by
  by_cases hi : i < 24
  · simp [Table.entry, Table.empty, hi]
  · exact entry_beyond _ _ hi

/-- Settles O18: each field as State.reset writes it. -/
theorem resetState : Obligations.ResetState := by
  refine ⟨wf_nil, ?_, ?_, fun a => rfl, rfl, rfl, rfl, entry_empty, rfl, rfl, ?_, rfl, rfl, rfl, rfl, rfl, rfl, rfl, rfl,
    rfl, rfl, rfl, rfl, rfl⟩
  · intro p
    cases p <;> rfl
  · intro p
    cases p <;> decide
  · intro p
    cases p <;> exact ⟨rfl, rfl, rfl, rfl, rfl, rfl, rfl, rfl, rfl, rfl, rfl⟩

/-- Settles O23: the model's encoders computed. -/
theorem workedEncodings : Obligations.WorkedEncodings := by
  refine ⟨?_, ?_, ?_, ?_⟩ <;> decide +kernel

end Sys2Proof.Proofs

/-!
PROOF. The bytes of a frame and the command they read back as (R99, R100, R103), and what a frame of a given command
clocked whole comes to: the silent commands, the answering ones and PROGRAM.
-/

namespace Sys2Proof.Proofs

set_option Elab.async false

open Sys2Proof Sys2Proof.Machine Sys2Proof.Laws

/-! ## Reading a frame back -/

section RoundTrip
variable {c : Command} {notify : Bool}

/-- Section 12.1: a command byte names its command, and whether notify is asked. -/
theorem opcodeOf_commandByte {o : Opcode} (h : notify = true → o.isTicket = true) :
    opcodeOf (commandByte o notify) = some (o, notify) := by
  cases notify with
  | false => exact opcodeOf_code o
  | true => exact opcodeOf_code_notify (h rfl)

/-- Section 12.1: the parameters of every command but PROGRAM are as many as its fixed count. -/
theorem length_params (h : c.opcode ≠ .program) : c.params.length = c.opcode.paramCount := by
  cases c <;> first | rfl | exact absurd rfl h

/-- Section 12.1: no command has fewer parameter bytes than its fixed count. -/
theorem paramCount_le (c : Command) : c.opcode.paramCount ≤ c.params.length := by
  cases c with
  | program i o l d => exact Nat.le_add_left 7 d.length
  | _ => exact Nat.le_refl _

/-- R99: the fields of a frame's bytes are those of its command, whatever follows; PROGRAM takes all that follows. -/
theorem commandOf_frameBytes (c : Command) (notify : Bool) {extra : List Byte}
    (he : c.opcode = .program → extra = []) :
    commandOf c.opcode (c.frameBytes notify ++ extra) = c := by
  cases c with
  | read i v o l => exact congrArg₂ (Command.read i v) (join32 o) (join16 l)
  | program i o l d =>
    rw [he rfl, List.append_nil]
    exact congrArg₂ (Command.program i · · d) (join32 o) (join16 l)
  | erase i f n => exact congrArg₂ (Command.erase i) (join16 f) (join16 n)
  | commit i l k b => exact congrArg₂ (Command.commit i · · b) (join32 l) (join32 k)
  | define k b n r l =>
    have hlabel := join32 l
    have hfields := congrArg₂ (Command.define k · · r l) (join16 b) (join16 n)
    rw [← hlabel] at hfields
    exact hfields.trans (congrArg (Command.define k b n r) hlabel)
  | _ => rfl

/-- R100: the bytes of a well-formed command's frame read back as that command, whatever follows them. -/
theorem parseFrame_frameBytes {extra : List Byte} (hn : notify = true → c.opcode.isTicket = true)
    (he : c.opcode = .program → extra = []) (hd : dataCountRight c = true) :
    parseFrame (c.frameBytes notify ++ extra) = .command c notify := by
  have hread := commandOf_frameBytes c notify he
  have hparams : c.opcode.paramCount ≤ (c.params ++ extra).length := by
    have := paramCount_le c
    rw [List.length_append]
    omega
  have hparse := parseFrame_of_opcodeOf (opcodeOf_commandByte hn) hparams (hread.symm ▸ hd)
  exact hparse.trans (congrArg (Parsed.command · notify) hread)

/-- R103: a frame that ends within its fixed parameters is malformed. -/
theorem parseFrame_of_short {b : Byte} {bs : List Byte} {o : Opcode} (ho : opcodeOf b = some (o, notify))
    (hshort : bs.length < o.paramCount) : parseFrame (b :: bs) = .malformed b := by
  simp only [parseFrame, ho, if_pos hshort]

/-- R103: a PROGRAM frame whose data count is not its length field is malformed. -/
theorem parseFrame_of_wrongCount {b : Byte} {bs : List Byte} {o : Opcode} (ho : opcodeOf b = some (o, notify))
    (hdata : dataCountRight (commandOf o (b :: bs)) = false) : parseFrame (b :: bs) = .malformed b := by
  simp only [parseFrame, ho, hdata, Bool.false_eq_true, if_false, ite_self]

/-- R103: a command's frame cut after `n + 1` of its bytes is malformed. -/
theorem parseFrame_take (hn : notify = true → c.opcode.isTicket = true) (hd : dataCountRight c = true) {n : Nat}
    (hlt : n < c.params.length) :
    parseFrame (commandByte c.opcode notify :: c.params.take n) = .malformed (commandByte c.opcode notify) := by
  have hop := opcodeOf_commandByte (notify := notify) hn
  by_cases hshort : (c.params.take n).length < c.opcode.paramCount
  · exact parseFrame_of_short hop hshort
  · rw [List.length_take_of_le hlt.le] at hshort
    cases c with
    | program i o l d =>
      have hcut : commandByte .program notify :: (Command.program i o l d).params.take n =
          (Command.program i o l (d.take (n - 7))).frameBytes notify ++ [] := by
        obtain ⟨k, rfl⟩ : ∃ k, n = 7 + k := ⟨n - 7, by simp only [Command.opcode, Opcode.paramCount] at hshort; omega⟩
        rw [List.append_nil, Nat.add_sub_cancel_left, Nat.add_comm]
        rfl
      have hwrong : dataCountRight (Command.program i o l (d.take (n - 7))) = false := by
        have hlength : d.length = l.toNat := by simpa [dataCountRight] using hd
        have hlong : n < d.length + 7 := hlt
        have hparams : 7 ≤ n := by simpa [Command.opcode, Opcode.paramCount] using hshort
        simp only [dataCountRight, List.length_take, beq_eq_false_iff_ne]
        omega
      refine parseFrame_of_wrongCount hop ?_
      show dataCountRight (commandOf .program (commandByte .program notify :: _)) = false
      have hread := commandOf_frameBytes (.program i o l (d.take (n - 7))) notify (extra := []) (fun _ => rfl)
      rw [hcut]
      exact (congrArg dataCountRight hread).trans hwrong
    | _ => exact absurd hlt hshort

end RoundTrip

/-- Settles O24: the fields read back, and a cut leaves too few parameters or too little data. -/
theorem frameRoundTrip : Obligations.FrameRoundTrip := by
  intro c notify extra hn he hd
  refine ⟨parseFrame_frameBytes hn he hd, fun n h1 hlt => ?_⟩
  obtain ⟨n, rfl⟩ : ∃ k, n = k + 1 := ⟨n - 1, by omega⟩
  exact parseFrame_take hn hd (Nat.lt_of_succ_lt_succ hlt)

end Sys2Proof.Proofs

/-!
PROOF. Immediate frames clocked whole: a silent command's frame (R102), the frames of MOUNTING (R105), SETLEASE (R164),
STATUS (R113), TICKET (R128), TABLE (R33) and EVENTS (R177, R178).
-/

namespace Sys2Proof.Proofs

set_option Elab.async false

open Sys2Proof Sys2Proof.Machine Sys2Proof.Laws

/-! ## The command of a frame -/

section Whole
variable {p : Port} {c : Command} {notify : Bool} {extra : List Byte} {s : State}

/-- Section 6.3: each command's instruction clocks its frame; an immediate one's has no notify bit. -/
theorem exec_ofCommand (p : Port) (c : Command) (notify : Bool) (k : Clocking) (s : State) :
    ∃ m, exec (Instr.ofCommand p c notify k) s = runCommand m p c (notify && c.opcode.isTicket) k s := by
  cases notify <;> cases c <;> exact ⟨_, rfl⟩

theorem length_frame (c : Command) (notify : Bool) (extra : List Byte) :
    (c.frameBytes notify ++ extra).length = 1 + c.params.length + extra.length := by
  rw [List.length_append, Command.frameBytes, List.length_cons, Nat.add_comm 1]

/-- R100, R101: no byte after the command byte of a silent command is an event of its own. -/
theorem silent_commandByte {o : Opcode} (hn : notify = true → o.isTicket = true) (ha : o.answers = false)
    (hp : o ≠ .program) : silent (commandByte o notify) = true := by
  simp [silent, opcodeOf_commandByte hn, ha, hp]

theorem isTicket_of_and {b : Bool} (h : (notify && b) = true) : b = true := (Bool.and_eq_true _ _ ▸ h).2

/-- R102, R164: a silent command's frame clocked whole ends with the lease reloaded and then the command's effect. -/
theorem exec_silent (hr : s.Ready p) (ha : c.opcode.answers = false) (hp : c.opcode ≠ .program) :
    exec (Instr.ofCommand p c notify (Clocking.whole extra)) s =
      .next (((afterFrame s p (silentBytes (1 + c.params.length + extra.length))).modifyDev
        (fun d => d.leaseReloaded p)).endCommand p c (notify && c.opcode.isTicket)
          (commandByte c.opcode (notify && c.opcode.isTicket)) (1 + c.params.length + extra.length)
          { result := .notready, data := [] } none) := by
  obtain ⟨m, hm⟩ := exec_ofCommand p c notify (Clocking.whole extra) s
  have hdata : dataCountRight c = true := by
    cases c <;> first | rfl | exact absurd rfl hp
  have hparse := parseFrame_frameBytes (extra := extra) (fun h => isTicket_of_and (notify := notify) h)
    (fun h => absurd h hp) hdata
  rw [hm, runCommand_silent m p c _ extra s hr (silent_commandByte isTicket_of_and ha hp) hparse, length_frame]

/-- R101, R164: an answering command's frame other than EVENTS clocked whole. -/
theorem exec_answering (hr : s.Ready p) (ha : c.opcode.answers = true) (he : c.opcode ≠ .events) {a : Answer}
    (hanswer : s.answerTo p c.opcode (c.frameBytes false) = a) :
    exec (Instr.ofCommand p c notify (Clocking.whole extra)) s =
      .next (((afterFrame s p (soBytes c.opcode.paramCount (1 + c.params.length + extra.length)
          (resultCode a.result :: a.data))).modifyDev (fun d => d.leaseReloaded p)).endCommand p c false c.opcode.code
        (1 + c.params.length + extra.length) a none) := by
  obtain ⟨m, hm⟩ := exec_ofCommand p c notify (Clocking.whole extra) s
  have hp : c.opcode ≠ .program := fun h => by simp [h, Opcode.answers] at ha
  have himmediate : c.opcode.isTicket = false := by
    cases c <;> first | rfl | cases ha
  have hdata : dataCountRight c = true := by
    cases c <;> first | rfl | exact absurd rfl hp
  have hparse := parseFrame_frameBytes (notify := false) (extra := extra) (fun h => absurd h Bool.false_ne_true)
    (fun h => absurd h hp) hdata
  rw [hm, himmediate, Bool.and_false,
    runCommand_answering m p c extra s hr ha he (length_params hp) hparse hanswer, length_frame]

/-! ## SETLEASE, STATUS, TICKET and TABLE -/

/-- R164: the reload after the setting is written again uses it, and takes no notice of an earlier reload. -/
theorem setLeaseFrame_leaseReloaded (d : Dev) (p : Port) (v : Byte) :
    (d.leaseReloaded p).setLeaseFrame p v =
      d.modifyPort p (fun q => { q with leaseSetting := v, leaseTime := v.toNat * 10000 }) := by
  simp [Dev.setLeaseFrame, Dev.leaseReloaded, Dev.reloadLease, Config.leaseUnit]

end Whole

/-- Settles O13: SETLEASE is a silent command. -/
theorem setleaseFrame : Obligations.SetleaseFrame := by
  intro p v extra s hr hm
  have hphase : ¬ (s.dev.leaseReloaded p).phase = .mounting := hm
  have hrun : exec (.setlease p v (Clocking.whole extra)) s = _ :=
    exec_silent (c := .setlease v) (notify := false) (extra := extra) hr rfl (fun h => nomatch h)
  rw [hrun]
  simp only [State.endCommand, modifyDev_dev, afterFrame_dev, if_neg hphase, withFrame_afterFrame,
    setLeaseFrame_leaseReloaded]
  rfl

/-- R112: a frame that records no outcome leaves the last one. -/
theorem ended_of_no_outcome (s : State) (p : Port) (so : List Byte) (f : Dev → Dev) :
    (afterFrame s p so).modifyDev f = s.ended p so (s.host p).outcome (f s.dev) := by
  simp only [State.modifyDev, State.ended, afterFrame, State.modifyHost]
  exact congrArg (fun h => { s with hosts := h, dev := f s.dev }) (modify_congr _ _ _ rfl)

/-- Three yes/no fields in bits 0 to 2 of a byte. -/
theorem flags_eq (a b c : Bool) :
    byteOfBool a ||| (byteOfBool b <<< 1) ||| (byteOfBool c <<< 2) =
      (if a then 1 else 0) + (if b then 2 else 0) + (if c then 4 else 0) := by
  revert a b c
  decide

/-- R163: the lease remaining as STATUS gives it. -/
theorem leaseRemainingByte_eq (d : Dev) (p : Port) :
    leaseRemainingByte d p =
      if d.holdsClaim p = true ∧ (d.port p).leaseSetting ≠ 0 then BitVec.ofNat 8 (((d.port p).leaseTime + 9999) / 10000)
      else 0 := by
  simp only [leaseRemainingByte, Dev.leaseRemaining, Bool.and_eq_true, bne_iff_ne, byteOfNat, Config.leaseUnit]
  split <;> rfl

/-- Settles O6: the turnaround of STATUS takes the twelve bytes, and its frame end records nothing. -/
theorem statusAnswers : Obligations.StatusAnswers := by
  intro p extra s hr q o response
  have hbytes : statusBytes s p = response := by
    simp only [statusBytes, leaseRemainingByte_eq, flags_eq]
    cases hphase : s.dev.phase <;> simp only [response, hphase] <;> rfl
  have hanswer : s.answerTo p .status (Command.frameBytes .status false) = { result := .ok, data := response } := by
    rw [← hbytes]
    rfl
  have hrun : exec (.status p (Clocking.whole extra)) s = _ :=
    exec_answering (c := .status) (notify := false) (extra := extra) hr rfl (fun h => nomatch h) hanswer
  rw [hrun, State.endCommand, ended_of_no_outcome]
  rfl

/-- R128: the bytes of a ticket with its flags added up. -/
theorem ticketBytes_eq (t : Ticket) :
    ticketBytes t =
      [t.number, ticketKindCode t.kind, ticketStateCode t.state, resultCode t.result, indexCode t.index] ++
        bytesOf32 (t.serial.getD 0) ++ bytesOf16 (BitVec.ofNat 16 t.progress) ++ [copyCode t.copyRead] ++
        bytesOf32 (if t.copyRead = none then 0 else t.generationRead.getD 0) ++
        [(if t.notify then 1 else 0) + (if t.cancelRequested then 2 else 0) + (if t.buffer.isSome then 4 else 0)] := by
  rw [ticketBytes, flags_eq]
  cases t.copyRead <;> rfl

/-- R128: out of MOUNTING a TICKET frame that the turnaround answers with `a`. -/
theorem exec_ticket_of_answer {p : Port} {n : Byte} {extra : List Byte} {s : State} (hr : s.Ready p) {a : Answer}
    (hanswer : s.answerTo p .ticket (Command.frameBytes (.ticket n) false) = a) (ha : a.result ≠ .notready) :
    exec (.ticket p n (Clocking.whole extra)) s =
      .next (s.ended p (soBytes 1 (2 + extra.length) (resultCode a.result :: a.data))
        { command := 0x12, result := a.result, ticket := n } (s.dev.leaseReloaded p)) := by
  have hrun : exec (.ticket p n (Clocking.whole extra)) s = _ :=
    exec_answering (c := .ticket n) (notify := false) (extra := extra) hr rfl (fun h => nomatch h) hanswer
  rw [hrun, State.endCommand, namedNumber, if_neg ha, setOutcome_afterFrame]
  rfl

/-- R128: out of MOUNTING the turnaround looks the ticket up. -/
theorem answerTo_ticket {p : Port} {n : Byte} {s : State} (hm : s.dev.phase ≠ .mounting) :
    s.answerTo p .ticket (Command.frameBytes (.ticket n) false) =
      match (s.dev.ring p).find? (fun t => t.number == n && !t.orphan) with
      | some t => { result := .ok, data := ticketBytes t }
      | none => { result := .unknown, data := [] } := by
  simp only [State.answerTo, if_neg hm]
  rfl

/-- Settles O8: by whether the ring holds the ticket. -/
theorem ticketAnswers : Obligations.TicketAnswers := by
  intro p n extra s hr hm
  have hanswer := answerTo_ticket (p := p) (n := n) hm
  dsimp only
  cases hfound : (s.dev.ring p).find? (fun t => t.number == n && !t.orphan) with
  | none =>
    rw [hfound] at hanswer
    exact exec_ticket_of_answer hr hanswer (fun h => nomatch h)
  | some t =>
    simp only [hfound] at hanswer
    have hrun := exec_ticket_of_answer (extra := extra) hr hanswer (fun h => nomatch h)
    rw [ticketBytes_eq] at hrun
    exact hrun

/-- R33: out of MOUNTING a TABLE frame that the turnaround answers with `a`. -/
theorem exec_table_of_answer {p : Port} {i : Byte} {extra : List Byte} {s : State} (hr : s.Ready p) {a : Answer}
    (hanswer : s.answerTo p .table (Command.frameBytes (.table i) false) = a) :
    exec (.table p i (Clocking.whole extra)) s =
      .next (s.ended p (soBytes 1 (2 + extra.length) (resultCode a.result :: a.data))
        { command := 0x16, result := a.result, ticket := 0 } (s.dev.leaseReloaded p)) := by
  have hrun : exec (.table p i (Clocking.whole extra)) s = _ :=
    exec_answering (c := .table i) (notify := false) (extra := extra) hr rfl (fun h => nomatch h) hanswer
  rw [hrun, State.endCommand, setOutcome_afterFrame]
  rfl

/-- R33: an undefined entry is answered with zeros. -/
theorem tableBytes_of_undefined {e : Entry} (h : e.defined = false) : tableBytes e = List.replicate 43 0 := by
  simp only [tableBytes, entryBytes, h, Bool.false_eq_true, if_false]
  rfl

/-- R33: the bytes of a defined entry. -/
theorem tableBytes_of_defined {e : Entry} (h : e.defined = true) :
    tableBytes e =
      [1, kindCode e.kind, portCode e.owner] ++ bytesOf16 e.base ++ bytesOf16 e.size ++
        [e.readers.zeroExtend 8, if e.fixed then 1 else 0] ++ bytesOf32 e.label ++ bytesOf32 e.serial ++
        (match e.kind with
          | .plain => List.replicate 24 0
          | .image =>
            [copyCode e.live, imagePhaseCode e.phase, e.attempts.zeroExtend 8, if e.fallback then 1 else 0] ++
              bytesOf32 e.generation ++ bytesOf32 e.liveLength ++ bytesOf32 e.liveCheck ++
              bytesOf32 e.fallbackLength ++ bytesOf32 e.fallbackCheck) ++
        [if e.held then 1 else 0,
         match e.kind with
          | .plain => 0
          | .image => claimCode e.claim] := by
  simp only [tableBytes, entryBytes, h, if_true]
  cases e.kind <;> rfl

/-- R33: out of MOUNTING the turnaround looks the entry up. -/
theorem answerTo_table {p : Port} {i : Byte} {s : State} (hm : s.dev.phase ≠ .mounting) :
    s.answerTo p .table (Command.frameBytes (.table i) false) =
      match indexOfCode i with
      | some i => { result := .ok, data := tableBytes (s.dev.entry i) }
      | none => { result := .badarg, data := [] } := by
  simp only [State.answerTo, if_neg hm]
  rfl

/-- Settles O10: an index over 23, an undefined entry and a defined one. -/
theorem tableAnswers : Obligations.TableAnswers := by
  intro p i extra s hr hm
  have hanswer := answerTo_table (p := p) (i := i) hm
  dsimp only
  by_cases hi : 24 ≤ i.toNat
  · have hnone : indexOfCode i = none := if_neg (Nat.not_lt.mpr hi)
    simp only [hnone] at hanswer
    simp only [if_pos hi]
    exact exec_table_of_answer hr hanswer
  · simp only [indexOfCode_of_le (show ¬ 23 < i.toNat by omega)] at hanswer
    have hrun := exec_table_of_answer (extra := extra) hr hanswer
    simp only [if_neg hi]
    cases hd : (s.dev.entry i.toNat).defined with
    | false =>
      rw [tableBytes_of_undefined hd] at hrun
      exact hrun
    | true =>
      rw [tableBytes_of_defined hd] at hrun
      exact hrun

end Sys2Proof.Proofs

/-!
PROOF. EVENTS (R177, R178), the frames of MOUNTING (R105), and malformed frames (R103).
-/

namespace Sys2Proof.Proofs

set_option Elab.async false

open Sys2Proof Sys2Proof.Machine Sys2Proof.Laws

/-! ## An EVENTS frame, byte by byte -/

section Events
variable {p : Port} {a : Answer} {s : State}

/-- A host side replaced by one equal to it where it stands. -/
theorem modifyHost_congr {f g : HostPort → HostPort} (h : f (s.host p) = g (s.host p)) :
    s.modifyHost p f = s.modifyHost p g :=
  congrArg (fun hosts => { s with hosts := hosts }) (modify_congr _ _ _ h)

/-- A port of the shared side replaced by one equal to it where it stands. -/
theorem modifyPort_congr {d : Dev} {f g : PortState → PortState} (h : f (d.port p) = g (d.port p)) :
    d.modifyPort p f = d.modifyPort p g :=
  congrArg (fun ports => { d with ports := ports }) (modify_congr _ _ _ h)

/-- Two frames that leave the same shared side end in the same state. -/
theorem next_ended_congr {so : List Byte} {o : LastOutcome} {d e : Dev} (h : d = e) :
    (.next (s.ended p so o d) : Host.Outcome State Fault Refusal) = .next (s.ended p so o e) :=
  h ▸ rfl

/-- R101: the byte SOn carries after the turnaround of a frame. -/
theorem outByte_shifterAnswered {c : Byte} {rest : List Byte} {o : Opcode} {notify : Bool}
    (ho : opcodeOf c = some (o, notify)) (i : Nat) :
    (shifterAnswered (c :: rest) a).outByte i =
      if o.paramCount + 2 ≤ i then (resultCode a.result :: a.data).getD (i - (o.paramCount + 2)) 0xFF else 0xFF := by
  simp only [Shifter.outByte, shifterAnswered, ho]

/-- R101, R177: a byte of an EVENTS frame after its turnaround is an event of its own only where it completes the count
byte of a frame that was answered OK. -/
theorem byteDone_events {rest : List Byte} (b : Byte) (hs : (s.host p).shifter = shifterAnswered (0x11 :: rest) a)
    (hso : (s.host p).so = answered 0 (0x11 :: rest).length a) (hquiet : rest.length = 2 → a.result ≠ .ok) :
    s.byteDone p b =
      s.modifyHost p (fun g =>
        { g with soBits := [], so := answered 0 ((0x11 :: rest).length + 1) a
                 shifter := shifterAnswered (0x11 :: rest ++ [b]) a }) := by
  have hop : opcodeOf 0x11 = some (.events, false) := opcodeOf_code .events
  have hnothing (t : State) (ht : (t.host p).shifter.answer = some a) :
      t.onByte p (0x11 :: rest ++ [b]) (0x11 :: rest).length b = t := by
    have hcount : ¬ ((0x11 :: rest).length = 3 ∧ a.result = .ok) := fun ⟨hlength, hok⟩ =>
      hquiet (Nat.succ.inj hlength) hok
    unfold State.onByte
    simp only [List.cons_append, List.getD_cons_zero, hop, show Opcode.events.answers = true from rfl, if_true, ht,
      Option.map_some, Option.some.injEq, true_and, if_neg hcount]
    exact if_neg (Nat.succ_ne_zero _)
  rw [byteDone_of s p b _ hs]
  refine (hnothing _ (by simp [shifterAnswered])).trans (modifyHost_congr ?_)
  rw [hso, answered_succ, outByte_shifterAnswered hop]
  rfl

/-- R101, R177: the bytes of an EVENTS frame after its turnaround, where they do not complete the count byte of a frame
that was answered OK. -/
theorem clock_events (bs rest : List Byte) (s : State)
    (hs : (s.host p).shifter = shifterAnswered (0x11 :: rest) a) (hso : (s.host p).so = answered 0 (0x11 :: rest).length a)
    (hb : (s.host p).soBits = []) (hquiet : rest.length + bs.length ≤ 2 ∨ a.result ≠ .ok) :
    bs.foldl (fun s b => s.byteDone p b) s =
      s.modifyHost p (fun g =>
        { g with soBits := [], so := answered 0 ((0x11 :: rest).length + bs.length) a
                 shifter := shifterAnswered (0x11 :: rest ++ bs) a }) := by
  induction bs generalizing rest s with
  | nil =>
    have hsame : s = s.modifyHost p (fun g => g) := by simp [State.modifyHost]
    refine hsame.trans (modifyHost_congr ?_)
    simp only [List.append_nil, List.length_nil, Nat.add_zero, ← hs, ← hso, ← hb]
  | cons b bs ih =>
    have hnow : rest.length = 2 → a.result ≠ .ok := fun hl => hquiet.resolve_left (by
      rw [List.length_cons]
      omega)
    rw [List.foldl_cons, byteDone_events b hs hso hnow, ih (rest ++ [b]), modifyHost_modifyHost]
    · refine modifyHost_congr ?_
      simp [Nat.add_assoc, Nat.add_comm, Nat.add_left_comm]
    · simp
    · simp
    · simp
    · refine hquiet.imp_left (fun h => ?_)
      simp only [List.length_append, List.length_cons, List.length_nil] at h ⊢
      omega

/-- R101, R177: what the turnaround of an EVENTS frame that is answered `a` leaves of the shared side. -/
def watchBegun (p : Port) (a : Answer) (d : Dev) : Dev :=
  if a.result = .ok then d.modifyPort p (fun q => { q with events := { q.events with discarded := false } }) else d

/-- R101: the command byte of an EVENTS frame is its turnaround's. -/
theorem byteDone_events_turnaround (ha : s.answerTo p .events [0x11] = a) :
    (s.modifyHost p (fun h => { h with selected := true, shifter := shifterWith [], soBits := [], so := [] })).byteDone p
      0x11 =
      (s.modifyHost p (fun h =>
        { h with selected := true, shifter := shifterAnswered [0x11] a, soBits := [], so := answered 0 1 a })).modifyDev
        (watchBegun p a) := by
  have hop : opcodeOf 0x11 = some (.events, false) := opcodeOf_code .events
  rw [byteDone_of _ p _ (shifterWith []) (by simp), modifyHost_modifyHost]
  have hturn (t : State) (ht : t.answerTo p .events [0x11] = a) : t.onByte p [0x11] 0 0x11 =
      (t.modifyShifter p (fun h => { h with answer := some a })).modifyDev (watchBegun p a) := by
    unfold State.onByte State.turnaround watchBegun
    simp only [List.getD_cons_zero, hop, show Opcode.events.answers = true from rfl, if_true,
      show Opcode.events.paramCount = 0 from rfl, ht, true_and]
    split <;> rfl
  refine (hturn _ ((answerTo_modifyHost s p _ .events [0x11] (by rfl)).trans ha)).trans ?_
  rw [modifyShifter_eq, modifyHost_modifyHost]
  rfl

/-- R177: an EVENTS frame that ends before its count byte, or that is not answered OK, clocked whole. -/
theorem runFrame_events_short (m : String) (extra : List Byte) (hr : s.Ready p) (ha : s.answerTo p .events [0x11] = a)
    (hquiet : extra.length ≤ 2 ∨ a.result ≠ .ok) :
    runFrame m p (Command.frameBytes .events false) (Clocking.whole extra) s =
      .next (endedFrame ((afterFrame s p (answered 0 (1 + extra.length) a)).modifyDev (watchBegun p a)) p
        (shifterAnswered (0x11 :: extra) a)) := by
  obtain ⟨hselected, htakes⟩ := hr
  rw [runFrame_whole m p _ extra s hselected htakes, show Command.frameBytes .events false ++ extra = 0x11 :: extra from rfl,
    List.foldl_cons, byteDone_events_turnaround ha,
    clock_events (a := a) extra [] _ (by simp) (by simp) (by simp) (by simpa using hquiet),
    clockBits_nil _ _ (by simp [shifterAnswered]) (by simp), deselect_active _ _ (by simp [shifterAnswered]) (by simp)]
  simp only [afterFrame, modifyDev_modifyHost, modifyHost_modifyHost, modifyDev_host, modifyHost_host_same]
  rfl

/-! ## The end of an EVENTS frame -/

theorem length_eventsBytes (q : EventQueue) : (eventsBytes q).length = 1 + 8 * q.records.length := by
  have hrecords (rs : List Event) : (rs.flatMap eventBytes).length = 8 * rs.length := by
    induction rs with
    | nil => rfl
    | cons e rs ih =>
      rw [List.flatMap_cons, List.length_append, ih, List.length_cons, Nat.mul_succ, Nat.add_comm]
      rfl
  rw [eventsBytes, List.length_cons, hrecords, Nat.add_comm]

/-- R177: the bytes after the result byte: the count with the lost flag, and the records. -/
theorem eventsBytes_eq (q : EventQueue) :
    eventsBytes q =
      (BitVec.ofNat 8 q.records.length ||| (if q.lost then 0x80 else 0)) :: q.records.flatMap (fun e =>
        [eventKindCode e.kind, e.ticket, indexCode e.partition, resultCode e.result] ++ bytesOf32 e.generation) := by
  have hflag : byteOfBool q.lost <<< 7 = if q.lost then (0x80 : Byte) else 0 := by
    cases q.lost <;> rfl
  rw [eventsBytes, hflag]
  rfl

/-- R178: the end of an EVENTS frame of `n + 4` or fewer bytes that the turnaround answered with the queue as it stood. -/
theorem eventsFrame_of_ok (d : Dev) (p : Port) (q : EventQueue) (bytes : Nat) :
    d.eventsFrame p { result := .ok, data := eventsBytes q } bytes =
      d.modifyPort p (fun r =>
        { r with events :=
          { r.events with records := r.events.records.drop (min q.records.length ((bytes - 4) / 8)) } }) := by
  have hcount : (1 + 8 * q.records.length - 1) / 8 = q.records.length := by omega
  simp only [Dev.eventsFrame, if_true, eventsShifted, length_eventsBytes, hcount]

/-- R178, R164: an EVENTS frame clocked whole whose turnaround took `a`, from its state before its end. -/
theorem endedFrame_events (d : Dev → Dev) (so extra : List Byte) :
    endedFrame ((afterFrame s p so).modifyDev d) p (shifterAnswered (0x11 :: extra) a) =
      s.ended p so { command := 0x11, result := a.result, ticket := 0 }
        (((d s.dev).leaseReloaded p).eventsFrame p a (1 + extra.length)) := by
  have hparse : parseFrame (shifterAnswered (0x11 :: extra) a).bytes = .command .events false :=
    parseFrame_frameBytes (c := .events) (notify := false) (extra := extra) (fun h => nomatch h) (fun h => nomatch h) rfl
  have hend : endedFrame ((afterFrame s p so).modifyDev d) p (shifterAnswered (0x11 :: extra) a) =
      ((afterFrame s p so).modifyDev (fun x => ((d x).leaseReloaded p).eventsFrame p a (extra.length + 1))).setOutcome p
        0x11 a.result 0 := by
    rw [endedFrame, hparse]
    rfl
  rw [hend, setOutcome_afterFrame, Nat.add_comm]

end Events

/-- Settles O7: a frame with the count byte, and a shorter one. -/
theorem eventsShiftedOut : Obligations.EventsShiftedOut := by
  intro p extra s hr hm
  dsimp only
  rw [← eventsBytes_eq]
  have hanswer : s.answerTo p .events [0x11] = { result := .ok, data := eventsBytes (s.dev.port p).events } := by
    simp only [State.answerTo, if_neg hm]
    rfl
  by_cases hcount : 3 ≤ extra.length
  · obtain ⟨x, y, z, rest, rfl⟩ : ∃ x y z rest, extra = x :: y :: z :: rest := by
      match extra, hcount with
      | x :: y :: z :: rest, _ => exact ⟨x, y, z, rest, rfl⟩
    have hrun : exec (.events p (Clocking.whole (x :: y :: z :: rest))) s = _ :=
      runFrame_events "EVENTS" p x y z rest s hr.1 hr.2 hm
    have hbytes : 1 + (x :: y :: z :: rest).length = 4 + rest.length := by
      simp only [List.length_cons]
      omega
    rw [hrun, show [0x11, x, y, z] ++ rest = 0x11 :: x :: y :: z :: rest from rfl, endedFrame_events, eventsFrame_of_ok,
      if_pos hcount, hbytes]
    simp only [Dev.leaseReloaded, modifyPort_modifyPort, List.length_cons, Nat.add_sub_cancel_left]
    exact next_ended_congr (modifyPort_congr rfl)
  · have hrun : exec (.events p (Clocking.whole extra)) s = _ :=
      runFrame_events_short "EVENTS" extra hr hanswer (.inl (by omega))
    have hnone : (1 + extra.length - 4) / 8 = 0 := by omega
    rw [hrun, endedFrame_events, eventsFrame_of_ok, if_neg hcount, hnone]
    simp only [watchBegun, if_true, Dev.leaseReloaded, modifyPort_modifyPort, Nat.min_zero, List.drop_zero]
    exact next_ended_congr (modifyPort_congr rfl)

/-! ## A PROGRAM frame -/

section Program
variable {p : Port} {notify : Bool} {i : Byte} {offset : Word32} {length : Half16} {data : List Byte} {s : State}

/-- R102, R164: the end of a PROGRAM frame that has the buffer `b`. -/
theorem endedFrame_program (f : Dev → Dev) (so : List Byte) (b : Option (List Byte)) (hd : data.length = length.toNat) :
    endedFrame ((afterFrame s p so).modifyDev f) p
        (shifterData (Command.frameBytes (.program i offset length data) notify) b) =
      ((afterFrame s p so).modifyDev (fun d => (f d).leaseReloaded p)).endCommand p (.program i offset length data) notify
        (commandByte .program notify) (8 + data.length) { result := .notready, data := [] } b := by
  have hdata : dataCountRight (.program i offset length data) = true := by simpa [dataCountRight] using hd
  have hparse := parseFrame_frameBytes (c := .program i offset length data) (notify := notify) (extra := [])
    (fun _ => rfl) (fun _ => rfl) hdata
  rw [List.append_nil] at hparse
  have hlength : (Command.frameBytes (.program i offset length data) notify).length = 8 + data.length := by
    rw [← List.append_nil (Command.frameBytes _ _), length_frame]
    simp [Command.params]
    omega
  have hbytes : (shifterData (Command.frameBytes (.program i offset length data) notify) b).bytes =
      Command.frameBytes (.program i offset length data) notify := rfl
  rw [endedFrame, hbytes, hparse, hlength]
  rfl

/-- R109: a PROGRAM frame clocked whole whose request for a buffer is granted. -/
theorem exec_program_granted (hr : s.Ready p) (hd : data.length = length.toNat) (hg : grantsFrame s p length) :
    exec (.program p notify i offset length data (Clocking.whole [])) s =
      .next (((afterFrame s p (silentBytes (8 + data.length))).modifyDev (fun d =>
        (d.takeBuffer p).leaseReloaded p)).endCommand p (.program i offset length data) notify
          (commandByte .program notify) (8 + data.length) { result := .notready, data := [] } (some data)) := by
  have hrun : exec (.program p notify i offset length data (Clocking.whole [])) s = _ :=
    (runFrame_program "PROGRAM" p notify i offset length data s hr.1 hr.2 hd).1 hg
  rw [hrun, endedFrame_program _ _ _ hd]
  rfl

/-- R109: a PROGRAM frame clocked whole that gets no buffer. -/
theorem exec_program_refused (hr : s.Ready p) (hd : data.length = length.toNat) (hg : ¬ grantsFrame s p length) :
    exec (.program p notify i offset length data (Clocking.whole [])) s =
      .next (((afterFrame s p (silentBytes (8 + data.length))).modifyDev (fun d => d.leaseReloaded p)).endCommand p
        (.program i offset length data) notify (commandByte .program notify) (8 + data.length)
        { result := .notready, data := [] } none) := by
  have hrun : exec (.program p notify i offset length data (Clocking.whole [])) s = _ :=
    (runFrame_program "PROGRAM" p notify i offset length data s hr.1 hr.2 hd).2 hg
  rw [hrun, ← endedFrame_program (fun d => d) _ _ hd]
  rfl

end Program

/-! ## The frames of MOUNTING -/

/-- R105: during MOUNTING a command that does not answer has no effect, and its outcome is NOTREADY. -/
theorem endCommand_mounting {s : State} {p : Port} {c : Command} {notify : Bool} {command : Byte} {bytes : Nat}
    {a : Answer} {b : Option (List Byte)} (ha : c.opcode.answers = false) (hm : s.dev.phase = .mounting) :
    s.endCommand p c notify command bytes a b = (s.dropFrameBuffer p b).setOutcome p command .notready 0 := by
  cases c <;> first | exact if_pos hm | cases ha

/-- R105, R164: the end during MOUNTING of a frame that does not answer and holds no buffer. -/
theorem endCommand_afterFrame_mounting {s : State} {p : Port} {so : List Byte} {c : Command} {notify : Bool}
    {command : Byte} {bytes : Nat} {a : Answer} (ha : c.opcode.answers = false) (hm : s.dev.phase = .mounting) :
    ((afterFrame s p so).modifyDev (fun d => d.leaseReloaded p)).endCommand p c notify command bytes a none =
      s.ended p so { command := command, result := .notready, ticket := 0 } (s.dev.leaseReloaded p) := by
  have hphase : ((afterFrame s p so).modifyDev (fun d => d.leaseReloaded p)).dev.phase = .mounting := hm
  rw [endCommand_mounting ha hphase, dropFrameBuffer_none, setOutcome_afterFrame]

/-- R105: during MOUNTING the turnaround answers everything but STATUS with NOTREADY. -/
theorem answerTo_mounting {s : State} {p : Port} {o : Opcode} {bs : List Byte} (ho : o ≠ .status)
    (hm : s.dev.phase = .mounting) : s.answerTo p o bs = { result := .notready, data := [] } := by
  simp only [State.answerTo, if_neg ho, if_pos hm]

/-- R105, R178, R130: a frame that was answered NOTREADY has no effect at its end, and names no ticket. -/
theorem endCommand_notready {s : State} {p : Port} {c : Command} {command : Byte} {bytes : Nat}
    (ha : c.opcode.answers = true) (hs : c ≠ .status) :
    s.endCommand p c false command bytes { result := .notready, data := [] } none =
      s.setOutcome p command .notready 0 := by
  cases c with
  | status => exact absurd rfl hs
  | events => rfl
  | ticket n => rfl
  | fetch n => rfl
  | table i => rfl
  | _ => cases ha

/-- Settles O3: the silent commands, PROGRAM, EVENTS and the other commands that answer. -/
theorem mountingRefusesFrames : Obligations.MountingRefusesFrames := by
  intro p c notify extra s hr hm hs hd he
  have hopcode : c.opcode ≠ .status := fun h => hs (by cases c <;> first | rfl | cases h)
  have hanswer (bs : List Byte) := answerTo_mounting (p := p) (bs := bs) hopcode hm
  cases ha : c.opcode.answers with
  | false =>
    rw [if_neg Bool.false_ne_true]
    by_cases hp : c.opcode = .program
    · cases c with
      | program i offset length data =>
        obtain rfl := he rfl
        have hlength : data.length = length.toNat := by simpa [dataCountRight] using hd
        have hcount : 1 + (Command.program i offset length data).params.length + ([] : List Byte).length =
            8 + data.length := by
          simp [Command.params]
          omega
        have hrun : exec (Instr.ofCommand p (.program i offset length data) notify (Clocking.whole [])) s = _ :=
          exec_program_refused hr hlength (fun hg => hg.1 hm)
        rw [hrun, endCommand_afterFrame_mounting ha hm, hcount,
          show (Command.program i offset length data).opcode.isTicket = true from rfl, Bool.and_true]
        rfl
      | _ => cases hp
    · rw [exec_silent hr ha hp, endCommand_afterFrame_mounting ha hm]
  | true =>
    have himmediate : c.opcode.isTicket = false := by
      cases c <;> first | rfl | cases ha
    rw [if_pos rfl, himmediate, Bool.and_false]
    by_cases hevents : c.opcode = .events
    · cases c with
      | events =>
        have hrun : exec (Instr.ofCommand p .events notify (Clocking.whole extra)) s = _ :=
          runFrame_events_short "EVENTS" extra hr (hanswer [0x11]) (.inr (fun h => nomatch h))
        rw [hrun, endedFrame_events]
        rfl
      | _ => cases hevents
    · rw [exec_answering hr ha hevents (hanswer _), endCommand_notready ha hs, setOutcome_afterFrame]
      rfl

/-! ## Malformed frames -/

section Malformed
variable {p : Port} {s : State}

/-- R99: a frame of whose bytes none is an event of its own, clocked whole. -/
theorem runFrame_plain (m : String) (frame : List Byte) (hr : s.Ready p)
    (hplain : ∀ (t : State) (k : Nat) (b : Byte), k < frame.length → (t.host p).shifter.answer = none →
      t.onByte p (frame.take (k + 1)) k b = t) :
    runFrame m p frame (Clocking.whole []) s =
      .next (endedFrame (afterFrame s p (silentBytes frame.length)) p (shifterWith frame)) := by
  obtain ⟨hselected, htakes⟩ := hr
  rw [runFrame_whole m p frame [] s hselected htakes, List.append_nil,
    clock_plain p frame [] _ (by simp) (by simp) (by simpa using hplain), clockBits_nil _ _ (by simp [shifterWith]) (by simp),
    deselect_active _ _ (by simp [shifterWith]) (by simp)]
  simp only [afterFrame, modifyHost_modifyHost, List.nil_append, modifyHost_host_same]
  rfl

/-- R103: a malformed frame is one of a known command, with too few parameter bytes or PROGRAM's with a wrong count of
data bytes. -/
theorem malformed_cases {c : Byte} {bytes : List Byte} (h : malformedBytes (c :: bytes) = true) :
    ∃ o notify, opcodeOf c = some (o, notify) ∧ (bytes.length < o.paramCount ∨ (o = .program ∧ 7 ≤ bytes.length)) := by
  unfold malformedBytes parseFrame at h
  cases ho : opcodeOf c with
  | none => simp [ho] at h
  | some x =>
    obtain ⟨o, notify⟩ := x
    refine ⟨o, notify, rfl, ?_⟩
    by_cases hshort : bytes.length < o.paramCount
    · exact .inl hshort
    · have hdata : dataCountRight (commandOf o (c :: bytes)) ≠ true := fun hd => by
        simp [ho, hshort, hd] at h
      cases o with
      | program => exact .inr ⟨rfl, Nat.le_of_not_lt hshort⟩
      | _ => exact absurd rfl hdata

/-- R103: the parse of a malformed frame. -/
theorem parseFrame_of_malformedBytes {c : Byte} {bytes : List Byte} (h : malformedBytes (c :: bytes) = true) :
    parseFrame (c :: bytes) = .malformed c := by
  obtain ⟨o, notify, ho, _⟩ := malformed_cases h
  unfold malformedBytes at h
  by_cases hshort : bytes.length < o.paramCount
  · exact parseFrame_of_short ho hshort
  · refine parseFrame_of_wrongCount ho (Bool.eq_false_iff.mpr fun hd => ?_)
    rw [parseFrame_of_opcodeOf ho (Nat.le_of_not_lt hshort) hd] at h
    cases h

/-- R139: a buffer given back after it was taken leaves the pool as it was. -/
theorem give_take {b : Pool} (h : 1 ≤ b.free) : (b.take p).give p = b := by
  obtain ⟨free, h0, h1, h2⟩ := b
  have hfree : free - 1 + 1 = free := Nat.sub_add_cancel h
  cases p <;> simp only [Pool.take, Pool.give, PerPort.modify, PerPort.set, PerPort.get, hfree, Nat.add_sub_cancel]

theorem giveBuffer_takeBuffer {d : Dev} (h : 1 ≤ d.pool.free) : (d.takeBuffer p).giveBuffer p = d :=
  congrArg (fun pool => { d with pool := pool }) (give_take h)

end Malformed

/-- Settles O2: a frame too short for an event of its own, and a PROGRAM frame that asked for its buffer. -/
theorem malformedFrameRefused : Obligations.MalformedFrameRefused := by
  intro p c bytes s hr hmal hpool
  have hparse := parseFrame_of_malformedBytes hmal
  obtain ⟨o, notify, ho, hshort | ⟨rfl, hseven⟩⟩ := malformed_cases hmal
  · have hplain (t : State) (k : Nat) (b : Byte) (hk : k < (c :: bytes).length)
        (hnone : (t.host p).shifter.answer = none) : t.onByte p ((c :: bytes).take (k + 1)) k b = t :=
      onByte_beforeTurnaround t p _ k b o notify ho (by rw [List.length_cons] at hk; omega) hnone
    have hrun : exec (.malformedFrame p c bytes (Clocking.whole [])) s = _ :=
      runFrame_plain "MALFORMED_FRAME" (c :: bytes) hr hplain
    rw [hrun, endedFrame, show (shifterWith (c :: bytes)).bytes = c :: bytes from rfl, hparse, List.length_cons,
      Nat.add_comm]
    exact congrArg Host.Outcome.next (setOutcome_afterFrame s p _ c 0 .frame (fun d => d))
  · obtain ⟨six, last, data, hsix, rfl⟩ : ∃ six last data, six.length = 6 ∧ bytes = six ++ [last] ++ data := by
      refine ⟨bytes.take 6, bytes[6], bytes.drop 7, List.length_take_of_le (by omega), ?_⟩
      rw [List.append_assoc, List.singleton_append, List.getElem_cons_drop, List.take_append_drop]
    have hcount : 1 + (six ++ [last] ++ data).length = 8 + data.length := by
      simp only [List.length_append, hsix, List.length_singleton]
      omega
    obtain ⟨hgranted, hrefused⟩ := runFrame_programBytes "MALFORMED_FRAME" p notify (c :: six) last data s hr.1 hr.2
      (by rw [List.length_cons, hsix]) ho
    have hbytes (b : Option (List Byte)) : (shifterData (c :: six ++ [last] ++ data) b).bytes =
        c :: (six ++ [last] ++ data) := rfl
    have hrun : exec (.malformedFrame p c (six ++ [last] ++ data) (Clocking.whole [])) s =
        runFrame "MALFORMED_FRAME" p (c :: six ++ [last] ++ data) (Clocking.whole []) s := rfl
    rw [hrun, hcount]
    by_cases hg : grantsFrame s p (half16At (c :: six ++ [last]) 6)
    · have hback : (s.dev.takeBuffer p).giveBuffer p = s.dev := giveBuffer_takeBuffer (hpool hg.2.2.2)
      rw [hgranted hg, endedFrame, hbytes, hparse]
      refine congrArg Host.Outcome.next ((setOutcome_afterFrame s p _ c 0 .frame
        (fun d => (d.takeBuffer p).giveBuffer p)).trans ?_)
      rw [hback]
      rfl
    · rw [hrefused hg, endedFrame, hbytes, hparse]
      exact congrArg Host.Outcome.next (setOutcome_afterFrame s p _ c 0 .frame (fun d => d))

end Sys2Proof.Proofs

/-!
PROOF. The checks of a ticket frame (R106 to R108): each refusal as a fact about Dev.acceptCheck, what a refused frame
leaves, and the chains of checks kind by kind.
-/

namespace Sys2Proof.Proofs

set_option Elab.async false

open Sys2Proof Sys2Proof.Machine Sys2Proof.Laws

/-! ## The checks of R106, one by one -/

section Checks
variable {d : Dev} {p : Port} {k : TicketKind} {i : Nat} {index : Option Nat} {b : Option (List Byte)} {r : Result}

/-- R106 steps 2 to 5: the first of these checks that fails decides. -/
theorem acceptCheck_of_entry (h : d.acceptEntry p k index = some r) : d.acceptCheck p k index b = some r := by
  simp only [Dev.acceptCheck, h]

theorem acceptEntry_undefined (hd : (d.entry i).defined = false) : d.acceptEntry p k (some i) = some .nopart := by
  simp [Dev.acceptEntry, hd]

theorem acceptEntry_arguments (hd : (d.entry i).defined = true) (ha : entryArguments k (d.entry i) = false) :
    d.acceptEntry p k (some i) = some .badarg := by
  simp [Dev.acceptEntry, hd, ha]

theorem acceptEntry_rights (hd : (d.entry i).defined = true) (ha : entryArguments k (d.entry i) = true)
    (hr : hasRights p k (d.entry i) = false) : d.acceptEntry p k (some i) = some .denied := by
  simp [Dev.acceptEntry, hd, ha, hr]

theorem acceptEntry_locked (hd : (d.entry i).defined = true) (ha : entryArguments k (d.entry i) = true)
    (hr : hasRights p k (d.entry i) = true) (hl : lockBlocks k (d.entry i) = true) :
    d.acceptEntry p k (some i) = some .locked := by
  simp [Dev.acceptEntry, hd, ha, hr, hl]

theorem acceptEntry_passes (hd : (d.entry i).defined = true) (ha : entryArguments k (d.entry i) = true)
    (hr : hasRights p k (d.entry i) = true) (hl : lockBlocks k (d.entry i) = false) :
    d.acceptEntry p k (some i) = none := by
  simp [Dev.acceptEntry, hd, ha, hr, hl]

/-- R108: the check of the phase. -/
theorem acceptCheck_jdead (he : d.acceptEntry p k index = none)
    (hj : d.phase = .degraded ∧ refusedInDegraded k (d.entry (index.getD 24)) = true) :
    d.acceptCheck p k index b = some .jdead := by
  simp only [Dev.acceptCheck, he, if_pos hj]

/-- R114: the check of the ring. -/
theorem acceptCheck_ringfull (he : d.acceptEntry p k index = none)
    (hj : ¬ (d.phase = .degraded ∧ refusedInDegraded k (d.entry (index.getD 24)) = true))
    (hf : 8 ≤ (d.ring p).length) : d.acceptCheck p k index b = some .ringfull := by
  simp only [Dev.acceptCheck, he, if_neg hj]
  exact if_pos hf

/-- R106 step 8: the check of the buffer. -/
theorem acceptCheck_nobuf (he : d.acceptEntry p k index = none)
    (hj : ¬ (d.phase = .degraded ∧ refusedInDegraded k (d.entry (index.getD 24)) = true))
    (hf : ¬ 8 ≤ (d.ring p).length) (hb : d.bufferAvailable p k b = false) :
    d.acceptCheck p k index b = some .nobuf := by
  have hring : ¬ Config.ringSize ≤ (d.ring p).length := hf
  simp [Dev.acceptCheck, he, hj, hring, hb]

/-- R106: every check passes. -/
theorem acceptCheck_passes (ha : d.Accepts p k index) (hb : d.bufferAvailable p k b = true) :
    d.acceptCheck p k index b = none := by
  obtain ⟨hentry, hj, hf⟩ := ha
  have he : d.acceptEntry p k index = none := by
    cases index with
    | none => rfl
    | some i =>
      obtain ⟨hd, harguments, hr, hl⟩ := hentry i rfl
      exact acceptEntry_passes hd harguments hr hl
  have hring : ¬ Config.ringSize ≤ (d.ring p).length := Nat.not_le.mpr hf
  simp [Dev.acceptCheck, he, hj, hring, hb]

/-- R164: no check reads a lease. -/
theorem acceptCheck_leaseReloaded : (d.leaseReloaded p).acceptCheck p k index b = d.acceptCheck p k index b := by
  unfold Dev.acceptCheck
  rw [ring_leaseReloaded]
  rfl

/-- R109: a frame that holds its buffer is checked as it would be before the buffer was granted. -/
theorem acceptCheck_takeBuffer {data : List Byte} {offset : Word32} {length : Half16} :
    (d.takeBuffer p).acceptCheck p (.program offset length) index (some data) =
      d.acceptCheck p (.program offset length) index (some data) := rfl

end Checks

/-! ## A ticket frame that is refused -/

section Refused
variable {p : Port} {c : Command} {notify : Bool} {extra : List Byte} {s : State} {r : Result}

/-- R106: the code with which a ticket frame other than PROGRAM is refused. -/
def ticketRefusal (d : Dev) (p : Port) (c : Command) : Option Result :=
  match ticketRequest p c with
  | none => some .badarg
  | some (k, index) => d.acceptCheck p k index none

theorem ticketRefusal_of_none {d : Dev} (h : ticketRequest p c = none) : ticketRefusal d p c = some .badarg := by
  simp only [ticketRefusal, h]

theorem ticketRefusal_of_request {d : Dev} {k : TicketKind} {index : Option Nat} (h : ticketRequest p c = some (k, index)) :
    ticketRefusal d p c = d.acceptCheck p k index none := by
  simp only [ticketRefusal, h]

/-- R102: out of MOUNTING the end of a ticket command's frame is a ticket frame's. -/
theorem endCommand_ticket {command : Byte} {bytes : Nat} {a : Answer} {b : Option (List Byte)}
    (ht : c.opcode.isTicket = true) (hm : s.dev.phase ≠ .mounting) :
    s.endCommand p c notify command bytes a b = s.endTicketFrame p c notify command b := by
  cases c <;> first | exact if_neg hm | cases ht

/-- R102, R164: a ticket frame other than PROGRAM clocked whole out of MOUNTING. -/
theorem exec_ticketFrame (hr : s.Ready p) (hm : s.dev.phase ≠ .mounting) (ht : c.opcode.isTicket = true)
    (hp : c.opcode ≠ .program) :
    exec (Instr.ofCommand p c notify (Clocking.whole extra)) s =
      .next (((afterFrame s p (silentBytes (1 + c.params.length + extra.length))).modifyDev
        (fun d => d.leaseReloaded p)).endTicketFrame p c notify (commandByte c.opcode notify) none) := by
  have ha : c.opcode.answers = false := by
    cases c <;> first | rfl | cases ht
  have hphase : ((afterFrame s p (silentBytes (1 + c.params.length + extra.length))).modifyDev
      (fun d => d.leaseReloaded p)).dev.phase ≠ .mounting := hm
  rw [exec_silent hr ha hp, endCommand_ticket ht hphase, ht, Bool.and_true]

/-- R106: a refused ticket frame without a buffer leaves its outcome and the reload of the lease. -/
theorem endTicketFrame_refused {so : List Byte} {command : Byte} (h : ticketRefusal s.dev p c = some r) :
    ((afterFrame s p so).modifyDev (fun d => d.leaseReloaded p)).endTicketFrame p c notify command none =
      s.ended p so { command := command, result := r, ticket := 0 } (s.dev.leaseReloaded p) := by
  cases hreq : ticketRequest p c with
  | none =>
    obtain rfl : r = .badarg := (Option.some.inj ((ticketRefusal_of_none hreq).symm.trans h)).symm
    simp only [State.endTicketFrame, hreq, dropFrameBuffer_none, setOutcome_afterFrame]
  | some x =>
    obtain ⟨k, index⟩ := x
    have hcheck := ticketRefusal_of_request (d := s.dev) hreq
    rw [h] at hcheck
    simp only [State.endTicketFrame, hreq, modifyDev_dev, afterFrame_dev, acceptCheck_leaseReloaded, ← hcheck,
      dropFrameBuffer_none, setOutcome_afterFrame]

theorem exec_ticketFrame_refused (hr : s.Ready p) (hm : s.dev.phase ≠ .mounting) (ht : c.opcode.isTicket = true)
    (hp : c.opcode ≠ .program) (h : ticketRefusal s.dev p c = some r) :
    exec (Instr.ofCommand p c notify (Clocking.whole extra)) s =
      .next (s.ended p (silentBytes (1 + c.params.length + extra.length))
        { command := commandByte c.opcode notify, result := r, ticket := 0 } (s.dev.leaseReloaded p)) := by
  rw [exec_ticketFrame hr hm ht hp, endTicketFrame_refused h]

end Refused

/-! ## Chains of checks -/

/-- The first check that fails gives the answer. -/
def Answers (refused : Result → Prop) (checks : List (Prop × Result)) : Prop :=
  checks.foldr (fun x rest => (x.1 → refused x.2) ∧ (¬ x.1 → rest)) True

section Kinds
variable {d : Dev} {p : Port} {c : Command} {k : TicketKind} {i : Byte} {refused : Result → Prop}

theorem indexOfCode_of_lt (h : i.toNat < 24) : indexOfCode i = some i.toNat := if_pos h

theorem indexOfCode_of_not_lt (h : ¬ i.toNat < 24) : indexOfCode i = none := if_neg h

/-- R30: a defined entry is locked where it is FIXED or HELD. -/
theorem locked_iff {e : Entry} (hd : e.defined = true) : e.locked = true ↔ e.fixed = true ∨ e.held = true := by
  cases hf : e.fixed <;> cases hh : e.held <;> simp [Entry.locked, Entry.lock, hd, hf, hh]

/-- R106 to R108: the checks of a modifying kind that names an entry and asks for no buffer. -/
theorem named_answers {ranges inEntry locked jdead : Prop}
    (hrefused : ∀ r, ticketRefusal d p c = some r → refused r)
    (hrequest : i.toNat < 24 ∧ ranges → ticketRequest p c = some (k, some i.toNat))
    (hnone : ¬ (i.toNat < 24 ∧ ranges) → ticketRequest p c = none)
    (harguments : inEntry ↔ entryArguments k (d.entry i.toNat) = true)
    (hrights : hasRights p k (d.entry i.toNat) = (p == (d.entry i.toNat).owner))
    (hlocked : (d.entry i.toNat).defined = true → (locked ↔ lockBlocks k (d.entry i.toNat) = true))
    (hjdead : jdead ↔ d.phase = .degraded ∧ refusedInDegraded k (d.entry i.toNat) = true) :
    Answers refused
      [(¬ (i.toNat < 24 ∧ ranges), .badarg), ((d.entry i.toNat).defined = false, .nopart), (¬ inEntry, .badarg),
        ((d.entry i.toNat).owner ≠ p, .denied), (locked, .locked), (jdead, .jdead),
        (8 ≤ (d.ring p).length, .ringfull)] := by
  refine ⟨fun h => hrefused _ (ticketRefusal_of_none (hnone h)), fun h => ?_⟩
  have hcheck := ticketRefusal_of_request (d := d) (hrequest (not_not.mp h))
  have hentry (r : Result) (h : d.acceptEntry p k (some i.toNat) = some r) : refused r :=
    hrefused r (hcheck.trans (acceptCheck_of_entry h))
  refine ⟨fun hd => hentry _ (acceptEntry_undefined hd), fun hd => ?_⟩
  have hd := Bool.eq_true_of_not_eq_false hd
  refine ⟨fun ha => hentry _ (acceptEntry_arguments hd (Bool.eq_false_iff.mpr (mt harguments.mpr ha))), fun ha => ?_⟩
  have ha := harguments.mp (not_not.mp ha)
  refine ⟨fun ho => hentry _ (acceptEntry_rights hd ha (hrights.trans (beq_eq_false_iff_ne.mpr (Ne.symm ho)))), fun ho => ?_⟩
  have hr : hasRights p k (d.entry i.toNat) = true := hrights.trans (beq_iff_eq.mpr (not_not.mp ho).symm)
  refine ⟨fun hl => hentry _ (acceptEntry_locked hd ha hr ((hlocked hd).mp hl)), fun hl => ?_⟩
  have he := acceptEntry_passes hd ha hr (Bool.eq_false_iff.mpr (mt (hlocked hd).mpr hl))
  refine ⟨fun hj => hrefused _ (hcheck.trans (acceptCheck_jdead he (hjdead.mp hj))), fun hj => ?_⟩
  exact ⟨fun hf => hrefused _ (hcheck.trans (acceptCheck_ringfull he (mt hjdead.mpr hj) hf)), fun _ => trivial⟩

/-- R30: a RELEASE is blocked where a defined entry is FIXED. -/
theorem lock_fixed_iff {e : Entry} (hd : e.defined = true) : e.fixed = true ↔ (e.lock == .fixed) = true := by
  cases hf : e.fixed <;> cases hh : e.held <;> simp [Entry.lock, hd, hf, hh]

/-- R107: the bits of a readers byte that name ports. -/
theorem readersHave_truncate (readers : Byte) (p : Port) :
    readersHave (readers.truncate 3) p = readers.getLsbD (portNumber p) := by
  cases p <;> simp [readersHave, portNumber]

/-- R107: a readers byte names no port beyond the third, and not the owner. -/
def othersOnly (p : Port) (readers : Byte) : Prop := readers.toNat < 8 ∧ readers.getLsbD (portNumber p) = false

theorem readersOfCode_of_lt {readers : Byte} (h : readers.toNat < 8) : readersOfCode readers = some (readers.truncate 3) :=
  if_pos h

theorem readersOfCode_of_not_lt {readers : Byte} (h : ¬ readers.toNat < 8) : readersOfCode readers = none := if_neg h

/-- R108: a kind that DEGRADED refuses. -/
theorem jdead_iff {e : Entry} (h : refusedInDegraded k e = true) :
    d.phase = .degraded ↔ d.phase = .degraded ∧ refusedInDegraded k e = true := by
  simp [h]

/-- R108: a kind that DEGRADED does not refuse. -/
theorem not_jdead_iff {e : Entry} (h : refusedInDegraded k e = false) :
    False ↔ d.phase = .degraded ∧ refusedInDegraded k e = true := by
  simp [h]

/-- R106 to R108: the checks of a kind whose only argument of its own is its partition. -/
theorem indexed_answers {inEntry locked jdead : Prop}
    (hrefused : ∀ r, ticketRefusal d p c = some r → refused r)
    (hrequest : ticketRequest p c = (indexOfCode i).bind (fun index => some (k, some index)))
    (harguments : inEntry ↔ entryArguments k (d.entry i.toNat) = true)
    (hrights : hasRights p k (d.entry i.toNat) = (p == (d.entry i.toNat).owner))
    (hlocked : (d.entry i.toNat).defined = true → (locked ↔ lockBlocks k (d.entry i.toNat) = true))
    (hjdead : jdead ↔ d.phase = .degraded ∧ refusedInDegraded k (d.entry i.toNat) = true) :
    Answers refused
      [(¬ (i.toNat < 24 ∧ True), .badarg), ((d.entry i.toNat).defined = false, .nopart), (¬ inEntry, .badarg),
        ((d.entry i.toNat).owner ≠ p, .denied), (locked, .locked), (jdead, .jdead),
        (8 ≤ (d.ring p).length, .ringfull)] := by
  refine named_answers hrefused (fun h => ?_) (fun h => ?_) harguments hrights hlocked hjdead
  · rw [hrequest, indexOfCode_of_lt h.1, Option.bind_some]
  · rw [hrequest, indexOfCode_of_not_lt (fun hi => h ⟨hi, trivial⟩), Option.bind_none]

/-- R107, R126: the arguments of an ERASE. -/
theorem erase_answers {first count : Half16}
    (hrefused : ∀ r, ticketRefusal d p (.erase i first count) = some r → refused r) :
    Answers refused
      [(¬ (i.toNat < 24 ∧ 1 ≤ count.toNat), .badarg), ((d.entry i.toNat).defined = false, .nopart),
        (¬ ((d.entry i.toNat).kind = .plain ∧ first.toNat + count.toNat ≤ (d.entry i.toNat).size.toNat), .badarg),
        ((d.entry i.toNat).owner ≠ p, .denied),
        ((d.entry i.toNat).fixed = true ∨ (d.entry i.toNat).held = true, .locked), (False, .jdead),
        (8 ≤ (d.ring p).length, .ringfull)] := by
  refine named_answers (k := .erase first count) hrefused (fun ⟨hi, hc⟩ => ?_) (fun h => ?_)
    (by simp [entryArguments]) rfl (fun hd => (locked_iff hd).symm) (not_jdead_iff rfl)
  · simp [ticketRequest, indexOfCode_of_lt hi, hc]
  · by_cases hi : i.toNat < 24
    · have hc : ¬ 1 ≤ count.toNat := fun hc => h ⟨hi, hc⟩
      simp only [ticketRequest, indexOfCode_of_lt hi, if_neg hc]
      rfl
    · simp [ticketRequest, indexOfCode_of_not_lt hi]

/-- R47, R107: the arguments of a COMMIT. -/
theorem commit_answers {length check : Word32} {budget : Byte}
    (hrefused : ∀ r, ticketRefusal d p (.commit i length check budget) = some r → refused r) :
    Answers refused
      [(¬ (i.toNat < 24 ∧ (1 ≤ length.toNat ∧ budget.toNat < 16)), .badarg), ((d.entry i.toNat).defined = false, .nopart),
        (¬ ((d.entry i.toNat).kind = .image ∧ length.toNat ≤ (d.entry i.toNat).size.toNat * 4096), .badarg),
        ((d.entry i.toNat).owner ≠ p, .denied),
        ((d.entry i.toNat).fixed = true ∨ (d.entry i.toNat).held = true, .locked), (d.phase = .degraded, .jdead),
        (8 ≤ (d.ring p).length, .ringfull)] := by
  refine named_answers (k := .commit length check (budget.truncate 4)) hrefused (fun ⟨hi, hl, hb⟩ => ?_) (fun h => ?_)
    (by rw [entryArguments, Bool.and_eq_true, beq_iff_eq, decide_eq_true_iff]; rfl) rfl (fun hd => (locked_iff hd).symm) (jdead_iff rfl)
  · simp [ticketRequest, indexOfCode_of_lt hi, budgetOfCode, hl, hb]
  · by_cases hi : i.toNat < 24
    · by_cases hb : budget.toNat < 16
      · have hl : ¬ 1 ≤ length.toNat := fun hl => h ⟨hi, hl, hb⟩
        simp only [ticketRequest, indexOfCode_of_lt hi, budgetOfCode, if_pos hb, if_neg hl]
        rfl
      · simp [ticketRequest, indexOfCode_of_lt hi, budgetOfCode, hb]
    · simp [ticketRequest, indexOfCode_of_not_lt hi]

/-- R26, R107: the arguments of a GRANT. -/
theorem grant_answers {readers : Byte} (hrefused : ∀ r, ticketRefusal d p (.grant i readers) = some r → refused r) :
    Answers refused
      [(¬ (i.toNat < 24 ∧ othersOnly p readers), .badarg), ((d.entry i.toNat).defined = false, .nopart),
        (¬ True, .badarg), ((d.entry i.toNat).owner ≠ p, .denied),
        ((d.entry i.toNat).fixed = true ∨ (d.entry i.toNat).held = true, .locked), (d.phase = .degraded, .jdead),
        (8 ≤ (d.ring p).length, .ringfull)] := by
  refine named_answers (k := .grant (readers.truncate 3)) hrefused (fun ⟨hi, h8, hown⟩ => ?_) (fun h => ?_)
    (by simp [entryArguments]) rfl (fun hd => (locked_iff hd).symm) (jdead_iff rfl)
  · simp [ticketRequest, indexOfCode_of_lt hi, readersOfCode_of_lt h8, readersHave_truncate, hown]
  · by_cases hi : i.toNat < 24
    · by_cases h8 : readers.toNat < 8
      · have hown : readers.getLsbD (portNumber p) = true :=
          Bool.eq_true_of_not_eq_false (fun hf => h ⟨hi, h8, hf⟩)
        simp [ticketRequest, indexOfCode_of_lt hi, readersOfCode_of_lt h8, readersHave_truncate, hown]
      · simp [ticketRequest, indexOfCode_of_lt hi, readersOfCode_of_not_lt h8]
    · simp [ticketRequest, indexOfCode_of_not_lt hi]

/-- R7, R12, R107: the arguments of a READ that depend on its entry. -/
theorem readArguments_iff {view : View} {offset : Word32} {length : Half16} {e : Entry} :
    entryArguments (.read view offset length) e = true ↔
      ¬ (e.size.toNat * 4096 < offset.toNat + length.toNat ∨ (view = .staged ∧ e.kind = .plain)) := by
  rw [entryArguments, Bool.and_eq_true, decide_eq_true_iff, Bool.not_eq_true', not_or, Nat.not_lt]
  refine and_congr Iff.rfl ?_
  rw [← Bool.not_eq_true, Bool.and_eq_true, beq_iff_eq, beq_iff_eq]

/-- R18, R106: the port's rights on the entry of a READ. -/
theorem readRights_iff {view : View} {offset : Word32} {length : Half16} {e : Entry} :
    hasRights p (.read view offset length) e = true ↔
      ¬ (e.owner ≠ p ∧ ¬ (view = .live ∧ readersHave e.readers p = true)) := by
  rw [not_and_not_right]
  cases view with
  | live =>
    rw [hasRights, Bool.or_eq_true, beq_iff_eq, or_iff_not_imp_left, ← ne_eq, ne_comm]
    simp only [true_and]
  | staged =>
    rw [hasRights, beq_iff_eq, eq_comm, ← not_ne_iff]
    simp only [reduceCtorEq, false_and]

/-- R107, R124: the view of a READ. -/
theorem viewOfCode_cases {view : Byte} (h : view = 0 ∨ view = 1) :
    ∃ v, viewOfCode view = some v ∧ (view = 0 ↔ v = .live) ∧ (view = 1 ↔ v = .staged) := by
  rcases h with rfl | rfl
  · exact ⟨.live, rfl, by decide, by decide⟩
  · exact ⟨.staged, rfl, by decide, by decide⟩

theorem viewOfCode_of_other {view : Byte} (h : ¬ (view = 0 ∨ view = 1)) : viewOfCode view = none := by
  obtain ⟨h0, h1⟩ := not_or.mp h
  rw [viewOfCode, if_neg h0, if_neg h1]

/-- R107: the ranges of a READ's own arguments. -/
theorem ticketRequest_read {view : Byte} {offset : Word32} {length : Half16} :
    (¬ (i.toNat < 24 ∧ (view = 0 ∨ view = 1) ∧ 1 ≤ length.toNat ∧ length.toNat ≤ 256 ∧
        offset.toNat % 256 + length.toNat ≤ 256) → ticketRequest p (.read i view offset length) = none) ∧
    ∀ v, i.toNat < 24 ∧ viewOfCode view = some v ∧ 1 ≤ length.toNat ∧ length.toNat ≤ 256 ∧
        offset.toNat % 256 + length.toNat ≤ 256 →
      ticketRequest p (.read i view offset length) = some (.read v offset length, some i.toNat) := by
  refine ⟨fun h => ?_, fun v ⟨hi, hv, hl⟩ => ?_⟩
  · by_cases hi : i.toNat < 24
    · by_cases hview : view = 0 ∨ view = 1
      · obtain ⟨v, hv, _⟩ := viewOfCode_cases hview
        have hl : ¬ (1 ≤ length.toNat ∧ length.toNat ≤ Config.pageBytes ∧
            offset.toNat % Config.pageBytes + length.toNat ≤ Config.pageBytes) := fun hl => h ⟨hi, hview, hl⟩
        simp only [ticketRequest, indexOfCode_of_lt hi, hv, if_neg hl]
        rfl
      · simp [ticketRequest, indexOfCode_of_lt hi, viewOfCode_of_other hview]
    · simp [ticketRequest, indexOfCode_of_not_lt hi]
  · have hl' : 1 ≤ length.toNat ∧ length.toNat ≤ Config.pageBytes ∧
        offset.toNat % Config.pageBytes + length.toNat ≤ Config.pageBytes := hl
    simp only [ticketRequest, indexOfCode_of_lt hi, hv, if_pos hl']
    rfl

/-- R106 to R108: the checks of a READ. -/
theorem read_answers {view : Byte} {offset : Word32} {length : Half16}
    (hrefused : ∀ r, ticketRefusal d p (.read i view offset length) = some r → refused r) :
    Answers refused
      [(¬ (i.toNat < 24 ∧ (view = 0 ∨ view = 1) ∧ 1 ≤ length.toNat ∧ length.toNat ≤ 256 ∧
          offset.toNat % 256 + length.toNat ≤ 256), .badarg),
        ((d.entry i.toNat).defined = false, .nopart),
        ((d.entry i.toNat).size.toNat * 4096 < offset.toNat + length.toNat ∨
          (view = 1 ∧ (d.entry i.toNat).kind = .plain), .badarg),
        ((d.entry i.toNat).owner ≠ p ∧ ¬ (view = 0 ∧ readersHave (d.entry i.toNat).readers p = true), .denied),
        (8 ≤ (d.ring p).length, .ringfull), (d.pool.grants p = false, .nobuf)] := by
  refine ⟨fun h => hrefused _ (ticketRefusal_of_none (ticketRequest_read.1 h)), fun h => ?_⟩
  obtain ⟨hi, hview, hl⟩ := not_not.mp h
  obtain ⟨v, hv, hlive, hstaged⟩ := viewOfCode_cases hview
  have hcheck := ticketRefusal_of_request (d := d) (p := p) (ticketRequest_read.2 v ⟨hi, hv, hl⟩)
  have hentry (r : Result) (h : d.acceptEntry p (.read v offset length) (some i.toNat) = some r) : refused r :=
    hrefused r (hcheck.trans (acceptCheck_of_entry h))
  rw [hlive, hstaged]
  refine ⟨fun hd => hentry _ (acceptEntry_undefined hd), fun hd => ?_⟩
  have hd := Bool.eq_true_of_not_eq_false hd
  refine ⟨fun ha => hentry _ (acceptEntry_arguments hd (Bool.eq_false_iff.mpr (mt readArguments_iff.mp (not_not.mpr ha)))),
    fun ha => ?_⟩
  have ha := readArguments_iff.mpr ha
  refine ⟨fun ho => hentry _ (acceptEntry_rights hd ha (Bool.eq_false_iff.mpr (mt readRights_iff.mp (not_not.mpr ho)))),
    fun ho => ?_⟩
  have he := acceptEntry_passes hd ha (readRights_iff.mpr ho) rfl
  have hserves : ¬ (d.phase = .degraded ∧ refusedInDegraded (.read v offset length) (d.entry i.toNat) = true) :=
    fun h => Bool.false_ne_true h.2
  refine ⟨fun hf => hrefused _ (hcheck.trans (acceptCheck_ringfull he hserves hf)), fun hf => ?_⟩
  exact ⟨fun hb => hrefused _ (hcheck.trans (acceptCheck_nobuf he hserves hf hb)), fun _ => trivial⟩

/-- R18, R107: the ranges of a DEFINE's arguments. -/
theorem defineArguments {kind readers : Byte} {base size : Half16} {label : Word32} :
    (¬ ((kind = 0 ∧ size.toNat ≤ 4088 ∧ base.toNat + size.toNat ≤ 4096 ∨
          kind = 1 ∧ size.toNat ≤ 2044 ∧ base.toNat + 2 * size.toNat ≤ 4096) ∧
        1 ≤ size.toNat ∧ 8 ≤ base.toNat ∧ othersOnly p readers) →
      ticketRequest p (.define kind base size readers label) = none) ∧
    ((kind = 0 ∧ size.toNat ≤ 4088 ∧ base.toNat + size.toNat ≤ 4096 ∨
          kind = 1 ∧ size.toNat ≤ 2044 ∧ base.toNat + 2 * size.toNat ≤ 4096) ∧
        1 ≤ size.toNat ∧ 8 ≤ base.toNat ∧ othersOnly p readers →
      ∃ k, ticketRequest p (.define kind base size readers label) =
        some (.define k base size (readers.truncate 3) label, none)) := by
  have hplain : footprintInRange .plain base size = true ↔
      1 ≤ size.toNat ∧ size.toNat ≤ 4088 ∧ 8 ≤ base.toNat ∧ base.toNat + size.toNat ≤ 4096 := by
    simp only [footprintInRange, Bool.and_eq_true, decide_eq_true_iff, and_assoc]
    rfl
  have himage : footprintInRange .image base size = true ↔
      1 ≤ size.toNat ∧ size.toNat ≤ 2044 ∧ 8 ≤ base.toNat ∧ base.toNat + 2 * size.toNat ≤ 4096 := by
    simp only [footprintInRange, Bool.and_eq_true, decide_eq_true_iff, and_assoc]
    rfl
  by_cases h8 : readers.toNat < 8
  · have hrange (k : PartKind) (hk : kindOfCode kind = some k) :
        ticketRequest p (.define kind base size readers label) =
          if footprintInRange k base size = true ∧ readers.getLsbD (portNumber p) = false then
            some (.define k base size (readers.truncate 3) label, none) else none := by
      simp [ticketRequest, hk, readersOfCode_of_lt h8, readersHave_truncate]
    by_cases h0 : kind = 0
    · subst h0
      rw [hrange .plain rfl]
      refine ⟨fun h => if_neg (fun ⟨hin, ho⟩ =>
        have ⟨hs, ht, hb, hf⟩ := hplain.mp hin
        h ⟨.inl ⟨rfl, ht, hf⟩, hs, hb, h8, ho⟩), fun h => ?_⟩
      · obtain ⟨⟨_, ht, hf⟩ | ⟨hk, _⟩, hs, hb, _, ho⟩ := h
        · exact ⟨.plain, if_pos ⟨hplain.mpr ⟨hs, ht, hb, hf⟩, ho⟩⟩
        · exact absurd hk (by decide)
    · by_cases h1 : kind = 1
      · subst h1
        rw [hrange .image rfl]
        refine ⟨fun h => if_neg (fun ⟨hin, ho⟩ =>
          have ⟨hs, ht, hb, hf⟩ := himage.mp hin
          h ⟨.inr ⟨rfl, ht, hf⟩, hs, hb, h8, ho⟩), fun h => ?_⟩
        · obtain ⟨⟨hk, _⟩ | ⟨_, ht, hf⟩, hs, hb, _, ho⟩ := h
          · exact absurd hk (by decide)
          · exact ⟨.image, if_pos ⟨himage.mpr ⟨hs, ht, hb, hf⟩, ho⟩⟩
      · have hkind : kindOfCode kind = none := by rw [kindOfCode, if_neg h0, if_neg h1]
        refine ⟨fun _ => by simp only [ticketRequest, hkind]; rfl, fun h => ?_⟩
        exact h.1.elim (fun h => absurd h.1 h0) (fun h => absurd h.1 h1)
  · refine ⟨fun _ => ?_, fun h => absurd h.2.2.2.1 h8⟩
    cases hk : kindOfCode kind <;> simp [ticketRequest, hk, readersOfCode_of_not_lt h8]

/-- R106 to R108, R18: the checks of a DEFINE. -/
theorem define_answers {kind readers : Byte} {base size : Half16} {label : Word32}
    (hrefused : ∀ r, ticketRefusal d p (.define kind base size readers label) = some r → refused r) :
    Answers refused
      [(¬ ((kind = 0 ∧ size.toNat ≤ 4088 ∧ base.toNat + size.toNat ≤ 4096 ∨
            kind = 1 ∧ size.toNat ≤ 2044 ∧ base.toNat + 2 * size.toNat ≤ 4096) ∧
          1 ≤ size.toNat ∧ 8 ≤ base.toNat ∧ othersOnly p readers), .badarg),
        (d.phase = .degraded, .jdead), (8 ≤ (d.ring p).length, .ringfull)] := by
  refine ⟨fun h => hrefused _ (ticketRefusal_of_none (defineArguments.1 h)), fun h => ?_⟩
  obtain ⟨k, hk⟩ := defineArguments.2 (not_not.mp h)
  have hcheck := ticketRefusal_of_request (d := d) hk
  have he : d.acceptEntry p (.define k base size (readers.truncate 3) label) none = none := rfl
  refine ⟨fun hj => hrefused _ (hcheck.trans (acceptCheck_jdead he ⟨hj, rfl⟩)), fun hj => ?_⟩
  exact ⟨fun hf => hrefused _ (hcheck.trans (acceptCheck_ringfull he (fun h => hj h.1) hf)), fun _ => trivial⟩

end Kinds

/-- Settles O4: each kind's chain of checks. -/
theorem ticketFrameRefusals : Obligations.TicketFrameRefusals := by
  intro p c notify extra s hr hm refused answers e bytes others full held degraded named
  have hrefused (ht : c.opcode.isTicket = true) (hp : c.opcode ≠ .program) (r : Result)
      (h : ticketRefusal s.dev p c = some r) : refused r := exec_ticketFrame_refused hr hm ht hp h
  cases c with
  | read i view offset length => exact read_answers (hrefused rfl (fun h => nomatch h))
  | erase i first count => exact erase_answers (hrefused rfl (fun h => nomatch h))
  | claim i =>
    exact indexed_answers (k := .claim) (hrefused rfl (fun h => nomatch h)) rfl (by simp [entryArguments, e]) rfl
      (fun hd => (locked_iff hd).symm) (jdead_iff rfl)
  | release i =>
    exact indexed_answers (k := .release) (hrefused rfl (fun h => nomatch h)) rfl (by simp [entryArguments, e]) rfl
      (fun hd => lock_fixed_iff hd) (not_jdead_iff rfl)
  | commit i length check budget => exact commit_answers (hrefused rfl (fun h => nomatch h))
  | confirm i =>
    exact indexed_answers (k := .confirm) (hrefused rfl (fun h => nomatch h)) rfl (by simp [entryArguments, e]) rfl
      (fun hd => (locked_iff hd).symm) (jdead_iff rfl)
  | revert i =>
    exact indexed_answers (k := .revert) (hrefused rfl (fun h => nomatch h)) rfl (by simp [entryArguments, e]) rfl
      (fun hd => (locked_iff hd).symm) (jdead_iff rfl)
  | delete i =>
    exact indexed_answers (k := .delete) (hrefused rfl (fun h => nomatch h)) rfl (by simp [entryArguments]) rfl
      (fun hd => (locked_iff hd).symm) (jdead_iff rfl)
  | grant i readers => exact grant_answers (hrefused rfl (fun h => nomatch h))
  | fix i =>
    exact indexed_answers (k := .fix) (hrefused rfl (fun h => nomatch h)) rfl (by simp [entryArguments]) rfl
      (fun hd => (locked_iff hd).symm) (jdead_iff rfl)
  | define kind base size readers label => exact define_answers (hrefused rfl (fun h => nomatch h))
  | _ => trivial

end Sys2Proof.Proofs

/-!
PROOF. A PROGRAM frame that is refused (R106, R109).
-/

namespace Sys2Proof.Proofs

set_option Elab.async false

open Sys2Proof Sys2Proof.Machine Sys2Proof.Laws

/-! ## A PROGRAM frame that is refused -/

section ProgramRefused
variable {p : Port} {notify : Bool} {i : Byte} {offset : Word32} {length : Half16} {data : List Byte} {s : State}
  {r : Result}

/-- R106: the code with which a PROGRAM frame that holds `b` is refused. -/
def programRefusal (d : Dev) (p : Port) (c : Command) (b : Option (List Byte)) : Option Result :=
  match ticketRequest p c with
  | none => some .badarg
  | some (k, index) => d.acceptCheck p k index b

/-- R107: the ranges of a PROGRAM's own arguments. -/
theorem ticketRequest_program :
    (¬ (i.toNat < 24 ∧ 1 ≤ length.toNat ∧ length.toNat ≤ 256 ∧ offset.toNat % 256 + length.toNat ≤ 256) →
      ticketRequest p (.program i offset length data) = none) ∧
    (i.toNat < 24 ∧ 1 ≤ length.toNat ∧ length.toNat ≤ 256 ∧ offset.toNat % 256 + length.toNat ≤ 256 →
      ticketRequest p (.program i offset length data) = some (.program offset length, some i.toNat)) := by
  refine ⟨fun h => ?_, fun ⟨hi, hl⟩ => ?_⟩
  · by_cases hi : i.toNat < 24
    · have hl : ¬ (1 ≤ length.toNat ∧ length.toNat ≤ Config.pageBytes ∧
          offset.toNat % Config.pageBytes + length.toNat ≤ Config.pageBytes) := fun hl => h ⟨hi, hl⟩
      simp only [ticketRequest, indexOfCode_of_lt hi, if_neg hl]
      rfl
    · simp [ticketRequest, indexOfCode_of_not_lt hi]
  · have hl' : 1 ≤ length.toNat ∧ length.toNat ≤ Config.pageBytes ∧
        offset.toNat % Config.pageBytes + length.toNat ≤ Config.pageBytes := hl
    simp only [ticketRequest, indexOfCode_of_lt hi, if_pos hl']
    rfl

/-- R106: the end of a PROGRAM frame that the checks refuse. -/
theorem endTicketFrame_program_refused {t : State} {command : Byte} {b : Option (List Byte)}
    (h : programRefusal t.dev p (.program i offset length data) b = some r) :
    t.endTicketFrame p (.program i offset length data) notify command b =
      (t.dropFrameBuffer p b).setOutcome p command r 0 := by
  unfold programRefusal at h
  unfold State.endTicketFrame
  cases hreq : ticketRequest p (.program i offset length data) with
  | none =>
    rw [hreq] at h
    obtain rfl : Result.badarg = r := Option.some.inj h
    rfl
  | some x =>
    simp only [hreq] at h
    simp only [h]

/-- R102: out of MOUNTING the end of a ticket command's frame clocked whole. -/
theorem endCommand_afterFrame_ticket {so : List Byte} {c : Command} {f : Dev → Dev} {command : Byte} {bytes : Nat}
    {a : Answer} {b : Option (List Byte)} (ht : c.opcode.isTicket = true) (hm : (f s.dev).phase ≠ .mounting) :
    ((afterFrame s p so).modifyDev f).endCommand p c notify command bytes a b =
      ((afterFrame s p so).modifyDev f).endTicketFrame p c notify command b :=
  endCommand_ticket ht hm

/-- R106, R109: a PROGRAM frame that the checks refuse whether or not it got its buffer. -/
theorem exec_program_of_refusal (hr : s.Ready p) (hm : s.dev.phase ≠ .mounting) (hd : data.length = length.toNat)
    (hpool : s.dev.pool.grants p = true → 1 ≤ s.dev.pool.free)
    (h : ∀ b : Option (List Byte), (b.isSome = true → s.dev.pool.grants p = true) →
      programRefusal s.dev p (.program i offset length data) b = some r) :
    exec (.program p notify i offset length data (Clocking.whole [])) s =
      .next (s.ended p (silentBytes (8 + data.length)) { command := commandByte .program notify, result := r, ticket := 0 }
        (s.dev.leaseReloaded p)) := by
  by_cases hg : grantsFrame s p length
  · have hgrants := hg.2.2.2
    have hrefusal : programRefusal ((s.dev.takeBuffer p).leaseReloaded p) p (.program i offset length data) (some data) =
        some r := by
      rw [← h (some data) (fun _ => hgrants), programRefusal, programRefusal]
      by_cases hranges : i.toNat < 24 ∧ 1 ≤ length.toNat ∧ length.toNat ≤ 256 ∧
          offset.toNat % 256 + length.toNat ≤ 256
      · simp only [ticketRequest_program.2 hranges, acceptCheck_leaseReloaded, acceptCheck_takeBuffer]
      · simp only [ticketRequest_program.1 hranges]
    have hback : ((s.dev.takeBuffer p).leaseReloaded p).giveBuffer p = s.dev.leaseReloaded p :=
      congrArg (fun pool => ({ s.dev with pool := pool } : Dev).leaseReloaded p) (give_take (hpool hgrants))
    rw [exec_program_granted hr hd hg, endCommand_afterFrame_ticket rfl hm, endTicketFrame_program_refused hrefusal]
    refine congrArg Host.Outcome.next ((setOutcome_afterFrame s p _ _ 0 r
      (fun d => ((d.takeBuffer p).leaseReloaded p).giveBuffer p)).trans ?_)
    rw [hback]
  · have hrefusal : programRefusal (s.dev.leaseReloaded p) p (.program i offset length data) none = some r := by
      rw [← h none (fun hb => nomatch hb), programRefusal, programRefusal]
      cases ticketRequest p (.program i offset length data) with
      | none => rfl
      | some x => exact acceptCheck_leaseReloaded
    rw [exec_program_refused hr hd hg, endCommand_afterFrame_ticket rfl hm, endTicketFrame_program_refused hrefusal,
      dropFrameBuffer_none, setOutcome_afterFrame]

end ProgramRefused

/-- Settles O5: the chain of checks, none of which but the last asks for the buffer. -/
theorem programFrameRefusals : Obligations.ProgramFrameRefusals := by
  intro p notify i offset length data s hr hm hd hpool refused e
  have hrun {r : Result} (h : ∀ b : Option (List Byte), (b.isSome = true → s.dev.pool.grants p = true) →
      programRefusal s.dev p (.program i offset length data) b = some r) : refused r :=
    exec_program_of_refusal hr hm hd hpool h
  by_cases hranges : i.toNat < 24 ∧ 1 ≤ length.toNat ∧ length.toNat ≤ 256 ∧ offset.toNat % 256 + length.toNat ≤ 256
  · rw [if_neg (not_not.mpr hranges)]
    have hcheck (b : Option (List Byte)) : programRefusal s.dev p (.program i offset length data) b =
        s.dev.acceptCheck p (.program offset length) (some i.toNat) b := by
      simp only [programRefusal, ticketRequest_program.2 hranges]
    have hentry {r : Result} (h : s.dev.acceptEntry p (.program offset length) (some i.toNat) = some r) : refused r :=
      hrun (fun b _ => (hcheck b).trans (acceptCheck_of_entry h))
    split_ifs with hdef ha ho hl hj hf
    · exact hentry (acceptEntry_undefined hdef)
    · exact hentry (acceptEntry_arguments (Bool.eq_true_of_not_eq_false hdef)
        (decide_eq_false (Nat.not_le.mpr ha)))
    · exact hentry (acceptEntry_rights (Bool.eq_true_of_not_eq_false hdef) (decide_eq_true (Nat.not_lt.mp ha))
        (beq_eq_false_iff_ne.mpr (Ne.symm ho)))
    · exact hentry (acceptEntry_locked (Bool.eq_true_of_not_eq_false hdef) (decide_eq_true (Nat.not_lt.mp ha))
        (beq_iff_eq.mpr (not_not.mp ho).symm) ((locked_iff (Bool.eq_true_of_not_eq_false hdef)).mpr hl))
    all_goals
      have hdef := Bool.eq_true_of_not_eq_false hdef
      have he : s.dev.acceptEntry p (.program offset length) (some i.toNat) = none :=
        acceptEntry_passes hdef (decide_eq_true (Nat.not_lt.mp ha)) (beq_iff_eq.mpr (not_not.mp ho).symm)
          (Bool.eq_false_iff.mpr (mt (locked_iff hdef).mp hl))
      have hdegraded : s.dev.phase = .degraded ∧ e.kind = .image ↔
          s.dev.phase = .degraded ∧ refusedInDegraded (.program offset length) (s.dev.entry ((some i.toNat).getD 24)) = true := by
        simp [refusedInDegraded, e, show (s.dev.entry i.toNat).defined = true from hdef]
    · exact hrun (fun b _ => (hcheck b).trans (acceptCheck_jdead he (hdegraded.mp hj)))
    · exact hrun (fun b _ => (hcheck b).trans (acceptCheck_ringfull he (mt hdegraded.mpr hj) hf))
    · intro hb
      refine hrun (fun b hgrants => (hcheck b).trans (acceptCheck_nobuf he (mt hdegraded.mpr hj) hf ?_))
      exact Bool.eq_false_iff.mpr (fun h => Bool.false_ne_true (hb.symm.trans (hgrants h)))
  · rw [if_pos hranges]
    exact hrun (fun b _ => by simp only [programRefusal, ticketRequest_program.1 hranges])

end Sys2Proof.Proofs

/-!
PROOF. Time (R8, R153, R165): the idle step, the quantum's expiry, the lease's expiry; and the resets of the part (R11,
R84).
-/

namespace Sys2Proof.Proofs

set_option Elab.async false

open Sys2Proof Sys2Proof.Machine Sys2Proof.Laws

/-! ## What readiness reads -/

/-- Two devices that agree in all that the readiness of a record, read or program operation reads. -/
structure SameReady (d e : Dev) : Prop where
  ring : ∀ p, e.ring p = d.ring p
  tick : ∀ p, (e.port p).tickPending = (d.port p).tickPending
  table : e.table = d.table
  verify : e.verify = d.verify
  writer : e.writer = d.writer
  mount : e.mount = d.mount
  busy : ∀ sector, e.busy sector = d.busy sector

section SameReady
variable {d e : Dev}

theorem SameReady.oldestModifying (h : SameReady d e) (p : Port) : e.oldestModifying p = d.oldestModifying p := by
  simp only [Dev.oldestModifying, h.ring]

theorem SameReady.oldestRead (h : SameReady d e) (p : Port) : e.oldestRead p = d.oldestRead p := by
  simp only [Dev.oldestRead, h.ring]

theorem SameReady.notBusy (h : SameReady d e) (sector : Option Nat) : e.notBusy sector = d.notBusy sector := by
  cases sector <;> simp only [Dev.notBusy, h.busy]

theorem SameReady.entry (h : SameReady d e) (i : Nat) : e.entry i = d.entry i := by
  simp only [Dev.entry, h.table]

theorem SameReady.readSector (h : SameReady d e) (i : Nat) (serial : Word32) (view : View) (offset : Word32) :
    e.readSector i serial view offset = d.readSector i serial view offset := by
  unfold Dev.readSector
  rw [h.entry, h.table]

theorem SameReady.tickHolds (h : SameReady d e) (p : Port) (i : Nat) (serial : Word32) :
    e.tickHolds p i serial = d.tickHolds p i serial := by
  unfold Dev.tickHolds
  rw [h.entry, h.table, h.tick]

theorem SameReady.verifySector (h : SameReady d e) (i : Nat) (serial : Word32) (k : Nat) :
    e.verifySector i serial k = d.verifySector i serial k := by
  unfold Dev.verifySector
  rw [h.entry, h.table]

theorem SameReady.readCandidate (h : SameReady d e) (p : Port) : e.readCandidate p = d.readCandidate p := by
  simp only [Dev.readCandidate, h.oldestRead, h.ring, h.notBusy, h.tickHolds, h.readSector]

theorem SameReady.verifyCandidate (h : SameReady d e) (p : Port) : e.verifyCandidate p = d.verifyCandidate p := by
  simp only [Dev.verifyCandidate, h.oldestModifying, h.notBusy, h.verifySector, h.verify]

theorem SameReady.programCandidate (h : SameReady d e) (p : Port) : e.programCandidate p = d.programCandidate p := by
  simp only [Dev.programCandidate, h.oldestModifying]

theorem SameReady.recordReady (h : SameReady d e) : e.recordReady = d.recordReady := by
  simp only [Dev.recordReady, h.writer, h.mount]

/-- R153: whether a record, read or program operation is ready. -/
theorem SameReady.shortReady (h : SameReady d e) : e.shortReady = d.shortReady := by
  have hread : e.readReady = d.readReady := funext fun m => by
    cases m <;> simp only [Dev.readReady, h.readCandidate, h.verifyCandidate, Dev.mountReads, h.mount]
  have hprogram : e.programReady = d.programReady := funext fun m => by
    cases m <;> simp only [Dev.programReady, h.programCandidate]
  simp only [Dev.shortReady, h.recordReady, hread, hprogram]

end SameReady

/-! ## A microsecond -/

section Microsecond
variable {d : Dev} {s : State}

theorem step_of_idle (h : s.pending = []) : step s = .next s.timePasses := by
  simp only [step, h]

/-- The engine's operation a microsecond later. -/
def aged (d : Dev) : Dev := d.modifyEngine (fun g => { g with current := g.current.map Operation.older })

/-- R165: the lease timers a microsecond later. -/
def leasesRun (d : Dev) : Dev := d.forEach allPorts (fun p d => d.runLease p)

theorem leasesRun_ports (d : Dev) : (leasesRun d).ports =
    { p0 := if d.leaseRuns .p0 = true then { d.port .p0 with leaseTime := (d.port .p0).leaseTime - 1 } else d.port .p0,
      p1 := if d.leaseRuns .p1 = true then { d.port .p1 with leaseTime := (d.port .p1).leaseTime - 1 } else d.port .p1,
      p2 := if d.leaseRuns .p2 = true then { d.port .p2 with leaseTime := (d.port .p2).leaseTime - 1 } else d.port .p2 } := by
  refine perPort_ext fun p => (runLeases_port d p).trans ?_
  cases p <;> rfl

theorem leasesRun_leaseRuns (d : Dev) (q : Port) : (leasesRun d).leaseRuns q = d.leaseRuns q := by
  show (((d.runLease .p0).runLease .p1).runLease .p2).leaseRuns q = d.leaseRuns q
  simp only [runLease_leaseRuns]

/-- R166: a timer with 2 µs left does not expire within the next. -/
theorem leasesRun_fresh (h : ∀ p, d.leaseRuns p = true → 2 ≤ (d.port p).leaseTime) : (leasesRun d).LeasesFresh := by
  intro p hruns
  rw [leasesRun_leaseRuns] at hruns
  have htwo := h p hruns
  rw [leasesRun, runLeases_port, if_pos hruns]
  dsimp only
  omega

theorem leasesRun_ring (d : Dev) (p : Port) : (leasesRun d).ring p = d.ring p := by
  rw [Dev.ring, leasesRun, runLeases_port]
  split <;> rfl

theorem leasesRun_tick (d : Dev) (p : Port) : ((leasesRun d).port p).tickPending = (d.port p).tickPending := by
  rw [leasesRun, runLeases_port]
  split <;> rfl

/-- The sector of the current operation does not age. -/
theorem aged_busy (d : Dev) (sector : Nat) : (aged d).busy sector = d.busy sector := by
  simp only [aged, Dev.busy, modifyEngine_engine]
  cases d.engine.current with
  | none => rfl
  | some op => cases op <;> rfl

/-- A microsecond changes nothing that readiness reads. -/
theorem sameReady_leasesRun (d : Dev) : SameReady d (leasesRun (aged d)) := by
  have heq : leasesRun (aged d) = { aged d with ports := (leasesRun (aged d)).ports } := runLeases_eq (aged d)
  refine ⟨leasesRun_ring (aged d), leasesRun_tick (aged d), ?_, ?_, ?_, ?_, fun sector => ?_⟩
  case refine_5 =>
    rw [heq]
    exact aged_busy d sector
  all_goals
    rw [heq]
    rfl

/-- R153, R165, R166: a microsecond in which no suspension falls due and no lease expires. -/
theorem timePasses_of_quiet (hruns : s.timeRuns = true) (hsus : (leasesRun (aged s.dev)).requestSuspension = leasesRun (aged s.dev))
    (hleases : ∀ p, s.dev.leaseRuns p = true → 2 ≤ (s.dev.port p).leaseTime) :
    s.timePasses = { s with dev := { s.dev with
      engine := (aged s.dev).engine
      ports :=
        { p0 := if s.dev.leaseRuns .p0 = true then { s.dev.port .p0 with leaseTime := (s.dev.port .p0).leaseTime - 1 } else s.dev.port .p0,
          p1 := if s.dev.leaseRuns .p1 = true then { s.dev.port .p1 with leaseTime := (s.dev.port .p1).leaseTime - 1 } else s.dev.port .p1,
          p2 := if s.dev.leaseRuns .p2 = true then { s.dev.port .p2 with leaseTime := (s.dev.port .p2).leaseTime - 1 } else s.dev.port .p2 } } } := by
  have hmicro : s.dev.microsecond = leasesRun (aged s.dev) := by
    show (leasesRun (aged s.dev)).requestSuspension.checkLeases = _
    rw [hsus]
    exact checkLeases_of_fresh _ (leasesRun_fresh (d := aged s.dev) hleases)
  have heq : leasesRun (aged s.dev) = { aged s.dev with ports := (leasesRun (aged s.dev)).ports } := runLeases_eq _
  rw [timePasses_of_runs s hruns, State.modifyDev, hmicro, heq, leasesRun_ports]
  rfl

end Microsecond

/-- Settles O17: by the engine's current operation. -/
theorem idleStepPassesTime : Obligations.IdleStepPassesTime := by
  intro s hidle
  have hstands (h : s.timeRuns = false) : step s = .next s := by
    rw [step_of_idle hidle, timePasses_of_stands s h]
  refine ⟨fun hreset => hstands (by simp [State.timeRuns, hreset]),
    fun op hop hage => hstands (by simp [State.timeRuns, hop, hage]), fun hout hleases => ?_⟩
  intro older
  have hruns (hage : ∀ op, s.dev.engine.current = some op → op.mayAge = true) : s.timeRuns = true := by
    cases hop : s.dev.engine.current with
    | none => simp [State.timeRuns, hout, hop]
    | some op => simp [State.timeRuns, hout, hop, hage op hop]
  have hengine (op : Option Operation) (hop : s.dev.engine.current = op) :
      (leasesRun (aged s.dev)).engine.current = op.map Operation.older := by
    rw [leasesRun, runLeases_eq]
    exact congrArg (Option.map Operation.older) hop
  have hstep (op : Option Operation) (hop : s.dev.engine.current = op)
      (hage : ∀ op, s.dev.engine.current = some op → op.mayAge = true)
      (hsus : (leasesRun (aged s.dev)).requestSuspension = leasesRun (aged s.dev)) :
      step s = .next (older (op.map Operation.older)) := by
    rw [step_of_idle hidle, timePasses_of_quiet (hruns hage) hsus hleases, ← hop]
    rfl
  split
  next hop =>
    exact hstep none hop (fun op h => by simp [hop] at h) (requestSuspension_of_none _ (hengine none hop))
  next sector page r age hop =>
    intro hage
    refine hstep _ hop (fun op h => ?_) (requestSuspension_of_short _ ⟨_, hengine _ hop, rfl⟩)
    obtain rfl := Option.some.inj (hop.symm.trans h)
    exact decide_eq_true hage
  next sector page first data r age hop =>
    intro hage
    refine hstep _ hop (fun op h => ?_) (requestSuspension_of_short _ ⟨_, hengine _ hop, rfl⟩)
    obtain rfl := Option.some.inj (hop.symm.trans h)
    exact decide_eq_true hage
  next e hop =>
    intro hrun hnot hdue
    have holder : (some (Operation.erase e)).map Operation.older =
        some (.erase { e with run := e.run + 1, since := e.since + 1, asked := 0 }) := by
      simp only [Option.map_some, Operation.older, hnot, Bool.false_eq_true, if_false]
    rw [← holder]
    refine hstep _ hop (fun op h => ?_) ?_
    · obtain rfl := Option.some.inj (hop.symm.trans h)
      have hrun' : e.run < Config.maxEraseTime := hrun
      simp [Operation.mayAge, hrun', hnot]
    · have hcurrent := hengine _ hop
      rw [holder] at hcurrent
      rw [requestSuspension_current _ _ hcurrent, if_neg]
      have hready := (sameReady_leasesRun s.dev).shortReady
      simp only [Dev.wantsSuspension, Bool.and_eq_true, decide_eq_true_eq, hready]
      rintro ⟨⟨⟨_, hshort⟩, hquantum⟩, hlimit⟩
      rcases hdue with hdue | hdue | hdue
      · exact Bool.false_ne_true (hdue.symm.trans hshort)
      · exact Nat.not_le.mpr hdue hquantum
      · exact Nat.not_le.mpr hlimit hdue

/-! ## The quantum's expiry (R153, R159) -/

/-- The run time of the current erase is nothing that readiness reads. -/
theorem sameReady_withErase {d : Dev} {e e1 : EraseOp} (hcur : d.engine.current = some (.erase e))
    (hsector : e1.sector = e.sector) : SameReady d (d.withCurrent (some (.erase e1))) := by
  refine ⟨fun _ => rfl, fun _ => rfl, rfl, rfl, rfl, rfl, fun sector => ?_⟩
  simp only [Dev.busy, Dev.withCurrent, hcur, hsector]

/-- Settles O51: the suspension is requested where R153's conditions hold at the end of the quantum. -/
theorem quantumExpiry : Obligations.QuantumExpiry := by
  intro e s hcur hsince hrun hnot asks
  have hexec : exec .eraseQuantumExpiry s = .next (s.modifyDev (fun d =>
      (d.withCurrent (some (.erase { e with run := e.run + (1000 - e.since), since := 1000 }))).requestSuspension)) := by
    have hcond : e.since < Config.eraseQuantum ∧ e.run + (Config.eraseQuantum - e.since) ≤ Config.maxEraseTime :=
      ⟨hsince, hrun⟩
    show execEraseQuantumExpiry s = _
    simp only [execEraseQuantumExpiry, hcur]
    rw [if_pos hcond]
    rfl
  have hready := (sameReady_withErase (e1 := { e with run := e.run + (1000 - e.since), since := 1000 }) hcur rfl).shortReady
  have hwants : (s.dev.withCurrent (some (.erase { e with run := e.run + (1000 - e.since), since := 1000 }))).wantsSuspension
      { e with run := e.run + (1000 - e.since), since := 1000 } = true ↔ asks := by
    simp only [Dev.wantsSuspension, hready]
    simp only [hnot, asks, Config.eraseQuantum, Config.suspendLimit, Bool.not_false, Bool.true_and, le_refl, decide_true, Bool.and_true, Bool.and_eq_true]
    exact and_congr_right fun _ => decide_eq_true_iff
  rw [hexec, State.modifyDev, requestSuspension_current _ _ rfl]
  by_cases h : asks
  · rw [if_pos (hwants.mpr h), if_pos h, decide_eq_true h]
    rfl
  · rw [if_neg (mt hwants.mp h), if_neg h, decide_eq_false h, ← hnot]

/-! ## The lease's expiry (R165, R166) -/

/-- Two tables with the same entries are one. -/
theorem table_ext {t u : Table} (h : ∀ i, i < 24 → Table.entry t i = Table.entry u i) : t = u := by
  refine Vector.ext (fun i hi => ?_)
  have hentry := h i hi
  simpa only [Table.entry, dif_pos hi] using hentry

/-- Entries changed one after another: each of them once. -/
theorem entry_foldl_modifyEntry (f : Entry → Entry) (xs : List Nat) (t : Table) (hn : xs.Nodup) {j : Nat} (hj : j < 24) :
    Table.entry (xs.foldl (fun t i => Table.modifyEntry t i f) t) j =
      if j ∈ xs then f (Table.entry t j) else Table.entry t j := by
  induction xs generalizing t with
  | nil => rfl
  | cons x xs ih =>
    obtain ⟨hx, hxs⟩ := List.nodup_cons.mp hn
    rw [List.foldl_cons, ih _ hxs]
    by_cases hjx : j = x
    · subst hjx
      rw [if_neg hx, if_pos List.mem_cons_self, Table.modifyEntry, setEntry_entry_same _ _ _ hj]
    · rw [Table.modifyEntry, setEntry_entry_other _ _ _ _ hjx]
      simp only [List.mem_cons, hjx, false_or]

/-- Every entry changed in turn is the table changed at once. -/
theorem foldl_modifyEntry_all (f : Entry → Entry) (t : Table) :
    allIndexes.foldl (fun t i => Table.modifyEntry t i f) t = t.map f := by
  refine table_ext (fun i hi => ?_)
  unfold allIndexes
  rw [entry_foldl_modifyEntry f _ _ List.nodup_range hi, if_pos (List.mem_range.mpr hi), map_entry t i f hi]

section Lease
variable {p : Port}

/-- R166: an entry's claim released, if the port holds it. -/
def unclaim (p : Port) (e : Entry) : Entry :=
  if e.defined = true ∧ e.owner = p then { e with claim := .unclaimed } else e

/-- R166: the port holds a claim on the entry. -/
def holds (p : Port) (e : Entry) : Bool := e.defined && e.owner == p && e.claim != .unclaimed

theorem unclaim_of_holds {e : Entry} (h : holds p e = true) : unclaim p e = { e with claim := .unclaimed } := by
  simp only [holds, Bool.and_eq_true, beq_iff_eq] at h
  exact if_pos h.1

theorem unclaim_of_not_holds {e : Entry} (h : holds p e = false) : unclaim p e = e := by
  unfold unclaim
  split
  next howned =>
    have hnone : e.claim = .unclaimed := by simpa [holds, howned] using h
    rw [← hnone]
  · rfl

/-- R166: the event of one released claim. -/
def leaseLostEvent (i : Nat) : Event := partitionEvent .leaseLost i 0

/-- R166: the events of several released claims. -/
def releasedEvents (q : EventQueue) (xs : List Nat) : EventQueue := xs.foldl (fun q i => q.append (leaseLostEvent i)) q

/-- R166: one entry's part of an expiry. -/
def releaseOne (p : Port) (i : Nat) (d : Dev) : Dev :=
  if holds p (d.entry i) then (d.setEntry i { d.entry i with claim := .unclaimed }).send p (leaseLostEvent i) else d

theorem modifyEntry_of_same {t : Table} {i : Nat} {f : Entry → Entry} (h : f (Table.entry t i) = Table.entry t i) :
    Table.modifyEntry t i f = t := by
  refine table_ext (fun j hj => ?_)
  by_cases hji : j = i
  · subst hji
    rw [Table.modifyEntry, setEntry_entry_same _ _ _ hj, h]
  · rw [Table.modifyEntry, setEntry_entry_other _ _ _ _ hji]

theorem releaseOne_eq (p : Port) (i : Nat) (d : Dev) :
    releaseOne p i d = ({ d with table := Table.modifyEntry d.table i (unclaim p) } : Dev).modifyPort p (fun q =>
      { q with events := if holds p (d.entry i) then q.events.append (leaseLostEvent i) else q.events }) := by
  unfold releaseOne
  split
  next h =>
    rw [Table.modifyEntry, show Table.entry d.table i = d.entry i from rfl, unclaim_of_holds h]
    rfl
  next h =>
    rw [modifyEntry_of_same (unclaim_of_not_holds (Bool.eq_false_iff.mpr h))]
    exact congrArg (fun ports => { d with ports := ports }) (modify_id d.ports p).symm

/-- R166: the claims of some entries released in turn, with the events of those that were held. -/
theorem forEach_releaseOne (xs : List Nat) (d : Dev) (hn : xs.Nodup) :
    d.forEach xs (releaseOne p) =
      ({ d with table := xs.foldl (fun t i => Table.modifyEntry t i (unclaim p)) d.table } : Dev).modifyPort p (fun q =>
        { q with events := releasedEvents q.events (xs.filter (fun i => holds p (d.entry i))) }) := by
  induction xs generalizing d with
  | nil => exact congrArg (fun ports => { d with ports := ports }) (modify_id d.ports p).symm
  | cons x xs ih =>
    obtain ⟨hx, hxs⟩ := List.nodup_cons.mp hn
    have hsame : xs.filter (fun i => holds p ((releaseOne p x d).entry i)) = xs.filter (fun i => holds p (d.entry i)) := by
      refine List.filter_congr (fun i hi => ?_)
      have hne : i ≠ x := fun h => hx (h ▸ hi)
      rw [releaseOne_eq]
      exact congrArg (holds p) (setEntry_entry_other _ _ _ _ hne)
    have hfold : d.forEach (x :: xs) (releaseOne p) = (releaseOne p x d).forEach xs (releaseOne p) := rfl
    rw [hfold, ih _ hxs, hsame, releaseOne_eq, List.filter_cons]
    cases holds p (d.entry x) <;> simp [Dev.modifyPort, releasedEvents]

end Lease

/-- Settles O52: the entries released in ascending order, each with its event. -/
theorem leaseExpires : Obligations.LeaseExpires := by
  intro p s hout hruns held
  have hexec : exec (.leaseExpiry p) s = .next (s.modifyDev (fun d => d.expireLease p)) := by
    show execLeaseExpiry p s = _
    simp [execLeaseExpiry, hout, hruns]
  have hexpire : s.dev.expireLease p =
      (s.dev.modifyPort p (fun q => { q with leaseTime := 0 })).forEach allIndexes (releaseOne p) := rfl
  rw [hexec, State.modifyDev, hexpire, forEach_releaseOne allIndexes _ List.nodup_range, foldl_modifyEntry_all]
  simp only [Dev.modifyPort, modify_modify]
  rfl

/-! ## Device reset, the assertion of RESET# and the supply's loss -/

/-- R86, R142: the first read of the mount is issued at device reset. -/
theorem afterReset_eq : Dev.afterReset = State.reset.dev := by
  decide +kernel

/-- Settles O53. -/
theorem deviceResets : Obligations.DeviceResets := by
  intro cut s hin fresh
  show execDeviceReset cut s = _
  rw [execDeviceReset, if_pos hin, afterReset_eq]
  rfl

/-- R135: the buffers of frames in progress back in the pool, at each port. -/
theorem devWithoutFrames_pool (s : State) :
    s.devWithoutFrames.pool.free = s.dev.pool.free + (if (s.host .p0).shifter.buffer.isSome then 1 else 0) +
        (if (s.host .p1).shifter.buffer.isSome then 1 else 0) + (if (s.host .p2).shifter.buffer.isSome then 1 else 0) ∧
      ∀ p, s.devWithoutFrames.pool.held.get p =
        s.dev.pool.held.get p - (if (s.host p).shifter.buffer.isSome then 1 else 0) := by
  have heq : s.devWithoutFrames = ((s.dev.giveBufferIf .p0 (s.host .p0).shifter.buffer.isSome).giveBufferIf .p1
    (s.host .p1).shifter.buffer.isSome).giveBufferIf .p2 (s.host .p2).shifter.buffer.isSome := rfl
  have hgive (d : Dev) (q : Port) (b : Bool) : (d.giveBufferIf q b).pool.free = d.pool.free + (if b then 1 else 0) ∧
      ∀ p, (d.giveBufferIf q b).pool.held.get p = d.pool.held.get p - (if p = q ∧ b = true then 1 else 0) := by
    cases b with
    | false => simp
    | true =>
      refine ⟨rfl, fun p => ?_⟩
      simp only [giveBufferIf_true, giveBuffer_pool, Pool.give, get_modify]
      by_cases hp : p = q
      · simp [hp]
      · simp [hp]
  rw [heq]
  refine ⟨by rw [(hgive _ _ _).1, (hgive _ _ _).1, (hgive _ _ _).1], fun p => ?_⟩
  rw [(hgive _ _ _).2, (hgive _ _ _).2, (hgive _ _ _).2]
  cases p <;> simp

/-- R84: a port of a part in reset neither takes frames nor drives a pin. -/
theorem quiet_of_reset {t : State} (h : t.outOfReset = false) (p : Port) :
    t.takesFrames p = false ∧ t.drivesSo p = false ∧ t.attention p = false := by
  simp [State.takesFrames, State.drivesSo, State.attention, h]

/-- Settles O54. -/
theorem resetBegins : Obligations.ResetBegins := by
  intro cut s hin
  refine ⟨fun hpin => ?_, fun hpower => ?_⟩
  · have hexec : exec (.resetAssertion cut) s = _ :=
      (if_neg (Bool.eq_false_iff.mp hpin)).trans (if_pos hin)
    have hreset : ({ s with
        resetPin := true
        hosts := s.hosts.map HostPort.dropFrame
        array := s.array.cutOff s.dev.engine cut
        dev := s.devWithoutFrames.stopEngine } : State).outOfReset = false := by simp [State.outOfReset]
    refine ⟨_, hexec, hreset, rfl, rfl, rfl, devWithoutFrames_pool s, fun p => ⟨?_, quiet_of_reset hreset p⟩⟩
    exact congrArg HostPort.shifter (get_map s.hosts p HostPort.dropFrame)
  · have hexec : exec (.powerLoss cut) s = _ :=
      (if_neg (by simp [hpower])).trans (if_pos hin)
    have hreset : ({ s with
        powered := false
        hosts := s.hosts.map HostPort.afterReset
        array := s.array.cutOff s.dev.engine cut
        dev := Dev.reset } : State).outOfReset = false := by simp [State.outOfReset]
    refine ⟨_, hexec, hreset, rfl, rfl, fun p => ⟨?_, quiet_of_reset hreset p⟩⟩
    exact congrArg HostPort.shifter (get_map s.hosts p HostPort.afterReset)

end Sys2Proof.Proofs

/-!
PROOF. The end of an event at which one operation is issued: what the Scheduler chooses where a single ticket or a record
is ready, that nothing was released, and what the ends of tickets leave.
-/

namespace Sys2Proof.Proofs

set_option Elab.async false

open Sys2Proof Sys2Proof.Machine Sys2Proof.Laws

/-! ## An event that issues one operation -/

/-- The engine's operation is one that no suspension can fall due in: a short one, or an erase that has just been issued or
resumed (R153). -/
def Issued (d : Dev) : Prop :=
  ∃ op, d.engine.current = some op ∧ ∀ e, op = .erase e → e.since = 0

section Issue
variable {former d x : Dev} {c : Choice}

theorem requestSuspension_of_issued (h : Issued d) : d.requestSuspension = d := by
  obtain ⟨op, hcur, hfresh⟩ := h
  cases op with
  | erase e =>
    have hsince : e.since = 0 := hfresh e rfl
    rw [requestSuspension_current d e hcur, if_neg]
    simp [Dev.wantsSuspension, hsince, Config.eraseQuantum]
  | read sector page r age => exact requestSuspension_of_short d ⟨_, hcur, rfl⟩
  | program sector page first data r age => exact requestSuspension_of_short d ⟨_, hcur, rfl⟩

/-- R69, R146: the end of an event at which the requests leave `x`, whose choice issues an operation. -/
theorem settle_of_choice {y : Dev} (htake : d.takeAll = x) (hidle : x.engine.current = none) (hchoose : x.choose = some c)
    (hreleased : Dev.releasedLast former x 0 = []) (hperform : x.perform c = y) (hnone : y.TakesNone)
    (hissued : Issued y) (hleases : y.LeasesFresh) : Dev.settle former d = y := by
  have hcur : y.engine.current.isSome = true := by
    obtain ⟨op, hop, _⟩ := hissued
    simp [hop]
  have hafter : (x.perform c).takeAll = y := by rw [hperform, takeAll_of_none y hnone]
  rw [Dev.settle, htake, schedule_of_issue former x c hidle hchoose hreleased (by rw [hafter]; exact hcur), hafter,
    requestSuspension_of_issued hissued, checkLeases_of_fresh y hleases]

/-- R146: a choice that takes no ticket's operation is the same whatever was released. -/
theorem schedule_of_system (hidle : d.engine.current = none) (hchoose : d.choose = some c) (hticket : d.choiceTicket c = none)
    (hissue : (d.perform c).takeAll.engine.current.isSome = true) : Dev.schedule former d = (d.perform c).takeAll := by
  unfold Dev.schedule Dev.scheduleFuel Dev.choices
  simp only [hidle, hchoose, Option.isSome_none, Bool.false_eq_true, if_false, Dev.takeChoice, hticket]
  exact choices_of_current _ _ hissue _ _ _

/-- R69, R146: the end of an event whose choice, the record or the parked erase, issues an operation. -/
theorem settle_of_system {y : Dev} (htake : d.takeAll = x) (hidle : x.engine.current = none) (hchoose : x.choose = some c)
    (hticket : x.choiceTicket c = none) (hperform : x.perform c = y) (hnone : y.TakesNone) (hissued : Issued y)
    (hleases : y.LeasesFresh) : Dev.settle former d = y := by
  have hcur : y.engine.current.isSome = true := by
    obtain ⟨op, hop, _⟩ := hissued
    simp [hop]
  have hafter : (x.perform c).takeAll = y := by rw [hperform, takeAll_of_none y hnone]
  rw [Dev.settle, htake, schedule_of_system hidle hchoose hticket (by rw [hafter]; exact hcur), hafter,
    requestSuspension_of_issued hissued, checkLeases_of_fresh y hleases]

end Issue

/-! ## The tickets released by an end (R174) -/

section Released
variable {d : Dev} {p : Port} {n : Byte} {t : Ticket}

/-- The ticket of a number is the first of the ring that is live, where no other number's is. -/
theorem find_live_of_ticket (h : d.OnlyLive p n) (ht : d.ticket p n = some t) (hlive : t.live = true) (f : Ticket → Bool)
    (hf : f t = true) : (d.ring p).find? (fun u => f u && u.live) = some t := by
  unfold Dev.ticket at ht
  obtain ⟨hnum, before, after, hring, hbefore⟩ := List.find?_eq_some_iff_append.mp ht
  refine List.find?_eq_some_iff_append.mpr ⟨by simp [hf, hlive], before, after, hring, fun u hu => ?_⟩
  have hmem : u ∈ d.ring p := by rw [hring]; exact List.mem_append_left _ hu
  have hdead : u.live ≠ true := fun hlive => by
    have hnumber : u.number = n := (h p u hmem hlive).2
    simpa [hnumber] using hbefore u hu
  simp [Bool.eq_false_iff.mpr hdead]

theorem oldestModifying_of_only (h : d.OnlyLive p n) (ht : d.ticket p n = some t) (hlive : t.live = true)
    (hm : t.modifying = true) : d.oldestModifying p = some t :=
  find_live_of_ticket h ht hlive Ticket.modifying hm

theorem oldestRead_of_only (h : d.OnlyLive p n) (ht : d.ticket p n = some t) (hlive : t.live = true)
    (hm : t.modifying = false) : d.oldestRead p = some t :=
  find_live_of_ticket h ht hlive (fun u => !u.modifying) (by simp [hm])

theorem ring_dead_of_only (h : d.OnlyLive p n) {q : Port} (hq : q ≠ p) : ∀ u ∈ d.ring q, u.live = false := fun u hu =>
  Bool.eq_false_iff.mpr fun hlive => hq (h q u hu hlive).1

theorem ahead_of_only (h : d.OnlyLive p n) (hnum : t.number = n) : aheadOnPartition (d.ring p) t = false := by
  unfold aheadOnPartition
  rw [List.any_eq_false]
  intro u hu
  have hmem : u ∈ d.ring p := (List.takeWhile_prefix _).subset hu
  have hother : (u.number != t.number) = true :=
    List.mem_takeWhile_imp (p := fun o : Ticket => o.number != t.number) hu
  have hdead : u.live ≠ true := fun hlive => by
    have hnumber : u.number = n := (h p u hmem hlive).2
    simp [hnumber, hnum] at hother
  simp [Bool.eq_false_iff.mpr hdead]

/-- R119, R120: the one live ticket is startable. -/
theorem startable_of_only (h : d.OnlyLive p n) (ht : d.ticket p n = some t) (hlive : t.live = true) :
    d.startable p t = true := by
  have hnum : t.number = n := number_of_ticket ht
  unfold Dev.startable
  cases hm : t.modifying with
  | true => simp [oldestModifying_of_only h ht hlive hm]
  | false => simp [oldestRead_of_only h ht hlive hm, ahead_of_only h hnum]

/-- R174: where one ticket was live when the event began, no end of the event releases one. -/
theorem releasedLast_of_only {former : Dev} (h : former.OnlyLive p n) (d : Dev) (turn : Nat) :
    Dev.releasedLast former d turn = [] := by
  simp only [Dev.releasedLast, Dev.releasedSince, List.flatMap_eq_nil_iff]
  intro q _
  simp only [Dev.releasedAt, List.map_eq_nil_iff, List.filter_eq_nil_iff]
  intro v _ hr
  split at hr
  next u hu =>
    simp only [Bool.and_eq_true, Bool.not_eq_true'] at hr
    obtain ⟨_, hlive, hnot⟩ := hr
    obtain ⟨rfl, hnumber⟩ := h q u (List.mem_of_find?_eq_some hu) hlive
    rw [startable_of_only h (by rw [← hnumber, number_of_ticket hu]; exact hu) hlive] at hnot
    cases hnot
  next => simp at hr

end Released

/-! ## The choice (R147, R148) where one member is ready -/

section Choose
variable {d : Dev} {p : Port} {n : Byte}

/-- R147: the Journal Writer and Mount Logic have no work, and no erase is parked. -/
structure Workless (d : Dev) : Prop where
  parked : d.engine.parked = none
  inHand : d.writer.inHand = none
  fold : d.writer.fold = .idle
  mount : d.mount.step = .idle

theorem workless_of_quiet (h : d.Quiet) : Workless d := by
  obtain ⟨hparked, hhand, hfold, _, hmount, _⟩ := h
  exact ⟨hparked, hhand, hfold, hmount⟩

theorem takesNone_of_quiet (h : d.Quiet) : d.TakesNone := by
  obtain ⟨_, _, _, hqueue, _, _⟩ := h
  exact .inr hqueue

theorem choose_of_record (h : d.recordReady.isSome = true) : d.choose = some .record := if_pos h

/-- R148: the only member of a class that is ready comes first, whatever the pointer names. -/
theorem find_memberOrder {f : Member → Bool} {m : Member} (pointer : Member) (hm : f m = true)
    (hothers : ∀ o, o ≠ m → f o = false) : (memberOrder pointer).find? f = some m := by
  have hmem : m ∈ memberOrder pointer := by
    rcases pointer with (_ | _ | _) | _ <;> rcases m with (_ | _ | _) | _ <;> simp [memberOrder]
  cases hfind : (memberOrder pointer).find? f with
  | none => exact absurd hm (by simpa using List.find?_eq_none.mp hfind m hmem)
  | some o =>
    by_cases ho : o = m
    · rw [ho]
    · exact absurd (List.find?_some hfind) (by simp [hothers o ho])

theorem find_memberOrder_none {f : Member → Bool} (pointer : Member) (hf : ∀ o, f o = false) :
    (memberOrder pointer).find? f = none :=
  List.find?_eq_none.mpr fun o _ => by simp [hf o]

theorem Workless.recordReady (h : Workless d) : d.recordReady = none := by
  simp [Dev.recordReady, h.inHand, h.fold, h.mount]

theorem Workless.mountReads (h : Workless d) : d.mountReads = false := by simp [Dev.mountReads, h.mount]

theorem Workless.systemErase (h : Workless d) : d.systemErase = none := by
  simp [Dev.systemErase, h.fold, h.mount]

/-- A port without a live ticket has nothing ready. -/
theorem candidates_of_dead (h : ∀ u ∈ d.ring p, u.live = false) :
    d.readReady (.port p) = false ∧ d.programReady (.port p) = false ∧ d.eraseReady (.port p) = false := by
  have hmodifying : d.oldestModifying p = none := List.find?_eq_none.mpr fun u hu => by simp [h u hu]
  have hread : d.oldestRead p = none := List.find?_eq_none.mpr fun u hu => by simp [h u hu]
  simp [Dev.readReady, Dev.programReady, Dev.eraseReady, Dev.readCandidate, Dev.verifyCandidate, Dev.programCandidate,
    Dev.eraseCandidate, hmodifying, hread]

theorem other_member {m : Member} (hm : m ≠ .port p) : m = .system ∨ ∃ q, m = .port q ∧ q ≠ p := by
  cases m with
  | system => exact .inl rfl
  | port q => exact .inr ⟨q, rfl, fun h => hm (congrArg _ h)⟩

variable (hw : Workless d) (honly : d.OnlyLive p n)
include hw honly

theorem readReady_other {m : Member} (hm : m ≠ .port p) : d.readReady m = false := by
  rcases other_member hm with rfl | ⟨q, rfl, hq⟩
  · exact hw.mountReads
  · exact (candidates_of_dead (ring_dead_of_only honly hq)).1

omit hw in
theorem programReady_other {m : Member} (hm : m ≠ .port p) : d.programReady m = false := by
  rcases other_member hm with rfl | ⟨q, rfl, hq⟩
  · rfl
  · exact (candidates_of_dead (ring_dead_of_only honly hq)).2.1

theorem eraseReady_other {m : Member} (hm : m ≠ .port p) : d.eraseReady m = false := by
  rcases other_member hm with rfl | ⟨q, rfl, hq⟩
  · simp [Dev.eraseReady, hw.systemErase]
  · exact (candidates_of_dead (ring_dead_of_only honly hq)).2.2

/-- R147: the read of the one live ticket is chosen. -/
theorem choose_read (hready : d.readReady (.port p) = true) : d.choose = some (.read (.port p)) := by
  simp only [Dev.choose, hw.recordReady, Option.isSome_none, Bool.false_eq_true, if_false,
    find_memberOrder _ hready fun _ => readReady_other hw honly]

theorem find_read_none (hread : d.readReady (.port p) = false) (pointer : Member) :
    (memberOrder pointer).find? d.readReady = none :=
  find_memberOrder_none _ fun m => by
    by_cases hm : m = .port p
    · rw [hm, hread]
    · exact readReady_other hw honly hm

/-- R147: the page program of the one live ticket is chosen. -/
theorem choose_program (hread : d.readReady (.port p) = false) (hready : d.programReady (.port p) = true) :
    d.choose = some (.program (.port p)) := by
  simp only [Dev.choose, hw.recordReady, Option.isSome_none, Bool.false_eq_true, if_false, find_read_none hw honly hread,
    find_memberOrder _ hready fun _ => programReady_other honly]

/-- R147: the sector erase of the one live ticket is chosen. -/
theorem choose_erase (hread : d.readReady (.port p) = false) (hprogram : d.programReady (.port p) = false)
    (hready : d.eraseReady (.port p) = true) : d.choose = some (.erase (.port p)) := by
  have hnone : (memberOrder d.engine.programPointer).find? d.programReady = none :=
    find_memberOrder_none _ fun m => by
      by_cases hm : m = .port p
      · rw [hm, hprogram]
      · exact programReady_other honly hm
  simp only [Dev.choose, hw.recordReady, Option.isSome_none, Bool.false_eq_true, if_false, find_read_none hw honly hread,
    hnone, hw.parked, find_memberOrder _ hready fun _ => eraseReady_other hw honly]

end Choose

/-! ## A ticket and its port's queue replaced -/

section WithEnd
variable {d : Dev} {p : Port} {n : Byte} {f f' : Ticket → Ticket} {g g' : EventQueue → EventQueue} {t : Ticket}

theorem modifyTicket_eq_withEnd (d : Dev) (p : Port) (n : Byte) (f : Ticket → Ticket) :
    d.modifyTicket p n f = d.withEnd p n f id := by
  unfold Dev.modifyTicket Dev.setRing Dev.withEnd
  exact congrArg (fun ports => { d with ports := ports }) (modify_congr _ _ _ rfl)

theorem withEnd_withEnd (hf : ∀ u, u.number = n → (f u).number = n) :
    (d.withEnd p n f g).withEnd p n f' g' = d.withEnd p n (fun u => f' (f u)) (fun q => g' (g q)) := by
  simp only [Dev.withEnd, modifyPort_modifyPort, List.map_map]
  refine congrArg (fun h => d.modifyPort p h) (funext fun q => ?_)
  congr 1
  refine List.map_congr_left fun u _ => ?_
  dsimp only [Function.comp]
  by_cases hu : u.number = n
  · simp [hu, hf u hu]
  · simp [hu]

theorem withEnd_congr (hf : ∀ u ∈ d.ring p, u.number = n → f u = f' u) (hg : g (d.port p).events = g' (d.port p).events) :
    d.withEnd p n f g = d.withEnd p n f' g' := by
  unfold Dev.withEnd
  refine congrArg (fun ports => { d with ports := ports }) (modify_congr _ _ _ ?_)
  congr 1
  refine List.map_congr_left fun u hu => ?_
  by_cases hnum : u.number = n
  · simp [hnum, hf u hu hnum]
  · simp [hnum]

theorem withEnd_ring (d : Dev) (q : Port) : (d.withEnd p n f g).ring q =
    if q = p then (d.ring p).map (fun u => if u.number == n then f u else u) else d.ring q := by
  simp only [Dev.ring, Dev.withEnd, modifyPort_port]
  split <;> rfl

theorem withEnd_ticket (hf : ∀ u, u.number = n → (f u).number = n) (ht : d.ticket p n = some t) :
    (d.withEnd p n f g).ticket p n = some (f t) := by
  have hnum : t.number = n := number_of_ticket ht
  have hcomp : ((fun u : Ticket => u.number == n) ∘ fun u => if u.number == n then f u else u) = fun u => u.number == n :=
    funext fun u => by
      by_cases hu : u.number = n
      · simp [hu, hf u hu]
      · simp [hu]
  unfold Dev.ticket at ht ⊢
  rw [withEnd_ring, if_pos rfl, List.find?_map, hcomp, ht]
  simp [hnum]

theorem mem_withEnd_ring {u : Ticket} {q : Port} (hu : u ∈ (d.withEnd p n f g).ring q) :
    u ∈ d.ring q ∧ ¬ (q = p ∧ u.number = n) ∨ q = p ∧ ∃ v ∈ d.ring p, v.number = n ∧ u = f v := by
  rw [withEnd_ring] at hu
  split at hu
  next hq =>
    subst hq
    obtain ⟨v, hv, rfl⟩ := List.mem_map.mp hu
    by_cases hnum : v.number = n
    · exact .inr ⟨rfl, v, hv, hnum, by simp [hnum]⟩
    · exact .inl ⟨by simpa [hnum] using hv, by simp [hnum]⟩
  next hq => exact .inl ⟨hu, fun h => hq h.1⟩

/-- The one live ticket ends. -/
theorem noLive_withEnd (h : d.OnlyLive p n) (hf : ∀ u, (f u).live = false) : (d.withEnd p n f g).NoLive := by
  intro q u hu
  rcases mem_withEnd_ring hu with ⟨hmem, hother⟩ | ⟨_, v, _, _, rfl⟩
  · exact Bool.eq_false_iff.mpr fun hlive => hother (h q u hmem hlive)
  · exact hf v

/-- The one live ticket stays the only one. -/
theorem onlyLive_withEnd (h : d.OnlyLive p n) (hf : ∀ u, u.number = n → (f u).number = n) :
    (d.withEnd p n f g).OnlyLive p n := by
  intro q u hu hlive
  rcases mem_withEnd_ring hu with ⟨hmem, _⟩ | ⟨hq, v, _, hnum, rfl⟩
  · exact h q u hmem hlive
  · exact ⟨hq, hf v hnum⟩

/-- The leases do not look at tickets' contents or event queues. -/
theorem leasesLeft_withEnd (h : d.LeasesLeft) : (d.withEnd p n f g).LeasesLeft := by
  refine leasesLeft_mono d _ (fun q hq => hq) (fun q => ?_) h
  simp only [Dev.withEnd, modifyPort_port]
  split
  next hq => rw [hq]; exact ⟨rfl, rfl⟩
  · exact ⟨rfl, rfl⟩

theorem quiet_withEnd (h : d.Quiet) : (d.withEnd p n f g).Quiet := by
  obtain ⟨hparked, hhand, hfold, hqueue, hmount, hleases⟩ := h
  exact ⟨hparked, hhand, hfold, hqueue, hmount, leasesLeft_withEnd hleases⟩

end WithEnd

/-! ## The end of a ticket (R127) -/

section TicketEnd
variable {d : Dev} {p : Port} {n : Byte} {t : Ticket} {st : TicketState} {r : Result}

/-- R127: what an end makes of the ticket: a READ keeps its buffer unless it is cancelled. -/
def endedTicket (keeps : Bool) (st : TicketState) (r : Result) (u : Ticket) : Ticket :=
  { u with state := st, result := r, buffer := if keeps then u.buffer else none }

theorem endedTicket_number (keeps : Bool) (u : Ticket) : (endedTicket keeps st r u).number = u.number := rfl

theorem endedTicket_live (keeps : Bool) (hst : st = .done ∨ st = .failed ∨ st = .cancelled) (u : Ticket) :
    (endedTicket keeps st r u).live = false := by
  rcases hst with rfl | rfl | rfl <;> rfl

/-- R127, R134: the end of a ticket that is no orphan. -/
theorem endTicket_eq (ht : d.ticket p n = some t) (ho : t.orphan = false) :
    d.endTicket p n st r =
      (d.giveBufferIf p (t.buffer.isSome && !(!t.modifying && st != .cancelled))).withEnd p n
        (endedTicket (!t.modifying && st != .cancelled) st r) (fun q => q.afterEnd t r) := by
  unfold Dev.endTicket
  simp only [ht, ho, Bool.false_eq_true, if_false]
  rw [modifyTicket_eq_withEnd]
  cases hn : t.notify with
  | true =>
    simp only [if_true, Dev.send, Dev.withEnd, modifyPort_modifyPort, EventQueue.afterEnd, hn]
    rfl
  | false =>
    simp only [Bool.false_eq_true, if_false, Dev.withEnd, EventQueue.afterEnd, hn, id]
    rfl

/-- R127: the end of the one live ticket starts no other. -/
theorem finishTicket_eq (honly : d.OnlyLive p n) (ht : d.ticket p n = some t) (ho : t.orphan = false)
    (hst : st = .done ∨ st = .failed ∨ st = .cancelled) :
    d.finishTicket p n st r =
      (d.giveBufferIf p (t.buffer.isSome && !(!t.modifying && st != .cancelled))).withEnd p n
        (endedTicket (!t.modifying && st != .cancelled) st r) (fun q => q.afterEnd t r) := by
  have honly' : (d.giveBufferIf p (t.buffer.isSome && !(!t.modifying && st != .cancelled))).OnlyLive p n := by
    unfold Dev.giveBufferIf
    split <;> exact honly
  rw [Dev.finishTicket, endTicket_eq ht ho]
  exact wakePort_of_noLive _ (noLive_withEnd honly' (endedTicket_live _ hst)) p

theorem giveBufferIf_eq (d : Dev) (p : Port) (held : Bool) :
    d.giveBufferIf p held = { d with pool := if held then d.pool.give p else d.pool } := by
  cases held <;> rfl

/-- R127: the end of the one live ticket where it is modifying: its buffer goes back. -/
theorem finishTicket_modifying (honly : d.OnlyLive p n) (ht : d.ticket p n = some t) (ho : t.orphan = false)
    (hm : t.modifying = true) (hst : st = .done ∨ st = .failed ∨ st = .cancelled) :
    d.finishTicket p n st r = ({ d with pool := if t.buffer.isSome then d.pool.give p else d.pool } : Dev).withEnd p n
      (endedTicket false st r) (fun q => q.afterEnd t r) := by
  rw [finishTicket_eq honly ht ho hst, hm, Bool.not_true, Bool.false_and, Bool.not_false, Bool.and_true, giveBufferIf_eq]

/-- R127: the end of the one live ticket where it is modifying and holds no buffer. -/
theorem finishTicket_bare (honly : d.OnlyLive p n) (ht : d.ticket p n = some t) (ho : t.orphan = false)
    (hm : t.modifying = true) (hb : t.buffer = none) (hst : st = .done ∨ st = .failed ∨ st = .cancelled) :
    d.finishTicket p n st r = d.withEnd p n (endedTicket false st r) (fun q => q.afterEnd t r) := by
  rw [finishTicket_eq honly ht ho hst, hm, hb]
  rfl

end TicketEnd

/-! ## The one live ticket of the part -/

/-- The ticket is the only live one, and the only one of its number in its port's ring. -/
structure Alone (d : Dev) (p : Port) (t : Ticket) : Prop where
  only : d.OnlyLive p t.number
  ticket : d.ticket p t.number = some t
  live : t.live = true
  unique : ∀ u ∈ d.ring p, u.number = t.number → u = t

section Alone
variable {former d : Dev} {p : Port} {n : Byte} {t t' : Ticket} {g : EventQueue → EventQueue}

theorem alone_withEnd (honly : d.OnlyLive p n) (ht : d.ticket p n = some t) (hnum : t'.number = n) (hlive : t'.live = true) :
    Alone (d.withEnd p n (fun _ => t') g) p t' := by
  refine ⟨?_, ?_, hlive, fun u hu hun => ?_⟩
  · rw [hnum]
    exact onlyLive_withEnd honly fun _ _ => hnum
  · rw [hnum]
    exact withEnd_ticket (fun _ _ => hnum) ht
  · rcases mem_withEnd_ring hu with ⟨_, hother⟩ | ⟨_, _, _, _, rfl⟩
    · exact absurd ⟨rfl, hun.trans hnum⟩ hother
    · rfl

theorem oldestModifying_of_alone (h : Alone d p t) (hm : t.modifying = true) : d.oldestModifying p = some t :=
  oldestModifying_of_only h.only h.ticket h.live hm

theorem oldestRead_of_alone (h : Alone d p t) (hm : t.modifying = false) : d.oldestRead p = some t :=
  oldestRead_of_only h.only h.ticket h.live hm

theorem noRead_of_alone (h : Alone d p t) (hm : t.modifying = true) : d.oldestRead p = none := by
  refine List.find?_eq_none.mpr fun u hu hfound => ?_
  simp only [Bool.and_eq_true, Bool.not_eq_true'] at hfound
  rw [h.unique u hu (h.only p u hu hfound.2).2, hm] at hfound
  cases hfound.1

theorem noModifying_of_alone (h : Alone d p t) (hm : t.modifying = false) : d.oldestModifying p = none := by
  refine List.find?_eq_none.mpr fun u hu hfound => ?_
  simp only [Bool.and_eq_true] at hfound
  rw [h.unique u hu (h.only p u hu hfound.2).2, hm] at hfound
  cases hfound.1

theorem readCandidate_of_modifying (h : Alone d p t) (hm : t.modifying = true) : d.readCandidate p = none := by
  simp only [Dev.readCandidate, noRead_of_alone h hm]

/-- The kinds whose operations are sector erases. -/
def TicketKind.erases : TicketKind → Bool
  | .erase _ _ => true
  | .claim => true
  | .define _ _ _ _ _ => true
  | _ => false

theorem erases_cases {k : TicketKind} (hk : TicketKind.erases k = true) :
    (∃ first count, k = .erase first count) ∨ k = .claim ∨
      ∃ kind base size readers label, k = .define kind base size readers label := by
  cases k with
  | erase first count => exact .inl ⟨first, count, rfl⟩
  | claim => exact .inr (.inl rfl)
  | define kind base size readers label => exact .inr (.inr ⟨kind, base, size, readers, label, rfl⟩)
  | _ => exact absurd hk Bool.false_ne_true

theorem modifying_of_erases (hk : TicketKind.erases t.kind = true) : t.modifying = true := by
  unfold Ticket.modifying
  rcases erases_cases hk with ⟨_, _, h⟩ | h | ⟨_, _, _, _, _, h⟩ <;> rw [h]

/-- R147: a ready erase of the one live ticket is chosen. -/
theorem choose_erase_of_alone (hw : Workless d) (h : Alone d p t) (hk : TicketKind.erases t.kind = true)
    (hready : d.eraseCandidate p = some t) : d.choose = some (.erase (.port p)) := by
  have hm := modifying_of_erases hk
  have hverify : d.verifyCandidate p = none := by
    rcases erases_cases hk with ⟨_, _, hkind⟩ | hkind | ⟨_, _, _, _, _, hkind⟩ <;>
      simp only [Dev.verifyCandidate, oldestModifying_of_alone h hm, hkind]
  have hprogram : d.programCandidate p = none := by
    rcases erases_cases hk with ⟨_, _, hkind⟩ | hkind | ⟨_, _, _, _, _, hkind⟩ <;>
      simp only [Dev.programCandidate, oldestModifying_of_alone h hm, hkind]
  refine choose_erase hw h.only ?_ ?_ ?_
  · simp [Dev.readReady, readCandidate_of_modifying h hm, hverify]
  · simp [Dev.programReady, hprogram]
  · simp [Dev.eraseReady, hready]

/-- R146, R148: an event ends with an erase of the one live ticket. -/
theorem settle_erase {x : Dev} {sector : Nat} (hreleased : Dev.releasedLast former d 0 = []) (hidle : d.engine.current = none)
    (hw : Workless d) (hnone : d.TakesNone) (h : Alone d p t) (hk : TicketKind.erases t.kind = true)
    (hready : d.eraseCandidate p = some t) (htake : d.takePortErase p t = x.issueErase (.port p) sector (.ticket p t.number))
    (hx : (x.issueErase (.port p) sector (.ticket p t.number)).TakesNone) (hleases : x.LeasesFresh) :
    Dev.settle former d = { x with engine := { x.engine with
      current := some (issuedErase sector (.ticket p t.number)), erasePointer := .port p } } := by
  refine settle_of_choice (takeAll_of_none d hnone) hidle (choose_erase_of_alone hw h hk hready) hreleased ?_ hx
    ⟨_, rfl, fun e he => ?_⟩ hleases
  · simp only [Dev.perform, hready, htake]
    rfl
  · obtain rfl := Operation.erase.inj he
    rfl

end Alone

/-! ## Claims (R31, R42) -/

section Claims
variable {d : Dev} {i : Nat} {serial : Word32}

/-- R163: no lease comes to be in use where no entry's claim is taken up. -/
theorem leasesLeft_setEntry {e : Entry} (h : d.LeasesLeft) (he : e.defined = true → e.claim ≠ .unclaimed →
    (d.entry i).defined = true ∧ (d.entry i).claim ≠ .unclaimed ∧ (d.entry i).owner = e.owner) :
    (d.setEntry i e).LeasesLeft := by
  refine leasesLeft_mono d _ (fun q hq => ?_) (fun q => ⟨rfl, rfl⟩) h
  simp only [Dev.holdsClaim, List.any_eq_true, Bool.and_eq_true, bne_iff_ne, beq_iff_eq] at hq ⊢
  obtain ⟨j, hj, ⟨hdefined, howner⟩, hclaim⟩ := hq
  have hlt : j < 24 := List.mem_range.mp hj
  refine ⟨j, hj, ?_⟩
  by_cases hji : j = i
  · subst hji
    have hsame : (d.setEntry j e).entry j = e := setEntry_entry_same d.table j e hlt
    rw [hsame] at hdefined howner hclaim
    obtain ⟨hd, hc, ho⟩ := he hdefined hclaim
    exact ⟨⟨hd, ho.trans howner⟩, hc⟩
  · have hother : (d.setEntry i e).entry j = d.entry j := setEntry_entry_other d.table i j e hji
    rw [hother] at hdefined howner hclaim
    exact ⟨⟨hdefined, howner⟩, hclaim⟩

theorem leasesLeft_setClaim {c : Claim} (h : d.LeasesLeft) (hc : (d.entry i).claim ≠ .unclaimed) :
    (d.setEntry i { d.entry i with claim := c }).LeasesLeft :=
  leasesLeft_setEntry h fun hdefined _ => ⟨hdefined, hc, rfl⟩

theorem setClaim_eq (c : Claim) (hd : (d.entry i).defined = true) (hs : (d.entry i).serial = serial) :
    d.setClaim i serial c = d.setEntry i { d.entry i with claim := c } := by
  refine if_pos ?_
  show ((d.entry i).defined && (d.entry i).serial == serial) = true
  simp [hd, hs]

theorem quiet_setClaim {c : Claim} (h : d.Quiet) (hc : (d.entry i).claim ≠ .unclaimed) :
    (d.setEntry i { d.entry i with claim := c }).Quiet := by
  obtain ⟨hparked, hhand, hfold, hqueue, hmount, hleases⟩ := h
  exact ⟨hparked, hhand, hfold, hqueue, hmount, leasesLeft_setClaim hleases hc⟩

end Claims

/-! ## Sectors and locks (R12, R30) -/

theorem writeBase_eq_spareSector (e : Entry) : e.writeBase = e.spareSector := by
  unfold Entry.writeBase Entry.spareSector Entry.copyBase spareOf
  cases e.kind with
  | plain => rfl
  | image => rcases e.live with _ | (_ | _) <;> rfl

theorem locked_eq_true_iff (e : Entry) : e.locked = true ↔ e.defined = true ∧ (e.fixed = true ∨ e.held = true) := by
  cases hd : e.defined with
  | true => rw [locked_iff hd]; simp
  | false => simp [Entry.locked, Entry.lock, hd]

end Sys2Proof.Proofs

/-!
PROOF. Operations of tickets that complete (R150, R151): READ, PROGRAM, ERASE and CLAIM.
-/

namespace Sys2Proof.Proofs

set_option Elab.async false

open Sys2Proof Sys2Proof.Machine Sys2Proof.Laws

/-! ## The commands of the array -/

section Commands
variable {s : State} {sector page first age : Nat} {data : List Byte} {r : Requester} {v : Verdict} {op : EraseOp}
  {x : Dev}

/-- R4: the bytes of a page as the array holds them. -/
theorem readPage_eq (m : Memory) (sector page : Nat) :
    m.readPage sector page = (List.range 256).map (fun b => m.byteAt (sector * 4096 + page * 256 + b)) := by
  refine List.ext_getElem (by simp) fun b hb hb' => ?_
  have hlt : b < 256 := by simpa using hb
  calc (m.readPage sector page)[b]'hb = (m.readPage sector page).getD b 0 := (List.getD_eq_getElem _ _ hb).symm
    _ = m.byteAt (byteAddress sector page 0 + b) := readRun_getD m _ 256 b hlt 0
    _ = m.byteAt (sector * 4096 + page * 256 + b) := by rw [byteAddress_eq, Nat.add_zero]
    _ = ((List.range 256).map (fun b => m.byteAt (sector * 4096 + page * 256 + b)))[b]'hb' := (List.getElem_map _).symm ▸ by rw [List.getElem_range]

theorem exec_pageReadComplete (hop : s.dev.engine.current = some (.read sector page r age)) (hs : sector < 4096)
    (hp : page < 16)
    (hx : Dev.settle s.dev ((s.dev.withCurrent none).readDone r
      ((List.range 256).map (fun b => s.array.byteAt (sector * 4096 + page * 256 + b)))) = x) :
    exec .pageReadComplete s = .next { s with dev := x } := by
  rw [← readPage_eq] at hx
  have hin : (Operation.read sector page r age).inArray = true := by
    simp [Operation.inArray, Config.sectorCount, Config.pagesPerSector, hs, hp]
  show execPageReadComplete s = _
  simp only [execPageReadComplete, hop, hin, if_true, ← hx]
  rfl

theorem exec_pageProgramComplete (hop : s.dev.engine.current = some (.program sector page first data r age))
    (hs : sector < 4096) (hp : page < 16) (hf : first + data.length ≤ 256)
    (hx : Dev.settle s.dev ((s.dev.withCurrent none).programDone r (verdictOk v)) = x) :
    exec (.pageProgramComplete v) s =
      .next { s with array := s.array.programPage sector page first data v, dev := x } := by
  have hin : (Operation.program sector page first data r age).inArray = true := by
    simp [Operation.inArray, Config.sectorCount, Config.pagesPerSector, Config.pageBytes, hs, hp, hf]
  show execPageProgramComplete v s = _
  simp only [execPageProgramComplete, hop, hin, if_true, ← hx]
  rfl

theorem exec_sectorEraseComplete (hop : s.dev.engine.current = some (.erase op)) (hs : op.sector < 4096)
    (hx : Dev.settle s.dev ((s.dev.withCurrent none).eraseDone op.requester (verdictOk v)) = x) :
    exec (.sectorEraseComplete v) s = .next { s with array := s.array.eraseSector op.sector v, dev := x } := by
  have hin : (Operation.erase op).inArray = true := by simp [Operation.inArray, Config.sectorCount, hs]
  show execSectorEraseComplete v s = _
  simp only [execSectorEraseComplete, hop, hin, if_true, ← hx]
  rfl

end Commands

/-! ## The one live ticket ends at a completion -/

section Completion
variable {former d : Dev} {p : Port} {n : Byte} {t : Ticket} {f : Ticket → Ticket} {g : EventQueue → EventQueue}

theorem quiet_withCurrent {current : Option Operation} (h : d.Quiet) : (d.withCurrent current).Quiet := h

/-- R127: with the end of the one live ticket the event is over. -/
theorem settle_withEnd (hidle : d.engine.current = none) (hquiet : d.Quiet) (honly : d.OnlyLive p n)
    (hf : ∀ u, (f u).live = false) : Dev.settle former (d.withEnd p n f g) = d.withEnd p n f g :=
  settle_of_quiet former _ hidle (quiet_withEnd hquiet) (noLive_withEnd honly hf)

end Completion

section Ticket
variable {d : Dev} {p : Port} {n : Byte} {t : Ticket}

/-- R124, R127: a READ ends DONE with its page and keeps its buffer. -/
theorem readTicketDone_eq (bytes : List Byte) (honly : d.OnlyLive p n) (ht : d.ticket p n = some t) (hm : t.modifying = false)
    (ho : t.orphan = false) :
    d.readTicketDone p n bytes = d.withEnd p n
      (fun u => { u with progress := 1, state := .done, result := .ok, buffer := u.buffer.map (fun _ => bytes) })
      (fun q => q.afterEnd t .ok) := by
  have hnum (u : Ticket) (hu : u.number = n) :
      ({ u with progress := 1, buffer := u.buffer.map (fun _ => bytes) } : Ticket).number = n := hu
  have hkeeps : (!({ t with progress := 1, buffer := t.buffer.map (fun _ => bytes) } : Ticket).modifying &&
      TicketState.done != .cancelled) = true := (congrArg (fun b => !b && TicketState.done != .cancelled) hm).trans rfl
  rw [Dev.readTicketDone, modifyTicket_eq_withEnd,
    finishTicket_eq (onlyLive_withEnd honly hnum) (withEnd_ticket hnum ht) ho (.inl rfl), hkeeps, Bool.not_true,
    Bool.and_false, giveBufferIf_false, withEnd_withEnd hnum]
  rfl

/-- R125, R127: a PROGRAM ends DONE or FAILED, its buffer back in the pool. -/
theorem programTicketDone_eq (ok : Bool) (honly : d.OnlyLive p n) (ht : d.ticket p n = some t) (hm : t.modifying = true)
    (ho : t.orphan = false) :
    d.programTicketDone p n ok =
      ({ d with pool := if t.buffer.isSome then d.pool.give p else d.pool } : Dev).withEnd p n
        (if ok then fun u => { u with progress := 1, state := .done, result := .ok, buffer := none }
          else fun u => { u with state := .failed, result := .arrayfail, buffer := none })
        (fun q => q.afterEnd t (if ok then .ok else .arrayfail)) := by
  cases ok with
  | false => exact finishTicket_modifying honly ht ho hm (.inr (.inl rfl))
  | true =>
    have hnum (u : Ticket) (hu : u.number = n) : ({ u with progress := 1 } : Ticket).number = n := hu
    rw [Dev.programTicketDone, if_pos rfl, modifyTicket_eq_withEnd,
      finishTicket_modifying (onlyLive_withEnd honly hnum) (withEnd_ticket hnum ht) ho hm (.inl rfl)]
    exact withEnd_withEnd (d := ({ d with pool := if t.buffer.isSome then d.pool.give p else d.pool } : Dev)) hnum

end Ticket

/-- Settles O36: the ticket takes the page, then ends. -/
theorem readCompletes : Obligations.ReadCompletes := by
  intro p n t sector page age s hop hs hp ht hm ho honly hquiet bytes
  refine exec_pageReadComplete hop hs hp ?_
  show Dev.settle s.dev ((s.dev.withCurrent none).readTicketDone p n bytes) = _
  rw [readTicketDone_eq (d := s.dev.withCurrent none) bytes honly ht hm ho]
  exact settle_withEnd (d := s.dev.withCurrent none) rfl hquiet honly fun _ => rfl

/-- Settles O38: the ticket ends by the verdict. -/
theorem programCompletes : Obligations.ProgramCompletes := by
  intro p n t sector page first age data v s hop hs hp hf ht hm ho honly hquiet d
  refine exec_pageProgramComplete hop hs hp hf ?_
  show Dev.settle s.dev ((s.dev.withCurrent none).programTicketDone p n (verdictOk v)) = _
  rw [programTicketDone_eq (d := s.dev.withCurrent none) (verdictOk v) honly ht hm ho]
  cases v with
  | success => exact settle_withEnd (d := d) rfl hquiet honly fun _ => rfl
  | failure bits => exact settle_withEnd (d := d) rfl hquiet honly fun _ => rfl

end Sys2Proof.Proofs

/-!
PROOF. Sector erases of tickets that complete (R126, R42): ERASE and CLAIM.
-/

namespace Sys2Proof.Proofs

set_option Elab.async false

open Sys2Proof Sys2Proof.Machine Sys2Proof.Laws

/-! ## The boundary of a ticket after an operation -/

section Boundary
variable {former d : Dev} {p : Port} {n : Byte} {t t1 : Ticket} {st : TicketState} {r : Result}

/-- R127: a ticket whose record has just been replaced ends. -/
theorem finishTicket_replaced (honly : d.OnlyLive p n) (ht : d.ticket p n = some t) (hnum : t1.number = n)
    (ho : t1.orphan = false) (hm : t1.modifying = true) (hb : t1.buffer = none)
    (hst : st = .done ∨ st = .failed ∨ st = .cancelled) :
    (d.withEnd p n (fun _ => t1) id).finishTicket p n st r =
      d.withEnd p n (fun _ => { t1 with state := st, result := r }) (fun q => q.afterEnd t1 r) := by
  rw [finishTicket_bare (onlyLive_withEnd honly fun _ _ => hnum) (withEnd_ticket (fun _ _ => hnum) ht) ho hm hb hst,
    withEnd_withEnd fun _ _ => hnum]
  refine withEnd_congr (fun _ _ _ => ?_) rfl
  simp [endedTicket, hb]

theorem afterEnd_congr {u : Ticket} (hnum : u.number = t.number) (hnotify : u.notify = t.notify) (hindex : u.index = t.index)
    (q : EventQueue) (r : Result) : q.afterEnd u r = q.afterEnd t r := by
  simp only [EventQueue.afterEnd, hnum, hnotify, hindex]

end Boundary

/-! ## ERASE -/

section Erase
variable {former d : Dev} {p : Port} {n : Byte} {t : Ticket} {first count : Half16} {i : Nat}

/-- R126, R149: a later erase of an ERASE whose entry is not locked. -/
theorem takePortErase_later (hk : t.kind = .erase first count) (hi : t.index = some i) (hs : t.state = .running)
    (hl : (d.entry i).locked = false) :
    d.takePortErase p t =
      d.issueErase (.port p) ((d.entry i).base.toNat + first.toNat + t.progress) (.ticket p t.number) := by
  have htarget : t.target = i := congrArg (fun x => Option.getD x 24) hi
  simp [Dev.takePortErase, hk, Dev.takeEraseOfErase, hs, htarget, hl]

theorem eraseCandidate_running (h : Alone d p t) (hk : TicketKind.erases t.kind = true) (hs : t.state = .running)
    (hstage : t.stage = .operating) : d.eraseCandidate p = some t := by
  rcases erases_cases hk with ⟨_, _, hkind⟩ | hkind | ⟨_, _, _, _, _, hkind⟩ <;>
    simp [Dev.eraseCandidate, oldestModifying_of_alone h (modifying_of_erases hk), hkind, hs, hstage]

end Erase

/-- Settles O39: the checks of the boundary in their order; past them the next sector is the one erase that is ready. -/
theorem eraseCompletes : Obligations.EraseCompletes := by
  intro p n t first count op v i s hop hreq hsec ht hk hi hstate hstage ho hb honly hquiet e d k ends
  have hnum : t.number = n := number_of_ticket ht
  have hm : t.modifying = true := modifying_of_erases (by rw [hk]; rfl)
  have hends (x : Dev) (hx : Dev.settle s.dev (d.eraseTicketDone p n (verdictOk v)) = x) : ends x :=
    exec_sectorEraseComplete hop hsec (by rw [hreq]; exact hx)
  have hticket : d.ticket p n = some t := ht
  cases v with
  | failure bits =>
    refine hends _ ?_
    have hfail : d.eraseTicketDone p n (verdictOk (.failure bits)) = d.finishTicket p n .failed .arrayfail := by
      simp [Dev.eraseTicketDone, hticket, hk, verdictOk]
    rw [hfail, finishTicket_bare (d := d) honly ht ho hm hb (.inr (.inl rfl))]
    exact settle_withEnd (d := d) rfl hquiet honly fun _ => rfl
  | success =>
    obtain ⟨t1, ht1⟩ : ∃ t1 : Ticket, t1 = { t with progress := k } := ⟨_, rfl⟩
    have hboundary : d.eraseTicketDone p n (verdictOk .success) = (d.withEnd p n (fun _ => t1) id).eraseBoundary p t1 count := by
      rw [ht1, ← modifyTicket_eq_withEnd]
      simp [Dev.eraseTicketDone, hticket, hk, verdictOk, k]
    have hnum1 : t1.number = n := by rw [ht1]; exact hnum
    have hfinish (st : TicketState) (r : Result) (hst : st = .done ∨ st = .failed ∨ st = .cancelled)
        (hbound : (d.withEnd p n (fun _ => t1) id).eraseBoundary p t1 count =
          (d.withEnd p n (fun _ => t1) id).finishTicket p t1.number st r) :
        ends (d.withEnd p n (fun _ => { t with progress := k, state := st, result := r }) (fun q => q.afterEnd t r)) := by
      refine hends _ ?_
      rw [hboundary, hbound, hnum1, finishTicket_replaced (d := d) honly ht hnum1 (by rw [ht1]; exact ho) (by rw [ht1]; exact hm)
        (by rw [ht1]; exact hb) hst, ht1]
      exact settle_withEnd (d := d) rfl hquiet honly (endedTicket_live (r := r) true hst)
    have hprogress : t1.progress = k := by rw [ht1]
    have hcancel : t1.cancelRequested = t.cancelRequested := by rw [ht1]
    have horphan : t1.orphan = false := by rw [ht1]; exact ho
    have hentry : (d.withEnd p n (fun _ => t1) id).entry t1.target = e := by
      have htarget : t1.target = i := by rw [ht1]; exact congrArg (fun x => Option.getD x 24) hi
      rw [htarget]
      rfl
    dsimp only
    unfold Dev.eraseBoundary at hfinish hboundary
    rw [hprogress, hcancel, horphan, hentry] at hfinish hboundary
    split
    next hlast => exact hfinish .done .ok (.inl rfl) (if_pos hlast)
    next hlast =>
      split
      next hc => exact hfinish .cancelled .cancelled (.inr (.inr rfl)) (by rw [if_neg hlast, if_pos hc])
      next hc =>
        rw [if_neg hlast, if_neg hc] at hfinish hboundary
        split
        next hlocked =>
          refine hfinish .failed .locked (.inr (.inl rfl)) ?_
          simp [(locked_eq_true_iff e).mpr hlocked]
        next hlocked =>
          have hopen : e.locked = false := Bool.eq_false_iff.mpr (mt (locked_eq_true_iff e).mp hlocked)
          refine hends _ ?_
          rw [hboundary, if_neg Bool.false_ne_true, hopen, if_neg Bool.false_ne_true]
          have halone : Alone (d.withEnd p n (fun _ => t1) id) p t1 :=
            alone_withEnd (d := d) honly ht hnum1 (by rw [ht1]; simp [Ticket.live, hstate])
          have hq : (d.withEnd p n (fun _ => t1) id).Quiet := quiet_withEnd (d := d) hquiet
          have hkind : t1.kind = .erase first count := by rw [ht1]; exact hk
          have hs1 : t1.state = .running := by rw [ht1]; exact hstate
          have hissue := settle_erase (releasedLast_of_only honly _ 0) rfl (workless_of_quiet hq) (takesNone_of_quiet hq)
            halone (by rw [hkind]; rfl)
            (eraseCandidate_running halone (by rw [hkind]; rfl) hs1 (by rw [ht1]; exact hstage))
            (takePortErase_later (i := i) hkind (by rw [ht1]; exact hi) hs1 hopen) (takesNone_of_quiet hq)
            (leasesFresh_of_quiet _ hq)
          rw [hissue, hprogress, hnum1, ht1]
          rfl

/-! ## CLAIM -/

section Claim
variable {d : Dev} {p : Port} {n : Byte} {t t1 : Ticket} {i : Nat} {serial : Word32} {st : TicketState} {r : Result}

/-- R42, R43: a claim changes with the end of the ticket whose record has just been replaced. -/
theorem finishTicket_claim (c : Claim) (honly : d.OnlyLive p n) (ht : d.ticket p n = some t) (hnum : t1.number = n)
    (ho : t1.orphan = false) (hm : t1.modifying = true) (hb : t1.buffer = none)
    (hd : (d.entry i).defined = true) (hs : (d.entry i).serial = serial)
    (hst : st = .done ∨ st = .failed ∨ st = .cancelled) :
    ((d.withEnd p n (fun _ => t1) id).setClaim i serial c).finishTicket p n st r =
      (d.setEntry i { d.entry i with claim := c }).withEnd p n (fun _ => { t1 with state := st, result := r })
        (fun q => q.afterEnd t1 r) := by
  rw [setClaim_eq (d := d.withEnd p n (fun _ => t1) id) c hd hs]
  exact finishTicket_replaced (d := d.setEntry i { d.entry i with claim := c }) honly ht hnum ho hm hb hst

/-- R42, R149: a later spare erase of a CLAIM whose entry is not locked. -/
theorem takePortErase_spare (hk : t.kind = .claim) (hi : t.index = some i) (hs : t.state = .running)
    (hl : (d.entry i).locked = false) :
    d.takePortErase p t = d.issueErase (.port p) ((d.entry i).spareSector + t.progress) (.ticket p t.number) := by
  have htarget : t.target = i := congrArg (fun x => Option.getD x 24) hi
  simp [Dev.takePortErase, hk, Dev.takeEraseOfClaim, hs, htarget, hl, writeBase_eq_spareSector]

/-- R42: the boundary of a CLAIM that is no orphan, out of DEGRADED. -/
theorem claimBoundary_serving (htarget : t.target = i) (hserial : t.serial.getD 0 = serial) (ho : t.orphan = false)
    (hphase : d.phase = .serving) :
    d.claimBoundary p t =
      if (d.entry i).size.toNat ≤ t.progress then (d.setClaim i serial .opened).finishTicket p t.number .done .ok
      else if t.cancelRequested = true then (d.setClaim i serial .unclaimed).finishTicket p t.number .cancelled .cancelled
      else if (d.entry i).locked = true then (d.setClaim i serial .unclaimed).finishTicket p t.number .failed .locked
      else d := by
  subst htarget hserial
  simp [Dev.claimBoundary, Dev.endClaim, ho, hphase]

end Claim

/-- Settles O40: the checks of the boundary in their order, each end with what it makes of the claim. -/
theorem claimErases : Obligations.ClaimErases := by
  intro p n t op v i s hop hreq hsec ht hk hi hlt hstate hstage ho hb hphase honly hquiet e hdef hser hclaim d k ends
  have hnum : t.number = n := number_of_ticket ht
  have hm : t.modifying = true := modifying_of_erases (by rw [hk]; rfl)
  have hends (x : Dev) (hx : Dev.settle s.dev (d.eraseTicketDone p n (verdictOk v)) = x) : ends x :=
    exec_sectorEraseComplete hop hsec (by rw [hreq]; exact hx)
  have hticket : d.ticket p n = some t := ht
  have htarget : t.target = i := congrArg (fun x => Option.getD x 24) hi
  have hserial : t.serial.getD 0 = e.serial := congrArg (fun x => Option.getD x 0) hser
  have hclaimed : (d.entry i).claim ≠ .unclaimed := fun h => nomatch hclaim.symm.trans h
  have hquiet' (c : Claim) : (d.setEntry i { e with claim := c }).Quiet := quiet_setClaim (d := d) hquiet hclaimed
  cases v with
  | failure bits =>
    refine hends _ ?_
    have hfail : d.eraseTicketDone p n (verdictOk (.failure bits)) =
        (d.setEntry i { e with claim := .unclaimed }).finishTicket p n .failed .arrayfail := by
      have hset := setClaim_eq (d := d) (i := i) (serial := e.serial) .unclaimed hdef rfl
      simp only [Dev.eraseTicketDone, hticket, hk, verdictOk, Bool.false_eq_true, if_false, Dev.endClaim, htarget, hserial, hnum]
      rw [hset]
      rfl
    rw [hfail, finishTicket_bare (d := d.setEntry i { e with claim := .unclaimed }) honly ht ho hm hb (.inr (.inl rfl))]
    exact settle_withEnd (d := d.setEntry i { e with claim := .unclaimed }) rfl (hquiet' _) honly fun _ => rfl
  | success =>
    obtain ⟨t1, ht1⟩ : ∃ t1 : Ticket, t1 = { t with progress := k } := ⟨_, rfl⟩
    have hboundary : d.eraseTicketDone p n (verdictOk .success) = (d.withEnd p n (fun _ => t1) id).claimBoundary p t1 := by
      rw [ht1, ← modifyTicket_eq_withEnd]
      simp [Dev.eraseTicketDone, hticket, hk, verdictOk, k]
    have hnum1 : t1.number = n := by rw [ht1]; exact hnum
    have hfinish (c : Claim) (st : TicketState) (r : Result) (hst : st = .done ∨ st = .failed ∨ st = .cancelled)
        (hbound : (d.withEnd p n (fun _ => t1) id).claimBoundary p t1 =
          ((d.withEnd p n (fun _ => t1) id).setClaim i e.serial c).finishTicket p n st r) :
        ends ((d.setEntry i { e with claim := c }).withEnd p n
          (fun _ => { t with progress := k, state := st, result := r }) (fun q => q.afterEnd t r)) := by
      refine hends _ ?_
      have hended := finishTicket_claim (d := d) (i := i) (serial := e.serial) (r := r) c honly ht hnum1
        (by rw [ht1]; exact ho) (by rw [ht1]; exact hm) (by rw [ht1]; exact hb) hdef rfl hst
      rw [hboundary, hbound, hended, ht1]
      exact settle_withEnd (d := d.setEntry i { e with claim := c }) rfl (hquiet' c) honly (endedTicket_live (r := r) true hst)
    have hentry : (d.withEnd p n (fun _ => t1) id).entry i = e := rfl
    have hunfold := claimBoundary_serving (d := d.withEnd p n (fun _ => t1) id) (p := p) (t := t1) (i := i) (serial := e.serial)
      (by rw [ht1]; exact htarget) (by rw [ht1]; exact hserial) (by rw [ht1]; exact ho) hphase
    have hprogress1 : t1.progress = k := by rw [ht1]
    have hcancel1 : t1.cancelRequested = t.cancelRequested := by rw [ht1]
    rw [hprogress1, hcancel1, hnum1, hentry] at hunfold
    rw [hunfold] at hboundary hfinish
    dsimp only
    split
    next hlast => exact hfinish .opened .done .ok (.inl rfl) (if_pos hlast)
    next hlast =>
      split
      next hc => exact hfinish .unclaimed .cancelled .cancelled (.inr (.inr rfl)) (by rw [if_neg hlast, if_pos hc])
      next hc =>
        rw [if_neg hlast, if_neg hc] at hfinish hboundary
        split
        next hlocked =>
          exact hfinish .unclaimed .failed .locked (.inr (.inl rfl)) (if_pos ((locked_iff hdef).mpr hlocked))
        next hlocked =>
          have hopen : e.locked = false := Bool.eq_false_iff.mpr (mt (locked_iff hdef).mp hlocked)
          refine hends _ ?_
          rw [hboundary, hopen, if_neg Bool.false_ne_true]
          have halone : Alone (d.withEnd p n (fun _ => t1) id) p t1 :=
            alone_withEnd (d := d) honly ht hnum1 (by rw [ht1]; simp [Ticket.live, hstate])
          have hq : (d.withEnd p n (fun _ => t1) id).Quiet := quiet_withEnd (d := d) hquiet
          have hkind : t1.kind = .claim := by rw [ht1]; exact hk
          have hs1 : t1.state = .running := by rw [ht1]; exact hstate
          have hissue := settle_erase (releasedLast_of_only honly _ 0) rfl (workless_of_quiet hq) (takesNone_of_quiet hq)
            halone (by rw [hkind]; rfl)
            (eraseCandidate_running halone (by rw [hkind]; rfl) hs1 (by rw [ht1]; exact hstage))
            (takePortErase_spare (i := i) hkind (by rw [ht1]; exact hi) hs1 hopen) (takesNone_of_quiet hq)
            (leasesFresh_of_quiet _ hq)
          rw [hissue, hnum1, ht1]
          rfl

end Sys2Proof.Proofs

/-!
PROOF. The Journal Writer's tail (R68 to R70): a request handed over, the record it becomes, and its program; with it the
verification reads of a COMMIT (R48 to R52).
-/

namespace Sys2Proof.Proofs

set_option Elab.async false

open Sys2Proof Sys2Proof.Machine Sys2Proof.Laws

/-! ## A record program is issued -/

/-- R147: an event that ends with a record ready and the engine idle issues its program. -/
theorem settle_record {former d x : Dev} {half : JournalHalf} {slot : Nat} {page : List Byte} {r : Requester}
    (htake : d.takeAll = x) (hidle : x.engine.current = none) (hready : x.recordReady = some (half, slot, page, r))
    (hnone : x.TakesNone) (hleases : x.LeasesFresh) :
    Dev.settle former d = { x with engine := { x.engine with
      current := some (.program (slotSector half slot) (slotPage slot) 0 page r 0) } } := by
  refine settle_of_system htake hidle (choose_of_record (by rw [hready]; rfl)) rfl ?_ hnone ⟨_, rfl, fun _ h => nomatch h⟩ hleases
  simp only [Dev.perform, hready]
  rfl

/-! ## A request that is formed at once -/

section Form
variable {former d : Dev} {p : Port} {n : Byte} {body : RequestBody} {c : Change} {q : Word32}

/-- R64, R70: the Journal Writer with the record of a request in hand. -/
def formed (d : Dev) (q : Word32) (p : Port) (n : Byte) (body : RequestBody) (c : Change) : Dev :=
  { d with writer := { d.writer with
      inHand := some
        { change := c, slot := d.writer.nextSlot, sequence := q, retryOf := none, request := .host p n body }
      nextSequence := nextSequenceAfter q
      buffer := changePage q none c } }

theorem validate_enqueue (r : Request) : (d.enqueue r).validate p body = d.validate p body := by
  cases body <;> rfl

/-- R69, R70: the one request that waits is formed where the Journal Writer may form it, and no other is then taken. -/
theorem takeAll_enqueue (hmay : d.mayForm = true) (hqueue : d.writer.queue = []) (hslot : d.writer.nextSlot ≤ 59)
    (hsequence : d.writer.nextSequence = some q) (hvalid : d.validate p body = .ok c) :
    (d.enqueue (.host p n body)).takeAll = formed d q p n body c := by
  have hfuel : ∃ k, (d.enqueue (.host p n body)).requestFuel = k + 1 := ⟨_, rfl⟩
  obtain ⟨k, hk⟩ := hfuel
  have hroom : 5 ≤ d.writer.freeSlots := by
    show 5 ≤ 64 - d.writer.nextSlot
    omega
  have hpick : pickRequest (d.enqueue (.host p n body)).writer.freeSlots (d.enqueue (.host p n body)).writer.queue =
      some (.host p n body, []) := by
    show pickRequest d.writer.freeSlots (d.writer.queue ++ [.host p n body]) = _
    rw [hqueue]
    exact if_pos (decide_eq_true hroom)
  have hform : (d.enqueue (.host p n body)).takeOne (.host p n body) [] = formed d q p n body c := by
    have hsequence' : (d.enqueue (.host p n body)).writer.nextSequence = some q := hsequence
    simp only [Dev.takeOne, validate_enqueue, hvalid, Dev.formRecord, hsequence']
    rw [formed, ← hqueue]
    rfl
  rw [Dev.takeAll, hk, Dev.takeRequests, if_pos (show (d.enqueue (.host p n body)).mayForm = true from hmay)]
  simp only [hpick, hform]
  exact takeRequests_of_none _ (takesNone_of_inHand _ rfl) k

/-- R70: with an idle engine the record just formed is programmed at once. -/
def formedAndIssued (d : Dev) (q : Word32) (p : Port) (n : Byte) (body : RequestBody) (c : Change) : Dev :=
  { formed d q p n body c with engine := { d.engine with
      current := some (.program (slotSector d.writer.activeHalf d.writer.nextSlot) (slotPage d.writer.nextSlot) 0
        (changePage q none c) .journal 0) } }

theorem settle_formed (hmay : d.mayForm = true) (hqueue : d.writer.queue = []) (hslot : d.writer.nextSlot ≤ 59)
    (hsequence : d.writer.nextSequence = some q) (hvalid : d.validate p body = .ok c) (hidle : d.engine.current = none)
    (hleases : d.LeasesFresh) :
    Dev.settle former (d.enqueue (.host p n body)) = formedAndIssued d q p n body c :=
  settle_record (takeAll_enqueue hmay hqueue hslot hsequence hvalid) hidle rfl (takesNone_of_inHand _ rfl) hleases

theorem mayForm_of_quiet (hquiet : d.Quiet) (hphase : d.phase = .serving) (hgood : d.writer.condition = .good)
    (hhold : d.writer.holdFormation = false) : d.mayForm = true := by
  obtain ⟨_, hhand, hfold, _, _, _⟩ := hquiet
  simp [Dev.mayForm, hphase, hgood, hhand, hhold, hfold]

/-- R68: a ticket whose record has just been replaced hands its request over. -/
theorem handOver_replaced {t1 : Ticket} (hnum : t1.number = n) :
    (d.withEnd p n (fun _ => t1) id).handOver p n body =
      (d.withEnd p n (fun _ => { t1 with state := .running, stage := .recording }) id).enqueue (.host p n body) := by
  rw [Dev.handOver, modifyTicket_eq_withEnd, withEnd_withEnd fun _ _ => hnum]
  rfl

end Form

/-! ## A verification read (R48) -/

section Verify
variable {former d : Dev} {p : Port} {t : Ticket} {length check : Word32} {budget : BitVec 4} {i : Nat} {serial : Word32}

theorem busy_of_idle (hidle : d.engine.current = none) (hparked : d.engine.parked = none) (sector : Nat) :
    d.busy sector = false := by
  simp [Dev.busy, hidle, hparked]

theorem notBusy_of_idle (hidle : d.engine.current = none) (hparked : d.engine.parked = none) (sector : Option Nat) :
    d.notBusy sector = true := by
  cases sector with
  | none => rfl
  | some k => simp [Dev.notBusy, busy_of_idle hidle hparked]

/-- R47, R147: a ready verification read of the one live ticket is chosen and taken. -/
theorem settle_verify {x : Dev} {sector page : Nat} (hreleased : Dev.releasedLast former d 0 = [])
    (hidle : d.engine.current = none) (hw : Workless d) (hnone : d.TakesNone) (h : Alone d p t) (hm : t.modifying = true)
    (hready : d.verifyCandidate p = some t)
    (htake : d.takeVerify p t = x.issueRead (.port p) sector page (.verify p t.number))
    (hx : (x.issueRead (.port p) sector page (.verify p t.number)).TakesNone) (hleases : x.LeasesFresh) :
    Dev.settle former d = { x with engine := { x.engine with
      current := some (.read sector page (.verify p t.number) 0), readPointer := .port p } } := by
  have hnoread : d.readCandidate p = none := readCandidate_of_modifying h hm
  refine settle_of_choice (takeAll_of_none d hnone) hidle (choose_read hw h.only ?_) hreleased ?_ hx
    ⟨_, rfl, fun _ he => nomatch he⟩ hleases
  · simp [Dev.readReady, hready]
  · simp only [Dev.perform, hnoread, hready, htake]
    rfl

/-- R48: a later verification read. -/
theorem settle_laterVerify (hreleased : Dev.releasedLast former d 0 = []) (hidle : d.engine.current = none) (hq : d.Quiet)
    (h : Alone d p t) (hk : t.kind = .commit length check budget) (htarget : t.target = i) (hs : t.state = .running)
    (hstage : t.stage = .operating) :
    Dev.settle former d = { d with engine := { d.engine with
      current := some (.read ((d.entry i).spareSector + t.progress / 16) (t.progress % 16) (.verify p t.number) 0)
      readPointer := .port p } } := by
  have hm : t.modifying = true := by simp [Ticket.modifying, hk]
  have hw := workless_of_quiet hq
  refine settle_verify hreleased hidle hw (takesNone_of_quiet hq) h hm ?_ ?_ (takesNone_of_quiet hq) (leasesFresh_of_quiet d hq)
  · simp [Dev.verifyCandidate, oldestModifying_of_alone h hm, hk, hs, hstage, notBusy_of_idle hidle hw.parked]
  · simp [Dev.takeVerify, hs, Dev.issueVerify, htarget, writeBase_eq_spareSector, Config.pagesPerSector]

theorem verifyPages_lt_iff (length : Word32) (k : Nat) : k < verifyPages length ↔ k * 256 < length.toNat := by
  unfold verifyPages Config.pageBytes
  omega

theorem spareOf_eq (live : Option Copy) : spareOf live = if live = some .a then .b else .a := by
  rcases live with _ | (_ | _) <;> rfl

/-- R49: the boundary of a COMMIT that no check ends. -/
theorem verifyBoundary_open (ho : t.orphan = false) (hc : t.cancelRequested = false) (htarget : t.target = i)
    (hl : (d.entry i).locked = false) (hphase : d.phase = .serving) :
    d.verifyBoundary p t length check budget =
      if t.progress * 256 < length.toNat then d else d.compareCheck p t length check budget := by
  simp only [Dev.verifyBoundary, ho, hc, htarget, hl, hphase, Bool.false_eq_true, if_false, reduceCtorEq, verifyPages_lt_iff]

end Verify

/-- Settles O37: past the boundary's checks the last page decides between the next read, BADCHECK and the record. -/
theorem verificationRead : Obligations.VerificationRead := by
  intro p n t length check budget sector page age i s hop hs hp ht hk hi hlt hstate hstage ho hc hb hphase honly hquiet e hdef
    hser hfixed hheld hclaim bytes k crc d matched
  have hnum : t.number = n := number_of_ticket ht
  have hends (x : Dev) (hx : Dev.settle s.dev ((s.dev.withCurrent none).verifyReadDone p n bytes) = x) :
      exec .pageReadComplete s = .next { s with dev := x } := exec_pageReadComplete hop hs hp hx
  obtain ⟨t1, ht1⟩ : ∃ t1 : Ticket, t1 = { t with progress := k } := ⟨_, rfl⟩
  have hnum1 : t1.number = n := by rw [ht1]; exact hnum
  have hk1 : t1.kind = .commit length check budget := by rw [ht1]; exact hk
  have htarget1 : t1.target = i := by rw [ht1]; exact congrArg (fun x => Option.getD x 24) hi
  have hserial1 : t1.serial.getD 0 = e.serial := by rw [ht1]; exact congrArg (fun x => Option.getD x 0) hser
  have hm1 : t1.modifying = true := by simp [Ticket.modifying, hk1]
  have ho1 : t1.orphan = false := by rw [ht1]; exact ho
  have hb1 : t1.buffer = none := by rw [ht1]; exact hb
  have hprogress1 : t1.progress = k := by rw [ht1]
  have hopen : e.locked = false := by simp [Entry.locked, Entry.lock, hdef, hfixed, hheld]
  have hticket : (s.dev.withCurrent none).ticket p n = some t := ht
  have hdone : (s.dev.withCurrent none).verifyReadDone p n bytes =
      if k * 256 < length.toNat then d.withEnd p n (fun _ => t1) id
      else (d.withEnd p n (fun _ => t1) id).compareCheck p t1 length check budget := by
    rw [← hprogress1, ← verifyBoundary_open (d := d.withEnd p n (fun _ => t1) id) (i := i) ho1 (by rw [ht1]; exact hc) htarget1
      hopen hphase, ← modifyTicket_eq_withEnd, ht1]
    simp only [Dev.verifyReadDone, hticket, hk]
    rfl
  have hclaimed : (d.entry i).claim ≠ .unclaimed := fun h => nomatch hclaim.symm.trans h
  have hquiet' (c : Claim) : (({ d with verify := { d.verify with holder := none } } : Dev).setEntry i
      { e with claim := c }).Quiet :=
    quiet_setClaim (d := ({ d with verify := { d.verify with holder := none } } : Dev)) hquiet hclaimed
  refine ⟨fun hlt256 => ?_, fun hmatched hbad => ?_, fun hmatched hgood hcond hhold hslot q hsequence => ?_⟩
  · refine hends _ ?_
    have halone : Alone (d.withEnd p n (fun _ => t1) id) p t1 :=
      alone_withEnd (d := d) honly ht hnum1 (by rw [ht1]; simp [Ticket.live, hstate])
    have hlater := settle_laterVerify (former := s.dev) (i := i) (releasedLast_of_only honly _ 0) rfl
      (quiet_withEnd (d := d) hquiet) halone hk1 htarget1 (by rw [ht1]; exact hstate) (by rw [ht1]; exact hstage)
    rw [hdone, if_pos hlt256, hlater, hprogress1, hnum1, ht1]
    rfl
  · refine hends _ ?_
    have hnot : ¬ crcFinish (d.withEnd p n (fun _ => t1) id).verify.crc = check := hbad
    have hended := finishTicket_claim (d := { d with verify := { d.verify with holder := none } }) (i := i)
      (serial := e.serial) (st := .failed) (r := .badcheck) .opened honly ht hnum1 ho1 hm1 hb1 hdef rfl (.inr (.inl rfl))
    have hcompare : (d.withEnd p n (fun _ => t1) id).compareCheck p t1 length check budget =
        ((d.withEnd p n (fun _ => t1) id).releaseVerify.setClaim i e.serial .opened).finishTicket p n .failed .badcheck := by
      rw [Dev.compareCheck, if_neg hnot, Dev.endVerify, htarget1, hserial1, hnum1]
    rw [hdone, if_neg (Nat.not_lt.mpr hmatched), hcompare.trans hended, ht1]
    exact settle_withEnd rfl (hquiet' .opened) honly fun _ => rfl
  · intro copy change slot
    refine hends _ ?_
    have hyes : crcFinish (d.withEnd p n (fun _ => t1) id).verify.crc = check := hgood
    obtain ⟨d2, hd2⟩ : ∃ d2 : Dev, d2 = (({ d with verify := { d.verify with holder := none } } : Dev).setEntry i
      { e with claim := .committing }).withEnd p n (fun _ => { t1 with state := .running, stage := .recording }) id := ⟨_, rfl⟩
    have hcopy : spareOf e.live = copy := spareOf_eq e.live
    have hcompare : (d.withEnd p n (fun _ => t1) id).compareCheck p t1 length check budget =
        d2.enqueue (.host p n (.commit i e.serial copy length check budget)) := by
      have hset : (d.withEnd p n (fun _ => t1) id).releaseVerify.setClaim i e.serial .committing =
          (({ d with verify := { d.verify with holder := none } } : Dev).setEntry i { e with claim := .committing }).withEnd
            p n (fun _ => t1) id :=
        setClaim_eq (d := (d.withEnd p n (fun _ => t1) id).releaseVerify) .committing hdef rfl
      rw [Dev.compareCheck, if_pos hyes, htarget1, hserial1, hnum1]
      show ((d.withEnd p n (fun _ => t1) id).releaseVerify.setClaim i e.serial .committing).handOver p n
        (.commit i e.serial (spareOf e.live) length check budget) = _
      rw [hcopy, hset, handOver_replaced hnum1, hd2]
    have hq2 : d2.Quiet := by rw [hd2]; exact quiet_withEnd (hquiet' .committing)
    have hentry2 : d2.entry i = { e with claim := .committing } := by
      rw [hd2]; exact setEntry_entry_same s.dev.table i _ hlt
    have hvalid : d2.validate p (.commit i e.serial copy length check budget) = .ok change := by
      have hmatches : Table.matchesSerial d2.table i e.serial = true := by
        show ((d2.entry i).defined && (d2.entry i).serial == e.serial) = true
        rw [hentry2]
        simp [hdef]
      simp [Dev.validate, hmatches, change]
    have hwriter : d2.writer = s.dev.writer := by rw [hd2]; rfl
    have hformed := settle_formed (former := s.dev) (d := d2) (p := p) (n := n) (q := q)
      (mayForm_of_quiet hq2 (by rw [hd2]; exact hphase) (by rw [hwriter]; exact hcond) (by rw [hwriter]; exact hhold))
      (by rw [hwriter]; exact hquiet.2.2.2.1) (by rw [hwriter]; exact hslot) (by rw [hwriter]; exact hsequence) hvalid
      (by rw [hd2]; rfl) (leasesFresh_of_quiet _ hq2)
    rw [hdone, if_neg (Nat.not_lt.mpr hmatched), hcompare, hformed, hd2, ht1]
    rfl

end Sys2Proof.Proofs

/-!
PROOF. The Journal Writer's programs and erases that complete (R71, R72, R77, R79, R80): what a change does to the claims,
who is told of it, and the end of its event.
-/

namespace Sys2Proof.Proofs

set_option Elab.async false

open Sys2Proof Sys2Proof.Machine Sys2Proof.Laws

/-! ## No change takes up a claim -/

section Claims
variable {t : Table} {q : Word32} {c : Change} {f : Entry → Entry}

/-- What is left of the owner and the claim of an entry that is changed: a claim is kept or given up. -/
def KeepsClaim (e e' : Entry) : Prop :=
  e'.claim = .unclaimed ∨ (e'.claim = e.claim ∧ e'.owner = e.owner ∧ e'.defined = e.defined)

theorem keepsClaim_onImage (hf : ∀ e, KeepsClaim e (f e)) (e : Entry) : KeepsClaim e (onImage f e) := by
  unfold onImage
  split
  · exact .inr ⟨rfl, rfl, rfl⟩
  · exact hf e

theorem keepsClaim_tickEntry (p : Port) (n : Nat) (e : Entry) : KeepsClaim e (tickEntry p n e) := by
  have hsteps : KeepsClaim e (tickSteps n e) := by
    induction n generalizing e with
    | zero => exact .inr ⟨rfl, rfl, rfl⟩
    | succ n ih =>
      unfold tickSteps
      split
      · exact .inr ⟨rfl, rfl, rfl⟩
      · exact ih { e with attempts := e.attempts - 1 }
  unfold tickEntry
  split
  · exact hsteps
  · exact .inr ⟨rfl, rfl, rfl⟩

theorem keepsClaim_modifyEntry (hf : ∀ e, KeepsClaim e (f e)) (i j : Nat) :
    KeepsClaim (Table.entry t j) (Table.entry (Table.modifyEntry t i f) j) := by
  by_cases hji : j = i
  · subst hji
    by_cases hj : j < 24
    · rw [Table.modifyEntry, setEntry_entry_same _ _ _ hj]
      exact hf _
    · exact .inl (congrArg Entry.claim (entry_beyond _ _ hj))
  · rw [Table.modifyEntry, setEntry_entry_other _ _ _ _ hji]
    exact .inr ⟨rfl, rfl, rfl⟩

theorem keepsClaim_applyChange (t : Table) (q : Word32) (c : Change) (j : Nat) :
    KeepsClaim (Table.entry t j) (Table.entry (applyChange t q c) j) := by
  have hset (i : Nat) (e : Entry) (he : e.claim = .unclaimed) :
      KeepsClaim (Table.entry t j) (Table.entry (Table.setEntry t i e) j) :=
    keepsClaim_modifyEntry (f := fun _ => e) (fun _ => .inl he) i j
  cases c with
  | define i k o b s r l => exact hset i _ rfl
  | delete i _ => exact hset i _ rfl
  | grant i _ r => exact keepsClaim_modifyEntry (f := fun e => { e with readers := r }) (fun _ => .inr ⟨rfl, rfl, rfl⟩) i j
  | fix i _ => exact keepsClaim_modifyEntry (f := fun e => { e with fixed := true }) (fun _ => .inr ⟨rfl, rfl, rfl⟩) i j
  | dropFallback i _ =>
    exact keepsClaim_modifyEntry (keepsClaim_onImage (f := dropFallback) fun _ => .inr ⟨rfl, rfl, rfl⟩) i j
  | commit i _ c l k b =>
    exact keepsClaim_modifyEntry (keepsClaim_onImage (f := switchLive c l k b) fun _ => .inl rfl) i j
  | confirm i _ =>
    exact keepsClaim_modifyEntry (keepsClaim_onImage (f := confirmTrial) fun _ => .inr ⟨rfl, rfl, rfl⟩) i j
  | revert i _ settledCase =>
    refine keepsClaim_modifyEntry (keepsClaim_onImage fun e => ?_) i j
    cases settledCase <;> exact .inr ⟨rfl, rfl, rfl⟩
  | tick p n =>
    by_cases hj : j < 24
    · rw [applyChange, map_entry t j _ hj]
      exact keepsClaim_tickEntry p n _
    · exact .inl (congrArg Entry.claim (entry_beyond _ _ hj))

/-- R163: leases stay left over a change whose entries keep or give up their claims. -/
theorem leasesLeft_of_keepsClaim {d e : Dev} (hk : ∀ i, KeepsClaim (d.entry i) (e.entry i))
    (hp : ∀ p, (e.port p).leaseTime = (d.port p).leaseTime ∧ (e.port p).leaseSetting = (d.port p).leaseSetting)
    (h : d.LeasesLeft) : e.LeasesLeft := by
  refine leasesLeft_mono d e (fun p hheld => ?_) hp h
  simp only [Dev.holdsClaim, List.any_eq_true, Bool.and_eq_true, bne_iff_ne, beq_iff_eq] at hheld ⊢
  obtain ⟨i, hi, ⟨hdefined, howner⟩, hclaim⟩ := hheld
  rcases hk i with hnone | ⟨hsame, hown, hdef⟩
  · exact absurd hnone hclaim
  · exact ⟨i, hi, ⟨hdef ▸ hdefined, hown ▸ howner⟩, hsame ▸ hclaim⟩

end Claims

/-! ## Who is told -/

section Told
variable {d : Dev}

/-- A port's event queue after the events that go out to it, in their order. -/
def told (sends : List ((Port → Bool) × Event)) (p : Port) (q : PortState) : PortState :=
  { q with events := sends.foldl (fun events x => if x.1 p then events.append x.2 else events) q.events }

/-- The events that go out, each to the ports it names. -/
def tell (d : Dev) (sends : List ((Port → Bool) × Event)) : Dev :=
  { d with ports := { p0 := told sends .p0 d.ports.p0, p1 := told sends .p1 d.ports.p1, p2 := told sends .p2 d.ports.p2 } }

theorem tell_nil (d : Dev) : tell d [] = d := rfl

theorem tell_cons (x : (Port → Bool) × Event) (xs : List ((Port → Bool) × Event)) : tell d (x :: xs) = tell (tell d [x]) xs := rfl

theorem tell_port (sends : List ((Port → Bool) × Event)) (p : Port) : (tell d sends).port p = told sends p (d.port p) := by
  cases p <;> rfl

theorem tell_ring (sends : List ((Port → Bool) × Event)) (p : Port) : (tell d sends).ring p = d.ring p := by
  simp only [Dev.ring, tell_port, told]

/-- One event to the ports that a test picks. -/
theorem sendTo_filter (who : Port → Bool) (e : Event) : d.sendTo (allPorts.filter who) e = tell d [(who, e)] := by
  cases h0 : who .p0 <;> cases h1 : who .p1 <;> cases h2 : who .p2 <;>
    simp [allPorts, h0, h1, h2, Dev.sendTo, Dev.forEach, Dev.send, Dev.modifyPort, PerPort.modify, PerPort.set, PerPort.get,
      tell, told]

/-- R59: LIVE_CHANGED goes to the owner and the readers. -/
def liveChanged (t : Table) (i : Nat) : (Port → Bool) × Event :=
  (fun p => p == (Table.entry t i).owner || readersHave (Table.entry t i).readers p,
    { kind := .liveChanged, ticket := 0, partition := some i, result := .ok, generation := (Table.entry t i).generation })

theorem sendLiveChanged_eq (i : Nat) : d.sendLiveChanged i = tell d [liveChanged d.table i] := sendTo_filter _ _

/-- R57, R58: a partition that a TICK reverts is one whose attempts its steps exceed. -/
theorem reverted_iff (p : Port) (n : Nat) (e : Entry) :
    (e.onTrialOf p && e.generation != (tickEntry p n e).generation) =
      (e.defined && e.kind == .image && e.owner == p && e.phase == .trial && decide (e.attempts.toNat < n)) := by
  unfold Entry.onTrialOf
  cases h : (e.defined && e.kind == .image && e.owner == p && e.phase == .trial) with
  | false => rfl
  | true =>
    have htrial : e.onTrialOf p = true := h
    simp only [tickEntry, htrial, if_true, Bool.true_and]
    by_cases hlt : e.attempts.toNat < n
    · have hne : e.generation ≠ (revertTrial e).generation := by
        show e.generation ≠ e.generation + 1
        bv_omega
      rw [tickSteps_of_lt n e hlt, decide_eq_true hlt]
      simpa using hne
    · rw [tickSteps_of_le n e (Nat.not_lt.mp hlt), decide_eq_false hlt]
      simp

/-- R58: the LIVE_CHANGED records of a TICK, in ascending index order. -/
theorem sendReverts_eq (before : Table) (p : Port) :
    d.sendReverts before p = tell d ((allIndexes.filter (fun i => (Table.entry before i).onTrialOf p &&
      (Table.entry before i).generation != (Table.entry d.table i).generation)).map (liveChanged d.table)) := by
  have hfold (xs : List Nat) (e : Dev) (he : e.table = d.table) :
      e.forEach xs (fun i e =>
        if (Table.entry before i).onTrialOf p && (Table.entry before i).generation != (e.entry i).generation then
          e.sendLiveChanged i
        else e) =
      tell e ((xs.filter (fun i => (Table.entry before i).onTrialOf p &&
        (Table.entry before i).generation != (Table.entry d.table i).generation)).map (liveChanged d.table)) := by
    induction xs generalizing e with
    | nil => rfl
    | cons x xs ih =>
      have hentry : e.entry x = Table.entry d.table x := congrArg (fun t => Table.entry t x) he
      rw [show e.forEach (x :: xs) _ = (_ : Dev).forEach xs _ from rfl]
      dsimp only
      rw [hentry, List.filter_cons]
      split
      · rw [ih _ (by rw [sendLiveChanged_eq]; exact he), sendLiveChanged_eq, he]
        rfl
      · exact ih e he
  exact hfold allIndexes d rfl

/-- R21, R25, R26, R53, R56, R57: who is sent which event by a change, in order. -/
def changeEvents (before now : Table) : Change → List ((Port → Bool) × Event)
  | .define i _ _ _ _ readers _ => [(readersHave readers, partitionEvent .accessChanged i 0)]
  | .delete i _ => [(readersHave (Table.entry before i).readers, partitionEvent .partRemoved i 0)]
  | .grant i _ readers =>
    [(fun p => readersHave (Table.entry before i).readers p != readersHave readers p, partitionEvent .accessChanged i 0)]
  | .fix _ _ => []
  | .dropFallback _ _ => []
  | .commit i _ _ _ _ _ => [liveChanged now i]
  | .confirm _ _ => []
  | .revert i _ _ => [liveChanged now i]
  | .tick p n =>
    (allIndexes.filter (fun i =>
      (Table.entry before i).defined && (Table.entry before i).kind == .image && (Table.entry before i).owner == p &&
        (Table.entry before i).phase == .trial && decide ((Table.entry before i).attempts.toNat < n))).map (liveChanged now)

theorem sendChangeEvents_eq (before : Table) (c : Change) (q : Word32) (h : d.table = applyChange before q c) :
    d.sendChangeEvents before c = tell d (changeEvents before d.table c) := by
  cases c with
  | define i k o b s r l => exact sendTo_filter _ _
  | delete i _ => exact sendTo_filter _ _
  | grant i _ r => exact sendTo_filter _ _
  | fix i _ => rfl
  | dropFallback i _ => rfl
  | commit i _ c l k b => exact sendLiveChanged_eq i
  | confirm i _ => rfl
  | revert i _ settledCase => exact sendLiveChanged_eq i
  | tick p n =>
    refine (sendReverts_eq before p).trans ?_
    unfold changeEvents
    congr 2
    refine List.filter_congr fun i hi => ?_
    rw [h, applyChange, map_entry before i _ (List.mem_range.mp hi)]
    exact reverted_iff p n _

end Told

/-! ## The record in hand completes (R71) -/

section Record
variable {d : Dev} {h : InHand} {p : Port} {n : Byte} {t : Ticket}

/-- R71: the change applied and its events sent; the record is still in hand. -/
def applied (d : Dev) (h : InHand) : Dev :=
  tell { d with table := applyChange d.table h.sequence h.change, writer := { d.writer with nextSlot := h.slot + 1 } }
    (changeEvents d.table (applyChange d.table h.sequence h.change) h.change)

/-- The record is no longer in hand. -/
def released (d : Dev) : Dev := { d with writer := { d.writer with inHand := none } }

/-- R71, R75: a record that completes where no fold is due: its requester's end, and the record out of hand. -/
theorem recordDone_eq {x : Dev} (hdone : (applied d h).requesterDone h = x) (hfold : x.writer.fold = .idle)
    (hslot : x.writer.nextSlot ≤ 51) : d.recordDone h = released x := by
  have hchange : ({ d with table := applyChange d.table h.sequence h.change
                           writer := { d.writer with nextSlot := h.slot + 1 } } : Dev).sendChangeEvents d.table h.change =
      applied d h := sendChangeEvents_eq d.table h.change h.sequence rfl
  have hafter : (released x).afterRecord = released x := by
    have hfold' : (released x).writer.fold = .idle := hfold
    have hfree : ¬ (released x).writer.freeSlots ≤ Config.foldThreshold := by
      show ¬ 64 - x.writer.nextSlot ≤ 12
      omega
    simp only [Dev.afterRecord, hfold', Dev.beginFold, hfree, and_false, if_false]
  rw [← hafter, ← hdone, ← hchange]
  rfl

theorem applied_onlyLive (honly : d.OnlyLive p n) : (applied d h).OnlyLive p n := fun q u hu hlive =>
  honly q u (by rwa [applied, tell_ring] at hu) hlive

theorem applied_ticket (ht : d.ticket p n = some t) : (applied d h).ticket p n = some t := by
  rw [Dev.ticket, applied, tell_ring]
  exact ht

theorem applied_noLive (hnone : d.NoLive) : (applied d h).NoLive := fun q u hu =>
  hnone q u (by rwa [applied, tell_ring] at hu)

theorem applied_leasesLeft (hleases : d.LeasesLeft) : (applied d h).LeasesLeft := by
  refine leasesLeft_of_keepsClaim (fun i => keepsClaim_applyChange d.table h.sequence h.change i) (fun q => ?_) hleases
  rw [applied, tell_port]
  exact ⟨rfl, rfl⟩

/-- The device after a record's change, with the record out of hand and nothing else at work. -/
theorem applied_quiet (hparked : d.engine.parked = none) (hfold : d.writer.fold = .idle) (hqueue : d.writer.queue = [])
    (hmount : d.mount.step = .idle) (hleases : d.LeasesLeft) : (released (applied d h)).Quiet :=
  ⟨hparked, rfl, hfold, hqueue, hmount, applied_leasesLeft hleases⟩

end Record

theorem quiet_setTick {d : Dev} (p : Port) (b : Bool) (hquiet : d.Quiet) : (d.setTick p b).Quiet := by
  obtain ⟨hparked, hhand, hfold, hqueue, hmount, hleases⟩ := hquiet
  refine ⟨hparked, hhand, hfold, hqueue, hmount, leasesLeft_mono d _ (fun q hq => hq) (fun q => ?_) hleases⟩
  rw [Dev.setTick, modifyPort_port]
  split
  next hq => rw [hq]; exact ⟨rfl, rfl⟩
  · exact ⟨rfl, rfl⟩

theorem noLive_setTick {d : Dev} (p : Port) (b : Bool) (hnone : d.NoLive) : (d.setTick p b).NoLive := by
  intro q u hu
  rw [Dev.ring, Dev.setTick, modifyPort_port] at hu
  split at hu
  next hq => exact hnone p u hu
  · exact hnone q u hu

/-- Settles O41: the change and its events, then the requester's end, after which nothing is ready. -/
theorem recordCompletes : Obligations.RecordCompletes := by
  intro h sector page first age data s hop hs hp hf hhand hfold hqueue hslot hparked hmount hleases table former now about live
    sends told' d ends
  have hends (x : Dev) (hx : Dev.settle s.dev ((s.dev.withCurrent none).recordDone h) = x) : ends x := by
    refine exec_pageProgramComplete hop hs hp hf ?_
    have hdone : (s.dev.withCurrent none).programDone .journal (verdictOk .success) = (s.dev.withCurrent none).recordDone h := by
      have hhand' : (s.dev.withCurrent none).writer.inHand = some h := hhand
      simp only [Dev.programDone, Dev.journalProgramDone, hhand', verdictOk, if_true]
    rw [hdone]
    exact hx
  have hsends : changeEvents s.dev.table table h.change = sends := by
    dsimp only [sends]
    cases h.change <;> rfl
  have hd : released (applied (s.dev.withCurrent none) h) = d := by
    show released (tell _ (changeEvents s.dev.table table h.change)) = d
    rw [hsends]
    rfl
  have hquiet : d.Quiet := by
    rw [← hd]
    exact applied_quiet (d := s.dev.withCurrent none) hparked hfold hqueue hmount hleases
  have hsettled (x : Dev) (hreq : (applied (s.dev.withCurrent none) h).requesterDone h = x) (hfold' : x.writer.fold = .idle)
      (hslot' : x.writer.nextSlot ≤ 51) (hx : Dev.settle s.dev (released x) = released x) : ends (released x) :=
    hends _ (by rw [recordDone_eq hreq hfold' hslot']; exact hx)
  cases hreq : h.request with
  | tick p steps =>
    intro hnone
    have hdone : (applied (s.dev.withCurrent none) h).requesterDone h = (applied (s.dev.withCurrent none) h).setTick p false := by
      have hwaiting : (applied (s.dev.withCurrent none) h).writer.tickWaiting p = false := by
        show s.dev.writer.queue.any _ = false
        rw [hqueue]
        rfl
      simp [Dev.requesterDone, hreq, Dev.finishTick, hwaiting]
    have hsame : released ((applied (s.dev.withCurrent none) h).setTick p false) = d.setTick p false :=
      congrArg (fun x : Dev => x.setTick p false) hd
    have hsettle : Dev.settle s.dev (d.setTick p false) = d.setTick p false := by
      exact settle_of_quiet s.dev _ (by rw [← hd]; rfl) (quiet_setTick p false hquiet)
        (noLive_setTick p false (by rw [← hd]; exact applied_noLive (d := s.dev.withCurrent none) hnone))
    rw [← hsame] at hsettle
    have hfinal := hsettled _ hdone hfold (by show h.slot + 1 ≤ 51; omega) hsettle
    rw [hsame] at hfinal
    exact hfinal
  | host p n body =>
    intro t ht hm ho hb honly
    have honly' : (applied (s.dev.withCurrent none) h).OnlyLive p n := applied_onlyLive (d := s.dev.withCurrent none) honly
    have ht' : (applied (s.dev.withCurrent none) h).ticket p n = some t := applied_ticket (d := s.dev.withCurrent none) ht
    have honlyd : d.OnlyLive p n := by rw [← hd]; exact honly'
    have hplain (hdone : (applied (s.dev.withCurrent none) h).requesterDone h =
        (applied (s.dev.withCurrent none) h).finishTicket p n .done .ok) :
        ends (d.withEnd p n (fun u => { u with state := .done, result := .ok, buffer := none }) (fun q => q.afterEnd t .ok)) := by
      rw [finishTicket_bare honly' ht' ho hm hb (.inl rfl)] at hdone
      have hsettle := settle_withEnd (former := s.dev) (d := d) (f := endedTicket false .done .ok)
        (g := fun q => q.afterEnd t .ok) (by rw [← hd]; rfl) hquiet honlyd fun _ => rfl
      rw [← hd] at hsettle
      have hfinal := hsettled _ hdone hfold (by show h.slot + 1 ≤ 51; omega) hsettle
      rw [← hd]
      exact hfinal
    cases body with
    | define kind' base' size' readers' label' =>
      intro i kind owner base size readers label hchange
      have hnum (u : Ticket) (hu : u.number = n) :
          ({ u with index := some i, serial := some h.sequence } : Ticket).number = n := hu
      have hdone : (applied (s.dev.withCurrent none) h).requesterDone h =
          ((applied (s.dev.withCurrent none) h).dropReservation p).withEnd p n
            (fun u => { u with index := some i, serial := some h.sequence, state := .done, result := .ok, buffer := none })
            (fun q => q.afterEnd { t with index := some i } .ok) := by
        simp only [Dev.requesterDone, hreq, hchange]
        rw [modifyTicket_eq_withEnd, finishTicket_bare
          (onlyLive_withEnd (d := (applied (s.dev.withCurrent none) h).dropReservation p) honly' hnum)
          (withEnd_ticket (d := (applied (s.dev.withCurrent none) h).dropReservation p) hnum ht') ho hm hb (.inl rfl),
          withEnd_withEnd hnum]
        rfl
      have hdrop : released ((applied (s.dev.withCurrent none) h).dropReservation p) =
          { d with reservations := s.dev.reservations.filter (fun r => r.port != p) } := by
        rw [← hd]
        rfl
      have hsettle := settle_withEnd (former := s.dev)
        (d := ({ d with reservations := s.dev.reservations.filter (fun r => r.port != p) } : Dev))
        (f := fun u => { u with index := some i, serial := some h.sequence, state := .done, result := .ok, buffer := none })
        (g := fun q => q.afterEnd { t with index := some i } .ok) (by rw [← hd]; rfl) hquiet honlyd fun _ => rfl
      rw [← hdrop] at hsettle
      have hfinal := hsettled _ hdone hfold (by show h.slot + 1 ≤ 51; omega) hsettle
      rw [← hdrop]
      exact hfinal
    | dropFallback i serial => trivial
    | delete i serial => exact hplain (by simp only [Dev.requesterDone, hreq])
    | grant i serial readers => exact hplain (by simp only [Dev.requesterDone, hreq])
    | fix i serial => exact hplain (by simp only [Dev.requesterDone, hreq])
    | commit i serial copy length check budget => exact hplain (by simp only [Dev.requesterDone, hreq])
    | confirm i serial => exact hplain (by simp only [Dev.requesterDone, hreq])
    | revert i serial => exact hplain (by simp only [Dev.requesterDone, hreq])

end Sys2Proof.Proofs

/-!
PROOF. The Journal Writer's retry (R72), its fold (R76, R77, R79) and its death (R80).
-/

namespace Sys2Proof.Proofs

set_option Elab.async false

open Sys2Proof Sys2Proof.Machine Sys2Proof.Laws

/-! ## Retry -/

/-- R75: no fold begins with more than 12 free slots, nor while one is under way. -/
theorem beginFold_of_not {d : Dev} (h : d.writer.fold = .idle → d.writer.nextSlot ≤ 51) : d.beginFold = d := by
  refine if_neg ?_
  rintro ⟨hfold, _, hfree⟩
  have hslot := h hfold
  have hfree' : 64 - d.writer.nextSlot ≤ 12 := hfree
  omega

/-- Settles O43: the record formed again is in hand, and so the next program. -/
theorem recordRetried : Obligations.RecordRetried := by
  intro h sector page first age data bits q s hop hs hp hf hhand hretry hslot hsequence hfold hleases slot bytes
  refine exec_pageProgramComplete hop hs hp hf ?_
  obtain ⟨w, hw⟩ : ∃ w : Writer, w = { s.dev.writer with
      nextSlot := slot
      inHand := some { h with slot := slot, sequence := q, retryOf := some h.sequence }
      nextSequence := nextSequenceAfter q
      buffer := bytes } := ⟨_, rfl⟩
  have hdone : (s.dev.withCurrent none).programDone .journal (verdictOk (.failure bits)) =
      { s.dev.withCurrent none with writer := w } := by
    have hhand' : (s.dev.withCurrent none).writer.inHand = some h := hhand
    have hsequence' : ((s.dev.withCurrent none).modifyWriter (fun w => { w with nextSlot := h.slot + 1 })).writer.nextSequence =
        some q := hsequence
    have hretry' : h.retryOf.isNone = true ∧ h.slot < 63 := ⟨by rw [hretry]; rfl, hslot⟩
    simp only [Dev.programDone, Dev.journalProgramDone, hhand', verdictOk, Bool.false_eq_true, if_false, Dev.recordFailed,
      if_pos hretry', hsequence']
    rw [beginFold_of_not, hw]
    · rfl
    · intro hidle
      have hlow := hfold hidle
      show h.slot + 1 ≤ 51
      omega
  have hready : ({ s.dev.withCurrent none with writer := w } : Dev).recordReady =
      some (s.dev.writer.activeHalf, slot, bytes, .journal) := by rw [hw]; rfl
  have hnone : ({ s.dev.withCurrent none with writer := w } : Dev).TakesNone := takesNone_of_inHand _ (by rw [hw]; rfl)
  rw [hdone, settle_record (takeAll_of_none _ hnone) rfl hready hnone hleases, hw]
  rfl

/-! ## The fold -/

section Fold
variable {former d x : Dev}

/-- R147: where no ticket is live and nothing else is ready, a ready system erase is issued. -/
theorem settle_systemErase {sector : Nat} {r : Requester} (hidle : d.engine.current = none) (hrecord : d.recordReady = none)
    (hreads : d.mountReads = false) (hparked : d.engine.parked = none) (hdead : d.NoLive) (hnone : d.TakesNone)
    (hready : d.systemErase = some (sector, r)) (hleases : d.LeasesFresh) :
    Dev.settle former d = { d with engine := { d.engine with
      current := some (issuedErase sector r), erasePointer := .system } } := by
  have hread : (memberOrder d.engine.readPointer).find? d.readReady = none := find_memberOrder_none _ fun m => by
    cases m with
    | port p => exact (candidates_of_dead (hdead p)).1
    | system => exact hreads
  have hprogram : (memberOrder d.engine.programPointer).find? d.programReady = none := find_memberOrder_none _ fun m => by
    cases m with
    | port p => exact (candidates_of_dead (hdead p)).2.1
    | system => rfl
  have herase : (memberOrder d.engine.erasePointer).find? d.eraseReady = some .system :=
    find_memberOrder _ (by simp [Dev.eraseReady, hready]) fun m hm => by
      cases m with
      | port p => exact (candidates_of_dead (hdead p)).2.2
      | system => exact absurd rfl hm
  have hchoose : d.choose = some (.erase .system) := by
    simp only [Dev.choose, hrecord, hread, hprogram, hparked, herase, Option.isSome_none, Bool.false_eq_true, if_false]
  refine settle_of_system (takeAll_of_none d hnone) hidle hchoose rfl ?_ hnone ⟨_, rfl, fun e he => ?_⟩ hleases
  · simp only [Dev.perform, hready]
    rfl
  · obtain rfl := Operation.erase.inj he
    rfl

/-- R77: a checkpoint record is formed. -/
theorem formCheckpoint_eq {capture : Table} {slot : Nat} {q : Word32} (hsequence : d.writer.nextSequence = some q) :
    d.formCheckpoint capture slot = { d with writer := { d.writer with
      fold := .writing capture slot, nextSequence := nextSequenceAfter q, buffer := checkpointPage q capture slot } } := by
  simp only [Dev.formCheckpoint, hsequence]
  rfl

/-- R77: a checkpoint record that has just been formed is programmed at once. -/
theorem settle_checkpoint {capture : Table} {slot : Nat} {q : Word32} (hsequence : d.writer.nextSequence = some q)
    (hhand : d.writer.inHand = none) (hqueue : d.writer.queue = []) (hidle : d.engine.current = none)
    (hleases : d.LeasesFresh) :
    Dev.settle former (d.formCheckpoint capture slot) =
      { d with
        writer := { d.writer with
          fold := .writing capture slot, nextSequence := nextSequenceAfter q, buffer := checkpointPage q capture slot }
        engine := { d.engine with
          current := some (.program (slotSector (otherHalf d.writer.activeHalf) slot) (slotPage slot) 0
            (checkpointPage q capture slot) .journal 0) } } := by
  rw [formCheckpoint_eq hsequence]
  generalize checkpointPage q capture slot = page
  generalize hw : ({ d.writer with
    fold := .writing capture slot, nextSequence := nextSequenceAfter q, buffer := page } : Writer) = w
  have hready : ({ d with writer := w } : Dev).recordReady = some (otherHalf d.writer.activeHalf, slot, page, .journal) := by
    subst hw
    simp only [Dev.recordReady, hhand]
  have hnone : ({ d with writer := w } : Dev).TakesNone := .inr (by rw [← hw]; exact hqueue)
  exact settle_record (takeAll_of_none _ hnone) hidle hready hnone hleases

theorem otherHalf_base (half : JournalHalf) : halfBase (otherHalf half) = match half with | .h0 => 4 | .h1 => 0 := by
  cases half <;> rfl

/-- R2, R62: the first slots of a half stand in its first sector. -/
theorem slot_of_lt (half : JournalHalf) {slot : Nat} (h : slot < 16) :
    slotSector half slot = halfBase half ∧ slotPage slot = slot := by
  refine ⟨?_, Nat.mod_eq_of_lt h⟩
  show halfBase half + slot / 16 = _
  rw [Nat.div_eq_of_lt h, Nat.add_zero]

end Fold

/-- Settles O45: the next record of the capture, or the switch of halves. -/
theorem checkpointCompletes : Obligations.CheckpointCompletes := by
  intro capture slot sector page first age data s hop hs hp hf hhand hfold hqueue hdead hparked hmount hleases ends
  have hends (x : Dev) (hx : Dev.settle s.dev ((s.dev.withCurrent none).checkpointDone capture slot) = x) : ends x := by
    refine exec_pageProgramComplete hop hs hp hf ?_
    have hhand' : (s.dev.withCurrent none).writer.inHand = none := hhand
    have hfold' : (s.dev.withCurrent none).writer.fold = .writing capture slot := hfold
    simp only [Dev.programDone, Dev.journalProgramDone, hhand', hfold', verdictOk, if_true]
    exact hx
  refine ⟨fun hlt q hsequence => hends _ ?_, fun hlast => hends _ ?_⟩
  · obtain ⟨hsector, hpage⟩ := slot_of_lt (otherHalf (s.dev.withCurrent none).writer.activeHalf) (slot := slot + 1) (by omega)
    have hissued := settle_checkpoint (former := s.dev) (d := s.dev.withCurrent none) (capture := capture) (slot := slot + 1)
      hsequence hhand hqueue rfl (leasesFresh_of_left _ hleases)
    rw [Dev.checkpointDone, if_pos hlt, hissued, hsector, hpage, otherHalf_base]
    rfl
  · rw [Dev.checkpointDone, if_neg (by omega)]
    exact settle_of_quiet s.dev _ rfl ⟨hparked, hhand, rfl, hqueue, hmount, hleases⟩ hdead

/-- Settles O46: the erases in their order, then phase 2. -/
theorem foldErases : Obligations.FoldErases := by
  intro i op v s hop hreq hsec hhand hfold hi hqueue hdead hparked hmount hleases base ends erases
  have hends (x : Dev) (hx : Dev.settle s.dev ((s.dev.withCurrent none).foldEraseDone (verdictOk v)) = x) : ends x :=
    exec_sectorEraseComplete hop hsec (by rw [hreq]; exact hx)
  have herases (j : Nat) (w : Writer) (hw : w.activeHalf = s.dev.writer.activeHalf ∧ w.inHand = none ∧ w.queue = [])
      (hdone : (s.dev.withCurrent none).foldEraseDone (verdictOk v) =
        { s.dev.withCurrent none with writer := { w with fold := .erasing j } }) : erases j w := by
    obtain ⟨hhalf, hhand', hqueue'⟩ := hw
    refine hends _ ?_
    have hready : ({ s.dev.withCurrent none with writer := { w with fold := .erasing j } } : Dev).systemErase =
        some (base + j, .journal) := by
      show some (halfBase (otherHalf w.activeHalf) + j, Requester.journal) = _
      rw [hhalf, otherHalf_base] <;> rfl
    have hrecord : ({ s.dev.withCurrent none with writer := { w with fold := .erasing j } } : Dev).recordReady = none := by
      have hmount' : (s.dev.withCurrent none).mount.step = .idle := hmount
      simp only [Dev.recordReady, hhand', hmount']
    have hreads : ({ s.dev.withCurrent none with writer := { w with fold := .erasing j } } : Dev).mountReads = false := by
      have hmount' : (s.dev.withCurrent none).mount.step = .idle := hmount
      simp only [Dev.mountReads, hmount']
    rw [hdone, settle_systemErase rfl hrecord hreads hparked hdead (.inr hqueue') hready (leasesFresh_of_left _ hleases)]
    rfl
  have hfold' : (s.dev.withCurrent none).writer.fold = .erasing i := hfold
  cases v with
  | failure bits =>
    intro hfailures
    refine herases 0 _ ⟨rfl, hhand, hqueue⟩ ?_
    have hfailures' : (s.dev.withCurrent none).writer.foldFailures = 0 := hfailures
    simp only [Dev.foldEraseDone, hfold', verdictOk, Bool.false_eq_true, if_false, Dev.foldFailed, hfailures', if_true,
      Bool.or_false]
    rfl
  | success =>
    obtain ⟨hold, hhold⟩ : ∃ hold, (if i = 0 then false else s.dev.writer.holdFormation) = hold := ⟨_, rfl⟩
    dsimp only
    rw [hhold]
    have hheld : (if i = 0 then (s.dev.withCurrent none).modifyWriter (fun w => { w with holdFormation := false })
        else s.dev.withCurrent none) =
        { s.dev.withCurrent none with writer := { s.dev.writer with holdFormation := hold } } := by
      rw [← hhold]
      split <;> rfl
    split
    next hlt =>
      refine herases (i + 1) _ ⟨rfl, hhand, hqueue⟩ ?_
      simp only [Dev.foldEraseDone, hfold', verdictOk, if_true, Dev.foldErased, hheld, if_pos hlt]
      rfl
    next hge =>
      intro q hsequence
      refine hends _ ?_
      have hhand' : ({ s.dev.withCurrent none with writer := { s.dev.writer with holdFormation := hold } } : Dev).writer.inHand.isSome =
          false := by
        show s.dev.writer.inHand.isSome = false
        rw [hhand]
        rfl
      obtain ⟨hsector, hpage⟩ := slot_of_lt (otherHalf s.dev.writer.activeHalf) (slot := 0) (by omega)
      have hissued := settle_checkpoint (former := s.dev)
        (d := ({ s.dev.withCurrent none with writer := { s.dev.writer with holdFormation := hold } } : Dev))
        (capture := Table.persistent s.dev.table) (slot := 0) hsequence hhand hqueue rfl (leasesFresh_of_left _ hleases)
      simp only [Dev.foldEraseDone, hfold', verdictOk, if_true, Dev.foldErased, hheld, if_neg hge, hhand', Bool.false_eq_true,
        if_false, Dev.beginWriting]
      refine hissued.trans ?_
      rw [hsector, hpage, otherHalf_base]
      rfl

/-! ## The journal dies -/

section Dead
variable {d x : Dev} {h : InHand} {p : Port} {n : Byte} {t : Ticket} {body : RequestBody} {r : Result}

/-- R80: the device DEGRADED with PHASE_CHANGED sent, before its requests fail. -/
def degraded (d : Dev) : Dev :=
  tell { d with
    phase := .degraded
    writer := { d.writer with
      condition := .dead, queue := [], inHand := none, fold := .idle, foldFailures := 0, holdFormation := false } }
    [(fun _ => true, phaseEvent .jdead)]

/-- R80: the journal dies with one host request, after whose failure nothing is ready. -/
theorem journalDead_eq (hhand : d.writer.inHand = some h) (hqueue : d.writer.queue = [])
    (hreq : h.request = .host p n body) (hfail : (degraded d).failRequest p n body .jdead = x) (hchoose : x.choose = none) :
    d.journalDead = x := by
  have hsend (e : Dev) : e.sendTo allPorts (phaseEvent .jdead) = tell e [(fun _ => true, phaseEvent .jdead)] :=
    sendTo_filter (fun _ => true) _
  unfold Dev.journalDead
  simp only [hhand, hqueue, hreq, List.append_nil, Dev.forEach, List.foldl_cons, List.foldl_nil, hsend]
  rw [show tell _ _ = degraded d from rfl, hfail]
  exact choices_of_idle id x hchoose _ _ _

/-- R22, R41, R51: what the failure of a request undoes before its ticket, which is no orphan, ends. -/
def withdrawn (d : Dev) (p : Port) : RequestBody → Dev
  | .define _ _ _ _ _ => d.dropReservation p
  | .dropFallback i serial => d.setClaim i serial .unclaimed
  | .commit i serial _ _ _ _ => d.setClaim i serial .opened
  | _ => d

theorem failRequest_eq (ht : d.ticket p n = some t) (ho : t.orphan = false) :
    d.failRequest p n body r = (withdrawn d p body).finishTicket p n .failed r := by
  cases body <;> simp only [Dev.failRequest, ht, ho, Bool.false_eq_true, if_false, withdrawn]

end Dead

/-- Settles O44: the one request fails, and with it nothing is left to do. -/
theorem journalDies : Obligations.JournalDies := by
  intro p n t body h sector page first age data bits s hop hs hp hf hhand hretry hqueue hparked hmount hleases hreq ht hm ho hb
    honly phase told' d ends claims
  have hd : degraded (s.dev.withCurrent none) = d := by
    dsimp only [d]
    unfold degraded
    rw [← hqueue]
    rfl
  have hticket : d.ticket p n = some t := by
    rw [← hd, Dev.ticket, degraded, tell_ring]
    exact ht
  have hleft : d.LeasesLeft := by
    refine leasesLeft_mono s.dev d (fun q hq => hq) (fun q => ?_) hleases
    rw [← hd, degraded, tell_port]
    exact ⟨rfl, rfl⟩
  have honlyd : d.OnlyLive p n := fun q u hu hlive => by
    rw [← hd, degraded, tell_ring] at hu
    exact honly q u hu hlive
  have hquiet : d.Quiet := ⟨hparked, rfl, rfl, hqueue, hmount, hleft⟩
  have hends (y : Dev) (hidle : y.engine.current = none) (hy : y.Quiet) (honlyy : y.OnlyLive p n) (hty : y.ticket p n = some t)
      (hprep : withdrawn d p body = y) : ends y := by
    refine exec_pageProgramComplete hop hs hp hf ?_
    have hfailed : d.failRequest p n body .jdead =
        y.withEnd p n (endedTicket false .failed .jdead) (fun q => q.afterEnd t .jdead) := by
      rw [failRequest_eq hticket ho, hprep, finishTicket_bare honlyy hty ho hm hb (.inr (.inl rfl))]
    have hchoose : (y.withEnd p n (endedTicket false .failed .jdead) (fun q => q.afterEnd t .jdead)).choose = none :=
      choose_of_quiet _ (quiet_withEnd hy) (noLive_withEnd honlyy fun _ => rfl)
    have hdead : (s.dev.withCurrent none).journalDead = _ :=
      journalDead_eq (d := s.dev.withCurrent none) hhand hqueue hreq (hd ▸ hfailed) hchoose
    have hhand' : (s.dev.withCurrent none).writer.inHand = some h := hhand
    have hnot : ¬ (h.retryOf.isNone = true ∧ h.slot < 63) := by
      rintro ⟨hnone, hlow⟩
      rcases hretry with hretry | hretry
      · exact hretry (Option.isNone_iff_eq_none.mp hnone)
      · omega
    simp only [Dev.programDone, Dev.journalProgramDone, hhand', verdictOk, Bool.false_eq_true, if_false, Dev.recordFailed,
      if_neg hnot, hdead]
    exact settle_withEnd hidle hy honlyy fun _ => rfl
  have hclaims (i : Nat) (serial : Word32) (c : Claim) (hi : claims i serial)
      (hprep : withdrawn d p body = d.setClaim i serial c) : ends (d.setEntry i { s.dev.entry i with claim := c }) := by
    obtain ⟨_, hdefined, hserial, hclaim⟩ := hi
    exact hends _ rfl (quiet_setClaim hquiet hclaim) honlyd hticket (hprep.trans (setClaim_eq c hdefined hserial))
  cases body with
  | define k base size readers label => exact hends _ rfl hquiet honlyd hticket rfl
  | dropFallback i serial => exact fun hi => hclaims i serial .unclaimed hi rfl
  | commit i serial copy length check budget => exact fun hi => hclaims i serial .opened hi rfl
  | _ => exact hends _ rfl hquiet honlyd hticket rfl

end Sys2Proof.Proofs

/-!
PROOF. The DROP_FALLBACK record of a CLAIM (R41): with two tickets of one number in a ring, its event may go on with the
other of the two.
-/

namespace Sys2Proof.Proofs

set_option Elab.async false

open Sys2Proof Sys2Proof.Machine Sys2Proof.Laws

/-! ## A ring with two tickets of one number -/

/-- An IMAGE partition of port 0 with a live copy and a fallback. -/
def twinEntry : Entry :=
  { Entry.undefined with
    defined := true, kind := .image, owner := .p0, base := 8, size := 1, serial := 7, live := some .a, fallback := true }

/-- The CLAIM whose DROP_FALLBACK record is in hand. -/
def twinClaim : Ticket :=
  { number := 1, kind := .claim, index := some 0, serial := some 7, notify := false, state := .running, result := .ok,
    progress := 0, buffer := none, copyRead := none, generationRead := none, cancelRequested := false, orphan := false,
    stage := .recording }

/-- A READ of the same number that waits behind it. -/
def twinRead : Ticket :=
  { number := 1, kind := .read .staged 0 1, index := some 0, serial := some 7, notify := false, state := .queued,
    result := .ok, progress := 0, buffer := none, copyRead := none, generationRead := none, cancelRequested := false,
    orphan := false, stage := .waiting }

def twinRecord : InHand :=
  { change := .dropFallback 0 7, slot := 5, sequence := 9, retryOf := none, request := .host .p0 1 (.dropFallback 0 7) }

/-- The state at the completion of the record. -/
def twinState : State :=
  { State.reset with
    dev := { Dev.reset.setRing .p0 [twinClaim, twinRead] with
      phase := .serving
      table := Table.setEntry Table.empty 0 twinEntry
      writer := { Writer.reset with inHand := some twinRecord }
      mount := { Dev.reset.mount with step := .idle }
      engine := { Dev.reset.engine with current := some (.program 0 5 0 [] .journal 0) } } }

/-- The engine's operation after an event. -/
def currentAfter (o : Host.Outcome State Fault Refusal) : Option Operation :=
  match o with
  | .next t => t.dev.engine.current
  | _ => none

/-- The READ is issued, and the CLAIM's first spare erase is not. -/
theorem twinState_reads : currentAfter (exec (.pageProgramComplete .success) twinState) =
    some (.read 9 0 (.ticket .p0 1) 0) := by
  decide +kernel

theorem twinState_onlyLive : twinState.dev.OnlyLive .p0 1 := by
  intro q u hu _
  cases q with
  | p0 =>
    have hring : u ∈ [twinClaim, twinRead] := hu
    rcases List.mem_pair.mp hring with rfl | rfl <;> exact ⟨rfl, rfl⟩
  | p1 => cases hu
  | p2 => cases hu

theorem twinState_leasesLeft : twinState.dev.LeasesLeft := by
  intro p hp
  have hnone : twinState.dev.holdsClaim p = false := by cases p <;> decide +kernel
  exact absurd hp (by rw [hnone]; exact Bool.false_ne_true)

/-- Refutes O42: the statement does not ask that the ring's numbers differ (R115). In `twinState` a READ of the CLAIM's
number waits behind it; once the record has completed, that READ is ready, and the Scheduler takes it before the CLAIM's
first erase (R147). -/
theorem not_dropFallbackCompletes : ¬ Obligations.DropFallbackCompletes := by
  intro h
  have hends := h .p0 1 twinClaim twinRecord 0 0 5 0 0 7 [] twinState rfl (by decide) (by decide) (by decide) rfl rfl rfl
    (by decide) rfl rfl twinState_leasesLeft rfl rfl rfl rfl rfl rfl (by decide) rfl rfl rfl rfl rfl twinState_onlyLive
    rfl rfl rfl
  have hopen : ¬ ((twinState.dev.entry 0).fixed = true ∨ (twinState.dev.entry 0).held = true) := by decide +kernel
  rw [if_neg (show ¬ twinClaim.cancelRequested = true from Bool.false_ne_true), if_neg hopen] at hends
  have herase : currentAfter (exec (.pageProgramComplete .success) twinState) =
      some (issuedErase (twinState.dev.entry 0).spareSector (.ticket .p0 1)) := congrArg currentAfter hends
  exact nomatch twinState_reads.symm.trans herase

end Sys2Proof.Proofs

/-!
PROOF. The parking of an erase (R155) and its resumption (R157).
-/

namespace Sys2Proof.Proofs

set_option Elab.async false

open Sys2Proof Sys2Proof.Machine Sys2Proof.Laws

section Park
variable {former d : Dev} {e : EraseOp}

/-- A parked erase keeps its sector busy, and readiness looks at nothing else that parking changes. -/
theorem sameReady_park (hcur : d.engine.current = some (.erase e)) (hparked : d.engine.parked = none) :
    SameReady d (d.park e) := by
  refine ⟨fun _ => rfl, fun _ => rfl, rfl, rfl, rfl, rfl, fun sector => ?_⟩
  simp only [Dev.busy, Dev.park, modifyEngine_engine, hcur, hparked, Bool.or_false, Bool.false_or]

theorem mem_memberOrder (m pointer : Member) : m ∈ memberOrder pointer := by
  rcases pointer with (_ | _ | _) | _ <;> rcases m with (_ | _ | _) | _ <;> simp [memberOrder]

/-- R147: with no record, read or program ready, a parked erase is resumed. -/
theorem choose_resume (hshort : d.shortReady = false) (hparked : d.engine.parked.isSome = true) : d.choose = some .resume := by
  simp only [Dev.shortReady, Bool.or_eq_false_iff, List.any_eq_false] at hshort
  obtain ⟨⟨hrecord, hread⟩, hprogram⟩ := hshort
  have hnone (f : Member → Bool) (hf : ∀ m ∈ memberOrder .system, ¬ f m = true) (pointer : Member) :
      (memberOrder pointer).find? f = none :=
    List.find?_eq_none.mpr fun m _ => hf m (mem_memberOrder m .system)
  simp only [Dev.choose, hrecord, hnone _ hread, hnone _ hprogram, hparked, Bool.false_eq_true, if_false, if_true]

end Park

/-- Settles O50: the record in hand goes first; with nothing ready the parked erase is the choice. -/
theorem eraseParks : Obligations.EraseParks := by
  intro e s hcur hrequested hleases
  have hexec (x : Dev) (hx : Dev.settle s.dev (s.dev.park e) = x) : exec .eraseParked s = .next { s with dev := x } := by
    show execEraseParked s = _
    simp only [execEraseParked, hcur, hrequested, if_true, ← hx]
    rfl
  refine ⟨fun h hhand => hexec _ ?_, fun hshort hnone hparked => hexec _ ?_⟩
  · have hready : (s.dev.park e).recordReady = some (s.dev.writer.activeHalf, h.slot, s.dev.writer.buffer, .journal) := by
      have hhand' : (s.dev.park e).writer.inHand = some h := hhand
      simp only [Dev.recordReady, hhand']
      rfl
    have htaken : (s.dev.park e).TakesNone := takesNone_of_inHand s.dev (by rw [hhand]; rfl)
    exact settle_record (takeAll_of_none _ htaken) rfl hready htaken hleases
  · have hready : (s.dev.park e).shortReady = false := by rw [(sameReady_park hcur hparked).shortReady, hshort]
    refine settle_of_system (takeAll_of_none (s.dev.park e) hnone) rfl (choose_resume hready rfl) rfl rfl hnone
      ⟨_, rfl, fun op hop => ?_⟩ hleases
    obtain rfl := Operation.erase.inj hop
    rfl

end Sys2Proof.Proofs

/-!
PROOF. The mount (R86 to R92, R96): what a page's class counts, the choice of a half, and the read or erase that follows.
-/

namespace Sys2Proof.Proofs

set_option Elab.async false

open Sys2Proof Sys2Proof.Machine Sys2Proof.Laws

/-! ## The end of an event of the mount -/

section MountEvent
variable {former d : Dev} {m : Mount}

/-- R86: where Mount Logic reads and nothing else is at work, its next page read is issued. -/
theorem settle_mountRead {sector page : Nat} (hsector : slotSector d.mount.half d.mount.slot = sector)
    (hpage : slotPage d.mount.slot = page) (hidle : d.engine.current = none) (hrecord : d.recordReady = none) (hreads : d.mountReads = true)
    (hdead : d.NoLive) (hnone : d.TakesNone) (hleases : d.LeasesFresh) :
    Dev.settle former d = { d with engine := { d.engine with
      current := some (.read sector page .mount 0), readPointer := .system } } := by
  subst hsector hpage
  have hread : (memberOrder d.engine.readPointer).find? d.readReady = some .system :=
    find_memberOrder _ hreads fun o ho => by
      cases o with
      | port p => exact (candidates_of_dead (hdead p)).1
      | system => exact absurd rfl ho
  have hchoose : d.choose = some (.read .system) := by
    simp only [Dev.choose, hrecord, hread, Option.isSome_none, Bool.false_eq_true, if_false]
  exact settle_of_system (takeAll_of_none d hnone) hidle hchoose rfl rfl hnone ⟨_, rfl, fun _ h => nomatch h⟩ hleases

/-- Before the end of the mount no record is ready but one of FORMATTING. -/
theorem recordReady_of_reset (hwriter : d.writer = Writer.reset) (hm : ∀ slot, d.mount.step ≠ .formatProgramming slot) :
    d.recordReady = none := by
  cases hstep : d.mount.step with
  | formatProgramming slot => exact absurd hstep (hm slot)
  | _ => simp only [Dev.recordReady, hwriter, Writer.reset, hstep]

theorem leasesFresh_of_not_running (h : ∀ p, (d.port p).leaseTime ≠ 0 ∨ d.leaseRuns p = false) : d.LeasesFresh := by
  intro p hruns
  rcases h p with htime | hstill
  · exact htime
  · exact absurd (hruns.symm.trans hstill) Bool.true_eq_false_eq_False.elim

end MountEvent

/-! ## What a page counts (R86) -/

section Count
variable {d : Dev} {c : PageClass}

/-- R86: the highest sequence seen after a page. -/
def highestAfter (c : PageClass) (highest : Word32) : Word32 :=
  match c with
  | .valid q _ => laterSequence highest q
  | _ => highest

theorem countPage_of_not_loading (h : d.mount.step ≠ .loading) :
    d.countPage c = d.modifyMount (fun m =>
      { m with highestSequence := highestAfter c m.highestSequence, torn := if c = .torn then m.torn + 1 else m.torn }) := by
  cases c with
  | erased => rfl
  | valid q k => rfl
  | torn => exact if_neg h

theorem countPage_of_loading (h : d.mount.step = .loading) :
    d.countPage c = d.modifyMount (fun m => { m with highestSequence := highestAfter c m.highestSequence }) := by
  cases c with
  | erased => rfl
  | valid q k => rfl
  | torn => exact if_pos h

end Count

section Choosing
variable {d : Dev} {page : List Byte}

/-- R87: Mount Logic after the last page of half 1 has been scanned. -/
def scanned (m : Mount) (page : List Byte) : Mount :=
  { m with
      buffer := page
      highestSequence := highestAfter (classifyPage page) m.highestSequence
      torn := if classifyPage page = .torn then m.torn + 1 else m.torn
      scan := scanSlot m.scan 4 (classifyPage page) page
      candidate1 := (scanSlot m.scan 4 (classifyPage page) page).candidate }

/-- R87: the tenth read of CHOOSING ends the scan of half 1, and the candidates decide. -/
theorem mountReadDone_choosing (hstep : d.mount.step = .choosing) (hhalf : d.mount.half = .h1) (hslot : d.mount.slot = 4) :
    d.mountReadDone page = (d.modifyMount (fun m => scanned m page)).decideHalf := by
  have hnot : (d.modifyMount (fun m => { m with buffer := page })).mount.step ≠ .loading :=
    fun h => nomatch hstep.symm.trans h
  rw [Dev.mountReadDone, countPage_of_not_loading hnot]
  simp only [hstep, Dev.choosingRead, modifyMount_mount, hslot, hhalf, Nat.lt_irrefl, if_false]
  rfl

end Choosing

/-- Settles O47: the scan of half 1 ends with this page, and the candidates decide. -/
theorem mountChooses : Obligations.MountChooses := by
  intro sector page age s hop hs hp hstep hhalf hslot hdead hparked hphase hwriter hleases bytes class' scan m loads
  have hm : scanned s.dev.mount bytes = m := by
    dsimp only [scanned, m, scan, class']
    unfold highestAfter laterSequence
    rfl
  have hends (x : Dev) (hx : Dev.settle s.dev (({ s.dev.withCurrent none with mount := m } : Dev).decideHalf) = x) :
      exec .pageReadComplete s = .next { s with dev := x } := by
    refine exec_pageReadComplete hop hs hp ?_
    show Dev.settle s.dev ((s.dev.withCurrent none).mountReadDone bytes) = x
    rw [mountReadDone_choosing (d := s.dev.withCurrent none) hstep hhalf hslot, ← hx, ← hm]
    rfl
  have hfresh : s.dev.LeasesFresh := leasesFresh_of_not_running hleases
  have hqueue : s.dev.writer.queue = [] := by rw [hwriter]; rfl
  have hloads (h : JournalHalf) (q : Word32) (hchoose : chooseHalf s.dev.mount.candidate0 scan.candidate = some (h, q)) :
      loads h := by
    refine hends _ ?_
    have hdecide : ({ s.dev.withCurrent none with mount := m } : Dev).decideHalf =
        { s.dev.withCurrent none with mount := { m with step := .loading, half := h, slot := 1, chosen := some h } } := by
      have hchoose' : chooseHalf m.candidate0 m.candidate1 = some (h, q) := hchoose
      simp only [Dev.decideHalf, hchoose']
      rfl
    obtain ⟨hsector, hpage⟩ := slot_of_lt h (slot := 1) (by omega)
    have hread := settle_mountRead (former := s.dev)
      (d := { s.dev.withCurrent none with mount := { m with step := .loading, half := h, slot := 1, chosen := some h } })
      hsector hpage rfl (recordReady_of_reset hwriter (by intro _ h; cases h)) rfl hdead (.inr hqueue) hfresh
    rw [hdecide, hread]
    cases h <;> rfl
  have hformats (hchoose : chooseHalf s.dev.mount.candidate0 scan.candidate = none) :
      exec .pageReadComplete s = .next { s with dev := { s.dev with
        formatted := true
        mount := { m with step := .formatErasing 0 }
        engine := { s.dev.engine with current := some (issuedErase 0 .mount), erasePointer := .system } } } := by
    refine hends _ ?_
    have hdecide : ({ s.dev.withCurrent none with mount := m } : Dev).decideHalf =
        { s.dev.withCurrent none with formatted := true, mount := { m with step := .formatErasing 0 } } := by
      have hchoose' : chooseHalf m.candidate0 m.candidate1 = none := hchoose
      simp only [Dev.decideHalf, hchoose']
      rfl
    have herase : ({ s.dev.withCurrent none with formatted := true, mount := { m with step := .formatErasing 0 } } : Dev).systemErase =
        some (0, .mount) := by
      have hfold : (s.dev.withCurrent none).writer.fold = .idle := by
        show s.dev.writer.fold = .idle
        rw [hwriter]
        rfl
      simp only [Dev.systemErase, hfold]
    have herased := settle_systemErase (former := s.dev)
      (d := { s.dev.withCurrent none with formatted := true, mount := { m with step := .formatErasing 0 } })
      rfl (recordReady_of_reset hwriter (by intro _ h; cases h)) rfl hparked hdead (.inr hqueue) herase hfresh
    rw [hdecide, herased]
    rfl
  split
  next q0 q1 h0 h1 =>
    split
    next hle => exact hloads .h0 q0 (by rw [h0, h1]; exact if_neg (Nat.not_lt.mpr hle))
    next hle => exact hloads .h1 q1 (by rw [h0, h1]; exact if_pos (Nat.not_le.mp hle))
  next q0 h0 h1 => exact hloads .h0 q0 (by rw [h0, h1]; rfl)
  next q1 h0 h1 => exact hloads .h1 q1 (by rw [h0, h1]; rfl)
  next h0 h1 => exact hformats (by rw [h0, h1]; rfl)

end Sys2Proof.Proofs

/-!
PROOF. LOADING and REPLAYING (R88 to R91) and the end of the mount (R96).
-/

namespace Sys2Proof.Proofs

set_option Elab.async false

open Sys2Proof Sys2Proof.Machine Sys2Proof.Laws

/-! ## The entries of a checkpoint body -/

theorem mapM_some {α β : Type} {f : α → Option β} {xs : List α} {ys : List β} (h : xs.mapM f = some ys) :
    ys.length = xs.length ∧ ∀ y ∈ ys, ∃ x ∈ xs, f x = some y := by
  induction xs generalizing ys with
  | nil =>
    obtain rfl : [] = ys := Option.some.inj h
    exact ⟨rfl, fun y hy => nomatch hy⟩
  | cons x xs ih =>
    rw [List.mapM_cons] at h
    obtain ⟨y, hy, hrest⟩ := Option.bind_eq_some_iff.mp h
    obtain ⟨zs, hzs, hcons⟩ := Option.bind_eq_some_iff.mp hrest
    obtain rfl := Option.some.inj hcons
    obtain ⟨hlength, hmem⟩ := ih hzs
    refine ⟨congrArg (· + 1) hlength, fun z hz => ?_⟩
    rcases List.mem_cons.mp hz with rfl | hz
    · exact ⟨x, List.mem_cons_self, hy⟩
    · obtain ⟨w, hw, hfw⟩ := hmem z hz
      exact ⟨w, List.mem_cons_of_mem _ hw, hfw⟩

/-- R66: an entry read from a checkpoint body holds no claim. -/
theorem entryAt_unclaimed {bs : List Byte} {off : Nat} {e : Entry} (h : entryAt bs off = some e) : e.claim = .unclaimed := by
  simp only [entryAt, bind, Option.bind_eq_some_iff] at h
  obtain ⟨_, _, _, _, _, _, _, _, _, _, _, _, _, _, _, _, _, _, h⟩ := h
  split at h
  · cases h
  · split at h
    · obtain rfl := Option.some.inj h
      rfl
    · split at h
      · obtain rfl := Option.some.inj h
        rfl
      · cases h

theorem bodyEntries_some {bytes : List Byte} {entries : List Entry} (h : bodyEntries bytes = some entries) :
    entries.length = 6 ∧ ∀ e ∈ entries, e.claim = .unclaimed := by
  obtain ⟨hlength, hmem⟩ := mapM_some h
  refine ⟨hlength, fun e he => ?_⟩
  obtain ⟨_, _, hentry⟩ := hmem e he
  exact entryAt_unclaimed hentry

/-- R88: the table after entries have been written from index `k` on. -/
theorem entry_loadEntries (entries : List Entry) (t : Table) (k : Nat) {j : Nat} (hj : j < 24) :
    Table.entry (loadEntries t k entries) j =
      if k ≤ j ∧ j < k + entries.length then entries.getD (j - k) Entry.undefined else Table.entry t j := by
  induction entries generalizing t k with
  | nil => rw [if_neg (by simp only [List.length_nil]; omega)]; rfl
  | cons e es ih =>
    rw [loadEntries, ih]
    by_cases hkj : j = k
    · subst hkj
      rw [if_neg (by omega), if_pos (by simp only [List.length_cons]; omega), setEntry_entry_same _ _ _ hj, Nat.sub_self]
      rfl
    · rw [setEntry_entry_other _ _ _ _ hkj]
      by_cases hin : k + 1 ≤ j ∧ j < k + 1 + es.length
      · rw [if_pos hin, if_pos (by simp only [List.length_cons]; omega), show j - k = (j - (k + 1)) + 1 by omega]
        rfl
      · rw [if_neg hin, if_neg (by simp only [List.length_cons]; omega)]

theorem keepsClaim_loadEntries {entries : List Entry} (hclaims : ∀ e ∈ entries, e.claim = .unclaimed) (t : Table) (k j : Nat) :
    KeepsClaim (Table.entry t j) (Table.entry (loadEntries t k entries) j) := by
  by_cases hj : j < 24
  · rw [entry_loadEntries _ _ _ hj]
    split
    next hin =>
      rw [List.getD_eq_getElem _ _ (by omega)]
      exact .inl (hclaims _ (List.getElem_mem _))
    · exact .inr ⟨rfl, rfl, rfl⟩
  · exact .inl (congrArg Entry.claim (entry_beyond _ _ hj))

/-! ## Leases over the mount -/

/-- R166: no lease expires where entries keep or give up their claims, and rings and leases stay. -/
theorem leasesFresh_of_keepsClaim {d e : Dev} (hk : ∀ i, KeepsClaim (d.entry i) (e.entry i))
    (hp : ∀ p, (e.port p).ring = (d.port p).ring ∧ (e.port p).leaseTime = (d.port p).leaseTime ∧
      (e.port p).leaseSetting = (d.port p).leaseSetting) (h : d.LeasesFresh) : e.LeasesFresh := by
  intro p hruns
  obtain ⟨hring, htime, hsetting⟩ := hp p
  rw [htime]
  refine h p ?_
  simp only [Dev.leaseRuns, Dev.hasRunning, Dev.ring, hring, hsetting, Bool.and_eq_true] at hruns ⊢
  obtain ⟨⟨hheld, hstill⟩, hset⟩ := hruns
  refine ⟨⟨?_, hstill⟩, hset⟩
  simp only [Dev.holdsClaim, List.any_eq_true, Bool.and_eq_true, bne_iff_ne, beq_iff_eq] at hheld ⊢
  obtain ⟨i, hi, ⟨hdefined, howner⟩, hclaim⟩ := hheld
  rcases hk i with hnone | ⟨hsame, hown, hdef⟩
  · exact absurd hnone hclaim
  · exact ⟨i, hi, ⟨hdef ▸ hdefined, hown ▸ howner⟩, hsame ▸ hclaim⟩

/-! ## The reads and the end of the mount -/

section Mounting
variable {former d : Dev} {page : List Byte} {m : Mount} {table : Table}

/-- Nothing is ready without a live ticket and without work of the Journal Writer and Mount Logic. -/
theorem choose_of_workless (hw : Workless d) (hdead : d.NoLive) : d.choose = none := by
  have hread : (memberOrder d.engine.readPointer).find? d.readReady = none := find_memberOrder_none _ fun m => by
    cases m with
    | port p => exact (candidates_of_dead (hdead p)).1
    | system => exact hw.mountReads
  have hprogram : (memberOrder d.engine.programPointer).find? d.programReady = none := find_memberOrder_none _ fun m => by
    cases m with
    | port p => exact (candidates_of_dead (hdead p)).2.1
    | system => rfl
  have herase : (memberOrder d.engine.erasePointer).find? d.eraseReady = none := find_memberOrder_none _ fun m => by
    cases m with
    | port p => exact (candidates_of_dead (hdead p)).2.2
    | system => simp [Dev.eraseReady, hw.systemErase]
  simp only [Dev.choose, hw.recordReady, hread, hprogram, hw.parked, herase, Option.isSome_none, Bool.false_eq_true, if_false]

/-- R88: a read of LOADING completes. -/
theorem mountReadDone_loading (hstep : d.mount.step = .loading) :
    d.mountReadDone page =
      (d.modifyMount (fun m => { m with
        buffer := page, highestSequence := highestAfter (classifyPage page) m.highestSequence })).loadingRead page := by
  have hload : (d.modifyMount (fun m => { m with buffer := page })).mount.step = .loading := hstep
  rw [Dev.mountReadDone, countPage_of_loading hload]
  simp only [hstep]
  rfl

/-- R86, R89: what a page of REPLAYING counts before it is looked at. -/
def counted (m : Mount) (page : List Byte) : Mount :=
  { m with
      buffer := page
      highestSequence := highestAfter (classifyPage page) m.highestSequence
      torn := if classifyPage page = .torn then m.torn + 1 else m.torn }

/-- R89: the device after a page of REPLAYING, before the next slot. -/
def replayed (d : Dev) (page : List Byte) : Dev :=
  match classifyPage page with
  | .erased => d.modifyMount (fun m => counted m page)
  | .torn => d.modifyMount (fun m => { counted m page with highestSlot := some m.slot })
  | .valid q k => (d.modifyMount (fun m => { counted m page with highestSlot := some m.slot })).replayPage q k page

/-- R89, R91: the next slot, or the end of the mount. -/
def nextSlot (d : Dev) (slot : Nat) : Dev :=
  if slot < 63 then d.modifyMount (fun m => { m with slot := m.slot + 1 }) else d.endReplay

theorem mountReadDone_replaying (hstep : d.mount.step = .replaying) :
    d.mountReadDone page = nextSlot (replayed d page) d.mount.slot := by
  have hnot : (d.modifyMount (fun m => { m with buffer := page })).mount.step ≠ .loading :=
    fun h => nomatch hstep.symm.trans h
  have hcounted : (d.modifyMount (fun m => { m with buffer := page })).countPage (classifyPage page) =
      d.modifyMount (fun m => counted m page) := countPage_of_not_loading hnot
  rw [Dev.mountReadDone, hcounted]
  simp only [hstep, Dev.replayingRead, nextSlot, replayed]
  cases classifyPage page <;> rfl

/-- R91: the Journal Writer's next slot after the mount. -/
def slotAfter (m : Mount) : Nat :=
  match m.highestSlot with
  | some n => n + 1
  | none => 5

/-- R91, R96: the device SERVING with the Journal Writer's recovered position; a fold may still be due. -/
def served (d : Dev) : Dev :=
  tell { d with
    phase := .serving
    mount := { d.mount with step := .idle }
    writer := { d.writer with
      activeHalf := d.mount.half
      nextSlot := slotAfter d.mount
      nextSequence := recoveredSequence d.mount.highestSequence d.mount.torn } }
    [(fun _ => true, phaseEvent .ok)]

theorem endReplay_eq (d : Dev) : d.endReplay = (served d).beginFold :=
  congrArg Dev.beginFold (sendTo_filter (fun _ => true) _)

theorem served_leasesFresh (h : d.LeasesFresh) : (served d).LeasesFresh :=
  leasesFresh_of_keepsClaim (d := d) (fun _ => .inr ⟨rfl, rfl, rfl⟩)
    (fun p => by rw [served, tell_port]; exact ⟨rfl, rfl, rfl⟩) h

theorem served_noLive (h : d.NoLive) : (served d).NoLive := fun p u hu =>
  h p u (by rwa [served, tell_ring] at hu)

/-- R96: the mount ends with 13 or more free slots: nothing is left to do. -/
theorem settle_endReplay_idle (hslot : slotAfter d.mount ≤ 51) (hidle : d.engine.current = none)
    (hwriter : d.writer = Writer.reset) (hdead : d.NoLive) (hparked : d.engine.parked = none) (hfresh : d.LeasesFresh) :
    Dev.settle former d.endReplay = served d := by
  have hfold : (served d).writer.fold = .idle := by
    show d.writer.fold = .idle
    rw [hwriter]
    rfl
  have hhand : (served d).writer.inHand = none := by
    show d.writer.inHand = none
    rw [hwriter]
    rfl
  have hqueue : (served d).writer.queue = [] := by
    show d.writer.queue = []
    rw [hwriter]
    rfl
  rw [endReplay_eq, beginFold_of_not fun _ => hslot]
  exact settle_of_idle former _ hidle (choose_of_workless ⟨hparked, hhand, hfold, rfl⟩ (served_noLive hdead)) (.inr hqueue)
    (served_leasesFresh hfresh)

/-- R75, R96: the mount ends with 12 or fewer free slots: the fold's first erase is issued. -/
theorem settle_endReplay_fold (hslot : 52 ≤ slotAfter d.mount) (hidle : d.engine.current = none)
    (hwriter : d.writer = Writer.reset) (hdead : d.NoLive) (hparked : d.engine.parked = none) (hfresh : d.LeasesFresh) :
    Dev.settle former d.endReplay = { served d with
      writer := { (served d).writer with fold := .erasing 0 }
      engine := { d.engine with
        current := some (issuedErase (halfBase (otherHalf d.mount.half)) .journal), erasePointer := .system } } := by
  have hbegin : (served d).beginFold = { served d with writer := { (served d).writer with fold := .erasing 0 } } := by
    have hwriter' : (served d).writer = { d.writer with
      activeHalf := d.mount.half
      nextSlot := slotAfter d.mount
      nextSequence := recoveredSequence d.mount.highestSequence d.mount.torn } := rfl
    have hfree : (served d).writer.freeSlots ≤ Config.foldThreshold := by
      show 64 - slotAfter d.mount ≤ 12
      omega
    rw [Dev.beginFold, if_pos ⟨by rw [hwriter', hwriter]; rfl, by rw [hwriter', hwriter]; rfl, hfree⟩, Dev.modifyWriter, hwriter',
      hwriter]
    rfl
  have hrecord : ({ served d with writer := { (served d).writer with fold := .erasing 0 } } : Dev).recordReady = none := by
    have hhand : (served d).writer.inHand = none := by
      show d.writer.inHand = none
      rw [hwriter]
      rfl
    simp only [Dev.recordReady, hhand]
    rfl
  have hqueue : (served d).writer.queue = [] := by
    show d.writer.queue = []
    rw [hwriter]
    rfl
  have hissued := settle_systemErase (former := former)
    (d := { served d with writer := { (served d).writer with fold := .erasing 0 } }) hidle hrecord rfl hparked
    (served_noLive hdead) (.inr hqueue) rfl (served_leasesFresh hfresh)
  rw [endReplay_eq, hbegin, hissued]
  rfl

end Mounting

/-! ## The record of a page in REPLAYING (R89, R90) -/

section Replay
variable {d : Dev} {page : List Byte} {q : Word32} {k : Byte} {c : Change}

/-- R90: a record that names an incarnation by its serial, or by a serial that stands for it. -/
theorem named_iff (t : Table) (aliases : List (Nat × Word32)) (i : Nat) (serial : Word32) :
    replayable.named t aliases i serial = true ↔
      (Table.entry t i).defined = true ∧ ((Table.entry t i).serial = serial ∨ (i, serial) ∈ aliases) := by
  simp [replayable.named]

theorem replayPage_none (h : (if isChangeKind k = true then changeOfPage page else none) = none) : d.replayPage q k page = d := by
  simp only [Dev.replayPage, h]

theorem replayPage_old (h : (if isChangeKind k = true then changeOfPage page else none) = some c)
    (hq : q.toNat ≤ d.mount.lastApplied.toNat) : d.replayPage q k page = d := by
  simp only [Dev.replayPage, h, if_pos hq]

theorem replayPage_retry (h : (if isChangeKind k = true then changeOfPage page else none) = some c)
    (hq : d.mount.lastApplied.toNat < q.toNat) (hr : word32At page 5 ≠ 0) (hlast : word32At page 5 = d.mount.lastApplied) :
    d.replayPage q k page = d.modifyMount (fun m => { m with aliases := m.aliases ++ aliasOf q c }) := by
  have hretry : (retryField page != 0 && retryField page == d.mount.lastApplied) = true := by
    simp only [retryField, Bool.and_eq_true, bne_iff_ne, beq_iff_eq]
    exact ⟨hr, hlast⟩
  simp only [Dev.replayPage, h, if_neg (Nat.not_le.mpr hq), hretry, if_true]

theorem replayPage_new (h : (if isChangeKind k = true then changeOfPage page else none) = some c)
    (hq : d.mount.lastApplied.toNat < q.toNat) (hr : word32At page 5 = 0 ∨ word32At page 5 ≠ d.mount.lastApplied) :
    d.replayPage q k page =
      if replayable d.table d.mount.aliases c then
        { d with table := applyChange d.table q c
                 mount := { d.mount with lastApplied := q, aliases := aliasesAfter d.mount.aliases c } }
      else d := by
  have hretry : (retryField page != 0 && retryField page == d.mount.lastApplied) = false := by
    simp only [retryField, Bool.and_eq_false_iff, bne_eq_false_iff_eq, beq_eq_false_iff_ne]
    exact hr
  simp only [Dev.replayPage, h, if_neg (Nat.not_le.mpr hq), hretry, Bool.false_eq_true, if_false]

end Replay

end Sys2Proof.Proofs

/-!
PROOF. The reads of LOADING and REPLAYING, record by record (R88 to R91, R96).
-/

namespace Sys2Proof.Proofs

set_option Elab.async false

open Sys2Proof Sys2Proof.Machine Sys2Proof.Laws

/-- R2: the first sector of the other half. -/
theorem otherHalf_base_eq (half : JournalHalf) : halfBase (otherHalf half) = 4 - halfBase half := by
  cases half <;> rfl

/-- R75, R91, R96: the device at the end of a mount that took `half`. -/
def finished (d : Dev) (half : JournalHalf) : Dev :=
  { tell d [(fun _ => true, phaseEvent .ok)] with
    phase := .serving
    mount := { d.mount with step := .idle }
    writer := { Writer.reset with
      activeHalf := half
      nextSlot := slotAfter d.mount
      nextSequence := recoveredSequence d.mount.highestSequence d.mount.torn
      fold := if 52 ≤ slotAfter d.mount then .erasing 0 else .idle }
    engine :=
      if 52 ≤ slotAfter d.mount then
        { d.engine with current := some (issuedErase (4 - halfBase half) .journal), erasePointer := .system }
      else d.engine }

theorem settle_endReplay {former d : Dev} {half : JournalHalf} (hhalf : d.mount.half = half)
    (hidle : d.engine.current = none) (hwriter : d.writer = Writer.reset) (hdead : d.NoLive) (hparked : d.engine.parked = none)
    (hfresh : d.LeasesFresh) : Dev.settle former d.endReplay = finished d half := by
  subst hhalf
  unfold finished
  by_cases hslot : 52 ≤ slotAfter d.mount
  · rw [settle_endReplay_fold hslot hidle hwriter hdead hparked hfresh, if_pos hslot, if_pos hslot, otherHalf_base_eq]
    simp only [served, hwriter]
    rfl
  · rw [settle_endReplay_idle (by omega) hidle hwriter hdead hparked hfresh, if_neg hslot, if_neg hslot]
    simp only [served, hwriter]
    rfl

/-- R90: the checks of a DEFINE record. -/
theorem replayable_define_iff {t : Table} {aliases : List (Nat × Word32)} {i : Nat} {k : PartKind} {o : Port}
    {b size : Half16} {r : Readers} {l : Word32} :
    replayable t aliases (.define i k o b size r l) = true ↔
      (Table.entry t i).defined = false ∧ 8 ≤ b.toNat ∧ b.toNat + footprintOf k size ≤ 4096 ∧
        Table.meets t b.toNat (footprintOf k size) = false := by
  simp only [replayable, Bool.and_eq_true, Bool.not_eq_true', decide_eq_true_eq, and_assoc]
  exact Iff.rfl

/-- Settles O48: LOADING writes the body's entries; REPLAYING applies or passes over the record, and after slot 63 the
mount ends. -/
theorem mountEnds : Obligations.MountEnds := by
  intro sector page age s hop hs hp hdead hparked hphase hwriter hleases bytes m class' highest base reads finishes
  have hfresh : s.dev.LeasesFresh := leasesFresh_of_not_running hleases
  have hqueue : s.dev.writer.queue = [] := by rw [hwriter]; rfl
  have hbase (half : JournalHalf) : halfBase half = base half := by cases half <;> rfl
  have hhighest : highestAfter class' m.highestSequence = highest := rfl
  have hexec (x : Dev) (hx : Dev.settle s.dev ((s.dev.withCurrent none).mountReadDone bytes) = x) :
      exec .pageReadComplete s = .next { s with dev := x } := exec_pageReadComplete hop hs hp hx
  have hfreshTable (table : Table) (hk : ∀ i, KeepsClaim (s.dev.entry i) (Table.entry table i)) (after : Mount) :
      ({ s.dev.withCurrent none with table := table, mount := after } : Dev).LeasesFresh :=
    leasesFresh_of_keepsClaim (d := s.dev) hk (fun _ => ⟨rfl, rfl, rfl⟩) hfresh
  have hreads (after : Mount) (table : Table) (hhalf : after.half = m.half)
      (hstep : after.step = .loading ∨ after.step = .replaying)
      (hk : ∀ i, KeepsClaim (s.dev.entry i) (Table.entry table i))
      (hdone : (s.dev.withCurrent none).mountReadDone bytes = { s.dev.withCurrent none with table := table, mount := after }) :
      reads after table := by
    refine hexec _ ?_
    have hsector : slotSector after.half after.slot = base m.half + after.slot / 16 := by
      rw [hhalf, ← hbase]
      rfl
    have hreading : ({ s.dev.withCurrent none with table := table, mount := after } : Dev).mountReads = true := by
      rcases hstep with h | h <;> simp only [Dev.mountReads, h]
    have hnot (slot : Nat) : after.step ≠ .formatProgramming slot := by
      rcases hstep with h | h <;> rw [h] <;> exact fun h => nomatch h
    have hread := settle_mountRead (former := s.dev)
      (d := { s.dev.withCurrent none with table := table, mount := after }) hsector rfl rfl
      (recordReady_of_reset hwriter hnot) hreading hdead (.inr hqueue) (hfreshTable table hk after)
    rw [hdone, hread]
    rfl
  have hfinishes (after : Mount) (table : Table) (hhalf : after.half = m.half)
      (hk : ∀ i, KeepsClaim (s.dev.entry i) (Table.entry table i))
      (hdone : (s.dev.withCurrent none).mountReadDone bytes =
        ({ s.dev.withCurrent none with table := table, mount := after } : Dev).endReplay) : finishes after table := by
    refine hexec _ ?_
    have hend := settle_endReplay (former := s.dev)
      (d := { s.dev.withCurrent none with table := table, mount := after }) hhalf rfl hwriter hdead hparked
      (hfreshTable table hk after)
    rw [hdone, hend, finished, hbase]
    rfl
  refine ⟨fun hbytes => ?_, fun hstep hone hfour entries hentries => ?_, fun hstep => ?_⟩
  · refine if_pos (List.all_eq_true.mpr fun b hb => ?_)
    obtain ⟨j, hj, rfl⟩ := List.mem_map.mp hb
    simp [hbytes j (List.mem_range.mp hj)]
  · obtain ⟨hlength, hclaims⟩ := bodyEntries_some hentries
    refine ⟨loadEntries s.dev.table (6 * (m.slot - 1)) entries, fun i hi => ?_, ?_⟩
    · rw [entry_loadEntries _ _ _ hi, hlength]
      exact if_congr (by omega) rfl rfl
    · have hkeeps (i : Nat) := keepsClaim_loadEntries hclaims s.dev.table (6 * (m.slot - 1)) i
      have hdone : (s.dev.withCurrent none).mountReadDone bytes = _ :=
        mountReadDone_loading (d := s.dev.withCurrent none) (page := bytes) hstep
      have hentries' : (bodyEntries bytes).getD [] = entries := by rw [hentries]; rfl
      dsimp only
      split
      next hlt =>
        have hlt' : (s.dev.withCurrent none).mount.slot < 4 := hlt
        refine hreads _ _ rfl (.inl hstep) hkeeps ?_
        rw [hdone]
        simp only [Dev.loadingRead, modifyMount_mount, if_pos hlt', hentries']
        rfl
      next hge =>
        intro h q hchosen hhead
        have hge' : ¬ (s.dev.withCurrent none).mount.slot < 4 := hge
        have hlast : (s.dev.withCurrent none).mount.chosenHead = q := by
          have hchosen' : (s.dev.withCurrent none).mount.chosen = some h := hchosen
          cases h with
          | h0 => simp only [Mount.chosenHead, hchosen']; exact congrArg (fun x => Option.getD x 0) hhead
          | h1 => simp only [Mount.chosenHead, hchosen']; exact congrArg (fun x => Option.getD x 0) hhead
        refine hreads _ _ rfl (.inr rfl) hkeeps ?_
        rw [hdone, ← hlast]
        simp only [Dev.loadingRead, modifyMount_mount, if_neg hge', hentries']
        rfl
  · intro ends seen
    have hdone : (s.dev.withCurrent none).mountReadDone bytes = nextSlot (replayed (s.dev.withCurrent none) bytes) m.slot :=
      mountReadDone_replaying (d := s.dev.withCurrent none) (page := bytes) hstep
    have hends (after : Mount) (table : Table) (hhalf : after.half = m.half) (hslot : after.slot = m.slot)
        (hstep' : after.step = .replaying) (hk : ∀ i, KeepsClaim (s.dev.entry i) (Table.entry table i))
        (hreplayed : replayed (s.dev.withCurrent none) bytes =
          { s.dev.withCurrent none with table := table, mount := after }) : ends after table := by
      rw [hreplayed, nextSlot] at hdone
      dsimp only [ends]
      split
      next hlt =>
        rw [if_pos hlt] at hdone
        refine hreads _ _ hhalf (.inr hstep') hk ?_
        rw [hdone, ← hslot]
        rfl
      next hge =>
        rw [if_neg hge] at hdone
        exact hfinishes _ _ hhalf hk hdone
    have hsame (i : Nat) : KeepsClaim (s.dev.entry i) (s.dev.entry i) := .inr ⟨rfl, rfl, rfl⟩
    have hcounted : counted m bytes =
        { m with buffer := bytes, highestSequence := highest, torn := if class' = .torn then m.torn + 1 else m.torn } := rfl
    cases hclass : class' with
    | erased =>
      refine hends _ _ rfl rfl hstep hsame ?_
      have hclass' : classifyPage bytes = .erased := hclass
      simp only [replayed, hclass', counted, highestAfter, reduceCtorEq, if_false]
      rfl
    | torn =>
      have hclass' : classifyPage bytes = .torn := hclass
      have hhigh : highest = m.highestSequence := by
        rw [← hhighest, hclass]
        rfl
      refine hends _ _ rfl rfl hstep hsame ?_
      simp only [replayed, hclass', counted, highestAfter, if_true, seen, hhigh]
      rfl
    | valid q kind =>
      have hclass' : classifyPage bytes = .valid q kind := hclass
      have hnottorn : ¬ class' = .torn := by
        rw [hclass]
        exact fun h => nomatch h
      have hseen : ({ counted m bytes with highestSlot := some m.slot } : Mount) = seen := by
        rw [hcounted, if_neg hnottorn]
      have hreplayed : replayed (s.dev.withCurrent none) bytes =
          ({ s.dev.withCurrent none with mount := seen } : Dev).replayPage q kind bytes := by
        rw [← hseen]
        simp only [replayed, hclass']
        rfl
      rw [hreplayed] at hends
      dsimp -zeta only
      cases hrecord : if isChangeKind kind = true then changeOfPage bytes else none with
      | none =>
        exact hends seen s.dev.table rfl rfl hstep hsame (replayPage_none hrecord)
      | some c =>
        dsimp -zeta only
        intro retry named passes skippedRetry applied
        refine ⟨fun hold => ?_, fun hnew hretry hlast => ?_, fun hnew hretry => ?_⟩
        · exact hends seen s.dev.table rfl rfl hstep hsame (replayPage_old hrecord hold)
        · have hskip := replayPage_retry (d := { s.dev.withCurrent none with mount := seen }) hrecord hnew hretry hlast
          have hskipped : ({ seen with aliases := m.aliases ++ aliasOf q c } : Mount) = skippedRetry := by
            cases c with
            | define i k o b sz r l => rfl
            | _ =>
              show ({ seen with aliases := m.aliases ++ [] } : Mount) = seen
              rw [List.append_nil]
          rw [← hskipped]
          exact hends _ s.dev.table rfl rfl hstep hsame hskip
        · have hchecked := replayPage_new (d := { s.dev.withCurrent none with mount := seen }) hrecord hnew hretry
          have hpasses : replayable s.dev.table m.aliases c = true ↔ passes := by
            cases c with
            | define i k o b sz r l =>
              cases k <;> exact replayable_define_iff
            | tick p n =>
              show (decide (1 ≤ n) && decide (n ≤ 15)) = true ↔ 1 ≤ n ∧ n ≤ 15
              rw [Bool.and_eq_true, decide_eq_true_iff, decide_eq_true_iff]
            | _ => exact named_iff _ _ _ _
          have happlied : ({ seen with lastApplied := q, aliases := aliasesAfter m.aliases c } : Mount) = applied := by
            cases c <;> rfl
          refine ⟨fun hpass => ?_, fun hfail => ?_⟩
          · rw [← happlied]
            exact hends _ _ rfl rfl hstep (keepsClaim_applyChange s.dev.table q c)
              (hchecked.trans (if_pos (hpasses.mpr hpass)))
          · exact hends seen s.dev.table rfl rfl hstep hsame (hchecked.trans (if_neg (mt hpasses.mp hfail)))

end Sys2Proof.Proofs

/-!
PROOF. A ticket frame that is accepted (R106 to R110): the ticket's free number, its place in the ring, and the starts its
placing makes possible (R119, R122).
-/

namespace Sys2Proof.Proofs

set_option Elab.async false

open Sys2Proof Sys2Proof.Machine Sys2Proof.Laws

/-! ## The number of a ticket (R115) -/

/-- R115: the number that a ring of up to 8 tickets assigns is free, whatever its counter holds. -/
theorem assignNumber_fresh {d : Dev} {p : Port} (hring : (d.ring p).length ≤ 8) :
    ∀ u ∈ d.ring p, u.number ≠ d.assignNumber p := by
  obtain ⟨k, hk, hfree, hbefore, hlast⟩ := freeNumber_eq_iterate (d.ring p) 256 (d.port p).nextNumber
  have hlt : k < 256 := by
    by_contra hnot
    have hnext : nextNumberAfter (d.port p).nextNumber ≠ 0 := by
      unfold nextNumberAfter
      split
      · decide
      · bv_omega
    have hmany : 255 ≤ (d.ring p).length := le_length_of_carried (d.ring p) hnext (Nat.le_refl _) fun j hj =>
      hbefore (j + 1) (by omega)
    omega
  rw [Dev.assignNumber, hfree]
  exact hlast hlt

/-! ## A ticket in its place -/

section Placed
variable {d : Dev} {p q : Port} {t u : Ticket} {f : Ticket → Ticket} {g : EventQueue → EventQueue}

theorem accepted_ring (d : Dev) (p : Port) (t : Ticket) (q : Port) :
    (d.accepted p t).ring q = if q = p then d.ring p ++ [t] else d.ring q := by
  show ((d.accepted p t).port q).ring = _
  unfold Dev.accepted Dev.withTicket
  rw [modifyPort_port]
  split <;> rfl

theorem accepted_entry (d : Dev) (p : Port) (t : Ticket) (i : Nat) : (d.accepted p t).entry i = d.entry i := rfl

/-- R164: the reload of the lease and the placing of a ticket do not reach each other. -/
theorem accepted_leaseReloaded (d : Dev) (p : Port) (t : Ticket) :
    (d.leaseReloaded p).accepted p t = (d.accepted p t).leaseReloaded p := by
  simp only [Dev.accepted, Dev.withTicket, Dev.leaseReloaded, Dev.modifyPort, modify_modify]

/-- R115: no ticket of the ring carries the number of the new one. -/
def Fresh (d : Dev) (p : Port) (t : Ticket) : Prop := ∀ u ∈ d.ring p, u.number ≠ t.number

theorem accepted_ticket (h : Fresh d p t) : (d.accepted p t).ticket p t.number = some t := by
  have hnone : (d.ring p).find? (fun u => u.number == t.number) = none :=
    List.find?_eq_none.mpr fun u hu => by simpa using h u hu
  unfold Dev.ticket
  rw [accepted_ring, if_pos rfl, List.find?_append, hnone]
  simp

/-- What is done to the new ticket is done to it before its placing. -/
theorem accepted_withEnd (h : Fresh d p t) (hnum : (f t).number = t.number) (hbuffer : (f t).buffer.isSome = t.buffer.isSome) :
    (d.accepted p t).withEnd p t.number f g = (d.accepted p (f t)).modifyPort p (fun q => { q with events := g q.events }) := by
  unfold Dev.withEnd Dev.accepted Dev.withTicket
  rw [hnum, hbuffer]
  simp only [modifyPort_modifyPort]
  refine modifyPort_congr ?_
  have hkept : (d.ring p).map (fun u => if u.number == t.number then f u else u) = d.ring p :=
    (List.map_congr_left fun u hu => by simp [h u hu]).trans (List.map_id _)
  have hring : (d.ring p ++ [t]).map (fun u => if u.number == t.number then f u else u) = d.ring p ++ [f t] := by
    rw [List.map_append, hkept]
    simp
  congr 1

theorem accepted_modifyTicket (h : Fresh d p t) (hnum : (f t).number = t.number)
    (hbuffer : (f t).buffer.isSome = t.buffer.isSome) :
    (d.accepted p t).modifyTicket p t.number f = d.accepted p (f t) := by
  rw [modifyTicket_eq_withEnd, accepted_withEnd h hnum hbuffer]
  simp [Dev.modifyPort]

/-- R119: the oldest live modifying ticket after the placing. -/
theorem accepted_oldestModifying (d : Dev) (p : Port) (t : Ticket) :
    (d.accepted p t).oldestModifying p =
      (d.oldestModifying p).or (if t.modifying && t.live then some t else none) := by
  unfold Dev.oldestModifying
  rw [accepted_ring, if_pos rfl, List.find?_append]
  cases h : t.modifying && t.live <;> simp [h]

/-- The new ticket is the only live one where none was. -/
theorem alone_accepted (h : Fresh d p t) (hnone : d.NoLive) (hlive : t.live = true) : Alone (d.accepted p t) p t := by
  refine ⟨fun q u hu hl => ?_, accepted_ticket h, hlive, fun u hu hn => ?_⟩
  · rw [accepted_ring] at hu
    split at hu
    next hq =>
      subst hq
      rcases List.mem_append.mp hu with hu | hu
      · exact absurd hl (by simp [hnone q u hu])
      · rw [List.mem_singleton.mp hu]
        exact ⟨rfl, rfl⟩
    next => exact absurd hl (by simp [hnone q u hu])
  · rw [accepted_ring, if_pos rfl] at hu
    rcases List.mem_append.mp hu with hu | hu
    · exact absurd hn (h u hu)
    · exact List.mem_singleton.mp hu

end Placed

/-! ## The ordering rules at a placing (R119) -/

section Wake
variable {d : Dev} {p : Port} {t : Ticket}

theorem wake_of_nothingWaits (h : d.NothingWaits p) (fuel : Nat) : Dev.wake fuel d p = d := by
  cases fuel with
  | zero => rfl
  | succ fuel =>
    cases ht : d.oldestModifying p with
    | none => simp only [Dev.wake, ht]
    | some t => simp only [Dev.wake, ht, h t ht, Bool.false_eq_true, if_false]

/-- R119: with no ticket that waits to start, the ordering rules start none. -/
theorem wakePort_of_nothingWaits (h : d.NothingWaits p) : d.wakePort p = d := wake_of_nothingWaits h _

/-- R119: the one ticket that waits to start starts, and none after it. -/
theorem wakePort_of_starts (h : d.oldestModifying p = some t) (hs : t.state = .queued) (hstage : t.stage = .waiting)
    (hstarts : d.startsWhenStartable t = true) (hnext : (d.startTicket p t).NothingWaits p) :
    d.wakePort p = d.startTicket p t := by
  simp only [Dev.wakePort, Dev.wake, h, hs, hstage, hstarts, BEq.rfl, Bool.and_self, if_true]
  exact wake_of_nothingWaits hnext _

end Wake

/-! ## The ticket that a command asks for -/

/-- R110: the placing of a ticket, with the starts it makes possible. -/
def entered (d : Dev) (p : Port) (t : Ticket) : Dev :=
  match t.kind with
  | .read _ _ _ => d.accepted p t
  | .program _ _ => d.accepted p t
  | _ => (d.accepted p t).wakePort p

theorem entered_of_nothingWaits {d : Dev} {p : Port} {t : Ticket} (h : (d.accepted p t).NothingWaits p) :
    entered d p t = d.accepted p t := by
  unfold entered
  split
  · rfl
  · rfl
  · exact wakePort_of_nothingWaits h

/-- R107: the kind and partition index of the ticket that a command asks for. -/
def asksFor (c : Command) (k : TicketKind) (index : Option Nat) : Prop :=
  match c with
  | .read i view offset length =>
    k = .read (if view = 0 then .live else .staged) offset length ∧ index = some i.toNat
  | .program i offset length _ => k = .program offset length ∧ index = some i.toNat
  | .erase i first count => k = .erase first count ∧ index = some i.toNat
  | .claim i => k = .claim ∧ index = some i.toNat
  | .release i => k = .release ∧ index = some i.toNat
  | .commit i length check budget =>
    k = .commit length check (BitVec.ofNat 4 budget.toNat) ∧ index = some i.toNat
  | .confirm i => k = .confirm ∧ index = some i.toNat
  | .revert i => k = .revert ∧ index = some i.toNat
  | .define kind base size readers label =>
    k = .define (if kind = 0 then .plain else .image) base size (BitVec.ofNat 3 readers.toNat) label ∧ index = none
  | .delete i => k = .delete ∧ index = some i.toNat
  | .grant i readers => k = .grant (BitVec.ofNat 3 readers.toNat) ∧ index = some i.toNat
  | .fix i => k = .fix ∧ index = some i.toNat
  | _ => False

section Asks
variable {p : Port} {c : Command} {k : TicketKind} {index : Option Nat}

theorem indexOfCode_eq_some {i : Byte} {n : Nat} (h : indexOfCode i = some n) : n = i.toNat := by
  unfold indexOfCode at h
  split at h
  · exact (Option.some.inj h).symm
  · cases h

theorem asked_of_index {i : Byte} {k' : TicketKind}
    (h : (indexOfCode i).bind (fun n => some (k', some n)) = some (k, index)) : k = k' ∧ index = some i.toNat := by
  obtain ⟨n, hi, h⟩ := Option.bind_eq_some_iff.mp h
  obtain ⟨rfl, rfl⟩ := Prod.mk.inj (Option.some.inj h)
  exact ⟨rfl, congrArg some (indexOfCode_eq_some hi)⟩

theorem ticketRequest_asks (h : ticketRequest p c = some (k, index)) : asksFor c k index := by
  cases c with
  | read i view offset length =>
    simp only [ticketRequest, Option.bind_eq_bind, Option.bind_eq_some_iff] at h
    obtain ⟨n, hi, v, hv, h⟩ := h
    split at h
    next =>
      obtain ⟨rfl, rfl⟩ := Prod.mk.inj (Option.some.inj h)
      refine ⟨?_, congrArg some (indexOfCode_eq_some hi)⟩
      unfold viewOfCode at hv
      split at hv
      next h0 => rw [if_pos h0, Option.some.inj hv]
      next h0 =>
        split at hv
        next => rw [if_neg h0, Option.some.inj hv]
        next => cases hv
    next => cases h
  | program i offset length data =>
    simp only [ticketRequest, Option.bind_eq_bind, Option.bind_eq_some_iff] at h
    obtain ⟨n, hi, h⟩ := h
    split at h
    next =>
      obtain ⟨rfl, rfl⟩ := Prod.mk.inj (Option.some.inj h)
      exact ⟨rfl, congrArg some (indexOfCode_eq_some hi)⟩
    next => cases h
  | erase i first count =>
    simp only [ticketRequest, Option.bind_eq_bind, Option.bind_eq_some_iff] at h
    obtain ⟨n, hi, h⟩ := h
    split at h
    next =>
      obtain ⟨rfl, rfl⟩ := Prod.mk.inj (Option.some.inj h)
      exact ⟨rfl, congrArg some (indexOfCode_eq_some hi)⟩
    next => cases h
  | commit i length check budget =>
    simp only [ticketRequest, Option.bind_eq_bind, Option.bind_eq_some_iff] at h
    obtain ⟨n, hi, b, hb, h⟩ := h
    split at h
    next =>
      obtain ⟨rfl, rfl⟩ := Prod.mk.inj (Option.some.inj h)
      refine ⟨?_, congrArg some (indexOfCode_eq_some hi)⟩
      unfold budgetOfCode at hb
      split at hb
      · rw [← Option.some.inj hb]
        rfl
      · cases hb
    next => cases h
  | define kind base size readers label =>
    simp only [ticketRequest, Option.bind_eq_bind, Option.bind_eq_some_iff] at h
    obtain ⟨n, hn, b, hb, h⟩ := h
    split at h
    next =>
      obtain ⟨rfl, rfl⟩ := Prod.mk.inj (Option.some.inj h)
      unfold readersOfCode at hb
      unfold kindOfCode at hn
      refine ⟨?_, rfl⟩
      split at hb
      · rw [← Option.some.inj hb]
        split at hn
        next h0 =>
          rw [if_pos h0, ← Option.some.inj hn]
          rfl
        next h0 =>
          split at hn
          · rw [if_neg h0, ← Option.some.inj hn]
            rfl
          · cases hn
      · cases hb
    next => cases h
  | grant i readers =>
    simp only [ticketRequest, Option.bind_eq_bind, Option.bind_eq_some_iff] at h
    obtain ⟨n, hi, b, hb, h⟩ := h
    split at h
    next => cases h
    next =>
      obtain ⟨rfl, rfl⟩ := Prod.mk.inj (Option.some.inj h)
      unfold readersOfCode at hb
      refine ⟨?_, congrArg some (indexOfCode_eq_some hi)⟩
      split at hb
      · rw [← Option.some.inj hb]
        rfl
      · cases hb
  | claim i => exact asked_of_index h
  | release i => exact asked_of_index h
  | confirm i => exact asked_of_index h
  | revert i => exact asked_of_index h
  | delete i => exact asked_of_index h
  | fix i => exact asked_of_index h
  | _ => exact absurd h (by simp [ticketRequest])

end Asks

end Sys2Proof.Proofs

/-!
PROOF. The run of an accepted ticket frame, and the leases after it (R106, R110, R164): a ticket that starts at no other
event's cost (R115, R116).
-/

namespace Sys2Proof.Proofs

set_option Elab.async false

open Sys2Proof Sys2Proof.Machine Sys2Proof.Laws

/-! ## An accepted frame clocked whole -/

section Run
variable {p : Port} {c : Command} {notify : Bool} {extra : List Byte} {k : TicketKind} {index : Option Nat} {s : State}
  {d : Dev}

theorem assignNumber_leaseReloaded (d : Dev) (p : Port) : (d.leaseReloaded p).assignNumber p = d.assignNumber p := by
  unfold Dev.assignNumber
  rw [ring_leaseReloaded]
  simp [Dev.leaseReloaded]

theorem leaseReloaded_ring (d : Dev) (p q : Port) : (d.leaseReloaded p).ring q = d.ring q := by
  show ((d.leaseReloaded p).port q).ring = _
  unfold Dev.leaseReloaded
  rw [modifyPort_port]
  split
  next hq => rw [hq]; rfl
  next => rfl

theorem queued_leaseReloaded (d : Dev) (p : Port) (notify : Bool) (b : Option (List Byte)) :
    (d.leaseReloaded p).queued p k index notify b = d.queued p k index notify b := by
  unfold Dev.queued
  rw [assignNumber_leaseReloaded]
  rfl

theorem place_eq_withTicket (d : Dev) (p : Port) (t : Ticket) : d.place p t = d.withTicket p t := rfl

theorem newTicket_eq_queued (d : Dev) (p : Port) (k : TicketKind) (index : Option Nat) (notify : Bool)
    (b : Option (List Byte)) : newTicket d p k index notify b = d.queued p k index notify b := rfl

/-- R110: the placing that a command other than PROGRAM asks for. -/
theorem acceptTicket_entered (h : asksFor c k index) (hc : c.opcode ≠ .program) :
    d.acceptTicket p k index notify none = Dev.settle d (entered d p (d.queued p k index notify c.ticketBuffer)) := by
  cases c <;> first | exact absurd rfl hc | exact h.elim | (obtain ⟨rfl, rfl⟩ := h; rfl)

theorem isTicket_of_asks (h : asksFor c k index) : c.opcode.isTicket = true := by
  cases c <;> first | rfl | exact h.elim

/-- R102, R106, R110: an accepted ticket frame clocked whole, whose event ends in `x`. -/
theorem exec_accepted {x : Dev} (hr : s.Ready p) (hm : s.dev.phase ≠ .mounting) (hextra : c.opcode = .program → extra = [])
    (hcount : dataCountRight c = true) (hreq : ticketRequest p c = some (k, index)) (ha : s.dev.Accepts p k index)
    (hpool : c.ticketBuffer.isSome = true → s.dev.pool.grants p = true)
    (hx : ∀ former : Dev, (∀ q, former.ring q = s.dev.ring q) →
      Dev.settle former (entered (s.dev.leaseReloaded p) p (s.dev.queued p k index notify c.ticketBuffer)) = x) :
    exec (Instr.ofCommand p c notify (Clocking.whole extra)) s =
      .next (s.ended p (silentBytes (1 + c.params.length + extra.length))
        { command := commandByte c.opcode notify, result := .ok,
          ticket := (s.dev.queued p k index notify c.ticketBuffer).number } x) := by
  have hasks := ticketRequest_asks hreq
  by_cases hc : c.opcode = .program
  · obtain rfl := hextra hc
    cases c with
    | program i offset length data =>
      obtain ⟨rfl, rfl⟩ := hasks
      have hdata : data.length = length.toNat := by simpa [dataCountRight] using hcount
      have hranges : i.toNat < 24 ∧ 1 ≤ length.toNat ∧ length.toNat ≤ 256 ∧ offset.toNat % 256 + length.toNat ≤ 256 := by
        by_contra hnot
        rw [ticketRequest_program.1 hnot] at hreq
        cases hreq
      have hgrants : grantsFrame s p length := ⟨hm, hranges.2.1, hranges.2.2.1, hpool rfl⟩
      have hcheck : ((s.dev.takeBuffer p).leaseReloaded p).acceptCheck p (.program offset length) (some i.toNat)
          (some data) = none := by
        rw [acceptCheck_leaseReloaded, acceptCheck_takeBuffer]
        exact acceptCheck_passes ha rfl
      have hnumber : ((s.dev.takeBuffer p).leaseReloaded p).assignNumber p = s.dev.assignNumber p :=
        assignNumber_leaseReloaded (s.dev.takeBuffer p) p
      have hplaced : ((s.dev.takeBuffer p).leaseReloaded p).acceptTicket p (.program offset length) (some i.toNat) notify
          (some data) = x := by
        refine Eq.trans ?_ (hx ((s.dev.takeBuffer p).leaseReloaded p) fun q => leaseReloaded_ring ..)
        show Dev.settle _ (((s.dev.takeBuffer p).leaseReloaded p).withTicket p
          (((s.dev.takeBuffer p).leaseReloaded p).queued p _ _ _ _)) = _
        rw [queued_leaseReloaded]
        rfl
      refine (exec_program_granted hr hdata hgrants).trans (congrArg Host.Outcome.next ?_)
      rw [endCommand_afterFrame_ticket rfl hm]
      simp only [State.endTicketFrame, hreq, modifyDev_dev, afterFrame_dev, hcheck, modifyDev_modifyDev, hnumber,
        setOutcome_afterFrame, hplaced]
      rw [show 1 + (Command.program i offset length data).params.length + ([] : List Byte).length = 8 + data.length by
        simp [Command.params]; omega]
      rfl
    | _ => cases hc
  · have hcheck : (s.dev.leaseReloaded p).acceptCheck p k index none = none := by
      rw [acceptCheck_leaseReloaded]
      refine acceptCheck_passes ha ?_
      cases c <;> first | exact absurd rfl hc | exact hasks.elim | (obtain ⟨rfl, rfl⟩ := hasks; first | rfl | exact hpool rfl)
    have hplaced : (s.dev.leaseReloaded p).acceptTicket p k index notify none = x := by
      rw [acceptTicket_entered hasks hc, queued_leaseReloaded]
      exact hx _ fun q => leaseReloaded_ring ..
    rw [exec_ticketFrame hr hm (isTicket_of_asks hasks) hc]
    simp only [State.endTicketFrame, hreq, modifyDev_dev, afterFrame_dev, hcheck, modifyDev_modifyDev,
      assignNumber_leaseReloaded, setOutcome_afterFrame, hplaced]
    rfl

end Run

/-! ## Leases after the frame (R164 to R166) -/

section Leases
variable {d e : Dev} {p : Port} {t : Ticket}

/-- R164, R166: after the reload of a port's lease only other ports' timers can have run out. -/
theorem leasesFresh_of_reloaded (h : d.LeasesFresh)
    (hp : (e.port p).leaseTime = (e.port p).leaseSetting.toNat * 10000)
    (hothers : ∀ q, q ≠ p → e.port q = d.port q ∧ (e.holdsClaim q = true → d.holdsClaim q = true)) : e.LeasesFresh := by
  intro q hruns
  have hsetting : e.holdsClaim q = true ∧ e.hasRunning q = false ∧ (e.port q).leaseSetting ≠ 0 := by
    simpa [Dev.leaseRuns, and_assoc] using hruns
  obtain ⟨hclaim, hrunning, hset⟩ := hsetting
  by_cases hq : q = p
  · subst hq
    rw [hp]
    bv_omega
  · obtain ⟨hport, hholds⟩ := hothers q hq
    rw [hport] at hset ⊢
    have hrunning' : d.hasRunning q = false := by
      rw [← hrunning]
      exact congrArg (fun ps : PortState => ps.ring.any (fun t => t.state == .running)) hport.symm
    refine h q ?_
    simp only [Dev.leaseRuns, hholds hclaim, hrunning', Bool.not_false, Bool.and_true, Bool.true_and]
    exact bne_iff_ne.mpr hset

theorem accepted_port (d : Dev) (p : Port) (t : Ticket) (q : Port) : (d.accepted p t).port q =
    if q = p then { d.port p with ring := (d.port p).ring ++ [t], nextNumber := if t.number = 255 then 1 else t.number + 1 }
    else d.port q := by
  unfold Dev.accepted Dev.withTicket
  rw [modifyPort_port]
  rfl

theorem leaseReloaded_port (d : Dev) (p q : Port) : (d.leaseReloaded p).port q =
    if q = p then { d.port p with leaseTime := (d.port p).leaseSetting.toNat * 10000 } else d.port q := by
  unfold Dev.leaseReloaded
  rw [modifyPort_port]

theorem leasesFresh_accepted (h : d.LeasesFresh) (t : Ticket) : ((d.leaseReloaded p).accepted p t).LeasesFresh := by
  refine leasesFresh_of_reloaded (p := p) h ?_ fun q hq => ⟨?_, fun hc => hc⟩
  · simp [accepted_port, leaseReloaded_port]
  · simp [accepted_port, leaseReloaded_port, hq]

theorem still_accepted (h : d.Still) (t : Ticket) : ((d.leaseReloaded p).accepted p t).Still := by
  obtain ⟨hengine, htakes, hleases⟩ := h
  exact ⟨hengine, htakes, leasesFresh_accepted hleases t⟩

end Leases

/-! ## A ticket that starts at no other event's cost -/

theorem startsWhenStartable_eq (d : Dev) (t : Ticket) : d.startsWhenStartable t = t.kind.startsAtOnce (d.entry t.target) := by
  unfold Dev.startsWhenStartable TicketKind.startsAtOnce
  cases t.kind <;> rfl

/-- R119: the new ticket starts nothing, and does not start itself where it does not start at once or an older live
modifying ticket stands before it. -/
theorem nothingWaits_accepted {d : Dev} {p : Port} {t : Ticket} (h : d.NothingWaits p)
    (hwaits : t.kind.startsAtOnce (d.entry t.target) = false ∨ ∃ u, d.oldestModifying p = some u) :
    (d.accepted p t).NothingWaits p := by
  intro u hu
  rw [accepted_oldestModifying] at hu
  cases hold : d.oldestModifying p with
  | some v =>
    rw [hold] at hu
    obtain rfl : v = u := Option.some.inj hu
    exact h v hold
  | none =>
    rw [hold, Option.none_or] at hu
    split at hu
    · obtain rfl : t = u := Option.some.inj hu
      have hstarts : (d.accepted p t).startsWhenStartable t = false :=
        (startsWhenStartable_eq _ t).trans (hwaits.resolve_right fun ⟨v, hv⟩ => by simp [hold] at hv)
      rw [hstarts, Bool.and_false]
    · cases hu

theorem leaseReloaded_oldestModifying (d : Dev) (p q : Port) :
    (d.leaseReloaded p).oldestModifying q = d.oldestModifying q := by
  unfold Dev.oldestModifying
  rw [leaseReloaded_ring]

theorem nothingWaits_leaseReloaded {d : Dev} {p : Port} (h : d.NothingWaits p) : (d.leaseReloaded p).NothingWaits p :=
  fun u hu => h u (leaseReloaded_oldestModifying d p p ▸ hu)

/-- Settles O29: the commands read back, and the placing at which nothing starts. -/
theorem ticketFrameQueued : Obligations.TicketFrameQueued := by
  refine ⟨fun p c k index h => ?_, fun p c notify extra k index s hr hm hextra hcount hreq ha hpool hstill hwaits hstart => ?_⟩
  · have hasks := ticketRequest_asks h
    cases c <;> exact hasks
  · intro t
    refine exec_accepted hr hm hextra hcount hreq ha hpool fun former _ => ?_
    have hplaced : entered (s.dev.leaseReloaded p) p t = (s.dev.leaseReloaded p).accepted p t :=
      entered_of_nothingWaits (nothingWaits_accepted (nothingWaits_leaseReloaded hwaits)
        (hstart.imp id fun ⟨u, hu⟩ => ⟨u, (leaseReloaded_oldestModifying ..).trans hu⟩))
    rw [hplaced, settle_of_still former _ (still_accepted hstill t), accepted_leaseReloaded]

end Sys2Proof.Proofs

/-!
PROOF. Tickets that start at their acceptance (R119, R122, R123): those that a start check ends, a RELEASE, and the record
kinds, whose request waits or is formed.
-/

namespace Sys2Proof.Proofs

set_option Elab.async false

open Sys2Proof Sys2Proof.Machine Sys2Proof.Laws

/-! ## The start checks at acceptance (R123) -/

section StartChecks
variable {d : Dev} {p : Port} {k : TicketKind} {i : Nat} {notify : Bool} {b : Option (List Byte)}

/-- R19: the kinds whose ticket names an entry. -/
def TicketKind.names : TicketKind → Bool
  | .define _ _ _ _ _ => false
  | _ => true

theorem matchesSerial_of_defined (hd : (d.entry i).defined = true) : Table.matchesSerial d.table i (d.entry i).serial = true := by
  show ((d.entry i).defined && (d.entry i).serial == (d.entry i).serial) = true
  simp [hd]

/-- R123: of the checks against the entry acceptance has made all but that of its state. -/
theorem entryCheck_of_accepts (ha : d.Accepts p k (some i)) :
    entryCheck d.table p k i (d.entry i).serial = if stateAllows k (d.entry i) then none else some .badstate := by
  obtain ⟨hentry, _, _⟩ := ha
  obtain ⟨hdefined, _, hrights, hlock⟩ := hentry i rfl
  have hrights' : hasRights p k (Table.entry d.table i) = true := hrights
  have hlock' : lockBlocks k (Table.entry d.table i) = false := hlock
  unfold entryCheck
  simp only [matchesSerial_of_defined hdefined, hrights', hlock', Bool.not_true, Bool.false_eq_true, if_false]
  show (if (!stateAllows k (d.entry i)) = true then some Result.badstate else none) = _
  cases stateAllows k (d.entry i) <;> rfl

/-- R123: acceptance has made every check but that of the entry's state. -/
theorem startCheck_named (ha : d.Accepts p k (some i)) (hk : TicketKind.names k = true) :
    d.startCheck p (d.queued p k (some i) notify b) = if stateAllows k (d.entry i) then none else some .badstate := by
  obtain ⟨_, hserves, _⟩ := id ha
  rw [← entryCheck_of_accepts ha]
  refine (if_neg hserves).trans ?_
  cases k <;> first | rfl | cases hk

/-- R19: acceptance has made the phase check of a DEFINE. -/
theorem startCheck_define {kind : PartKind} {base size : Half16} {readers : Readers} {label : Word32}
    (ha : d.Accepts p (.define kind base size readers label) none) :
    d.startCheck p (d.queued p (.define kind base size readers label) none notify b) =
      d.defineCheck base.toNat (footprintOf kind size) := by
  obtain ⟨_, hserves, _⟩ := ha
  exact if_neg hserves

/-- Every kind but DEFINE names an entry. -/
theorem index_of_asks {c : Command} {index : Option Nat} (h : asksFor c k index) (hk : TicketKind.names k = true) :
    ∃ i, index = some i := by
  cases c <;> first | exact h.elim | exact ⟨_, h.2⟩ | (obtain ⟨rfl, _⟩ := h; cases hk)

theorem index_of_asks_define {c : Command} {index : Option Nat} {kind : PartKind} {base size : Half16} {readers : Readers}
    {label : Word32} (h : asksFor c (.define kind base size readers label) index) : index = none := by
  cases c <;> first | exact h.elim | exact h.2 | cases h.1

end StartChecks

/-! ## A ticket that starts at its acceptance -/

section Starts
variable {p : Port} {c : Command} {notify : Bool} {extra : List Byte} {k : TicketKind} {index : Option Nat} {s : State}
  {d e x : Dev} {t : Ticket} {st : TicketState} {r : Result} {body : RequestBody}

theorem opcode_of_starts {e : Entry} (h : asksFor c k index) (hs : k.startsAtOnce e = true) : c.opcode ≠ .program := by
  intro hc
  cases c <;> first | (obtain ⟨rfl, rfl⟩ := h; exact absurd hs Bool.false_ne_true) | cases hc

theorem noBuffer_of_starts {e : Entry} (h : asksFor c k index) (hs : k.startsAtOnce e = true) : c.ticketBuffer = none := by
  cases c <;> first | rfl | (obtain ⟨rfl, rfl⟩ := h; cases hs)

theorem modifying_of_starts {e : Entry} (hs : t.kind.startsAtOnce e = true) : t.modifying = true := by
  unfold Ticket.modifying
  split
  next hk => rw [hk] at hs; cases hs
  next => rfl

/-- R119: after the start of a new ticket that was alone none waits to start. -/
theorem nothingWaits_of_begun (hring : x.ring p = d.ring p ++ [t]) (hnone : d.oldestModifying p = none)
    (hbegun : (t.state == .queued && t.stage == .waiting) = false) : x.NothingWaits p := by
  intro u hu
  have hfind : (d.ring p).find? (fun u => u.modifying && u.live) = none := hnone
  unfold Dev.oldestModifying at hu
  rw [hring, List.find?_append, hfind, Option.none_or] at hu
  obtain rfl : u = t := List.mem_singleton.mp (List.mem_of_find?_eq_some hu)
  rw [hbegun, Bool.false_and]

theorem fresh_queued (ha : d.Accepts p k index) (b : Option (List Byte)) : Fresh d p (d.queued p k index notify b) :=
  assignNumber_fresh (Nat.le_of_lt ha.2.2)

/-- R119, R122: the ticket of an accepted frame that starts at once, alone among the modifying ones, starts. -/
theorem exec_started (hr : s.Ready p) (hm : s.dev.phase ≠ .mounting) (hreq : ticketRequest p c = some (k, index))
    (ha : s.dev.Accepts p k index) (hnone : s.dev.oldestModifying p = none)
    (hstarts : k.startsAtOnce (s.dev.entry (index.getD 24)) = true) {t' : Ticket}
    (hstart : ((s.dev.leaseReloaded p).accepted p (s.dev.queued p k index notify none)).startTicket p
      (s.dev.queued p k index notify none) = x)
    (hring : x.ring p = s.dev.ring p ++ [t']) (hbegun : (t'.state == .queued && t'.stage == .waiting) = false) {y : Dev}
    (hy : ∀ former : Dev, (∀ q, former.ring q = s.dev.ring q) → Dev.settle former x = y) :
    exec (Instr.ofCommand p c notify (Clocking.whole extra)) s =
      .next (s.ended p (silentBytes (1 + c.params.length + extra.length))
        { command := commandByte c.opcode notify, result := .ok,
          ticket := (s.dev.queued p k index notify none).number } y) := by
  have hbuffer := noBuffer_of_starts (ticketRequest_asks hreq) hstarts
  have hc := opcode_of_starts (ticketRequest_asks hreq) hstarts
  rw [← hbuffer] at hstart ⊢
  have hcount : dataCountRight c = true := by
    cases c <;> first | rfl | exact absurd rfl hc
  refine exec_accepted hr hm (fun h => absurd h hc) hcount hreq ha (fun h => by simp [hbuffer] at h) fun former hformer => ?_
  obtain ⟨t, ht⟩ : ∃ t, t = s.dev.queued p k index notify c.ticketBuffer := ⟨_, rfl⟩
  rw [← ht] at hstart ⊢
  have hkind : t.kind.startsAtOnce (((s.dev.leaseReloaded p).accepted p t).entry t.target) = true := by rw [ht]; exact hstarts
  have holdest : ((s.dev.leaseReloaded p).accepted p t).oldestModifying p = some t := by
    rw [accepted_oldestModifying, leaseReloaded_oldestModifying, hnone, Option.none_or, modifying_of_starts hkind,
      if_pos (by rw [ht]; rfl)]
  have hwakes : ((s.dev.leaseReloaded p).accepted p t).wakePort p = x := by
    rw [wakePort_of_starts holdest (by rw [ht]; rfl) (by rw [ht]; rfl) ((startsWhenStartable_eq _ t).trans hkind), hstart]
    rw [hstart]
    exact nothingWaits_of_begun hring hnone hbegun
  have hentered : entered (s.dev.leaseReloaded p) p t = x := by
    rw [← hwakes]
    unfold entered
    split
    next hk => rw [hk] at hkind; cases hkind
    next hk => rw [hk] at hkind; cases hkind
    next => rfl
  rw [hentered]
  exact hy former hformer

/-- R127: the end of a ticket just placed. -/
theorem endTicket_accepted (h : Fresh d p t) (ho : t.orphan = false) (hb : t.buffer = none) (hm : t.modifying = true) :
    (d.accepted p t).endTicket p t.number st r =
      (d.accepted p { t with state := st, result := r }).modifyPort p (fun q => { q with events := q.events.afterEnd t r }) := by
  have hended : endedTicket (!true && st != .cancelled) st r t = { t with state := st, result := r } := by
    show ({ t with state := st, result := r, buffer := none } : Ticket) = _
    rw [← hb]
  have hbuffer : (t.buffer.isSome && !(!true && st != .cancelled)) = false := by rw [hb]; rfl
  rw [endTicket_eq (accepted_ticket h) ho, hm, hbuffer]
  show ((d.accepted p t).withEnd p t.number _ _) = _
  rw [accepted_withEnd h rfl (by rw [hb]; rfl), hended]

/-- R68, R117: the request of a ticket just placed is handed over. -/
theorem handOver_accepted (h : Fresh d p t) : (d.accepted p t).handOver p t.number body =
    (d.accepted p { t with state := .running, stage := .recording }).enqueue (.host p t.number body) := by
  rw [Dev.handOver, accepted_modifyTicket h rfl rfl]

end Starts

/-! ## Starts that a check ends (R122, R123) -/

section Fails
variable {p : Port} {c : Command} {notify : Bool} {extra : List Byte} {k : TicketKind} {index : Option Nat} {s : State}
  {r : Result}

theorem fresh_leaseReloaded {d : Dev} {t : Ticket} (h : Fresh d p t) : Fresh (d.leaseReloaded p) p t := fun u hu =>
  h u (ring_leaseReloaded d p ▸ hu)

/-- R123, R127: the ticket of an accepted frame whose start check fails ends FAILED at the same event. -/
theorem exec_failsStart (hr : s.Ready p) (hm : s.dev.phase ≠ .mounting) (hreq : ticketRequest p c = some (k, index))
    (ha : s.dev.Accepts p k index) (hstill : s.dev.Still) (hnone : s.dev.oldestModifying p = none)
    (hstarts : k.startsAtOnce (s.dev.entry (index.getD 24)) = true)
    (hcheck : s.dev.startCheck p (s.dev.queued p k index notify none) = some r) :
    exec (Instr.ofCommand p c notify (Clocking.whole extra)) s =
      .next (s.ended p (silentBytes (1 + c.params.length + extra.length))
        { command := commandByte c.opcode notify, result := .ok,
          ticket := (s.dev.queued p k index notify none).number }
        (((s.dev.accepted p { s.dev.queued p k index notify none with state := .failed, result := r }).modifyPort p (fun q =>
            { q with events := q.events.afterEnd (s.dev.queued p k index notify none) r })).leaseReloaded p)) := by
  obtain ⟨t, ht⟩ : ∃ t, t = s.dev.queued p k index notify none := ⟨_, rfl⟩
  have hfresh : Fresh (s.dev.leaseReloaded p) p t := by
    rw [ht]
    exact fresh_leaseReloaded (fresh_queued ha none)
  have hm' : t.modifying = true := modifying_of_starts (e := s.dev.entry (index.getD 24)) (by rw [ht]; exact hstarts)
  obtain ⟨x, hx⟩ : ∃ x, x = ((s.dev.leaseReloaded p).accepted p { t with state := .failed, result := r }).modifyPort p (fun q =>
            { q with events := q.events.afterEnd t r }) := ⟨_, rfl⟩
  have hstart : ((s.dev.leaseReloaded p).accepted p t).startTicket p t = x := by
    have hcheck' : ((s.dev.leaseReloaded p).accepted p t).startCheck p t = some r := by rw [ht]; exact hcheck
    rw [Dev.startTicket, hcheck', hx]
    exact endTicket_accepted hfresh (by rw [ht]; rfl) (by rw [ht]; rfl) hm'
  have hring : x.ring p = s.dev.ring p ++ [{ t with state := .failed, result := r }] := by
    have hkept : x.ring p = ((s.dev.leaseReloaded p).accepted p { t with state := .failed, result := r }).ring p := by
      rw [hx]
      simp [Dev.ring]
    rw [hkept, accepted_ring, if_pos rfl, leaseReloaded_ring]
  have hend : x = ((s.dev.accepted p { t with state := .failed, result := r }).modifyPort p (fun q =>
            { q with events := q.events.afterEnd t r })).leaseReloaded p := by
    rw [hx, accepted_leaseReloaded]
    simp [Dev.leaseReloaded, Dev.modifyPort]
  have hstill' : x.Still := by
    obtain ⟨hengine, htakes, hleases⟩ := hstill
    refine ⟨by rw [hx]; exact hengine, by rw [hx]; exact htakes, leasesFresh_of_reloaded hleases (p := p) ?_ fun q hq => ⟨?_, ?_⟩⟩
    · simp [hx, accepted_port, leaseReloaded_port]
    · simp [hx, modifyPort_port, accepted_port, leaseReloaded_port, hq]
    · rw [hx]
      exact fun hc => hc
  have hrun := exec_started (c := c) (extra := extra) (notify := notify) hr hm hreq ha hnone hstarts (ht ▸ hstart) hring rfl
    fun former _ => settle_of_still former x hstill'
  rw [hrun, hend, ht]

end Fails

/-- Settles O31: the start check that acceptance has not made, kind by kind. -/
theorem startFailsAtAcceptance : Obligations.StartFailsAtAcceptance := by
  intro p c notify extra k index s hr hm hreq ha hstill hnone e t fails
  have hfails (r : Result) (hstarts : k.startsAtOnce e = true) (hcheck : s.dev.startCheck p t = some r) : fails r :=
    exec_failsStart hr hm hreq ha hstill hnone hstarts hcheck
  have hasks := ticketRequest_asks hreq
  have hstate (hnames : TicketKind.names k = true) (hstarts : k.startsAtOnce e = true) (h : stateAllows k e = false) :
      fails .badstate := by
    obtain ⟨i, rfl⟩ := index_of_asks hasks hnames
    have hno : stateAllows k (s.dev.entry i) = false := h
    exact hfails .badstate hstarts (by rw [startCheck_named ha hnames, hno]; rfl)
  cases k with
  | release => exact fun h => hstate rfl rfl (by simpa [stateAllows] using h)
  | confirm => exact fun h => hstate rfl rfl (by simp [stateAllows, show e.phase = .settled from h])
  | revert =>
    refine fun h => hstate rfl rfl ?_
    rcases h with h | ⟨hphase, hfallback⟩
    · simp [stateAllows, Entry.revertible, show e.claim ≠ .unclaimed from h]
    · simp [stateAllows, Entry.revertible, show e.phase = .settled from hphase, show e.fallback = false from hfallback]
  | delete => exact fun h => hstate rfl rfl (by simpa [stateAllows] using h)
  | fix =>
    refine fun h => hstate rfl rfl ?_
    rcases h with h | h
    · simp [stateAllows, show e.claim ≠ .unclaimed from h]
    · simp [stateAllows, show e.phase = .trial from h]
  | claim =>
    refine fun hfallback h => hstate rfl hfallback ?_
    rcases h with h | h
    · simp [stateAllows, show e.claim ≠ .unclaimed from h]
    · simp [stateAllows, show e.phase = .trial from h]
  | define kind base size readers label =>
    obtain rfl : index = none := index_of_asks_define hasks
    have hcheck := startCheck_define (notify := notify) (b := none) ha
    have hends (n : Nat) (hn : footprintOf kind size = n) :
        if Table.meets s.dev.table base.toNat n = true ∨ s.dev.meetsReservation base.toNat n = true then fails .overlap
        else 24 ≤ Table.definedCount s.dev.table + s.dev.reservations.length → fails .tfull := by
      rw [hn] at hcheck
      split
      next hmeets => exact hfails .overlap rfl (hcheck.trans (if_pos (by simpa using hmeets)))
      next hmeets =>
        exact fun hfull => hfails .tfull rfl (hcheck.trans ((if_neg (by simpa using hmeets)).trans (if_pos hfull)))
    exact hends _ (by cases kind <;> rfl)
  | _ => trivial

end Sys2Proof.Proofs

/-!
PROOF. A RELEASE and the record kinds at their acceptance (R46, R68, R122): the request that waits (R69), and the record
that is formed at once (R70).
-/

namespace Sys2Proof.Proofs

set_option Elab.async false

open Sys2Proof Sys2Proof.Machine Sys2Proof.Laws

/-! ## A claim that an acceptance takes up or gives up -/

section Claims
variable {d e : Dev} {p q : Port} {i : Nat} {c : Claim}

/-- R163: a claim of a port's own entry leaves the other ports' as they are. -/
theorem holdsClaim_setEntry_other {x : Entry} (hq : x.owner ≠ q) (h : (d.setEntry i x).holdsClaim q = true) :
    d.holdsClaim q = true := by
  simp only [Dev.holdsClaim, List.any_eq_true, Bool.and_eq_true, bne_iff_ne, beq_iff_eq] at h ⊢
  obtain ⟨j, hj, ⟨hdefined, howner⟩, hclaim⟩ := h
  refine ⟨j, hj, ?_⟩
  by_cases hji : j = i
  · subst hji
    have hsame : (d.setEntry j x).entry j = x := setEntry_entry_same d.table j x (List.mem_range.mp hj)
    rw [hsame] at howner
    exact absurd howner hq
  · have hother : (d.setEntry i x).entry j = d.entry j := setEntry_entry_other d.table i j x hji
    rw [hother] at hdefined howner hclaim
    exact ⟨⟨hdefined, howner⟩, hclaim⟩

/-- R106 step 4: a kind that only the owner may use names an entry of the frame's port. -/
theorem owner_of_accepts {k : TicketKind} (ha : d.Accepts p k (some i)) (hk : k.startsAtOnce (d.entry i) = true) :
    (d.entry i).owner = p ∧ (d.entry i).defined = true := by
  obtain ⟨hentry, _, _⟩ := ha
  obtain ⟨hdefined, _, hrights, _⟩ := hentry i rfl
  refine ⟨?_, hdefined⟩
  unfold hasRights at hrights
  split at hrights
  · cases hk
  · cases hk
  · exact (beq_iff_eq.mp hrights).symm

/-- R164: how a device that differs from `d` in no port stands after a placing and the reload of the lease. -/
theorem leasesFresh_placed {t : Ticket} (h : d.LeasesFresh) (hports : e.ports = d.ports)
    (hclaims : ∀ q, q ≠ p → e.holdsClaim q = true → d.holdsClaim q = true) :
    ((e.accepted p t).leaseReloaded p).LeasesFresh := by
  have hport (q : Port) : e.port q = d.port q := congrArg (fun ports : PerPort PortState => ports.get q) hports
  refine leasesFresh_of_reloaded h (p := p) ?_ fun q hq => ⟨?_, hclaims q hq⟩
  · simp [leaseReloaded_port]
  · simp [accepted_port, leaseReloaded_port, hq, hport]

end Claims

/-! ## A startable RELEASE (R46) -/

/-- R164, R174: the reload of the lease and what is sent do not reach each other. -/
theorem events_leaseReloaded (d : Dev) (p : Port) (g : EventQueue → EventQueue) :
    (d.leaseReloaded p).modifyPort p (fun q => { q with events := g q.events }) =
      (d.modifyPort p (fun q => { q with events := g q.events })).leaseReloaded p := by
  simp only [Dev.leaseReloaded, modifyPort_modifyPort]

section Start
variable {d e x : Dev} {p : Port} {t : Ticket} {i : Nat} {serial : Word32} {body : RequestBody} {c : Claim}

/-- The claim of the entry a ticket names, which acceptance found as it stands. -/
theorem accepted_setClaim (c : Claim) (hd : (d.entry i).defined = true) :
    ((d.leaseReloaded p).accepted p t).setClaim i (d.entry i).serial c =
      ((d.setEntry i { d.entry i with claim := c }).accepted p t).leaseReloaded p := by
  rw [accepted_leaseReloaded]
  exact setClaim_eq (d := (d.accepted p t).leaseReloaded p) c hd rfl

theorem fresh_of_ports (h : Fresh d p t) (hports : e.ports = d.ports) : Fresh e p t := by
  have hring : e.ring p = d.ring p := congrArg (fun ports : PerPort PortState => (ports.get p).ring) hports
  intro u hu
  exact h u (hring ▸ hu)

/-- The ring after a placing. -/
theorem placed_ring (hports : e.ports = d.ports) : ((e.accepted p t).leaseReloaded p).ring p = d.ring p ++ [t] := by
  rw [leaseReloaded_ring, accepted_ring, if_pos rfl]
  exact congrArg (fun ports : PerPort PortState => (ports.get p).ring ++ [t]) hports

end Start

/-- Settles O32: the RELEASE begins and ends at its placing. -/
theorem releaseAtAcceptance : Obligations.ReleaseAtAcceptance := by
  intro p i notify extra s hr hm hi ha hstill hnone hclaim t0
  have hreq : ticketRequest p (.release i) = some (.release, some i.toNat) := by
    simp [ticketRequest, indexOfCode_of_lt hi]
  obtain ⟨t, ht⟩ : ∃ t, t = t0 := ⟨_, rfl⟩
  obtain ⟨howner, hdefined⟩ := owner_of_accepts ha rfl
  obtain ⟨e, he⟩ : ∃ e, e = s.dev.setEntry i.toNat { s.dev.entry i.toNat with claim := .unclaimed } := ⟨_, rfl⟩
  have hports : e.ports = s.dev.ports := by rw [he]; rfl
  have hfresh : Fresh e p t := fresh_of_ports (ht ▸ fresh_queued ha none) hports
  obtain ⟨t', ht'⟩ : ∃ t' : Ticket, t' = { t with state := .done, result := .ok } := ⟨_, rfl⟩
  obtain ⟨x, hx⟩ : ∃ x, x = ((e.accepted p t').modifyPort p (fun q => { q with events := q.events.afterEnd t .ok })).leaseReloaded p :=
    ⟨_, rfl⟩
  have hstart : ((s.dev.leaseReloaded p).accepted p t).startTicket p t = x := by
    have hcheck : s.dev.startCheck p t0 = none := by
      rw [startCheck_named ha rfl]
      simp [stateAllows, hclaim]
    have hcheck' : ((s.dev.leaseReloaded p).accepted p t).startCheck p t = none := by rw [ht]; exact hcheck
    rw [Dev.startTicket, hcheck']
    have hbegin : ((s.dev.leaseReloaded p).accepted p t).beginWork p t =
        (((s.dev.leaseReloaded p).accepted p t).setClaim i.toNat (s.dev.entry i.toNat).serial .unclaimed).endTicket p t.number
          .done .ok := by rw [ht]; rfl
    refine hbegin.trans ?_
    rw [accepted_setClaim .unclaimed hdefined, ← he, ← accepted_leaseReloaded,
      endTicket_accepted (fresh_leaseReloaded hfresh) (by rw [ht]; rfl) (by rw [ht]; rfl) (by rw [ht]; rfl), ← ht', hx,
      accepted_leaseReloaded]
    exact events_leaseReloaded (e.accepted p t') p fun q => q.afterEnd t .ok
  have hring : x.ring p = s.dev.ring p ++ [t'] := by
    rw [← placed_ring (t := t') hports, hx]
    simp [Dev.ring, Dev.leaseReloaded]
  have hstill' : x.Still := by
    obtain ⟨hengine, htakes, hleases⟩ := hstill
    refine ⟨by rw [hx, he]; exact hengine, by rw [hx, he]; exact htakes,
      leasesFresh_of_reloaded hleases (p := p) ?_ fun q hq => ⟨?_, fun hc => ?_⟩⟩
    · simp [hx, leaseReloaded_port]
    · have hport : e.port q = s.dev.port q := congrArg (fun ports : PerPort PortState => ports.get q) hports
      simp [hx, modifyPort_port, accepted_port, leaseReloaded_port, hq, hport]
    · rw [hx] at hc
      have hholds : e.holdsClaim q = true := hc
      rw [he] at hholds
      exact holdsClaim_setEntry_other (x := { s.dev.entry i.toNat with claim := .unclaimed })
        (fun h => hq (h.symm.trans howner)) hholds
  rw [ht] at hstart
  have hrun := exec_started (c := .release i) (extra := extra) (notify := notify) hr hm hreq ha hnone rfl hstart hring
    (by rw [ht']; rfl) fun former _ => settle_of_still former x hstill'
  have hbytes : 1 + (Command.release i).params.length + extra.length = 2 + extra.length := rfl
  rw [hbytes] at hrun
  rw [show x = _ from hx, he, ht', ht] at hrun
  exact hrun

/-! ## A record request handed over (R68) -/

/-- R68, R122: a ticket of kind `k` that starts at its acceptance in `d` passes its start checks and hands over the request
`body`; `e` is the device as the start leaves it but for the ticket. -/
structure HandsOver (d e : Dev) (p : Port) (k : TicketKind) (index : Option Nat) (notify : Bool) (body : RequestBody) : Prop where
  starts : k.startsAtOnce (d.entry (index.getD 24)) = true
  check : d.startCheck p (d.queued p k index notify none) = none
  begins : ∀ t, t = d.queued p k index notify none →
    ((d.leaseReloaded p).accepted p t).beginWork p t = ((e.leaseReloaded p).accepted p t).handOver p t.number body
  ports : e.ports = d.ports
  engine : e.engine = d.engine
  writer : e.writer = d.writer
  phase : e.phase = d.phase
  claims : ∀ q, q ≠ p → e.holdsClaim q = true → d.holdsClaim q = true

section HandOver
variable {p : Port} {c : Command} {notify : Bool} {extra : List Byte} {k : TicketKind} {index : Option Nat} {s : State}
  {d e x : Dev} {body : RequestBody} {i : Nat}

/-- R68, R117: the ticket of an accepted frame whose work is a record hands its request over. -/
theorem exec_handsOver (hr : s.Ready p) (hm : s.dev.phase ≠ .mounting) (hreq : ticketRequest p c = some (k, index))
    (ha : s.dev.Accepts p k index) (hnone : s.dev.oldestModifying p = none) (hands : HandsOver s.dev e p k index notify body)
    (hx : ∀ (former : Dev) (t : Ticket), t = { s.dev.queued p k index notify none with state := .running, stage := .recording } →
      Dev.settle former (((e.accepted p t).leaseReloaded p).enqueue (.host p t.number body)) = x) :
    exec (Instr.ofCommand p c notify (Clocking.whole extra)) s =
      .next (s.ended p (silentBytes (1 + c.params.length + extra.length))
        { command := commandByte c.opcode notify, result := .ok,
          ticket := (s.dev.queued p k index notify none).number } x) := by
  obtain ⟨t, ht⟩ : ∃ t, t = s.dev.queued p k index notify none := ⟨_, rfl⟩
  have hfresh : Fresh (e.leaseReloaded p) p t :=
    fresh_leaseReloaded (fresh_of_ports (ht ▸ fresh_queued ha none) hands.ports)
  have hstart : ((s.dev.leaseReloaded p).accepted p t).startTicket p t =
      ((e.accepted p { t with state := .running, stage := .recording }).leaseReloaded p).enqueue (.host p t.number body) := by
    have hcheck : ((s.dev.leaseReloaded p).accepted p t).startCheck p t = none := by rw [ht]; exact hands.check
    rw [Dev.startTicket, hcheck]
    refine (hands.begins t ht).trans ?_
    rw [handOver_accepted hfresh, accepted_leaseReloaded]
  rw [ht] at hstart
  exact exec_started hr hm hreq ha hnone hands.starts hstart (placed_ring hands.ports) rfl fun former _ => hx former _ rfl

/-- R122: a kind that begins with its request alone. -/
theorem handsOver_plain {body : Nat → Word32 → RequestBody} (ha : d.Accepts p k (some i)) (hk : TicketKind.names k = true)
    (hstarts : k.startsAtOnce (d.entry i) = true) (hstate : stateAllows k (d.entry i) = true)
    (hbegin : ∀ (x : Dev) (t : Ticket), t.kind = k →
      x.beginWork p t = x.handOver p t.number (body (t.target) (t.serial.getD 0))) :
    HandsOver d d p k (some i) notify (body i (d.entry i).serial) where
  starts := hstarts
  check := by rw [startCheck_named ha hk, if_pos hstate]
  begins t ht := by rw [hbegin _ t (by rw [ht]; rfl), ht]; rfl
  ports := rfl
  engine := rfl
  writer := rfl
  phase := rfl
  claims _ _ h := h

end HandOver

end Sys2Proof.Proofs

/-!
PROOF. The record kinds at their acceptance: a request that waits (R69) and one that is formed at once (R21, R70).
-/

namespace Sys2Proof.Proofs

set_option Elab.async false

open Sys2Proof Sys2Proof.Machine Sys2Proof.Laws

/-! ## What each record kind hands over (R19, R40, R54, R55) -/

section Kinds
variable {d : Dev} {p : Port} {i : Nat} {notify : Bool}

theorem lt_of_defined (h : (d.entry i).defined = true) : i < 24 := by
  by_contra hge
  have hentry : d.entry i = Entry.undefined := dif_neg hge
  rw [hentry] at h
  cases h

theorem handsOver_confirm (ha : d.Accepts p .confirm (some i)) (hphase : (d.entry i).phase = .trial) :
    HandsOver d d p .confirm (some i) notify (.confirm i (d.entry i).serial) :=
  handsOver_plain ha rfl rfl (by simp [stateAllows, hphase]) fun x t ht => by simp only [Dev.beginWork, ht]

theorem handsOver_revert (ha : d.Accepts p .revert (some i)) (hclaim : (d.entry i).claim = .unclaimed)
    (hrevert : (d.entry i).phase = .trial ∨ (d.entry i).fallback = true) :
    HandsOver d d p .revert (some i) notify (.revert i (d.entry i).serial) :=
  handsOver_plain ha rfl rfl (by simpa [stateAllows, Entry.revertible, hclaim] using hrevert)
    fun x t ht => by simp only [Dev.beginWork, ht]

theorem handsOver_delete (ha : d.Accepts p .delete (some i)) (hclaim : (d.entry i).claim = .unclaimed) :
    HandsOver d d p .delete (some i) notify (.delete i (d.entry i).serial) :=
  handsOver_plain ha rfl rfl (by simp [stateAllows, hclaim]) fun x t ht => by simp only [Dev.beginWork, ht]

theorem handsOver_grant {readers : Readers} (ha : d.Accepts p (.grant readers) (some i)) :
    HandsOver d d p (.grant readers) (some i) notify (.grant i (d.entry i).serial readers) :=
  handsOver_plain (body := fun i serial => .grant i serial readers) ha rfl rfl rfl
    fun x t ht => by simp only [Dev.beginWork, ht]

theorem handsOver_fix (ha : d.Accepts p .fix (some i)) (hclaim : (d.entry i).claim = .unclaimed)
    (hphase : (d.entry i).phase = .settled) : HandsOver d d p .fix (some i) notify (.fix i (d.entry i).serial) :=
  handsOver_plain ha rfl rfl (by simp [stateAllows, hclaim, hphase]) fun x t ht => by simp only [Dev.beginWork, ht]

theorem handsOver_claim (ha : d.Accepts p .claim (some i)) (hclaim : (d.entry i).claim = .unclaimed)
    (hphase : (d.entry i).phase = .settled) (hfallback : (d.entry i).fallback = true) :
    HandsOver d (d.setEntry i { d.entry i with claim := .preparing }) p .claim (some i) notify
      (.dropFallback i (d.entry i).serial) := by
  obtain ⟨howner, hdefined⟩ := owner_of_accepts ha hfallback
  refine ⟨hfallback, ?_, fun t ht => ?_, rfl, rfl, rfl, rfl, fun q hq hc => ?_⟩
  · rw [startCheck_named ha rfl]
    simp [stateAllows, hclaim, hphase]
  · have hbegin : ((d.leaseReloaded p).accepted p t).beginWork p t =
        (((d.leaseReloaded p).accepted p t).setClaim i (d.entry i).serial .preparing).handOver p t.number
          (.dropFallback i (d.entry i).serial) := by rw [ht]; rfl
    refine hbegin.trans ?_
    rw [accepted_setClaim .preparing hdefined, accepted_leaseReloaded]
  · exact holdsClaim_setEntry_other (x := { d.entry i with claim := .preparing }) (fun h => hq (h.symm.trans howner)) hc

theorem handsOver_define {base size : Half16} {readers : Readers} {label : Word32}
    (ha : d.Accepts p (.define .image base size readers label) none)
    (hmeets : Table.meets d.table base.toNat (2 * size.toNat) = false)
    (hreserved : d.meetsReservation base.toNat (2 * size.toNat) = false)
    (hroom : Table.definedCount d.table + d.reservations.length < 24) :
    HandsOver d { d with reservations := d.reservations ++ [{ port := p, base := base.toNat, sectors := 2 * size.toNat }] } p
      (.define .image base size readers label) none notify (.define .image base size readers label) := by
  refine ⟨rfl, ?_, fun t ht => ?_, rfl, rfl, rfl, rfl, fun _ _ h => h⟩
  · have hroom' : ¬ Config.tableSize ≤ Table.definedCount d.table + d.reservations.length := Nat.not_le.mpr hroom
    rw [startCheck_define ha]
    simp [Dev.defineCheck, footprintOf, hmeets, hreserved, hroom']
  · rw [ht]
    rfl

end Kinds

/-! ## The request waits (R69) -/

section Waits
variable {p : Port} {c : Command} {notify : Bool} {extra : List Byte} {k : TicketKind} {index : Option Nat} {s : State}
  {d e x : Dev} {body : RequestBody} {change : Change} {q : Word32}

theorem mayForm_congr (hphase : e.phase = d.phase) (hwriter : e.writer = d.writer) : e.mayForm = d.mayForm := by
  simp only [Dev.mayForm, hphase, hwriter]

/-- R68, R69: where the Journal Writer takes no request, the new one stands at its tail. -/
theorem exec_waits (hr : s.Ready p) (hm : s.dev.phase ≠ .mounting) (hreq : ticketRequest p c = some (k, index))
    (ha : s.dev.Accepts p k index) (hshort : s.dev.EngineShort) (hmay : s.dev.mayForm = false) (hleases : s.dev.LeasesFresh)
    (hnone : s.dev.oldestModifying p = none) (hands : HandsOver s.dev e p k index notify body) :
    exec (Instr.ofCommand p c notify (Clocking.whole extra)) s =
      .next (s.ended p (silentBytes (1 + c.params.length + extra.length))
        { command := commandByte c.opcode notify, result := .ok,
          ticket := (s.dev.queued p k index notify none).number }
        (((e.accepted p { s.dev.queued p k index notify none with state := .running, stage := .recording }).enqueue
          (.host p (s.dev.queued p k index notify none).number body)).leaseReloaded p)) := by
  refine exec_handsOver hr hm hreq ha hnone hands fun former t ht => ?_
  rw [← ht, show (s.dev.queued p k index notify none).number = t.number by rw [ht]]
  refine settle_of_still former _ ⟨?_, .inl ((mayForm_congr hands.phase hands.writer).trans hmay), ?_⟩
  · obtain ⟨op, hop, hisShort⟩ := hshort
    exact ⟨op, (congrArg Engine.current hands.engine).trans hop, hisShort⟩
  · have hfresh := leasesFresh_placed (t := t) hleases hands.ports hands.claims
    exact hfresh

/-- R70: where the Journal Writer may form a record and has nothing waiting, it forms the new one; the busy engine issues
nothing. -/
theorem settle_formed_busy {former : Dev} {n : Byte} (hshort : d.EngineShort) (hmay : d.mayForm = true)
    (hqueue : d.writer.queue = []) (hslot : d.writer.nextSlot ≤ 59) (hsequence : d.writer.nextSequence = some q)
    (hvalid : d.validate p body = .ok change) (hleases : d.LeasesFresh) :
    Dev.settle former (d.enqueue (.host p n body)) = formed d q p n body change := by
  obtain ⟨y, hy⟩ : ∃ y, y = formed d q p n body change := ⟨_, rfl⟩
  have hshort' : y.EngineShort := by rw [hy]; exact hshort
  have hcurrent : y.engine.current.isSome = true := by
    obtain ⟨op, hop, _⟩ := hshort'
    simp [hop]
  have hleases' : y.LeasesFresh := by rw [hy]; exact hleases
  rw [Dev.settle, takeAll_enqueue hmay hqueue hslot hsequence hvalid, ← hy, schedule_of_current former y hcurrent,
    requestSuspension_of_short y hshort', checkLeases_of_fresh y hleases']

theorem exec_forms (hr : s.Ready p) (hm : s.dev.phase ≠ .mounting) (hreq : ticketRequest p c = some (k, index))
    (ha : s.dev.Accepts p k index) (hshort : s.dev.EngineShort) (hmay : s.dev.mayForm = true)
    (hqueue : s.dev.writer.queue = []) (hslot : s.dev.writer.nextSlot ≤ 59) (hsequence : s.dev.writer.nextSequence = some q)
    (hleases : s.dev.LeasesFresh) (hnone : s.dev.oldestModifying p = none)
    (hands : HandsOver s.dev e p k index notify body) (hvalid : e.validate p body = .ok change) :
    exec (Instr.ofCommand p c notify (Clocking.whole extra)) s =
      .next (s.ended p (silentBytes (1 + c.params.length + extra.length))
        { command := commandByte c.opcode notify, result := .ok,
          ticket := (s.dev.queued p k index notify none).number }
        ((formed (e.accepted p { s.dev.queued p k index notify none with state := .running, stage := .recording }) q p
          (s.dev.queued p k index notify none).number body change).leaseReloaded p)) := by
  refine exec_handsOver hr hm hreq ha hnone hands fun former t ht => ?_
  rw [← ht, show (s.dev.queued p k index notify none).number = t.number by rw [ht]]
  have hwriter := hands.writer
  refine settle_formed_busy (d := (e.accepted p t).leaseReloaded p) ?_ ((mayForm_congr hands.phase hwriter).trans hmay)
    ((congrArg Writer.queue hwriter).trans hqueue) ((congrArg Writer.nextSlot hwriter).trans_le hslot)
    ((congrArg Writer.nextSequence hwriter).trans hsequence) ?_ (leasesFresh_placed hleases hands.ports hands.claims)
  · obtain ⟨op, hop, hisShort⟩ := hshort
    exact ⟨op, (congrArg Engine.current hands.engine).trans hop, hisShort⟩
  · rw [← hvalid]
    cases body <;> rfl

end Waits

/-- Settles O33: each record kind passes its check and hands its request over to a Journal Writer that takes none. -/
theorem recordRequestHandedOver : Obligations.RecordRequestHandedOver := by
  intro p c notify extra k index s hr hm hreq ha hshort hmay hleases hnone i e t d hands
  have hasks := ticketRequest_asks hreq
  have hwaits {e' : Dev} {body : RequestBody} (hbody : HandsOver s.dev e' p k index notify body) :=
    exec_waits (extra := extra) hr hm hreq ha hshort hmay hleases hnone hbody
  cases k with
  | define kind base size readers label =>
    obtain rfl : index = none := index_of_asks_define hasks
    cases kind with
    | image => exact fun hmeets hreserved hroom => hwaits (handsOver_define ha hmeets hreserved hroom)
    | plain => trivial
  | confirm =>
    obtain ⟨j, rfl⟩ := index_of_asks hasks rfl
    exact fun hphase => hwaits (handsOver_confirm ha hphase)
  | revert =>
    obtain ⟨j, rfl⟩ := index_of_asks hasks rfl
    exact fun hclaim hrevert => hwaits (handsOver_revert ha hclaim hrevert)
  | delete =>
    obtain ⟨j, rfl⟩ := index_of_asks hasks rfl
    exact fun hclaim => hwaits (handsOver_delete ha hclaim)
  | grant readers =>
    obtain ⟨j, rfl⟩ := index_of_asks hasks rfl
    exact hwaits (handsOver_grant ha)
  | fix =>
    obtain ⟨j, rfl⟩ := index_of_asks hasks rfl
    exact fun hclaim hphase => hwaits (handsOver_fix ha hclaim hphase)
  | claim =>
    obtain ⟨j, rfl⟩ := index_of_asks hasks rfl
    exact fun hclaim hphase hfallback => hwaits (handsOver_claim ha hclaim hphase hfallback)
  | _ => trivial

/-! ## The record is formed (R70) -/

section Validates
variable {d : Dev} {p : Port} {i : Nat}

theorem unlocked_of_accepts {k : TicketKind} (ha : d.Accepts p k (some i)) (hk : lockBlocks k (d.entry i) = (d.entry i).locked) :
    (d.entry i).defined = true ∧ (d.entry i).locked = false := by
  obtain ⟨hentry, _, _⟩ := ha
  obtain ⟨hdefined, _, _, hlock⟩ := hentry i rfl
  exact ⟨hdefined, hk ▸ hlock⟩

theorem validate_confirm (ha : d.Accepts p .confirm (some i)) (hphase : (d.entry i).phase = .trial) :
    d.validate p (.confirm i (d.entry i).serial) = .ok (.confirm i (d.entry i).serial) := by
  obtain ⟨hdefined, hlock⟩ := unlocked_of_accepts ha rfl
  simp [Dev.validate, matchesSerial_of_defined hdefined, hlock, hphase]

theorem validate_revert (ha : d.Accepts p .revert (some i)) (hclaim : (d.entry i).claim = .unclaimed)
    (hrevert : (d.entry i).phase = .trial ∨ (d.entry i).fallback = true) :
    d.validate p (.revert i (d.entry i).serial) =
      .ok (.revert i (d.entry i).serial (if (d.entry i).phase = .trial then false else true)) := by
  obtain ⟨hdefined, hlock⟩ := unlocked_of_accepts ha rfl
  have hallowed : (d.entry i).revertible = true := by simpa [Entry.revertible, hclaim] using hrevert
  have hcase : ((d.entry i).phase != .trial) = if (d.entry i).phase = .trial then false else true := by
    cases (d.entry i).phase <;> rfl
  simp [Dev.validate, matchesSerial_of_defined hdefined, hlock, hallowed, hcase]

theorem validate_delete (ha : d.Accepts p .delete (some i)) (hclaim : (d.entry i).claim = .unclaimed) :
    d.validate p (.delete i (d.entry i).serial) = .ok (.delete i (d.entry i).serial) := by
  simp [Dev.validate, entryCheck_of_accepts ha, stateAllows, hclaim]

theorem validate_grant {readers : Readers} (ha : d.Accepts p (.grant readers) (some i)) :
    d.validate p (.grant i (d.entry i).serial readers) = .ok (.grant i (d.entry i).serial readers) := by
  simp [Dev.validate, entryCheck_of_accepts ha, stateAllows]

theorem validate_fix (ha : d.Accepts p .fix (some i)) (hclaim : (d.entry i).claim = .unclaimed)
    (hphase : (d.entry i).phase = .settled) :
    d.validate p (.fix i (d.entry i).serial) = .ok (.fix i (d.entry i).serial) := by
  simp [Dev.validate, entryCheck_of_accepts ha, stateAllows, hclaim, hphase]

theorem validate_claim (ha : d.Accepts p .claim (some i)) :
    (d.setEntry i { d.entry i with claim := .preparing }).validate p (.dropFallback i (d.entry i).serial) =
      .ok (.dropFallback i (d.entry i).serial) := by
  obtain ⟨hdefined, hlock⟩ := unlocked_of_accepts ha rfl
  have hentry : (d.setEntry i { d.entry i with claim := .preparing }).entry i = { d.entry i with claim := .preparing } :=
    setEntry_entry_same d.table i _ (lt_of_defined hdefined)
  have hmatches : Table.matchesSerial (d.setEntry i { d.entry i with claim := .preparing }).table i (d.entry i).serial = true := by
    show (((d.setEntry i { d.entry i with claim := .preparing }).entry i).defined &&
      ((d.setEntry i { d.entry i with claim := .preparing }).entry i).serial == (d.entry i).serial) = true
    rw [hentry]
    simp [hdefined]
  have hlock' : ((d.setEntry i { d.entry i with claim := .preparing }).entry i).locked = false := by
    rw [hentry]
    exact hlock
  simp only [Dev.validate, hmatches, hlock', Bool.not_true, Bool.false_eq_true, if_false]

/-- R21: the lowest index that is not defined. -/
theorem lowestFree_eq (hi : i < 24) (hfree : (d.entry i).defined = false) (hbefore : ∀ j, j < i → (d.entry j).defined = true) :
    Table.lowestFree d.table = some i := by
  have hrange : allIndexes = List.range i ++ i :: (List.range (23 - i)).map (fun j => i + 1 + j) := by
    unfold allIndexes
    interval_cases i <;> rfl
  refine List.find?_eq_some_iff_append.mpr ⟨?_, _, _, hrange, fun j hj => ?_⟩
  · exact (congrArg (fun b => !b) hfree)
  · exact congrArg (fun b => !!b) (hbefore j (List.mem_range.mp hj))

theorem validate_define {kind : PartKind} {base size : Half16} {readers : Readers} {label : Word32}
    (hmeets : Table.meets d.table base.toNat (footprintOf kind size) = false) (hlowest : Table.lowestFree d.table = some i) :
    d.validate p (.define kind base size readers label) = .ok (.define i kind p base size readers label) := by
  simp [Dev.validate, hmeets, hlowest]

end Validates

/-- Settles O35: each record kind passes its check and its validation, and its record is formed. -/
theorem recordFormedAtAcceptance : Obligations.RecordFormedAtAcceptance := by
  intro p c notify extra k index q s hr hm hreq ha hshort hmay hqueue hslot hsequence hleases hnone i e t d forms
  have hasks := ticketRequest_asks hreq
  have hforms {e' : Dev} {body : RequestBody} {change : Change} (hbody : HandsOver s.dev e' p k index notify body)
      (hvalid : e'.validate p body = .ok change) :=
    exec_forms (extra := extra) hr hm hreq ha hshort hmay hqueue hslot hsequence hleases hnone hbody hvalid
  cases k with
  | define kind base size readers label =>
    obtain rfl : index = none := index_of_asks_define hasks
    cases kind with
    | image =>
      intro hmeets hreserved hroom j hj hfree hbefore
      exact hforms (handsOver_define ha hmeets hreserved hroom)
        (validate_define (d := { s.dev with reservations := _ }) hmeets (lowestFree_eq hj hfree hbefore))
    | plain => trivial
  | confirm =>
    obtain ⟨j, rfl⟩ := index_of_asks hasks rfl
    exact fun hphase => hforms (handsOver_confirm ha hphase) (validate_confirm ha hphase)
  | revert =>
    obtain ⟨j, rfl⟩ := index_of_asks hasks rfl
    exact fun hclaim hrevert => hforms (handsOver_revert ha hclaim hrevert) (validate_revert ha hclaim hrevert)
  | delete =>
    obtain ⟨j, rfl⟩ := index_of_asks hasks rfl
    exact fun hclaim => hforms (handsOver_delete ha hclaim) (validate_delete ha hclaim)
  | grant readers =>
    obtain ⟨j, rfl⟩ := index_of_asks hasks rfl
    exact hforms (handsOver_grant ha) (validate_grant ha)
  | fix =>
    obtain ⟨j, rfl⟩ := index_of_asks hasks rfl
    exact fun hclaim hphase => hforms (handsOver_fix ha hclaim hphase) (validate_fix ha hclaim hphase)
  | claim =>
    obtain ⟨j, rfl⟩ := index_of_asks hasks rfl
    exact fun hclaim hphase hfallback => hforms (handsOver_claim ha hclaim hphase hfallback) (validate_claim ha)
  | _ => trivial

end Sys2Proof.Proofs

/-!
PROOF. The first operation of a ticket accepted on a device with nothing else to do (R117, R147 to R149).
-/

namespace Sys2Proof.Proofs

set_option Elab.async false

open Sys2Proof Sys2Proof.Machine Sys2Proof.Laws

/-! ## The new ticket is alone -/

section Idle
variable {p : Port} {c : Command} {notify : Bool} {extra : List Byte} {k : TicketKind} {index : Option Nat} {s : State}
  {d e x : Dev} {t : Ticket} {i : Nat}

theorem nothingWaits_of_noLive (h : d.NoLive) : d.NothingWaits p := fun u hu => by
  rw [oldestModifying_of_noLive d h p] at hu
  cases hu

theorem noLive_leaseReloaded (h : d.NoLive) : (d.leaseReloaded p).NoLive := fun q u hu =>
  h q u (leaseReloaded_ring d p q ▸ hu)

theorem quiet_leaseReloaded (h : d.Quiet) : (d.leaseReloaded p).Quiet := by
  obtain ⟨hparked, hhand, hfold, hqueue, hmount, hleases⟩ := h
  refine ⟨hparked, hhand, hfold, hqueue, hmount, fun q hq => ?_⟩
  rw [leaseReloaded_port]
  split
  · by_cases hset : (d.port p).leaseSetting = 0
    · exact .inr hset
    · left
      show (d.port p).leaseSetting.toNat * 10000 ≠ 0
      bv_omega
  · exact hleases q hq

theorem quiet_accepted (h : d.Quiet) (t : Ticket) : (d.accepted p t).Quiet := by
  obtain ⟨hparked, hhand, hfold, hqueue, hmount, hleases⟩ := h
  refine ⟨hparked, hhand, hfold, hqueue, hmount, leasesLeft_mono d _ (fun q hq => hq) (fun q => ?_) hleases⟩
  rw [accepted_port]
  split
  next hq => rw [hq]; exact ⟨rfl, rfl⟩
  · exact ⟨rfl, rfl⟩

theorem queue_of_quiet (h : d.Quiet) : d.writer.queue = [] := by
  obtain ⟨_, _, _, hqueue, _⟩ := h
  exact hqueue

/-- R110: an accepted frame on a device whose tickets are all terminal, where the new one does not start at once: the event
ends with the choice of its operation. -/
theorem exec_first (hr : s.Ready p) (hm : s.dev.phase ≠ .mounting) (hextra : c.opcode = .program → extra = [])
    (hcount : dataCountRight c = true) (hreq : ticketRequest p c = some (k, some i)) (ha : s.dev.Accepts p k (some i))
    (hpool : c.ticketBuffer.isSome = true → s.dev.pool.grants p = true) (hnone : s.dev.NoLive)
    (hwaits : k.startsAtOnce (s.dev.entry i) = false)
    (hx : ∀ (former : Dev) (t : Ticket), former.NoLive → t = s.dev.queued p k (some i) notify c.ticketBuffer →
      Fresh (s.dev.leaseReloaded p) p t → Alone ((s.dev.leaseReloaded p).accepted p t) p t →
        Dev.settle former ((s.dev.leaseReloaded p).accepted p t) = x) :
    exec (Instr.ofCommand p c notify (Clocking.whole extra)) s =
      .next (s.ended p (silentBytes (1 + c.params.length + extra.length))
        { command := commandByte c.opcode notify, result := .ok,
          ticket := (s.dev.queued p k (some i) notify c.ticketBuffer).number } x) := by
  refine exec_accepted hr hm hextra hcount hreq ha hpool fun former hformer => ?_
  obtain ⟨t, ht⟩ : ∃ t, t = s.dev.queued p k (some i) notify c.ticketBuffer := ⟨_, rfl⟩
  have hfresh : Fresh (s.dev.leaseReloaded p) p t := fresh_leaseReloaded (ht ▸ fresh_queued ha _)
  have halone : Alone ((s.dev.leaseReloaded p).accepted p t) p t :=
    alone_accepted hfresh (noLive_leaseReloaded hnone) (by rw [ht]; rfl)
  rw [← ht, entered_of_nothingWaits (nothingWaits_accepted (nothingWaits_of_noLive (noLive_leaseReloaded hnone))
    (.inl (by rw [ht]; exact hwaits)))]
  exact hx former t (fun q u hu => hnone q u (hformer q ▸ hu)) ht hfresh halone

/-- R117: a ticket just placed is RUNNING. -/
theorem running_accepted (h : Fresh d p t) :
    (d.accepted p t).running p t.number = d.accepted p { t with state := .running, stage := .operating } :=
  accepted_modifyTicket h rfl rfl

theorem startCheck_accepted (ha : d.Accepts p k (some i)) (hk : TicketKind.names k = true)
    (hstate : stateAllows k (d.entry i) = true) {b : Option (List Byte)} (ht : t = d.queued p k (some i) notify b) :
    ((d.leaseReloaded p).accepted p t).startCheck p t = none := by
  have hcheck : d.startCheck p t = none := by
    rw [ht, startCheck_named ha hk, if_pos hstate]
  exact hcheck

end Idle

/-! ## READ (R124) -/

section Read
variable {former d : Dev} {p : Port} {t : Ticket} {view : View} {offset : Word32} {length : Half16} {i : Nat} {notify : Bool}

/-- R12: the copy that a READ resolves to. -/
theorem readCopy_eq (e : Entry) (view : View) : e.readCopy view =
    match e.kind with
    | .plain => none
    | .image => if view = .live then e.live else some (if e.live = some .a then .b else .a) := by
  unfold Entry.readCopy
  cases e.kind <;> cases view <;> simp [spareOf_eq]

/-- R12: the sector of that copy at the offset. -/
theorem readSector_eq (hd : (d.entry i).defined = true) (hlive : (d.entry i).kind = .image → view = .live → (d.entry i).live ≠ none) :
    (d.readSector i (d.entry i).serial view offset).getD 0 =
      (d.entry i).base.toNat + (if (d.entry i).readCopy view = some .b then (d.entry i).size.toNat else 0) +
        offset.toNat / 4096 := by
  unfold Dev.readSector
  simp only [matchesSerial_of_defined hd, Bool.not_true, Bool.false_eq_true, if_false]
  show (match (d.entry i).kind, view with
    | .plain, _ => some ((d.entry i).base.toNat + offset.toNat / 4096)
    | .image, .staged => some ((d.entry i).copyBase (spareOf (d.entry i).live) + offset.toNat / 4096)
    | .image, .live => (d.entry i).live.map (fun c => (d.entry i).copyBase c + offset.toNat / 4096)).getD 0 = _
  unfold Entry.readCopy Entry.copyBase
  cases hkind : (d.entry i).kind with
  | plain => simp
  | image =>
    cases view with
    | live =>
      cases hl : (d.entry i).live with
      | none => exact absurd hl (hlive hkind rfl)
      | some c => cases c <;> simp
    | staged => cases spareOf (d.entry i).live <;> simp

variable {D : Dev}

/-- R116, R124: a READ just placed is RUNNING with the copy and generation it reads. -/
theorem readTaken_accepted (h : Fresh D p t) (copy : Option Copy) (generation : Option Word32) :
    ((D.accepted p t).running p t.number).modifyTicket p t.number
        (fun t => { t with copyRead := copy, generationRead := generation }) =
      D.accepted p { t with
        state := .running, stage := .operating, copyRead := copy, generationRead := generation } := by
  rw [running_accepted h]
  exact accepted_modifyTicket (t := { t with state := .running, stage := .operating }) h rfl rfl

/-- R124, R149: the page read of a READ just placed is taken. -/
theorem takeRead_accepted (hfresh : Fresh D p t) (hk : t.kind = .read view offset length) (hi : t.index = some i)
    (hserial : t.serial = some (D.entry i).serial) (hcheck : (D.accepted p t).startCheck p t = none)
    (hd : (D.entry i).defined = true)
    (hlive : (D.entry i).kind = .image → view = .live → (D.entry i).live ≠ none) :
    (D.accepted p t).takeRead p t =
      (D.accepted p { t with
        state := .running, stage := .operating, copyRead := (D.entry i).readCopy view,
        generationRead := if (D.entry i).kind = .image then some (D.entry i).generation else none }).issueRead (.port p)
          ((D.entry i).base.toNat + (if (D.entry i).readCopy view = some .b then (D.entry i).size.toNat else 0) +
            offset.toNat / 4096) (offset.toNat % 4096 / 256) (.ticket p t.number) := by
  have htarget : t.target = i := by rw [Ticket.target, hi]; rfl
  have hserial' : t.serial.getD 0 = (D.entry i).serial := by rw [hserial]; rfl
  have hsector : ((D.accepted p t).readSector i (D.entry i).serial view offset).getD 0 = _ :=
    readSector_eq (d := D.accepted p t) (offset := offset) hd hlive
  have hgeneration : (match (D.entry i).kind with
      | .plain => none
      | .image => some (D.entry i).generation) = if (D.entry i).kind = .image then some (D.entry i).generation else none := by
    cases (D.entry i).kind <;> rfl
  have htake : (D.accepted p t).takeRead p t =
      (((D.accepted p t).running p t.number).modifyTicket p t.number (fun t => { t with
        copyRead := (D.entry i).readCopy view
        generationRead := match (D.entry i).kind with
          | .plain => none
          | .image => some (D.entry i).generation })).issueRead (.port p)
          ((D.entry i).base.toNat + (if (D.entry i).readCopy view = some .b then (D.entry i).size.toNat else 0) +
            offset.toNat / 4096) (offset.toNat % 4096 / 256) (.ticket p t.number) := by
    unfold Dev.takeRead
    simp only [hk, hcheck, htarget, hserial', hsector]
    rfl
  rw [htake, hgeneration, readTaken_accepted hfresh]

/-- R121: the page read of the one live ticket is ready on an idle device, where no tick is pending. -/
theorem readCandidate_alone {x : Dev} (h : Alone x p t) (hk : t.kind = .read view offset length) (hs : t.state = .queued)
    (hidle : x.engine.current = none) (hparked : x.engine.parked = none) (htick : (x.port p).tickPending = false) :
    x.readCandidate p = some t := by
  have hm : t.modifying = false := by simp [Ticket.modifying, hk]
  simp [Dev.readCandidate, oldestRead_of_alone h hm, hk, hs, ahead_of_only h.only rfl, Dev.tickHolds, htick,
    notBusy_of_idle hidle hparked]

/-- R146, R148: an event ends with the page read of the one live ticket. -/
theorem settle_read {former d x : Dev} {sector page : Nat} (hreleased : Dev.releasedLast former d 0 = [])
    (hidle : d.engine.current = none) (hw : Workless d) (hnone : d.TakesNone) (h : Alone d p t)
    (hready : d.readCandidate p = some t) (htake : d.takeRead p t = x.issueRead (.port p) sector page (.ticket p t.number))
    (hx : x.TakesNone) (hleases : x.LeasesFresh) :
    Dev.settle former d = x.issueRead (.port p) sector page (.ticket p t.number) := by
  refine settle_of_choice (takeAll_of_none d hnone) hidle (choose_read hw h.only ?_) hreleased ?_ hx
    ⟨_, rfl, fun _ he => nomatch he⟩ hleases
  · simp [Dev.readReady, hready]
  · simp only [Dev.perform, hready, htake]

end Read

/-! ## PROGRAM (R125) -/

section Program
variable {former d D x : Dev} {p : Port} {t : Ticket} {offset : Word32} {length : Half16} {i : Nat}

/-- R125, R149: the page program of a PROGRAM just placed is taken. -/
theorem takeProgram_accepted (hfresh : Fresh D p t) (hk : t.kind = .program offset length) (hi : t.index = some i)
    (hcheck : (D.accepted p t).startCheck p t = none) (hlength : (t.buffer.getD []).length = length.toNat) :
    (D.accepted p t).takeProgram p t =
      (D.accepted p { t with state := .running, stage := .operating }).issueProgram (.port p)
        ((D.entry i).spareSector + offset.toNat / 4096) (offset.toNat % 4096 / 256) (offset.toNat % 256)
          (t.buffer.getD []) (.ticket p t.number) := by
  have htarget : t.target = i := by rw [Ticket.target, hi]; rfl
  have htake : (D.accepted p t).takeProgram p t =
      ((D.accepted p t).running p t.number).issueProgram (.port p) ((D.entry i).writeBase + offset.toNat / 4096)
        (offset.toNat % 4096 / 256) (offset.toNat % 256) ((t.buffer.getD []).take length.toNat) (.ticket p t.number) := by
    unfold Dev.takeProgram
    simp only [hk, hcheck, htarget]
    rfl
  rw [htake, running_accepted hfresh, writeBase_eq_spareSector, List.take_of_length_le (Nat.le_of_eq hlength)]

/-- R146, R148: an event ends with the page program of the one live ticket. -/
theorem settle_program {sector page first : Nat} {data : List Byte} (hreleased : Dev.releasedLast former d 0 = [])
    (hidle : d.engine.current = none) (hw : Workless d) (hnone : d.TakesNone) (h : Alone d p t)
    (hk : t.kind = .program offset length) (hs : t.state = .queued)
    (htake : d.takeProgram p t = x.issueProgram (.port p) sector page first data (.ticket p t.number))
    (hx : x.TakesNone) (hleases : x.LeasesFresh) :
    Dev.settle former d = x.issueProgram (.port p) sector page first data (.ticket p t.number) := by
  have hm : t.modifying = true := by simp [Ticket.modifying, hk]
  have hready : d.programCandidate p = some t := by simp [Dev.programCandidate, oldestModifying_of_alone h hm, hk, hs]
  refine settle_of_choice (takeAll_of_none d hnone) hidle (choose_program hw h.only ?_ ?_) hreleased ?_ hx
    ⟨_, rfl, fun _ he => nomatch he⟩ hleases
  · simp [Dev.readReady, readCandidate_of_modifying h hm, Dev.verifyCandidate, oldestModifying_of_alone h hm, hk]
  · simp [Dev.programReady, hready]
  · simp only [Dev.perform, hready, htake]

end Program

/-! ## ERASE, CLAIM and COMMIT (R40, R47, R126) -/

section Modifying
variable {D : Dev} {p : Port} {t : Ticket} {i : Nat}

theorem eraseCandidate_queued {x : Dev} (h : Alone x p t) (hk : t.kind = .claim ∨ ∃ first count, t.kind = .erase first count)
    (hs : t.state = .queued) (hstage : t.stage = .waiting) : x.eraseCandidate p = some t := by
  have hm : t.modifying = true := modifying_of_erases (by rcases hk with hk | ⟨_, _, hk⟩ <;> rw [hk] <;> rfl)
  rcases hk with hk | ⟨_, _, hk⟩ <;> simp [Dev.eraseCandidate, oldestModifying_of_alone h hm, hk, hs, hstage]

/-- R126, R149: the first sector erase of an ERASE just placed is taken. -/
theorem takePortErase_first {first count : Half16} (hfresh : Fresh D p t) (hk : t.kind = .erase first count)
    (hi : t.index = some i) (hs : t.state = .queued) (hprogress : t.progress = 0)
    (hcheck : (D.accepted p t).startCheck p t = none) :
    (D.accepted p t).takePortErase p t =
      (D.accepted p { t with state := .running, stage := .operating }).issueErase (.port p)
        ((D.entry i).base.toNat + first.toNat) (.ticket p t.number) := by
  have htarget : t.target = i := by rw [Ticket.target, hi]; rfl
  have htake : (D.accepted p t).takePortErase p t =
      ((D.accepted p t).running p t.number).issueErase (.port p) ((D.entry i).base.toNat + first.toNat) (.ticket p t.number) := by
    simp only [Dev.takePortErase, hk, Dev.takeEraseOfErase, hs, hcheck, htarget, hprogress]
    rfl
  rw [htake, running_accepted hfresh]

theorem setClaim_accepted (c : Claim) (hd : (D.entry i).defined = true) :
    (D.accepted p t).setClaim i (D.entry i).serial c = (D.setEntry i { D.entry i with claim := c }).accepted p t :=
  setClaim_eq (d := D.accepted p t) c hd rfl

/-- R40, R149: the first spare erase of a CLAIM just placed is taken. -/
theorem takePortErase_claim (hfresh : Fresh D p t) (hk : t.kind = .claim) (hi : t.index = some i)
    (hserial : t.serial = some (D.entry i).serial) (hs : t.state = .queued) (hprogress : t.progress = 0)
    (hcheck : (D.accepted p t).startCheck p t = none) (hd : (D.entry i).defined = true)
    (hfallback : (D.entry i).fallback = false) :
    (D.accepted p t).takePortErase p t =
      ((D.setEntry i { D.entry i with claim := .preparing }).accepted p { t with
        state := .running, stage := .operating }).issueErase (.port p) (D.entry i).spareSector (.ticket p t.number) := by
  have htarget : t.target = i := by rw [Ticket.target, hi]; rfl
  have hserial' : t.serial.getD 0 = (D.entry i).serial := by rw [hserial]; rfl
  have hfallback' : ((D.accepted p t).entry i).fallback = false := hfallback
  have htake : (D.accepted p t).takePortErase p t =
      (((D.accepted p t).setClaim i (D.entry i).serial .preparing).running p t.number).issueErase (.port p)
        (D.entry i).writeBase (.ticket p t.number) := by
    simp only [Dev.takePortErase, hk, Dev.takeEraseOfClaim, hs, hcheck, htarget, hprogress, hserial', hfallback']
    rfl
  have hfresh' : Fresh (D.setEntry i { D.entry i with claim := .preparing }) p t := hfresh
  rw [htake, setClaim_accepted .preparing hd, running_accepted hfresh', writeBase_eq_spareSector]

/-- R47, R149: the first verification read of a COMMIT just placed is taken. -/
theorem takeVerify_accepted (hfresh : Fresh D p t) (hi : t.index = some i) (hserial : t.serial = some (D.entry i).serial)
    (hs : t.state = .queued) (hprogress : t.progress = 0) (hcheck : (D.accepted p t).startCheck p t = none)
    (hd : (D.entry i).defined = true) :
    (D.accepted p t).takeVerify p t =
      ({ (D.setEntry i { D.entry i with claim := .verifying }).accepted p { t with state := .running, stage := .operating } with
          verify := { D.verify with holder := some (p, t.number), crc := crcStart } } : Dev).issueRead (.port p)
        (D.entry i).spareSector 0 (.verify p t.number) := by
  have hlt : i < 24 := lt_of_defined hd
  have htarget : t.target = i := by rw [Ticket.target, hi]; rfl
  have hserial' : t.serial.getD 0 = (D.entry i).serial := by rw [hserial]; rfl
  have hfresh' : Fresh (D.setEntry i { D.entry i with claim := .verifying }) p t := hfresh
  have hbase : ((D.setEntry i { D.entry i with claim := .verifying }).entry i).writeBase = (D.entry i).spareSector := by
    have hentry : (D.setEntry i { D.entry i with claim := .verifying }).entry i = { D.entry i with claim := .verifying } :=
      setEntry_entry_same D.table i _ hlt
    rw [hentry, ← writeBase_eq_spareSector]
    rfl
  have htake : (D.accepted p t).takeVerify p t =
      Dev.issueVerify { ((D.accepted p t).setClaim i (D.entry i).serial .verifying).running p t.number with
        verify := { (((D.accepted p t).setClaim i (D.entry i).serial .verifying).running p t.number).verify with
          holder := some (p, t.number), crc := crcStart } } p t := by
    simp only [Dev.takeVerify, hs, hcheck, htarget, hserial']
    rfl
  rw [htake, setClaim_accepted .verifying hd, running_accepted hfresh', Dev.issueVerify, hprogress, htarget, ← hbase]
  rfl

end Modifying

/-! ## The first operation (R117, R147) -/

section First
variable {former d D : Dev} {p : Port} {t : Ticket} {i : Nat} {notify : Bool} {b : Option (List Byte)} {sector : Nat}

/-- R117: the ticket with its first operation issued. -/
def begun (t : Ticket) : Ticket := { t with state := .running, stage := .operating }

variable (hformer : former.NoLive) (hfresh : Fresh D p t) (halone : Alone (D.accepted p t) p t)
  (hidle : D.engine.current = none) (hq : D.Quiet)
include hformer hfresh halone hidle hq

theorem first_erase {first count : Half16} (hk : t.kind = .erase first count) (hi : t.index = some i)
    (hs : t.state = .queued) (hstage : t.stage = .waiting) (hprogress : t.progress = 0)
    (hcheck : (D.accepted p t).startCheck p t = none) :
    Dev.settle former (D.accepted p t) = (D.accepted p (begun t)).issueErase (.port p)
      ((D.entry i).base.toNat + first.toNat) (.ticket p t.number) :=
  settle_erase (d := D.accepted p t) (releasedLast_of_noLive former _ hformer 0) hidle
    (workless_of_quiet (quiet_accepted hq t)) (takesNone_of_quiet (quiet_accepted hq t)) halone (by rw [hk]; rfl)
    (eraseCandidate_queued halone (.inr ⟨first, count, hk⟩) hs hstage)
    (takePortErase_first hfresh hk hi hs hprogress hcheck) (takesNone_of_quiet (quiet_accepted hq (begun t)))
    (leasesFresh_of_quiet _ (quiet_accepted hq (begun t)))

theorem first_claim (hk : t.kind = .claim) (hi : t.index = some i) (hserial : t.serial = some (D.entry i).serial)
    (hs : t.state = .queued) (hstage : t.stage = .waiting) (hprogress : t.progress = 0)
    (hcheck : (D.accepted p t).startCheck p t = none) (hd : (D.entry i).defined = true)
    (hfallback : (D.entry i).fallback = false)
    (hleases : ((D.setEntry i { D.entry i with claim := .preparing }).accepted p (begun t)).LeasesFresh) :
    Dev.settle former (D.accepted p t) =
      ((D.setEntry i { D.entry i with claim := .preparing }).accepted p (begun t)).issueErase (.port p)
        (D.entry i).spareSector (.ticket p t.number) :=
  settle_erase (d := D.accepted p t) (releasedLast_of_noLive former _ hformer 0) hidle
    (workless_of_quiet (quiet_accepted hq t)) (takesNone_of_quiet (quiet_accepted hq t)) halone (by rw [hk]; rfl)
    (eraseCandidate_queued halone (.inl hk) hs hstage)
    (takePortErase_claim hfresh hk hi hserial hs hprogress hcheck hd hfallback)
    (.inr (queue_of_quiet (d := D) hq)) hleases

theorem first_verify {length check : Word32} {budget : BitVec 4} (hk : t.kind = .commit length check budget)
    (hi : t.index = some i) (hserial : t.serial = some (D.entry i).serial)
    (hs : t.state = .queued) (hstage : t.stage = .waiting) (hprogress : t.progress = 0)
    (hcheck : (D.accepted p t).startCheck p t = none) (hd : (D.entry i).defined = true) (hholder : D.verify.holder = none)
    (hleases : ((D.setEntry i { D.entry i with claim := .verifying }).accepted p (begun t)).LeasesFresh) :
    Dev.settle former (D.accepted p t) =
      ({ (D.setEntry i { D.entry i with claim := .verifying }).accepted p (begun t) with
          verify := { D.verify with holder := some (p, t.number), crc := crcStart } } : Dev).issueRead (.port p)
        (D.entry i).spareSector 0 (.verify p t.number) := by
  have hm : t.modifying = true := by simp [Ticket.modifying, hk]
  have hquiet := quiet_accepted (p := p) hq t
  have hw := workless_of_quiet hquiet
  have hholder' : (D.accepted p t).verify.holder = none := hholder
  have hready : (D.accepted p t).verifyCandidate p = some t := by
    simp [Dev.verifyCandidate, oldestModifying_of_alone halone hm, hk, hs, hstage, hholder',
      notBusy_of_idle (d := D.accepted p t) hidle hw.parked]
  exact settle_verify (d := D.accepted p t) (releasedLast_of_noLive former _ hformer 0) hidle hw (takesNone_of_quiet hquiet)
    halone hm hready (takeVerify_accepted hfresh hi hserial hs hprogress hcheck hd)
    (.inr (queue_of_quiet (d := D) hq)) hleases

theorem first_program {offset : Word32} {length : Half16} (hk : t.kind = .program offset length) (hi : t.index = some i)
    (hs : t.state = .queued) (hcheck : (D.accepted p t).startCheck p t = none)
    (hlength : (t.buffer.getD []).length = length.toNat) :
    Dev.settle former (D.accepted p t) = (D.accepted p (begun t)).issueProgram (.port p)
      ((D.entry i).spareSector + offset.toNat / 4096) (offset.toNat % 4096 / 256) (offset.toNat % 256)
        (t.buffer.getD []) (.ticket p t.number) :=
  settle_program (d := D.accepted p t) (releasedLast_of_noLive former _ hformer 0) hidle
    (workless_of_quiet (quiet_accepted hq t)) (takesNone_of_quiet (quiet_accepted hq t)) halone hk hs
    (takeProgram_accepted hfresh hk hi hcheck hlength) (takesNone_of_quiet (quiet_accepted hq (begun t)))
    (leasesFresh_of_quiet _ (quiet_accepted hq (begun t)))

theorem first_read {view : View} {offset : Word32} {length : Half16} (hk : t.kind = .read view offset length)
    (hi : t.index = some i) (hserial : t.serial = some (D.entry i).serial) (hs : t.state = .queued)
    (hcheck : (D.accepted p t).startCheck p t = none) (hd : (D.entry i).defined = true)
    (hlive : (D.entry i).kind = .image → view = .live → (D.entry i).live ≠ none)
    (htick : (D.port p).tickPending = false) :
    Dev.settle former (D.accepted p t) =
      (D.accepted p { t with
        state := .running, stage := .operating, copyRead := (D.entry i).readCopy view,
        generationRead := if (D.entry i).kind = .image then some (D.entry i).generation else none }).issueRead (.port p)
          ((D.entry i).base.toNat + (if (D.entry i).readCopy view = some .b then (D.entry i).size.toNat else 0) +
            offset.toNat / 4096) (offset.toNat % 4096 / 256) (.ticket p t.number) := by
  have hquiet := quiet_accepted (p := p) hq t
  have hw := workless_of_quiet hquiet
  have htick' : ((D.accepted p t).port p).tickPending = false := by
    rw [accepted_port, if_pos rfl]
    exact htick
  exact settle_read (d := D.accepted p t) (releasedLast_of_noLive former _ hformer 0) hidle hw (takesNone_of_quiet hquiet)
    halone (readCandidate_alone halone hk hs hidle hw.parked htick')
    (takeRead_accepted hfresh hk hi hserial hcheck hd hlive) (.inr (queue_of_quiet (d := D) hq))
    (leasesFresh_of_quiet _ (quiet_accepted hq _))

end First

/-- R166: a claim that the new ticket takes up leaves no lease run out. -/
theorem leasesFresh_claimed {d : Dev} {p : Port} {t : Ticket} {i : Nat} (c : Claim) (hq : d.Quiet)
    (howner : (d.entry i).owner = p) :
    ((d.leaseReloaded p).setEntry i { d.entry i with claim := c }).accepted p t |>.LeasesFresh := by
  have hfresh : (((d.setEntry i { d.entry i with claim := c }).accepted p t).leaseReloaded p).LeasesFresh :=
    leasesFresh_placed (leasesFresh_of_quiet d hq) rfl fun q hne hc =>
      holdsClaim_setEntry_other (x := { d.entry i with claim := c }) (fun h => hne (h.symm.trans howner)) hc
  rw [← accepted_leaseReloaded] at hfresh
  exact hfresh

/-- Settles O30: the choice of the one live ticket, kind by kind, and the taking of its operation. -/
theorem firstOperationIssued : Obligations.FirstOperationIssued := by
  intro p c notify extra k i s hr hm hextra hcount hreq ha hpool hquiet hnone hcurrent e t d ends erase
  have hasks := ticketRequest_asks hreq
  obtain ⟨hdefined, harguments, hrights, _⟩ := ha.1 i rfl
  have hquiet' : (s.dev.leaseReloaded p).Quiet := quiet_leaseReloaded hquiet
  have hfirst {x : Dev} (hwaits : k.startsAtOnce (s.dev.entry i) = false) (hx : _) : ends x :=
    exec_first hr hm hextra hcount hreq ha hpool hnone hwaits hx
  cases k with
  | read view offset length =>
    intro htick hlive copy sector t2
    have hcopy : (s.dev.entry i).readCopy view = copy := readCopy_eq _ _
    have hstate : stateAllows (.read view offset length) (s.dev.entry i) = true := by
      cases view with
      | live =>
        cases hkind : (s.dev.entry i).kind with
        | plain => simp [stateAllows, hkind]
        | image => simpa [stateAllows, hkind, Option.isSome_iff_ne_none] using hlive hkind rfl
      | staged => rfl
    refine hfirst rfl fun former t0 hformer ht0 hfresh halone => ?_
    have htick' : ((s.dev.leaseReloaded p).port p).tickPending = false := by
      rw [leaseReloaded_port, if_pos rfl]
      exact htick
    have hissue := first_read (i := i) (view := view) (offset := offset) (length := length) hformer hfresh halone hcurrent
      hquiet' (by rw [ht0]; rfl) (by rw [ht0]; rfl) (by rw [ht0]; rfl) (by rw [ht0]; rfl)
      (startCheck_accepted ha rfl hstate ht0) hdefined hlive htick'
    have hcopy' : ((s.dev.leaseReloaded p).entry i).readCopy view = copy := hcopy
    rw [hissue, accepted_leaseReloaded, hcopy', ht0]
    rfl
  | program offset length =>
    intro hopened
    cases c with
    | program i' offset' length' data =>
      obtain ⟨hk, _⟩ := hasks
      obtain ⟨rfl, rfl⟩ := TicketKind.program.inj hk
      have hlength : data.length = length.toNat := by simpa [dataCountRight] using hcount
      have hstate : stateAllows (.program offset length) (s.dev.entry i) = true := by
        cases hkind : (s.dev.entry i).kind with
        | plain => simp [stateAllows, hkind]
        | image => simpa [stateAllows, hkind] using hopened hkind
      refine hfirst rfl fun former t0 hformer ht0 hfresh halone => ?_
      have hissue := first_program (i := i) hformer hfresh halone hcurrent hquiet' (by rw [ht0]; rfl) (by rw [ht0]; rfl)
        (by rw [ht0]; rfl) (startCheck_accepted ha rfl hstate ht0) (by rw [ht0]; exact hlength)
      rw [hissue, accepted_leaseReloaded, ht0]
      rfl
    | _ => exact absurd hasks (by simp [asksFor])
  | erase first count =>
    refine hfirst rfl fun former t0 hformer ht0 hfresh halone => ?_
    have hissue := first_erase (i := i) hformer hfresh halone hcurrent hquiet' (by rw [ht0]; rfl) (by rw [ht0]; rfl)
      (by rw [ht0]; rfl) (by rw [ht0]; rfl) (by rw [ht0]; rfl) (startCheck_accepted ha rfl rfl ht0)
    rw [hissue, accepted_leaseReloaded, ht0]
    rfl
  | claim =>
    intro hclaim hphase hfallback
    have howner : (s.dev.entry i).owner = p := (beq_iff_eq.mp hrights).symm
    have hclaim' : (s.dev.entry i).claim = .unclaimed := hclaim
    have hphase' : (s.dev.entry i).phase = .settled := hphase
    refine hfirst hfallback fun former t0 hformer ht0 hfresh halone => ?_
    have hissue := first_claim (i := i) hformer hfresh halone hcurrent hquiet' (by rw [ht0]; rfl) (by rw [ht0]; rfl)
      (by rw [ht0]; rfl) (by rw [ht0]; rfl) (by rw [ht0]; rfl) (by rw [ht0]; rfl)
      (startCheck_accepted ha rfl (by simp [stateAllows, hclaim', hphase']) ht0) hdefined hfallback
      (leasesFresh_claimed .preparing hquiet howner)
    have hplaced := accepted_leaseReloaded (s.dev.setEntry i { s.dev.entry i with claim := .preparing }) p (begun t0)
    refine hissue.trans ((congrArg (fun x : Dev => x.issueErase _ _ _) hplaced).trans ?_)
    rw [ht0]
    rfl
  | commit length check budget =>
    intro hclaim hholder
    have howner : (s.dev.entry i).owner = p := (beq_iff_eq.mp hrights).symm
    have hclaim' : (s.dev.entry i).claim = .opened := hclaim
    refine hfirst rfl fun former t0 hformer ht0 hfresh halone => ?_
    have hissue := first_verify (i := i) hformer hfresh halone hcurrent hquiet' (by rw [ht0]; rfl) (by rw [ht0]; rfl)
      (by rw [ht0]; rfl) (by rw [ht0]; rfl) (by rw [ht0]; rfl) (by rw [ht0]; rfl)
      (startCheck_accepted ha rfl (by simp [stateAllows, hclaim']) ht0) hdefined hholder
      (leasesFresh_claimed .verifying hquiet howner)
    have hplaced := accepted_leaseReloaded (s.dev.setEntry i { s.dev.entry i with claim := .verifying }) p (begun t0)
    refine hissue.trans ((congrArg (fun x : Dev => Dev.issueRead { x with
      verify := { s.dev.verify with holder := some (p, t0.number), crc := crcStart } } _ _ _ _) hplaced).trans ?_)
    rw [ht0]
    rfl
  | _ => trivial

end Sys2Proof.Proofs

/-!
PROOF. A PLAIN DEFINE (R19, R20, R22): its reservation, its scrub erase by erase, its ends and the hand-over of its record.
-/

namespace Sys2Proof.Proofs

set_option Elab.async false

open Sys2Proof Sys2Proof.Machine Sys2Proof.Laws

/-! ## The reservation at acceptance (R19, R122) -/

section Reserve
variable {former d D : Dev} {p : Port} {t : Ticket} {base size : Half16} {readers : Readers} {label : Word32}

/-- R17, R19: the device with the reservation of a PLAIN DEFINE. -/
def reserving (d : Dev) (p : Port) (base size : Half16) : Dev :=
  { d with reservations := d.reservations ++ [{ port := p, base := base.toNat, sectors := size.toNat }] }

/-- R117: the ticket past its start checks, waiting for its scrub. -/
def reserved (t : Ticket) : Ticket := { t with stage := .reserved }

/-- R19: a PLAIN DEFINE just placed that passes its start checks holds its reservation. -/
theorem startTicket_reserves (hfresh : Fresh D p t) (hk : t.kind = .define .plain base size readers label)
    (hcheck : (D.accepted p t).startCheck p t = none) :
    (D.accepted p t).startTicket p t = (reserving D p base size).accepted p (reserved t) := by
  have hstart : (D.accepted p t).startTicket p t =
      ((reserving D p base size).accepted p t).modifyTicket p t.number reserved := by
    simp only [Dev.startTicket, hcheck, Dev.beginWork, hk]
    rfl
  have hfresh' : Fresh (reserving D p base size) p t := hfresh
  rw [hstart, accepted_modifyTicket hfresh' rfl rfl]

theorem quiet_reserving (h : d.Quiet) : (reserving d p base size).Quiet := h

/-- R20, R149: the first erase of a scrub is taken. -/
theorem takePortErase_scrub (hfresh : Fresh D p t) (hk : t.kind = .define .plain base size readers label)
    (hs : t.state = .queued) (hprogress : t.progress = 0) (hphase : D.phase ≠ .degraded) :
    (D.accepted p t).takePortErase p t =
      (D.accepted p (begun t)).issueErase (.port p) base.toNat (.ticket p t.number) := by
  have hphase' : (D.accepted p t).phase ≠ .degraded := hphase
  have htake : (D.accepted p t).takePortErase p t =
      ((D.accepted p t).running p t.number).issueErase (.port p) base.toNat (.ticket p t.number) := by
    simp only [Dev.takePortErase, hk, Dev.takeScrub, hs, hprogress, if_neg hphase']
    rfl
  rw [htake, running_accepted hfresh]
  rfl

/-- R20, R146: on a device with nothing else to do the scrub's first erase is issued. -/
theorem first_scrub (hformer : former.NoLive) (hfresh : Fresh D p t) (halone : Alone (D.accepted p t) p t)
    (hidle : D.engine.current = none) (hq : D.Quiet) (hk : t.kind = .define .plain base size readers label)
    (hs : t.state = .queued) (hstage : t.stage = .reserved) (hprogress : t.progress = 0) (hphase : D.phase ≠ .degraded) :
    Dev.settle former (D.accepted p t) = (D.accepted p (begun t)).issueErase (.port p) base.toNat (.ticket p t.number) := by
  have hready : (D.accepted p t).eraseCandidate p = some t := by
    have hm : t.modifying = true := modifying_of_erases (by rw [hk]; rfl)
    simp [Dev.eraseCandidate, oldestModifying_of_alone halone hm, hk, hs, hstage]
  exact settle_erase (d := D.accepted p t) (releasedLast_of_noLive former _ hformer 0) hidle
    (workless_of_quiet (quiet_accepted hq t)) (takesNone_of_quiet (quiet_accepted hq t)) halone (by rw [hk]; rfl) hready
    (takePortErase_scrub hfresh hk hs hprogress hphase) (takesNone_of_quiet (quiet_accepted hq (begun t)))
    (leasesFresh_of_quiet _ (quiet_accepted hq (begun t)))

end Reserve

/-! ## The boundary of a scrub (R20, R22) -/

section Scrub
variable {former d : Dev} {p : Port} {n : Byte} {t t1 : Ticket} {base size : Half16} {readers : Readers} {label : Word32}
  {st : TicketState} {r : Result} {sectors : Nat} {body : RequestBody}

/-- R134: an orphan that ends is removed. -/
theorem finishTicket_orphan (honly : d.OnlyLive p n) (ht : d.ticket p n = some t) (ho : t.orphan = true)
    (hb : t.buffer = none) :
    d.finishTicket p n st r =
      d.modifyPort p (fun q => { q with ring := q.ring.filter (fun u => u.number != n) }) ∧
    (d.finishTicket p n st r).NoLive := by
  have hend : d.endTicket p n st r =
      d.modifyPort p (fun q => { q with ring := q.ring.filter (fun u => u.number != n) }) := by
    unfold Dev.endTicket
    simp only [ht, ho, hb, if_true]
    show d.removeTicket p n = _
    unfold Dev.removeTicket Dev.setRing
    exact modifyPort_congr rfl
  have hdead : (d.modifyPort p (fun q => { q with ring := q.ring.filter (fun u => u.number != n) })).NoLive := by
    intro q u hu
    have hmem : u ∈ d.ring q ∧ (q = p → u.number ≠ n) := by
      unfold Dev.ring at hu ⊢
      rw [modifyPort_port] at hu
      split at hu
      next hq =>
        subst hq
        obtain ⟨hmem, hne⟩ := List.mem_filter.mp hu
        exact ⟨hmem, fun _ => by simpa using hne⟩
      next hq => exact ⟨hu, fun h => absurd h hq⟩
    refine Bool.eq_false_iff.mpr fun hlive => ?_
    obtain ⟨hq, hnum⟩ := honly q u hmem.1 hlive
    exact hmem.2 hq hnum
  have hfinish : d.finishTicket p n st r =
      d.modifyPort p (fun q => { q with ring := q.ring.filter (fun u => u.number != n) }) := by
    rw [Dev.finishTicket, hend, wakePort_of_noLive _ hdead]
  exact ⟨hfinish, hfinish ▸ hdead⟩

theorem quiet_filtered {keep : Ticket → Bool} (h : d.Quiet) :
    (d.modifyPort p (fun q => { q with ring := q.ring.filter keep })).Quiet := by
  obtain ⟨hparked, hhand, hfold, hqueue, hmount, hleases⟩ := h
  refine ⟨hparked, hhand, hfold, hqueue, hmount, leasesLeft_mono d _ (fun q hq => hq) (fun q => ?_) hleases⟩
  rw [modifyPort_port]
  split
  next hq => rw [hq]; exact ⟨rfl, rfl⟩
  · exact ⟨rfl, rfl⟩

/-- R114: what was written to a ticket is gone with it. -/
theorem filter_withEnd (hnum : t1.number = n) :
    (d.withEnd p n (fun _ => t1) id).modifyPort p (fun q => { q with ring := q.ring.filter (fun u => u.number != n) }) =
      d.modifyPort p (fun q => { q with ring := q.ring.filter (fun u => u.number != n) }) := by
  simp only [Dev.withEnd, modifyPort_modifyPort, id]
  refine modifyPort_congr ?_
  congr 1
  rw [List.filter_map]
  have hsame : ((fun u : Ticket => u.number != n) ∘ fun u => if (u.number == n) = true then t1 else u) =
      fun u : Ticket => u.number != n := funext fun u => by
    by_cases hu : u.number = n <;> simp [hu, hnum]
  rw [hsame]
  refine (List.map_congr_left fun u hu => ?_).trans (List.map_id _)
  have hother : u.number ≠ n := by simpa using (List.mem_filter.mp hu).2
  simp [hother]

/-- R20: the boundary of a scrub whose ticket is no orphan. -/
theorem scrubBoundary_owned (ho : t.orphan = false) :
    d.scrubBoundary p t body sectors =
      if t.cancelRequested then (d.dropReservation p).finishTicket p t.number .cancelled .cancelled
      else if d.phase = .degraded then (d.dropReservation p).finishTicket p t.number .failed .jdead
      else if t.progress < sectors then d
      else d.handOver p t.number body := by
  unfold Dev.scrubBoundary
  simp only [ho, Bool.false_eq_true, if_false]

/-- R20, R149: a later erase of a scrub is taken. -/
theorem takePortErase_laterScrub (hk : t.kind = .define .plain base size readers label) (hs : t.state = .running) :
    d.takePortErase p t = d.issueErase (.port p) (base.toNat + t.progress) (.ticket p t.number) := by
  simp only [Dev.takePortErase, hk, Dev.takeScrub, hs]
  rfl

end Scrub

/-- Settles O34: the placing with its reservation, and each boundary of the scrub. -/
theorem plainDefineReserves : Obligations.PlainDefineReserves := by
  refine ⟨fun p notify base size readers rights label extra s hr hm hreaders howner hrange ha hnone hmeets hreserved hroom => ?_,
    fun p n t base size readers label op v s hop hreq hsec ht hk hstate hstage hb honly hquiet => ?_⟩
  · intro t reservations ends
    have hask : ticketRequest p (.define 0 base size readers label) =
        some (.define .plain base size rights label, none) := by
      simp [ticketRequest, kindOfCode, hreaders, hrange, howner]
    obtain ⟨t0, ht0⟩ : ∃ t0, t0 = s.dev.queued p (.define .plain base size rights label) none notify none := ⟨_, rfl⟩
    have hfresh : Fresh (s.dev.leaseReloaded p) p t0 := by
      rw [ht0]
      exact fresh_leaseReloaded (fresh_queued ha none)
    have hcheck : ((s.dev.leaseReloaded p).accepted p t0).startCheck p t0 = none := by
      have hroom' : ¬ Config.tableSize ≤ Table.definedCount s.dev.table + s.dev.reservations.length := Nat.not_le.mpr hroom
      have hcheck : s.dev.startCheck p t0 = none := by
        rw [ht0, startCheck_define ha]
        simp [Dev.defineCheck, footprintOf, hmeets, hreserved, hroom']
      exact hcheck
    have hstart := startTicket_reserves (base := base) (size := size) (readers := rights) (label := label) hfresh
      (by rw [ht0]; rfl) hcheck
    obtain ⟨x, hx⟩ : ∃ x, x = (reserving (s.dev.leaseReloaded p) p base size).accepted p (reserved t0) := ⟨_, rfl⟩
    have hx' : x = ((reserving s.dev p base size).accepted p (reserved t0)).leaseReloaded p := by
      rw [hx, ← accepted_leaseReloaded]
      rfl
    rw [← hx] at hstart
    have hring : x.ring p = s.dev.ring p ++ [reserved t0] := by
      rw [hx']
      exact placed_ring (e := reserving s.dev p base size) rfl
    have hrun {y : Dev} (hy : ∀ former : Dev, (∀ q, former.ring q = s.dev.ring q) → Dev.settle former x = y) :
        exec (.define p notify 0 base size readers label (Clocking.whole extra)) s =
          .next (s.ended p (silentBytes (11 + extra.length))
            { command := commandByte .define notify, result := .ok, ticket := t.number } y) := by
      rw [ht0] at hstart
      exact exec_started (c := .define 0 base size readers label) hr hm hask ha hnone rfl hstart hring
        (by rw [ht0]; rfl) hy
    refine ⟨fun hstill => ?_, fun hquiet hdead hidle => ?_⟩
    · obtain ⟨hengine, htakes, hleases⟩ := hstill
      have hstill' : x.Still := by
        rw [hx']
        exact ⟨hengine, htakes, leasesFresh_placed (e := reserving s.dev p base size) hleases rfl fun _ _ h => h⟩
      refine (hrun fun former _ => settle_of_still former x hstill').trans ?_
      rw [hx', ht0]
      rfl
    · have hphase : s.dev.phase ≠ .degraded := fun h => ha.2.1 ⟨h, rfl⟩
      have hfresh' : Fresh (reserving (s.dev.leaseReloaded p) p base size) p (reserved t0) := hfresh
      have halone : Alone x p (reserved t0) := by
        rw [hx]
        exact alone_accepted hfresh' (noLive_leaseReloaded hdead) (by rw [ht0]; rfl)
      refine (hrun fun former hformer => ?_).trans rfl
      rw [hx] at halone ⊢
      have hissue := first_scrub (former := former) (base := base) (size := size) (readers := rights) (label := label)
        (fun q u hu => hdead q u (hformer q ▸ hu)) hfresh' halone hidle
        (quiet_reserving (quiet_leaseReloaded hquiet)) (by rw [ht0]; rfl) (by rw [ht0]; rfl) rfl (by rw [ht0]; rfl) hphase
      have hplaced := accepted_leaseReloaded (reserving s.dev p base size) p (begun (reserved t0))
      refine hissue.trans ((congrArg (fun x : Dev => x.issueErase _ _ _) hplaced).trans ?_)
      rw [ht0]
      rfl
  · intro d gone k ends
    have hnum : t.number = n := number_of_ticket ht
    have hm : t.modifying = true := modifying_of_erases (by rw [hk]; rfl)
    have hends (x : Dev) (hx : Dev.settle s.dev (d.eraseTicketDone p n (verdictOk v)) = x) : ends x :=
      exec_sectorEraseComplete hop hsec (by rw [hreq]; exact hx)
    have hticket : d.ticket p n = some t := ht
    have hquiet' : gone.Quiet := hquiet
    obtain ⟨t1, ht1⟩ : ∃ t1 : Ticket, t1 = { t with progress := k } := ⟨_, rfl⟩
    have hnum1 : t1.number = n := by rw [ht1]; exact hnum
    have hk1 : t1.kind = .define .plain base size readers label := by rw [ht1]; exact hk
    have hs1 : t1.state = .running := by rw [ht1]; exact hstate
    have hprogress1 : t1.progress = k := by rw [ht1]
    have hsuccess : d.eraseTicketDone p n true =
        (d.withEnd p n (fun _ => t1) id).scrubBoundary p t1 (.define .plain base size readers label) size.toNat := by
      rw [ht1, ← modifyTicket_eq_withEnd]
      simp only [Dev.eraseTicketDone, hticket, hk, if_true]
      rfl
    have hfailure : d.eraseTicketDone p n false = gone.finishTicket p n .failed .arrayfail := by
      simp only [Dev.eraseTicketDone, hticket, hk, Bool.false_eq_true, if_false]
      rfl
    have hgone : (d.withEnd p n (fun _ => t1) id).dropReservation p = gone.withEnd p n (fun _ => t1) id := rfl
    split
    next ho =>
      refine hends _ ?_
      have hended : ∃ st r, d.eraseTicketDone p n (verdictOk v) = gone.finishTicket p n st r ∨
          d.eraseTicketDone p n (verdictOk v) = (gone.withEnd p n (fun _ => t1) id).finishTicket p n st r := by
        cases v with
        | failure bits => exact ⟨_, _, .inl hfailure⟩
        | success =>
          rw [show verdictOk .success = true from rfl, hsuccess, Dev.scrubBoundary, hgone, hnum1,
            show t1.orphan = true by rw [ht1]; exact ho]
          by_cases hc : t1.cancelRequested = true
          · exact ⟨_, _, .inr (if_pos hc)⟩
          · exact ⟨_, _, .inr ((if_neg hc).trans (if_pos rfl))⟩
      obtain ⟨st, r, hended | hended⟩ := hended
      · obtain ⟨hremoved, hdead⟩ := finishTicket_orphan (d := gone) (st := st) (r := r) honly ht ho hb
        rw [hremoved] at hended hdead
        rw [hended]
        exact settle_of_quiet s.dev _ rfl (quiet_filtered hquiet') hdead
      · have ht2 : (gone.withEnd p n (fun _ => t1) id).ticket p n = some t1 := withEnd_ticket (d := gone) (fun _ _ => hnum1) ht
        obtain ⟨hremoved, hdead⟩ := finishTicket_orphan (d := gone.withEnd p n (fun _ => t1) id) (st := st) (r := r)
          (onlyLive_withEnd (d := gone) honly fun _ _ => hnum1) ht2 (by rw [ht1]; exact ho) (by rw [ht1]; exact hb)
        rw [hremoved, filter_withEnd hnum1] at hended hdead
        rw [hended]
        exact settle_of_quiet s.dev _ rfl (quiet_filtered hquiet') hdead
    next ho =>
      have ho : t.orphan = false := Bool.eq_false_iff.mpr ho
      have ho1 : t1.orphan = false := by rw [ht1]; exact ho
      have hfinish (st : TicketState) (r : Result) (hst : st = .done ∨ st = .failed ∨ st = .cancelled)
          (hbound : d.eraseTicketDone p n (verdictOk v) = (gone.withEnd p n (fun _ => t1) id).finishTicket p n st r) :
          ends (gone.withEnd p n (fun _ => { t with progress := k, state := st, result := r }) (fun q => q.afterEnd t r)) := by
        refine hends _ ?_
        have hended := finishTicket_replaced (d := gone) (r := r) honly ht hnum1 ho1 (by rw [ht1]; exact hm)
          (by rw [ht1]; exact hb) hst
        rw [hbound, hended, ht1]
        exact settle_withEnd (d := gone) rfl hquiet' honly (endedTicket_live (r := r) true hst)
      cases v with
      | failure bits =>
        refine hends _ ?_
        rw [show verdictOk (.failure bits) = false from rfl, hfailure,
          finishTicket_bare (d := gone) honly ht ho hm hb (.inr (.inl rfl))]
        exact settle_withEnd (d := gone) rfl hquiet' honly fun _ => rfl
      | success =>
        have hboundary := hsuccess.trans (scrubBoundary_owned ho1)
        rw [hgone, hnum1, show t1.cancelRequested = t.cancelRequested by rw [ht1], hprogress1] at hboundary
        dsimp only
        split
        next hc => exact hfinish .cancelled .cancelled (.inr (.inr rfl)) (hboundary.trans (if_pos hc))
        next hc =>
          rw [if_neg hc] at hboundary
          split
          next hj => exact hfinish .failed .jdead (.inr (.inl rfl)) (hboundary.trans (if_pos hj))
          next hj =>
            rw [if_neg (show ¬ (d.withEnd p n (fun _ => t1) id).phase = .degraded from hj)] at hboundary
            split
            next hlater =>
              refine hends _ ?_
              rw [show verdictOk .success = true from rfl, hboundary, if_pos hlater]
              have halone : Alone (d.withEnd p n (fun _ => t1) id) p t1 :=
                alone_withEnd (d := d) honly ht hnum1 (by simp [Ticket.live, hs1])
              have hq : (d.withEnd p n (fun _ => t1) id).Quiet := quiet_withEnd (d := d) hquiet
              have hissue := settle_erase (releasedLast_of_only honly _ 0) rfl (workless_of_quiet hq) (takesNone_of_quiet hq)
                halone (by rw [hk1]; rfl)
                (eraseCandidate_running halone (by rw [hk1]; rfl) hs1 (by rw [ht1]; exact hstage))
                (takePortErase_laterScrub hk1 hs1) (takesNone_of_quiet hq) (leasesFresh_of_quiet _ hq)
              rw [hissue, hprogress1, hnum1, ht1]
              rfl
            next hlater =>
              intro hphase hgood hhold hslot hmeets q i hsequence hi hfree hbefore
              refine hends _ ?_
              rw [show verdictOk .success = true from rfl, hboundary, if_neg hlater, handOver_replaced hnum1]
              obtain ⟨d2, hd2⟩ : ∃ d2 : Dev, d2 = d.withEnd p n (fun _ => { t1 with state := .running, stage := .recording }) id :=
                ⟨_, rfl⟩
              have hq2 : d2.Quiet := by rw [hd2]; exact quiet_withEnd (d := d) hquiet
              have hwriter : d2.writer = s.dev.writer := by rw [hd2]; rfl
              have hvalid : d2.validate p (.define .plain base size readers label) =
                  .ok (.define i .plain p base size readers label) := by
                rw [hd2]
                exact validate_define (d := d) hmeets (lowestFree_eq (d := d) hi hfree hbefore)
              have hformed := settle_formed (former := s.dev) (d := d2) (p := p) (n := n) (q := q)
                (mayForm_of_quiet hq2 (by rw [hd2]; exact hphase) (by rw [hwriter]; exact hgood) (by rw [hwriter]; exact hhold))
                (by rw [hwriter]; exact queue_of_quiet hquiet) (by rw [hwriter]; exact hslot)
                (by rw [hwriter]; exact hsequence) hvalid (by rw [hd2]; rfl) (leasesFresh_of_quiet _ hq2)
              rw [← hd2, hformed, hd2, ht1]
              rfl

end Sys2Proof.Proofs

/-!
PROOF. CANCEL (R132, R133): the ticket that a frame reaches, in each of its states.
-/

namespace Sys2Proof.Proofs

set_option Elab.async false

open Sys2Proof Sys2Proof.Machine Sys2Proof.Laws

section Cancel
variable {d : Dev} {p : Port} {n : Byte} {t : Ticket} {extra : List Byte} {s : State} {f : Ticket → Ticket}
  {g : EventQueue → EventQueue}

/-- R132, R164: out of MOUNTING a CANCEL frame clocked whole ends with its effect on the shared side. -/
theorem exec_cancel {x : Dev} {r : Result} (hr : s.Ready p) (hm : s.dev.phase ≠ .mounting)
    (h : (s.dev.leaseReloaded p).cancelFrame p n = (x, r)) :
    exec (.cancel p n (Clocking.whole extra)) s =
      .next (s.ended p (silentBytes (2 + extra.length)) { command := 0x15, result := r, ticket := n } x) := by
  have hphase : ¬ (s.dev.leaseReloaded p).phase = .mounting := hm
  have hrun : exec (.cancel p n (Clocking.whole extra)) s = _ :=
    exec_silent (c := .cancel n) (notify := false) (extra := extra) hr rfl (fun h => nomatch h)
  rw [hrun]
  simp only [State.endCommand, modifyDev_dev, afterFrame_dev, if_neg hphase, withFrame_afterFrame, h]
  rfl

/-- R164: the reload of the lease and a change of tickets and events do not reach each other. -/
theorem withEnd_leaseReloaded (d : Dev) (p : Port) (n : Byte) :
    (d.leaseReloaded p).withEnd p n f g = (d.withEnd p n f g).leaseReloaded p := by
  simp only [Dev.leaseReloaded, Dev.withEnd, modifyPort_modifyPort]

/-- R166: an end of tickets after the reload of the port's lease lets no lease run out. -/
theorem leasesFresh_withEnd (h : d.LeasesFresh) : ((d.withEnd p n f g).leaseReloaded p).LeasesFresh := by
  refine leasesFresh_of_reloaded h (p := p) ?_ fun q hq => ⟨?_, fun hc => hc⟩
  · simp [leaseReloaded_port]
  · simp [leaseReloaded_port, Dev.withEnd, modifyPort_port, hq]

/-- R119: where the tickets of one number have ended, the oldest live modifying ticket is the oldest of another number. -/
theorem oldestModifying_ended (hf : ∀ u, (f u).live = false) :
    (d.withEnd p n f g).oldestModifying p = (d.ring p).find? (fun u => u.number != n && u.modifying && u.live) := by
  unfold Dev.oldestModifying
  rw [withEnd_ring, if_pos rfl, List.find?_map]
  have hpred : ((fun u : Ticket => u.modifying && u.live) ∘ fun u => if u.number == n then f u else u) =
      fun u => u.number != n && u.modifying && u.live := funext fun u => by
    by_cases hu : u.number = n
    · simp [hu, hf u]
    · have hne : (u.number != n) = true := bne_iff_ne.mpr hu
      simp [hu, hne]
  rw [hpred]
  cases hfind : (d.ring p).find? (fun u => u.number != n && u.modifying && u.live) with
  | none => rfl
  | some u =>
    have hne : u.number ≠ n := by
      have hprop := List.find?_some hfind
      simp only [Bool.and_eq_true, bne_iff_ne] at hprop
      exact hprop.1.1
    simp [hne]

end Cancel

/-- Settles O12: each state of the ticket; the end of a QUEUED one starts no other. -/
theorem cancelFrame : Obligations.CancelFrame := by
  intro p n extra s hr hm outcome
  have hfound := ticketOfFrame_leaseReloaded s.dev p n
  have hends {r : Result} {d : Dev} (h : (s.dev.leaseReloaded p).cancelFrame p n = (d.leaseReloaded p, r)) : outcome r d :=
    exec_cancel hr hm h
  cases hticket : (s.dev.ring p).find? (fun t => t.number == n && !t.orphan) with
  | none =>
    have hnone : (s.dev.leaseReloaded p).ticketOfFrame p n = none := hfound.trans hticket
    exact hends (by simp only [Dev.cancelFrame, hnone])
  | some t =>
    have hsome : (s.dev.leaseReloaded p).ticketOfFrame p n = some t := hfound.trans hticket
    dsimp only
    cases hstate : t.state with
    | running =>
      refine hends ?_
      simp only [Dev.cancelFrame, hsome, hstate]
      rw [modifyTicket_eq_withEnd, withEnd_leaseReloaded]
      rfl
    | queued =>
      intro hstill ht hothers
      have howned : t.orphan = false := by
        have hprop := List.find?_some hticket
        simpa using (Bool.and_eq_true_iff.mp hprop).2
      have hnum : t.number = n := number_of_ticket ht
      obtain ⟨e, he⟩ : ∃ e : Dev, e = { s.dev with
        pool := if t.buffer.isSome then s.dev.pool.give p else s.dev.pool
        reservations := if t.stage = .reserved then s.dev.reservations.filter (fun r => r.port != p) else s.dev.reservations } :=
        ⟨_, rfl⟩
      obtain ⟨y, hy⟩ : ∃ y, y = e.withEnd p n (endedTicket false .cancelled .cancelled) (fun q => q.afterEnd t .cancelled) :=
        ⟨_, rfl⟩
      have hstill' : (y.leaseReloaded p).Still := by
        obtain ⟨hengine, htakes, hleases⟩ := hstill
        rw [hy, he]
        exact ⟨hengine, htakes, leasesFresh_withEnd hleases⟩
      have hwaits : (y.leaseReloaded p).NothingWaits p := by
        intro u hu
        rw [leaseReloaded_oldestModifying, hy, oldestModifying_ended (endedTicket_live _ (.inr (.inr rfl)))] at hu
        have hnot := hothers u (by rw [he] at hu; exact hu)
        have hstarts : (y.leaseReloaded p).startsWhenStartable u = u.kind.startsAtOnce (s.dev.entry (u.index.getD 24)) := by
          rw [startsWhenStartable_eq, hy, he]
          rfl
        rw [hstarts]
        refine Bool.eq_false_iff.mpr fun h => hnot ?_
        simpa [and_assoc] using h
      have hdropped : (if t.stage == .reserved then (s.dev.leaseReloaded p).dropReservation p else s.dev.leaseReloaded p) =
          ({ s.dev with reservations :=
            if t.stage = .reserved then s.dev.reservations.filter (fun r => r.port != p) else s.dev.reservations } : Dev).leaseReloaded
              p := by
        by_cases hstage : t.stage = .reserved
        · simp only [hstage, BEq.rfl, if_true]
          rfl
        · simp only [beq_iff_eq, hstage, if_false]
      have hend : (if t.stage == .reserved then (s.dev.leaseReloaded p).dropReservation p else s.dev.leaseReloaded p).endTicket
          p t.number .cancelled .cancelled = y.leaseReloaded p := by
        obtain ⟨x, hx⟩ : ∃ x : Dev, x = { s.dev with reservations :=
            if t.stage = .reserved then s.dev.reservations.filter (fun r => r.port != p) else s.dev.reservations } := ⟨_, rfl⟩
        have hx' : (x.leaseReloaded p).ticket p n = some t := by
          unfold Dev.ticket
          rw [leaseReloaded_ring, hx]
          exact ht
        rw [hdropped, ← hx, hnum, endTicket_eq hx' howned, hy, he]
        have hkeeps : (!t.modifying && TicketState.cancelled != .cancelled) = false := by simp
        rw [hkeeps, Bool.not_false, Bool.and_true, giveBufferIf_eq, ← withEnd_leaseReloaded, hx]
        rfl
      have hcancel : (s.dev.leaseReloaded p).cancelFrame p n = (y.leaseReloaded p, .ok) := by
        have hfinish : (s.dev.leaseReloaded p).cancelQueued p t = y.leaseReloaded p := by
          refine (congrArg (fun z : Dev => Dev.settle (s.dev.leaseReloaded p) (z.wakePort p)) hend).trans ?_
          rw [wakePort_of_nothingWaits hwaits]
          exact settle_of_still _ _ hstill'
        simp only [Dev.cancelFrame, hsome, hstate, hfinish]
      have hfinal := hends hcancel
      rw [hy, he] at hfinal
      exact hfinal
    | done => exact hends (by simp only [Dev.cancelFrame, hsome, hstate])
    | failed => exact hends (by simp only [Dev.cancelFrame, hsome, hstate])
    | cancelled => exact hends (by simp only [Dev.cancelFrame, hsome, hstate])

end Sys2Proof.Proofs

/-!
PROOF. A port restart (R81, R111, R167 to R171): ticket by ticket, then its claims and its tick request.
-/

namespace Sys2Proof.Proofs

set_option Elab.async false

open Sys2Proof Sys2Proof.Machine Sys2Proof.Laws

/-! ## The tickets of the port (R168) -/

section Ring
variable {d : Dev} {p : Port} {t : Ticket} {ts : List Ticket}

/-- R139: `n` buffers of a port back in the pool. -/
def givenBack (b : Pool) (p : Port) (n : Nat) : Pool := { free := b.free + n, held := b.held.modify p (fun h => h - n) }

theorem givenBack_zero (b : Pool) : givenBack b p 0 = b := by simp [givenBack]

theorem givenBack_givenBack (b : Pool) (m n : Nat) : givenBack (givenBack b p m) p n = givenBack b p (m + n) := by
  simp only [givenBack, modify_modify, Nat.add_assoc, Nat.sub_sub]

/-- R168: a ticket that a restart removes. -/
def goes (t : Ticket) : Bool := t.state != .running

/-- R22, R168: a ticket whose reservation a restart removes. -/
def scrubs (t : Ticket) : Bool := t.state == .queued && t.stage == .reserved

/-- R168: the ring after the restart of one of its tickets. -/
def ringRestarted (t : Ticket) (ring : List Ticket) : List Ticket :=
  if goes t then ring.filter (fun u => u.number != t.number)
  else ring.map (fun u => if u.number == t.number then { u with orphan := true } else u)

/-- R168: a port's reservations are dropped, where `drops` holds. -/
def reservationsLeft (d : Dev) (p : Port) (drops : Bool) : List Reservation :=
  if drops then d.reservations.filter (fun r => r.port != p) else d.reservations

/-- R168: the shared side with `n` buffers of the port back, its reservation dropped where `drops` holds, and its ring
changed by `f`. -/
def ringChanged (d : Dev) (p : Port) (n : Nat) (drops : Bool) (f : List Ticket → List Ticket) : Dev :=
  ({ d with pool := givenBack d.pool p n, reservations := reservationsLeft d p drops } : Dev).modifyPort p
    (fun q => { q with ring := f q.ring })

theorem reservationsLeft_twice (d e : Dev) (a b : Bool) (h : e.reservations = reservationsLeft d p a) :
    reservationsLeft e p b = reservationsLeft d p (a || b) := by
  unfold reservationsLeft at h ⊢
  rw [h]
  cases a <;> cases b <;> simp [List.filter_filter]

theorem ringChanged_ringChanged (d : Dev) (p : Port) (m n : Nat) (a b : Bool) (f g : List Ticket → List Ticket) :
    ringChanged (ringChanged d p m a f) p n b g = ringChanged d p (m + n) (a || b) (fun r => g (f r)) := by
  have hleft : reservationsLeft (ringChanged d p m a f) p b = reservationsLeft d p (a || b) :=
    reservationsLeft_twice d _ a b rfl
  have hpool : givenBack (ringChanged d p m a f).pool p n = givenBack d.pool p (m + n) := givenBack_givenBack d.pool m n
  have hwhole : ringChanged (ringChanged d p m a f) p n b g =
      ({ (ringChanged d p m a f) with
          pool := givenBack (ringChanged d p m a f).pool p n
          reservations := reservationsLeft (ringChanged d p m a f) p b } : Dev).modifyPort p
        (fun q => { q with ring := g q.ring }) := rfl
  rw [hwhole, hleft, hpool]
  simp only [ringChanged, Dev.modifyPort, modify_modify]

/-- How many buffers a ticket that goes gives back. -/
def buffersOf (t : Ticket) : Nat := if goes t && t.buffer.isSome then 1 else 0

/-- R168: the restart of one ticket. -/
theorem restartTicket_eq (d : Dev) (t : Ticket) :
    Dev.restartTicket p t d = ringChanged d p (buffersOf t) (scrubs t) (ringRestarted t) := by
  have hremoved (e : Dev) (b : Bool) (hgoes : goes t = true) (hb : b = t.buffer.isSome)
      (he : e = { d with reservations := reservationsLeft d p (scrubs t) }) :
      (e.giveBufferIf p b).removeTicket p t.number = ringChanged d p (buffersOf t) (scrubs t) (ringRestarted t) := by
    rw [he, hb, giveBufferIf_eq]
    have hpool : (if t.buffer.isSome then d.pool.give p else d.pool) = givenBack d.pool p (buffersOf t) := by
      unfold buffersOf
      rw [hgoes, Bool.true_and]
      cases t.buffer.isSome
      · exact (givenBack_zero d.pool).symm
      · rfl
    have hring : ringRestarted t = fun ring => ring.filter (fun u => u.number != t.number) := funext fun ring => if_pos hgoes
    unfold ringChanged Dev.removeTicket Dev.setRing
    rw [hring, ← hpool]
    exact modifyPort_congr rfl
  have hended (hrun : Dev.restartTicket p t d = (d.giveBufferIf p t.buffer.isSome).removeTicket p t.number)
      (hgoes : goes t = true) (hscrubs : scrubs t = false) :
      Dev.restartTicket p t d = ringChanged d p (buffersOf t) (scrubs t) (ringRestarted t) :=
    hrun.trans (hremoved d _ hgoes rfl (by rw [hscrubs]; rfl))
  cases hstate : t.state with
  | running =>
    have hstays : goes t = false := by simp [goes, hstate]
    have hscrubs : scrubs t = false := by simp [scrubs, hstate]
    have hnone : buffersOf t = 0 := by simp [buffersOf, hstays]
    have hring : ringRestarted t = fun ring => ring.map (fun u => if u.number == t.number then { u with orphan := true } else u) :=
      funext fun ring => if_neg (by simp [hstays])
    have hrun : Dev.restartTicket p t d = d.modifyTicket p t.number (fun u => { u with orphan := true }) := by
      simp only [Dev.restartTicket, hstate]
    unfold ringChanged
    rw [hrun, hscrubs, hnone, givenBack_zero, hring]
    exact modifyPort_congr rfl
  | queued =>
    have hrun : Dev.restartTicket p t d =
        ((if t.stage == .reserved then d.dropReservation p else d).giveBufferIf p t.buffer.isSome).removeTicket p t.number := by
      simp only [Dev.restartTicket, hstate]
    rw [hrun]
    refine hremoved _ _ (by simp [goes, hstate]) rfl ?_
    have hscrubs : scrubs t = (t.stage == .reserved) := by simp [scrubs, hstate]
    rw [hscrubs]
    cases t.stage == .reserved <;> rfl
  | done => exact hended (by simp only [Dev.restartTicket, hstate]) (by simp [goes, hstate]) (by simp [scrubs, hstate])
  | failed => exact hended (by simp only [Dev.restartTicket, hstate]) (by simp [goes, hstate]) (by simp [scrubs, hstate])
  | cancelled => exact hended (by simp only [Dev.restartTicket, hstate]) (by simp [goes, hstate]) (by simp [scrubs, hstate])

theorem restartTickets_eq (ts : List Ticket) (d : Dev) :
    d.forEach ts (Dev.restartTicket p) =
      ringChanged d p (ts.map buffersOf).sum (ts.any scrubs) (fun ring => ts.foldl (fun r t => ringRestarted t r) ring) := by
  induction ts generalizing d with
  | nil =>
    show d = _
    simp [ringChanged, givenBack_zero, reservationsLeft, Dev.modifyPort]
  | cons t ts ih =>
    have hstep : d.forEach (t :: ts) (Dev.restartTicket p) = (Dev.restartTicket p t d).forEach ts (Dev.restartTicket p) := rfl
    rw [hstep, ih, restartTicket_eq, ringChanged_ringChanged]
    simp

/-- R168: the tickets that stay, as orphans. -/
def orphaned (ring : List Ticket) : List Ticket :=
  (ring.filter (fun t => t.state == .running)).map (fun t => { t with orphan := true })

theorem mem_orphaned_number {u : Ticket} (h : u ∈ orphaned ts) : ∃ v ∈ ts, v.number = u.number := by
  obtain ⟨v, hv, rfl⟩ := List.mem_map.mp h
  exact ⟨v, (List.mem_filter.mp hv).1, rfl⟩

/-- R168: the tickets restarted one after another, those of `done` before. -/
theorem foldl_ringRestarted (done ts : List Ticket) (hnodup : ((done ++ ts).map (fun t => t.number)).Nodup) :
    ts.foldl (fun r t => ringRestarted t r) (orphaned done ++ ts) = orphaned (done ++ ts) := by
  induction ts generalizing done with
  | nil => simp
  | cons t ts ih =>
    have hothers : ∀ u ∈ orphaned done ++ ts, u.number ≠ t.number := by
      have hsplit := hnodup
      rw [List.map_append, List.map_cons, List.nodup_middle, List.nodup_cons, ← List.map_append] at hsplit
      intro u hu hnum
      refine hsplit.1 (List.mem_map.mpr ?_)
      rcases List.mem_append.mp hu with hu | hu
      · obtain ⟨v, hv, hvn⟩ := mem_orphaned_number hu
        exact ⟨v, List.mem_append_left _ hv, hvn.trans hnum⟩
      · exact ⟨u, List.mem_append_right _ hu, hnum⟩
    have hstep : ringRestarted t (orphaned done ++ t :: ts) = orphaned (done ++ [t]) ++ ts := by
      have hkept : ∀ l : List Ticket, (∀ u ∈ l, u.number ≠ t.number) →
          l.filter (fun u => u.number != t.number) = l ∧
            l.map (fun u => if u.number == t.number then { u with orphan := true } else u) = l := fun l hl =>
        ⟨List.filter_eq_self.mpr fun u hu => by simpa using hl u hu,
          (List.map_congr_left fun u hu => by simp [hl u hu]).trans (List.map_id _)⟩
      obtain ⟨hfilter, hmap⟩ := hkept (orphaned done) fun u hu => hothers u (List.mem_append_left _ hu)
      obtain ⟨hfilter', hmap'⟩ := hkept ts fun u hu => hothers u (List.mem_append_right _ hu)
      have horphaned : orphaned (done ++ [t]) = orphaned done ++ orphaned [t] := by simp [orphaned]
      rw [horphaned]
      unfold ringRestarted
      by_cases hrunning : t.state = .running
      · have hstays : goes t = false := by simp [goes, hrunning]
        have hlast : orphaned [t] = [{ t with orphan := true }] := by simp [orphaned, hrunning]
        rw [hstays, if_neg Bool.false_ne_true, List.map_append, List.map_cons, hmap, hmap', hlast]
        simp
      · have hgoes : goes t = true := by simp [goes, hrunning]
        have hlast : orphaned [t] = [] := by simp [orphaned, hrunning]
        rw [hgoes, if_pos rfl, List.filter_append, List.filter_cons, hfilter, hfilter', hlast]
        simp
    rw [List.foldl_cons, hstep]
    simpa using ih (done ++ [t]) (by simpa using hnodup)

/-- R168: the whole ring. -/
theorem restartRing_eq (hnodup : ((d.ring p).map (fun t => t.number)).Nodup) :
    d.restartRing p = ringChanged d p ((d.ring p).map buffersOf).sum ((d.ring p).any scrubs) orphaned := by
  rw [Dev.restartRing, restartTickets_eq]
  unfold ringChanged
  refine modifyPort_congr ?_
  have hring : (d.ring p).foldl (fun r t => ringRestarted t r) (d.ring p) = orphaned (d.ring p) := by
    simpa [orphaned] using foldl_ringRestarted [] (d.ring p) (by simpa using hnodup)
  exact congrArg (fun r => ({ d.port p with ring := r } : PortState)) hring

theorem sum_buffersOf (ring : List Ticket) :
    (ring.map buffersOf).sum = ((ring.filter (fun t => t.state != .running)).filter (fun t => t.buffer.isSome)).length := by
  induction ring with
  | nil => rfl
  | cons t ring ih =>
    have hgoes : goes t = (t.state != .running) := rfl
    rw [List.map_cons, List.sum_cons, ih, buffersOf, hgoes, List.filter_cons]
    cases hrun : t.state != .running
    · simp
    · cases hbuffer : t.buffer.isSome <;> simp [hbuffer, Nat.add_comm]

theorem any_scrubs (ring : List Ticket) :
    ring.any scrubs =
      (ring.filter (fun t => t.state != .running)).any (fun t => t.state == .queued && t.stage == .reserved) := by
  induction ring with
  | nil => rfl
  | cons t ring ih =>
    rw [List.any_cons, ih, List.filter_cons]
    cases hstate : t.state <;> simp [scrubs, hstate]

end Ring

/-! ## The claims, the tick request and the whole restart -/

section Restart
variable {d : Dev} {p : Port} {s : State}

/-- R169: the claims of the port after its restart. -/
theorem restartEntry_eq (p : Port) (e : Entry) :
    restartEntry p e = if e.owner = p ∧ e.claim ≠ .committing then { e with claim := .unclaimed } else e := by
  have hclaim : restartClaim e.claim = if e.claim ≠ .committing then .unclaimed else e.claim := by
    cases e.claim <;> rfl
  unfold restartEntry
  rw [hclaim]
  by_cases ho : e.owner = p
  · by_cases hc : e.claim = .committing
    · rw [if_pos ho, if_neg (not_not.mpr hc), if_neg fun h => h.2 hc]
    · rw [if_pos ho, if_pos hc, if_pos ⟨ho, hc⟩]
  · rw [if_neg ho, if_neg fun h => ho h.1]

/-- R170: the Journal Writer's queue with the step of a restart. -/
def queueTicked (w : Writer) (p : Port) : List Request :=
  if w.tickWaiting p then w.queue.map (addTickStep p) else w.queue ++ [.tick p 1]

/-- R170, R171: the tick request of a restart joins the queue. -/
theorem restartTick_eq (hgood : d.writer.condition = .good) :
    d.restartTick p =
      ({ d with writer := { d.writer with queue := queueTicked d.writer p } } : Dev).modifyPort p
        (fun q => { q with tickPending := true }) := by
  have hstep : d.restartTick p =
      (if d.writer.tickWaiting p then d.modifyWriter (fun w => { w with queue := w.queue.map (addTickStep p) })
        else d.enqueue (.tick p 1)).setTick p true := by
    simp only [Dev.restartTick, hgood]
  rw [hstep, queueTicked]
  cases d.writer.tickWaiting p <;> rfl

/-- R166, R169: another port's claims stay at a restart. -/
theorem holdsClaim_restarted {t : Table} {q : Port} (hq : q ≠ p) (ht : t = d.table.map (restartEntry p))
    (h : ({ d with table := t } : Dev).holdsClaim q = true) : d.holdsClaim q = true := by
  simp only [Dev.holdsClaim, List.any_eq_true, Bool.and_eq_true, bne_iff_ne, beq_iff_eq] at h ⊢
  obtain ⟨i, hi, ⟨hdefined, howner⟩, hclaim⟩ := h
  have hlt : i < 24 := List.mem_range.mp hi
  have hentry : ({ d with table := t } : Dev).entry i = restartEntry p (d.entry i) := by
    rw [ht]
    simp [Dev.entry, Table.entry, hlt]
  rw [hentry] at hdefined howner hclaim
  have hother : (d.entry i).owner ≠ p := fun ho => by
    rw [restartEntry, if_pos ho] at howner
    exact hq (howner.symm.trans ho)
  rw [restartEntry, if_neg hother] at hdefined howner hclaim
  exact ⟨i, hi, ⟨hdefined, howner⟩, hclaim⟩

end Restart

/-- Settles O55: ring, claims and tick request, after which nothing else falls with the event. -/
theorem portRestarts : Obligations.PortRestarts := by
  intro p s hrestart hout hshort hmay hleases hgood hwithin ring gone frame freed waits
  obtain ⟨_, hnodup, _, _⟩ := hwithin p
  obtain ⟨x, hx⟩ : ∃ x : Dev, x = ({ s.dev with
      pool := givenBack s.dev.pool p freed
      reservations := reservationsLeft s.dev p (gone.any (fun t => t.state == .queued && t.stage == .reserved))
      table := s.dev.table.map (restartEntry p)
      writer := { s.dev.writer with queue := queueTicked s.dev.writer p } } : Dev).modifyPort p (fun q =>
        { ring := orphaned q.ring, nextNumber := 1, events := .empty, leaseSetting := 100, leaseTime := 1000000,
          tickPending := true }) := ⟨_, rfl⟩
  have hrun : (s.dev.giveBufferIf p frame).restartPort p = x := by
    have hgiven : s.dev.giveBufferIf p frame = { s.dev with pool := givenBack s.dev.pool p (if frame = true then 1 else 0) } := by
      rw [giveBufferIf_eq]
      cases frame
      · rw [if_neg Bool.false_ne_true, if_neg Bool.false_ne_true, givenBack_zero]
      · rfl
    obtain ⟨e, he⟩ : ∃ e, e = (s.dev.giveBufferIf p frame).modifyPort p PortState.restart := ⟨_, rfl⟩
    have hring : e.ring p = s.dev.ring p := by
      rw [he, hgiven]
      simp [Dev.ring, PortState.restart, Dev.port]
    have hringed := restartRing_eq (d := e) (p := p) (by rw [hring]; exact hnodup)
    rw [hring, sum_buffersOf, any_scrubs, ringChanged] at hringed
    have hclaimed : (e.restartRing p).restartClaims p = { (e.restartRing p) with table := e.table.map (restartEntry p) } := by
      rw [hringed]
      rfl
    have hcondition : ((e.restartRing p).restartClaims p).writer.condition = .good := by
      rw [hclaimed, hringed, he, hgiven]
      exact hgood
    have hwhole : (s.dev.giveBufferIf p frame).restartPort p = ((e.restartRing p).restartClaims p).restartTick p := by
      rw [he]
      rfl
    rw [hwhole, restartTick_eq hcondition, hclaimed, hringed, he, hgiven, hx]
    have hpool : givenBack (givenBack s.dev.pool p (if frame = true then 1 else 0)) p
        ((gone.filter (fun t => t.buffer.isSome)).length) = givenBack s.dev.pool p freed := by
      rw [givenBack_givenBack, Nat.add_comm]
    simp only [Dev.modifyPort, modify_modify]
    rw [← hpool]
    rfl
  have hport (q : Port) (hq : q ≠ p) : x.port q = s.dev.port q := by rw [hx, modifyPort_port, if_neg hq]; rfl
  have hstill : x.Still := by
    refine ⟨by rw [hx]; exact hshort, .inl (by rw [hx]; exact hmay), fun q hruns => ?_⟩
    by_cases hq : q = p
    · rw [hq, hx, modifyPort_port_same]
      exact Nat.succ_ne_zero 999999
    · have hclaims : s.dev.holdsClaim q = true := by
        have hholds : x.holdsClaim q = true := (Bool.and_eq_true_iff.mp (Bool.and_eq_true_iff.mp hruns).1).1
        rw [hx] at hholds
        exact holdsClaim_restarted hq rfl hholds
      rw [hport q hq]
      refine hleases q ?_
      have hrunning : x.hasRunning q = s.dev.hasRunning q := by
        unfold Dev.hasRunning Dev.ring
        rw [hport q hq]
      unfold Dev.leaseRuns at hruns ⊢
      rw [hrunning, hport q hq] at hruns
      rw [hclaims]
      simp only [Bool.and_eq_true] at hruns ⊢
      exact ⟨⟨trivial, hruns.1.2⟩, hruns.2⟩
  have hexec : exec (.hrstAssert p) s =
      .next ((s.modifyHost p HostPort.restarted).modifyDev (fun d => Dev.settle d ((d.giveBufferIf p frame).restartPort p))) := by
    show execHrstAssert p s = _
    simp only [execHrstAssert, hrestart, hout, Bool.false_eq_true, if_false, if_true]
    rfl
  have hsettled : Dev.settle s.dev ((s.dev.giveBufferIf p frame).restartPort p) = x := by
    rw [hrun]
    exact settle_of_still s.dev x hstill
  have hafter : (s.modifyHost p HostPort.restarted).modifyDev (fun d => Dev.settle d ((d.giveBufferIf p frame).restartPort p)) =
      { s.modifyHost p HostPort.restarted with dev := x } := by
    rw [← hsettled]
    rfl
  have htable : s.dev.table.map (restartEntry p) = s.dev.table.map (fun e =>
      if e.owner = p ∧ e.claim ≠ .committing then { e with claim := .unclaimed } else e) :=
    congrArg (fun f => s.dev.table.map f) (funext (restartEntry_eq p))
  have hqueue : queueTicked s.dev.writer p =
      if waits then s.dev.writer.queue.map (fun r =>
          match r with
          | .tick q n => if q = p then .tick q (min 15 (n + 1)) else r
          | .host _ _ _ => r)
        else s.dev.writer.queue ++ [.tick p 1] := rfl
  rw [hexec, hafter, hx, htable, hqueue]
  rfl

end Sys2Proof.Proofs

/-!
PROOF. Journal pages (R63, R65, R66, R182): a page that is written reads back, field by field.
-/

namespace Sys2Proof.Proofs

set_option Elab.async false

open Sys2Proof Sys2Proof.Machine Sys2Proof.Laws

/-! ## Fields at their place -/

section Holds
variable {bs x y : List Byte} {n : Nat} {b : Byte}

/-- The bytes `x` stand in `bs` from byte `n` on. -/
def Holds (bs : List Byte) (n : Nat) (x : List Byte) : Prop := ∀ k, k < x.length → bs.getD (n + k) 0 = x.getD k 0

theorem holds_append : Holds bs n (x ++ y) ↔ Holds bs n x ∧ Holds bs (n + x.length) y := by
  refine ⟨fun h => ⟨fun k hk => ?_, fun k hk => ?_⟩, fun ⟨hx, hy⟩ k hk => ?_⟩
  · rw [h k (by simp; omega), List.getD_append _ _ _ _ hk]
  · rw [Nat.add_assoc, h (x.length + k) (by simp; omega), List.getD_append_right _ _ _ _ (Nat.le_add_right _ _),
      Nat.add_sub_cancel_left]
  · by_cases hlt : k < x.length
    · rw [hx k hlt, List.getD_append _ _ _ _ hlt]
    · rw [List.getD_append_right _ _ _ _ (Nat.le_of_not_lt hlt),
        ← hy (k - x.length) (by rw [List.length_append] at hk; omega)]
      congr 1
      omega

theorem holds_nil : Holds bs n [] ↔ True := by simp [Holds]

theorem holds_cons : Holds bs n (b :: x) ↔ bs.getD n 0 = b ∧ Holds bs (n + 1) x := by
  have hsplit : b :: x = [b] ++ x := rfl
  have hone : Holds bs n [b] ↔ bs.getD n 0 = b := by
    refine ⟨fun h => h 0 Nat.one_pos, fun h k hk => ?_⟩
    obtain rfl : k = 0 := Nat.lt_one_iff.mp hk
    exact h
  rw [hsplit, holds_append, hone]
  rfl

/-- Bytes at their place after the first `n`. -/
theorem holds_of_append (pre post : List Byte) (h : n = pre.length) : Holds (pre ++ (x ++ post)) n x := by
  intro k hk
  rw [h, List.getD_append_right _ _ _ _ (Nat.le_add_right _ _), Nat.add_sub_cancel_left, List.getD_append _ _ _ _ hk]

theorem half16At_of_holds {w : Half16} (h : Holds bs n (bytesOf16 w)) : half16At bs n = w := by
  have h0 := h 0 (by simp)
  have h1 := h 1 (by simp)
  rw [half16At, h1, show bs.getD n 0 = _ from h0]
  exact join16 w

theorem word32At_of_holds {w : Word32} (h : Holds bs n (bytesOf32 w)) : word32At bs n = w := by
  have h0 := h 0 (by simp)
  rw [word32At, h 1 (by simp), h 2 (by simp), h 3 (by simp), show bs.getD n 0 = _ from h0]
  exact join32 w

end Holds

/-! ## A record's page (R63) -/

section Page
variable {q : Word32} {kind : Byte} {body : List Byte}

theorem recordBytes_length (q : Word32) (kind : Byte) (body : List Byte) : (recordBytes q kind body).length = 252 := by
  rw [recordBytes, List.length_take, List.length_append, List.length_replicate]
  omega

theorem recordPage_length (q : Word32) (kind : Byte) (body : List Byte) : (recordPage q kind body).length = 256 := by
  rw [recordPage, List.length_append, recordBytes_length, bytesOf32_length]

/-- R63: the sequence, kind and body of a record at their places. -/
theorem recordPage_holds (hbody : body.length ≤ 247) :
    Holds (recordPage q kind body) 0 (bytesOf32 q) ∧ (recordPage q kind body).getD 4 0 = kind ∧
      Holds (recordPage q kind body) 5 body := by
  have hfits : (bytesOf32 q ++ [kind] ++ body).length ≤ 252 := by
    rw [List.length_append, List.length_append, bytesOf32_length, List.length_singleton]
    omega
  have hbytes : recordBytes q kind body =
      (bytesOf32 q ++ [kind] ++ body) ++ (List.replicate 252 0).take (252 - (bytesOf32 q ++ [kind] ++ body).length) := by
    rw [recordBytes, List.take_append, List.take_of_length_le hfits]
  have hwhole : Holds (recordPage q kind body) 0 (bytesOf32 q ++ [kind] ++ body) := by
    rw [recordPage, hbytes, List.append_assoc]
    exact holds_of_append [] _ rfl
  obtain ⟨hhead, hrest⟩ := holds_append.mp hwhole
  obtain ⟨hsequence, hkind⟩ := holds_append.mp hhead
  exact ⟨hsequence, (holds_cons.mp hkind).1, hrest⟩

/-- R63: a record's page is valid and gives back its sequence and kind. -/
theorem classifyPage_recordPage (hkind : kind ≠ 0xFF) (hbody : body.length ≤ 247) :
    classifyPage (recordPage q kind body) = .valid q kind := by
  obtain ⟨hsequence, hbyte, _⟩ := recordPage_holds (q := q) (kind := kind) hbody
  have hwritten : ¬ (recordPage q kind body).all (· == 0xFF) = true := fun hall => by
    have hlt : 4 < (recordPage q kind body).length := by rw [recordPage_length]; omega
    have hmem : (recordPage q kind body)[4] ∈ recordPage q kind body := List.getElem_mem hlt
    rw [List.getD_eq_getElem _ _ hlt] at hbyte
    exact hkind (hbyte.symm.trans (beq_iff_eq.mp (List.all_eq_true.mp hall _ hmem)))
  have hcheck : word32At (recordPage q kind body) 252 = crc32 ((recordPage q kind body).take 252) := by
    have htake : (recordPage q kind body).take 252 = recordBytes q kind body :=
      List.take_left' (recordBytes_length q kind body)
    rw [htake]
    refine word32At_of_holds ?_
    have hplace := holds_of_append (n := 252) (x := bytesOf32 (crc32 (recordBytes q kind body))) (recordBytes q kind body) []
      (recordBytes_length q kind body).symm
    rwa [List.append_nil] at hplace
  rw [classifyPage, if_neg hwritten, if_pos hcheck, word32At_of_holds hsequence, hbyte]

end Page

/-! ## Field codes read back (section 12.2) -/

section Codes

theorem portOfCode_portCode (p : Port) : portOfCode (portCode p) = some p := by cases p <;> rfl

theorem kindOfCode_kindCode (k : PartKind) : kindOfCode (kindCode k) = some k := by cases k <;> rfl

theorem boolOfCode_byteOfBool (b : Bool) : boolOfCode (byteOfBool b) = some b := by cases b <;> rfl

theorem copyOfCode_copyCode (c : Option Copy) : copyOfCode (copyCode c) = some c := by rcases c with _ | (_ | _) <;> rfl

theorem imagePhaseOfCode_imagePhaseCode (x : ImagePhase) : imagePhaseOfCode (imagePhaseCode x) = some x := by cases x <;> rfl

theorem readersOfCode_readersCode (r : Readers) : readersOfCode (readersCode r) = some r := by revert r; decide

theorem budgetOfCode_budgetCode (b : BitVec 4) : budgetOfCode (budgetCode b) = some b := by revert b; decide

theorem indexOfCode_byteOfNat {i : Nat} (h : i < 24) : indexOfCode (byteOfNat i) = some i := by
  have hmod : (byteOfNat i).toNat = i := by
    rw [byteOfNat, BitVec.toNat_ofNat]
    omega
  rw [indexOfCode_of_lt (by rw [hmod]; exact h), hmod]

end Codes

/-! ## Change records (R65) -/

theorem changeBody_length (c : Change) : (changeBody c).length ≤ 243 := by
  cases c <;> simp [changeBody]

theorem changeKind_ne (c : Change) : changeKind c ≠ 0xFF := by
  unfold changeKind
  split <;> decide

/-- R65, R182: the change that stands in a page after its kind and retry field. -/
theorem changeOfPage_of_holds {page : List Byte} {c : Change} (hkind : page.getD 4 0 = changeKind c)
    (hbody : Holds page 9 (changeBody c)) (hencodable : c.encodable = true) : changeOfPage page = some c := by
  cases c with
  | define i k o base size r label =>
    have hkind : page.getD 4 0 = 0x10 := hkind
    simp only [changeBody, holds_append, holds_cons, List.length_append, List.length_cons, List.length_nil,
      bytesOf16_length, Nat.reduceAdd] at hbody
    obtain ⟨⟨⟨⟨⟨hi, hk, ho, _⟩, hbase⟩, hsize⟩, hr, _⟩, hlabel⟩ := hbody
    simp only [Change.encodable, Bool.and_eq_true, decide_eq_true_eq, Bool.not_eq_true'] at hencodable
    obtain ⟨⟨⟨hlt, hreaders⟩, hone⟩, htop⟩ := hencodable
    have hone' : ¬ size.toNat < 1 := by omega
    have hlimit : k = .plain ∧ ¬ 4088 < size.toNat ∨ k = .image ∧ ¬ 2044 < size.toNat := by
      cases k
      · exact .inl ⟨rfl, Nat.not_lt.mpr (of_decide_eq_true htop)⟩
      · exact .inr ⟨rfl, Nat.not_lt.mpr (of_decide_eq_true htop)⟩
    simp only [changeOfPage, hkind, hi, hk, ho, hr, indexOfCode_byteOfNat hlt, kindOfCode_kindCode, portOfCode_portCode,
      readersOfCode_readersCode, half16At_of_holds hbase, half16At_of_holds hsize, word32At_of_holds hlabel]
    rcases hlimit with ⟨rfl, hlimit⟩ | ⟨rfl, hlimit⟩
    · simp [Config.maxPlainSize, hreaders, hone', hlimit]
    · simp [Config.maxImageSize, hreaders, hone', hlimit]
  | delete i serial =>
    have hkind : page.getD 4 0 = 0x11 := hkind
    simp only [changeBody, holds_cons, Nat.reduceAdd] at hbody
    obtain ⟨hi, hserial⟩ := hbody
    have hlt : i < 24 := of_decide_eq_true hencodable
    simp only [changeOfPage, hkind, hi, indexOfCode_byteOfNat hlt, word32At_of_holds hserial]
    rfl
  | grant i serial r =>
    have hkind : page.getD 4 0 = 0x12 := hkind
    simp only [changeBody, holds_append, holds_cons, bytesOf32_length, Nat.reduceAdd] at hbody
    obtain ⟨hi, hserial, hr, _⟩ := hbody
    have hlt : i < 24 := of_decide_eq_true hencodable
    simp only [changeOfPage, hkind, hi, hr, indexOfCode_byteOfNat hlt, word32At_of_holds hserial, readersOfCode_readersCode]
    rfl
  | fix i serial =>
    have hkind : page.getD 4 0 = 0x13 := hkind
    simp only [changeBody, holds_cons, Nat.reduceAdd] at hbody
    obtain ⟨hi, hserial⟩ := hbody
    have hlt : i < 24 := of_decide_eq_true hencodable
    simp only [changeOfPage, hkind, hi, indexOfCode_byteOfNat hlt, word32At_of_holds hserial]
    rfl
  | dropFallback i serial =>
    have hkind : page.getD 4 0 = 0x20 := hkind
    simp only [changeBody, holds_cons, Nat.reduceAdd] at hbody
    obtain ⟨hi, hserial⟩ := hbody
    have hlt : i < 24 := of_decide_eq_true hencodable
    simp only [changeOfPage, hkind, hi, indexOfCode_byteOfNat hlt, word32At_of_holds hserial]
    rfl
  | commit i serial copy length check budget =>
    have hkind : page.getD 4 0 = 0x21 := hkind
    simp only [changeBody, holds_append, holds_cons, List.length_append, List.length_cons, List.length_nil,
      bytesOf32_length, Nat.reduceAdd] at hbody
    obtain ⟨hi, ⟨⟨⟨hserial, hcopy, _⟩, hlength⟩, hcheck⟩, hbudget, _⟩ := hbody
    have hlt : i < 24 := of_decide_eq_true hencodable
    simp only [changeOfPage, hkind, hi, hcopy, hbudget, indexOfCode_byteOfNat hlt, word32At_of_holds hserial,
      word32At_of_holds hlength, word32At_of_holds hcheck, copyOfCode_copyCode, budgetOfCode_budgetCode]
    rfl
  | confirm i serial =>
    have hkind : page.getD 4 0 = 0x22 := hkind
    simp only [changeBody, holds_cons, Nat.reduceAdd] at hbody
    obtain ⟨hi, hserial⟩ := hbody
    have hlt : i < 24 := of_decide_eq_true hencodable
    simp only [changeOfPage, hkind, hi, indexOfCode_byteOfNat hlt, word32At_of_holds hserial]
    rfl
  | revert i serial settledCase =>
    have hkind : page.getD 4 0 = 0x23 := hkind
    simp only [changeBody, holds_append, holds_cons, bytesOf32_length, Nat.reduceAdd] at hbody
    obtain ⟨hi, hserial, hcase, _⟩ := hbody
    have hlt : i < 24 := of_decide_eq_true hencodable
    simp only [changeOfPage, hkind, hi, hcase, indexOfCode_byteOfNat hlt, word32At_of_holds hserial, boolOfCode_byteOfBool]
    rfl
  | tick p n =>
    have hkind : page.getD 4 0 = 0x30 := hkind
    simp only [changeBody, holds_cons, Nat.reduceAdd] at hbody
    obtain ⟨hp, hn, _⟩ := hbody
    have hlt : n < 256 := of_decide_eq_true hencodable
    have hsteps : (byteOfNat n).toNat = n := by
      rw [byteOfNat, BitVec.toNat_ofNat]
      exact Nat.mod_eq_of_lt hlt
    simp only [changeOfPage, hkind, hp, hn, portOfCode_portCode, hsteps]
    rfl

/-- Settles O25: the page's fields at their places, read back by their codes. -/
theorem changeRecordRoundTrip : Obligations.ChangeRecordRoundTrip := by
  intro q retryOf c hencodable
  have hlength : (bytesOf32 (retryOf.getD 0) ++ changeBody c).length ≤ 247 := by
    rw [List.length_append, bytesOf32_length]
    have hbody := changeBody_length c
    omega
  obtain ⟨_, hkind, hfields⟩ := recordPage_holds (q := q) (kind := changeKind c) hlength
  obtain ⟨hretry, hbody⟩ := holds_append.mp hfields
  exact ⟨recordPage_length _ _ _, classifyPage_recordPage (changeKind_ne c) hlength,
    changeOfPage_of_holds hkind hbody hencodable, word32At_of_holds hretry⟩

end Sys2Proof.Proofs

/-!
PROOF. Checkpoints (R66, R88, R182): the six entries of a body read back as they stood in the capture.
-/

namespace Sys2Proof.Proofs

set_option Elab.async false

open Sys2Proof Sys2Proof.Machine Sys2Proof.Laws

/-! ## One entry (section 12.3) -/

section Entry
variable {e : Entry} {bs : List Byte} {n : Nat}

theorem entryBytes_length (e : Entry) : (entryBytes e).length = 41 := by
  unfold entryBytes
  split
  · cases e.kind <;> rfl
  · exact List.length_replicate

/-- R14: the image fields of a PLAIN entry are written as they are, all zero. -/
theorem imageBytes_of_zero (h : e.imageFieldsZero = true) : imageBytes e = List.replicate 24 0 := by
  simp only [Entry.imageFieldsZero, Bool.and_eq_true, Option.isNone_iff_eq_none, beq_iff_eq, Bool.not_eq_true'] at h
  obtain ⟨⟨⟨⟨⟨⟨⟨⟨hlive, hphase⟩, hattempts⟩, hfallback⟩, hgeneration⟩, hlength⟩, hcheck⟩, hlength'⟩, hcheck'⟩ := h
  rw [imageBytes, hlive, hphase, hattempts, hfallback, hgeneration, hlength, hcheck, hlength', hcheck']
  decide

/-- Section 12.3: the bytes of a defined entry that is sound. -/
theorem entryBytes_defined (hd : e.defined = true) (hsound : e.sound = true) : entryBytes e =
    [byteOfBool e.defined, kindCode e.kind, portCode e.owner] ++ bytesOf16 e.base ++ bytesOf16 e.size ++
      [readersCode e.readers, byteOfBool e.fixed] ++ bytesOf32 e.label ++ bytesOf32 e.serial ++ imageBytes e := by
  rw [entryBytes, if_pos hd]
  rw [Entry.sound, if_pos hd] at hsound
  cases hkind : e.kind with
  | image => rfl
  | plain =>
    rw [hkind] at hsound
    rw [imageBytes_of_zero (Bool.and_eq_true_iff.mp hsound).2]

/-- R182: a sound entry reads back. -/
theorem entryAt_of_holds (h : Holds bs n (entryBytes e)) (hsound : e.sound = true) (hheld : e.held = false)
    (hclaim : e.claim = .unclaimed) : entryAt bs n = some e := by
  cases hd : e.defined with
  | true =>
    have hreaders : readersHave e.readers e.owner = false := by
      have hparts := hsound
      rw [Entry.sound, if_pos hd] at hparts
      simpa using (Bool.and_eq_true_iff.mp (Bool.and_eq_true_iff.mp hparts).1).1
    rw [entryBytes_defined hd hsound] at h
    simp only [imageBytes, holds_append, holds_cons, List.length_append, List.length_cons, List.length_nil,
      bytesOf32_length, bytesOf16_length, Nat.reduceAdd, Nat.add_assoc] at h
    obtain ⟨⟨⟨⟨⟨⟨⟨hdefined, hkind, howner, _⟩, hbase⟩, hsize⟩, hr, hfixed, _⟩, hlabel⟩, hserial⟩,
      ⟨⟨⟨⟨⟨hlive, hphase, hattempts, hfallback, _⟩, hgeneration⟩, hlength⟩, hcheck⟩, hlength'⟩, hcheck'⟩ := h
    simp only [entryAt, hdefined, hkind, howner, hr, hfixed, hlive, hphase, hattempts, hfallback, boolOfCode_byteOfBool,
      kindOfCode_kindCode, portOfCode_portCode, readersOfCode_readersCode, copyOfCode_copyCode, imagePhaseOfCode_imagePhaseCode,
      budgetOfCode_budgetCode, half16At_of_holds hbase, half16At_of_holds hsize, word32At_of_holds hlabel,
      word32At_of_holds hserial, word32At_of_holds hgeneration, word32At_of_holds hlength, word32At_of_holds hcheck,
      word32At_of_holds hlength', word32At_of_holds hcheck']
    have hsame : ({ e with held := false, claim := .unclaimed } : Entry) = e := by rw [← hheld, ← hclaim]
    simp only [Option.bind_eq_bind, Option.bind_some, hsame, hreaders, hsound, Bool.false_eq_true, if_false, if_true]
    simp only [hd, Bool.not_true, Bool.false_eq_true, if_false]
  | false =>
    have hundefined : e = Entry.undefined := by
      rw [Entry.sound, if_neg (by simp [hd])] at hsound
      have hsame := beq_iff_eq.mp hsound
      rwa [← hheld, ← hclaim] at hsame
    rw [hundefined] at h ⊢
    have hzero (k : Nat) (hk : k < 41) : bs.getD (n + k) 0 = 0 := by
      have hbytes : entryBytes Entry.undefined = List.replicate 41 0 := rfl
      rw [hbytes] at h
      rw [h k (by simpa using hk)]
      interval_cases k <;> rfl
    simp only [entryAt, hzero 1 (by decide), hzero 2 (by decide), hzero 7 (by decide), hzero 8 (by decide), hzero 17 (by decide),
      hzero 18 (by decide), hzero 19 (by decide), hzero 20 (by decide), show bs.getD n 0 = 0 from hzero 0 (by decide)]
    rfl

end Entry

/-! ## The body of a checkpoint (R66, R88) -/

section Body
variable {bs : List Byte} {n : Nat} {f : Nat → List Byte}

theorem mapM_eq_some {α β : Type} {f : α → Option β} {g : α → β} {xs : List α} (h : ∀ x ∈ xs, f x = some (g x)) :
    xs.mapM f = some (xs.map g) := by
  induction xs with
  | nil => rfl
  | cons x xs ih =>
    rw [List.mapM_cons, h x List.mem_cons_self, ih fun y hy => h y (List.mem_cons_of_mem _ hy)]
    rfl

/-- Pieces of 41 bytes one after another stand 41 bytes apart. -/
theorem holds_flatMap (hlength : ∀ j, (f j).length = 41) {m : Nat} (h : Holds bs n ((List.range m).flatMap f)) :
    ∀ j, j < m → Holds bs (n + 41 * j) (f j) := by
  have hwhole (m : Nat) : ((List.range m).flatMap f).length = 41 * m := by
    simp [List.length_flatMap, hlength, Nat.mul_comm]
  induction m with
  | zero => exact fun j hj => absurd hj (Nat.not_lt_zero j)
  | succ m ih =>
    rw [List.range_succ, List.flatMap_append, holds_append, hwhole] at h
    obtain ⟨hbefore, hlast⟩ := h
    intro j hj
    rcases Nat.lt_succ_iff_lt_or_eq.mp hj with hlt | rfl
    · exact ih hbefore j hlt
    · simpa using hlast

end Body

/-- Settles O26: the head, and each body's entries at their places. -/
theorem checkpointRoundTrip : Obligations.CheckpointRoundTrip := by
  intro q capture hsound
  refine ⟨classifyPage_recordPage (by decide) (Nat.zero_le _), fun slot hfirst hlast => ?_⟩
  obtain ⟨f, hf⟩ : ∃ f : Nat → List Byte, f = fun j => entryBytes (Table.entry capture (6 * (slot - 1) + j)) := ⟨_, rfl⟩
  have hlength (j : Nat) : (f j).length = 41 := by rw [hf]; exact entryBytes_length _
  have hbody : ((List.range 6).flatMap f).length ≤ 247 := by
    simp [List.length_flatMap, hlength]
  have hpage : checkpointPage q capture slot = recordPage q bodyKind ((List.range 6).flatMap f) := by
    rw [checkpointPage, if_neg (by omega), hf]
  obtain ⟨_, _, hholds⟩ := recordPage_holds (q := q) (kind := bodyKind) hbody
  rw [hpage]
  refine ⟨recordPage_length _ _ _, classifyPage_recordPage (by decide) hbody, ?_⟩
  refine mapM_eq_some fun j hj => ?_
  have hentry := holds_flatMap hlength hholds j (List.mem_range.mp hj)
  rw [show f j = entryBytes (Table.entry capture (6 * (slot - 1) + j)) from by rw [hf]] at hentry
  obtain ⟨hs, hheld, hclaim⟩ := hsound (6 * (slot - 1) + j)
  exact entryAt_of_holds hentry hs hheld hclaim

end Sys2Proof.Proofs

/-!
PROOF. A frame clocked in two parts (R98, R99, R101): where it is cut leaves its mark in the incomplete byte's bits
and the falling edge to come alone, which no later byte sees and the frame's end drops.
-/

namespace Sys2Proof.Proofs

set_option Elab.async false

open Sys2Proof Sys2Proof.Machine Sys2Proof.Laws

/-! ## What a complete byte changes of the host side (R99) -/

/-- The bytes `bs` are clocked one after another. -/
def clocked (s : State) (p : Port) (bs : List Byte) : State := bs.foldl (fun s b => s.byteDone p b) s

section Byte
variable {s : State} {p : Port} {bs : List Byte} {b : Byte}

theorem clockBytes_eq_clocked (ha : (s.host p).shifter.active = true) : s.clockBytes p bs = clocked s p bs := if_pos ha

theorem clocked_append (cs : List Byte) : clocked s p (bs ++ cs) = clocked (clocked s p bs) p cs := List.foldl_append

theorem clocked_concat : clocked s p (bs ++ [b]) = (clocked s p bs).byteDone p b := clocked_append [b]

/-- R100, R109: what a byte brings about changes of the host side no more than the answer taken, at the last parameter
byte, and the buffer held. -/
theorem onByte_host (s : State) (p : Port) (bs : List Byte) (i : Nat) (b : Byte) :
    ∃ answer buffer, (s.onByte p bs i b).host p =
        { s.host p with shifter := { (s.host p).shifter with answer := answer, buffer := buffer } } ∧
      (answer = (s.host p).shifter.answer ∨ ∃ o nt, opcodeOf (bs.getD 0 0) = some (o, nt) ∧ i = o.paramCount) := by
  have hsame (t : State) (ht : t.host p = s.host p) : ∃ answer buffer, t.host p =
        { s.host p with shifter := { (s.host p).shifter with answer := answer, buffer := buffer } } ∧
      (answer = (s.host p).shifter.answer ∨ ∃ o nt, opcodeOf (bs.getD 0 0) = some (o, nt) ∧ i = o.paramCount) :=
    ⟨(s.host p).shifter.answer, (s.host p).shifter.buffer, ht, .inl rfl⟩
  unfold State.onByte
  split
  · exact hsame s rfl
  next o nt ho =>
    split
    · split
      next hi =>
        unfold State.turnaround
        dsimp only
        split <;> exact ⟨_, _, modifyHost_host_same _ _ _, .inr ⟨o, nt, ho, hi⟩⟩
      · split
        · exact hsame _ rfl
        · exact hsame s rfl
    · split
      · split
        · unfold State.requestFrameBuffer
          dsimp only
          split
          · exact ⟨_, _, modifyHost_host_same _ _ _, .inl rfl⟩
          · exact hsame s rfl
        · split
          · exact ⟨_, _, modifyHost_host_same _ _ _, .inl rfl⟩
          · exact hsame s rfl
      · exact hsame s rfl

/-- R99: a complete byte joins the shifter, and SOn has carried the byte that went out. -/
theorem byteDone_host (s : State) (p : Port) (b : Byte) :
    ∃ answer buffer, (s.byteDone p b).host p =
        { s.host p with
          so := (s.host p).so ++ [(s.host p).shifter.outByte (s.host p).shifter.bytes.length], soBits := []
          shifter := { (s.host p).shifter with
            bytes := (s.host p).shifter.bytes ++ [b], bits := [], answer := answer, buffer := buffer } } ∧
      (answer = (s.host p).shifter.answer ∨
        ∃ o nt, opcodeOf (((s.host p).shifter.bytes ++ [b]).getD 0 0) = some (o, nt) ∧
          (s.host p).shifter.bytes.length = o.paramCount) := by
  obtain ⟨answer, buffer, hhost, hanswer⟩ := onByte_host (s.modifyHost p (fun g =>
    { g with so := g.so ++ [(s.host p).shifter.outByte (s.host p).shifter.bytes.length], soBits := []
             shifter := { (s.host p).shifter with bytes := (s.host p).shifter.bytes ++ [b], bits := [] } }))
    p ((s.host p).shifter.bytes ++ [b]) (s.host p).shifter.bytes.length b
  rw [modifyHost_host_same] at hhost hanswer
  exact ⟨answer, buffer, hhost, hanswer⟩

theorem byteDone_bytes : ((s.byteDone p b).host p).shifter.bytes = (s.host p).shifter.bytes ++ [b] := by
  obtain ⟨_, _, hhost, _⟩ := byteDone_host s p b
  rw [hhost]

theorem clocked_bytes (s : State) (bs : List Byte) :
    ((clocked s p bs).host p).shifter.bytes = (s.host p).shifter.bytes ++ bs := by
  induction bs using List.reverseRecOn with
  | nil => exact (List.append_nil _).symm
  | append_singleton bs b ih => rw [clocked_concat, byteDone_bytes, ih, List.append_assoc]

/-- R101: no byte up to the turnaround byte carries an answer. -/
theorem outByte_parameter {h : Shifter} {o : Opcode} {nt : Bool} (ho : opcodeOf (h.bytes.getD 0 0) = some (o, nt)) {i : Nat}
    (hi : i ≤ o.paramCount + 1) : h.outByte i = 0xFF := by
  unfold Shifter.outByte
  split
  next a c rest _ hbytes =>
    rw [hbytes, List.getD_cons_zero] at ho
    simp only [ho]
    exact if_neg (by omega)
  · rfl

theorem outByte_zero (h : Shifter) : h.outByte 0 = 0xFF := by
  unfold Shifter.outByte
  split
  · split
    · exact if_neg (by omega)
    · rfl
  · rfl

/-- R99: the completion of a byte does not change the byte that went out with it. -/
theorem outByte_byteDone : ((s.byteDone p b).host p).shifter.outByte (s.host p).shifter.bytes.length =
    (s.host p).shifter.outByte (s.host p).shifter.bytes.length := by
  cases hbytes : (s.host p).shifter.bytes with
  | nil => rw [List.length_nil, outByte_zero, outByte_zero]
  | cons c rest =>
    obtain ⟨answer, buffer, hhost, hanswer⟩ := byteDone_host s p b
    rw [hbytes] at hhost hanswer
    rcases hanswer with rfl | ⟨o, nt, ho, hi⟩
    · rw [hhost]
      unfold Shifter.outByte
      simp only [hbytes, List.cons_append]
      cases (s.host p).shifter.answer <;> rfl
    · have hafter : opcodeOf (((s.byteDone p b).host p).shifter.bytes.getD 0 0) = some (o, nt) := by
        rw [hhost]
        exact ho
      have hbefore : opcodeOf ((s.host p).shifter.bytes.getD 0 0) = some (o, nt) := by rwa [hbytes]
      rw [outByte_parameter hafter (by omega), outByte_parameter hbefore (by omega)]

end Byte

/-! ## The bits of an incomplete byte (R99) -/

/-- The state in which the frame in progress stands `soBits` and `bits` into a byte, the falling edge to come or not. -/
def within (s : State) (p : Port) (soBits bits : List Bool) (risen : Bool) : State :=
  s.modifyHost p (fun g => { g with soBits := soBits, shifter := { g.shifter with bits := bits, risen := risen } })

section Within
variable {s : State} {p : Port} {x y : List Bool} {z : Bool}

theorem within_host : (within s p x y z).host p =
    { s.host p with soBits := x, shifter := { (s.host p).shifter with bits := y, risen := z } } := modifyHost_host_same _ _ _

/-- An update of the shifter that reads neither mark commutes with setting them. -/
theorem modifyShifter_within {f : Shifter → Shifter}
    (h : ∀ g bits risen, f { g with bits := bits, risen := risen } = { f g with bits := bits, risen := risen }) :
    (within s p x y z).modifyShifter p f = within (s.modifyShifter p f) p x y z := by
  rw [within, within, modifyShifter_eq, modifyShifter_eq, modifyHost_modifyHost, modifyHost_modifyHost]
  exact modifyHost_congr (by rw [h])

theorem turnaround_within (o : Opcode) (bs : List Byte) :
    (within s p x y z).turnaround p o bs = within (s.turnaround p o bs) p x y z := by
  have hanswer : (within s p x y z).answerTo p o bs = s.answerTo p o bs := answerTo_modifyHost _ _ _ _ _ rfl
  unfold State.turnaround
  dsimp only
  rw [hanswer]
  have hcomm : (within s p x y z).modifyShifter p (fun h => { h with answer := some (s.answerTo p o bs) }) =
      within (s.modifyShifter p (fun h => { h with answer := some (s.answerTo p o bs) })) p x y z :=
    modifyShifter_within fun _ _ _ => rfl
  rw [hcomm]
  split <;> rfl

theorem requestFrameBuffer_within (bs : List Byte) :
    (within s p x y z).requestFrameBuffer p bs = within (s.requestFrameBuffer p bs) p x y z := by
  have hdev : (within s p x y z).dev = s.dev := rfl
  unfold State.requestFrameBuffer
  dsimp only
  rw [hdev]
  by_cases h : s.dev.phase ≠ .mounting ∧ 1 ≤ (half16At bs 6).toNat ∧ (half16At bs 6).toNat ≤ Config.pageBytes ∧
      s.dev.pool.grants p
  · rw [if_pos h, if_pos h]
    exact modifyShifter_within (s := s.modifyDev (fun d => d.takeBuffer p)) fun _ _ _ => rfl
  · rw [if_neg h, if_neg h]

theorem onByte_within (bs : List Byte) (i : Nat) (b : Byte) :
    (within s p x y z).onByte p bs i b = within (s.onByte p bs i b) p x y z := by
  have hanswer : ((within s p x y z).host p).shifter.answer = (s.host p).shifter.answer := by rw [within_host]
  unfold State.onByte
  rw [hanswer]
  split
  · rfl
  · split
    · split
      · exact turnaround_within _ bs
      · split <;> rfl
    · split
      · split
        · exact requestFrameBuffer_within bs
        · split
          · exact modifyShifter_within fun _ _ _ => rfl
          · rfl
      · rfl

/-- R99: a byte is completed alike wherever it was cut; the mark of the edge stays. -/
theorem byteDone_within (b : Byte) : (within s p x y z).byteDone p b = within (s.byteDone p b) p [] [] z := by
  rw [byteDone_of _ _ _ _ (congrArg HostPort.shifter within_host), byteDone_of s p b _ rfl, ← onByte_within]
  refine congrArg (fun t => State.onByte t p _ _ b) ?_
  rw [within, within, modifyHost_modifyHost, modifyHost_modifyHost]
  exact modifyHost_congr rfl

theorem clocked_within (bs : List Byte) :
    ∃ x' y', clocked (within s p x y z) p bs = within (clocked s p bs) p x' y' z := by
  induction bs using List.reverseRecOn with
  | nil => exact ⟨x, y, rfl⟩
  | append_singleton bs b ih =>
    obtain ⟨x', y', hbefore⟩ := ih
    exact ⟨[], [], by rw [clocked_concat, clocked_concat, hbefore, byteDone_within]⟩

/-- R99: a part of a frame ends within the byte that follows its complete ones. -/
theorem pause_clockBits (ha : (s.host p).shifter.active = true) (bits : List Bool) (n : Nat) (high : Bool) :
    (s.clockBits p bits).pause p n high =
      within s p ((bitsOf ((s.host p).shifter.outByte (s.host p).shifter.bytes.length)).take bits.length) bits
        (high && (n != 0 || (s.host p).shifter.risen)) := by
  rw [State.clockBits, if_pos ha, State.pause, if_pos (by simpa using ha), modifyShifter_eq, modifyHost_modifyHost]
  exact modifyHost_congr rfl

/-- R102: the end of a frame does not see where it was cut. -/
theorem deselect_within (ha : (s.host p).shifter.active = true) (bits : List Bool) :
    ((within s p x y z).clockBits p bits).deselect p = (s.clockBits p bits).deselect p := by
  have ha' : ((within s p x y z).host p).shifter.active = true := by rwa [within_host]
  rw [State.clockBits, if_pos ha', State.clockBits, if_pos ha, within, modifyHost_modifyHost]
  unfold State.deselect State.endFrame
  simp only [modifyHost_host_same, modifyHost_modifyHost, modifyShifter_eq, ha, if_true]
  rfl

end Within

/-! ## The record of SOn at the end of a frame -/

/-- Port `p`'s record of what SOn has carried is the same. -/
def SameRecord (p : Port) (s t : State) : Prop := (t.host p).so = (s.host p).so ∧ (t.host p).soBits = (s.host p).soBits

section Record
variable {s t : State} {p : Port}

theorem sameRecord_setOutcome (h : SameRecord p s t) (c : Byte) (r : Result) (n : Byte) :
    SameRecord p s (t.setOutcome p c r n) := by
  obtain ⟨hso, hbits⟩ := h
  exact ⟨by simpa [State.setOutcome] using hso, by simpa [State.setOutcome] using hbits⟩

theorem sameRecord_endTicketFrame (c : Command) (notify : Bool) (command : Byte) (buffer : Option (List Byte)) :
    SameRecord p s (s.endTicketFrame p c notify command buffer) := by
  unfold State.endTicketFrame
  split
  · exact sameRecord_setOutcome ⟨rfl, rfl⟩ _ _ _
  · split <;> exact sameRecord_setOutcome ⟨rfl, rfl⟩ _ _ _

theorem sameRecord_endCommand (c : Command) (notify : Bool) (command : Byte) (bytes : Nat) (a : Answer)
    (buffer : Option (List Byte)) : SameRecord p s (s.endCommand p c notify command bytes a buffer) := by
  unfold State.endCommand
  split
  · exact ⟨rfl, rfl⟩
  · exact sameRecord_setOutcome ⟨rfl, rfl⟩ _ _ _
  · exact sameRecord_setOutcome ⟨rfl, rfl⟩ _ _ _
  · exact sameRecord_setOutcome ⟨rfl, rfl⟩ _ _ _
  · exact sameRecord_setOutcome ⟨rfl, rfl⟩ _ _ _
  · split
    · exact sameRecord_setOutcome ⟨rfl, rfl⟩ _ _ _
    · split
      · exact sameRecord_setOutcome ⟨rfl, rfl⟩ _ _ _
      · exact sameRecord_setOutcome ⟨rfl, rfl⟩ _ _ _
      · exact sameRecord_setOutcome ⟨rfl, rfl⟩ _ _ _
      · exact sameRecord_setOutcome ⟨rfl, rfl⟩ _ _ _
      · exact sameRecord_endTicketFrame _ _ _ _

theorem sameRecord_deselect (s : State) (p : Port) : SameRecord p s (s.deselect p) := by
  have hreleased (f : HostPort → HostPort) (hf : ∀ g, (f g).so = g.so ∧ (f g).soBits = g.soBits) (u : State)
      (hu : SameRecord p s u) : SameRecord p s (u.modifyHost p f) := by
    obtain ⟨hso, hbits⟩ := hu
    obtain ⟨hfso, hfbits⟩ := hf (u.host p)
    exact ⟨by rw [modifyHost_host_same, hfso, hso], by rw [modifyHost_host_same, hfbits, hbits]⟩
  have hselected := hreleased (fun h => { h with selected := false }) (fun _ => ⟨rfl, rfl⟩) s ⟨rfl, rfl⟩
  unfold State.deselect
  dsimp only
  split
  · have hempty := hreleased (fun g => { g with shifter := Shifter.empty }) (fun _ => ⟨rfl, rfl⟩) _ hselected
    unfold State.endFrame
    dsimp only
    split
    · exact hempty
    · exact sameRecord_setOutcome hempty _ _ _
    · exact sameRecord_setOutcome hempty _ _ _
    · obtain ⟨hso, hbits⟩ := hempty
      obtain ⟨hso', hbits'⟩ := sameRecord_endCommand (p := p) (s := _) _ _ _ _ _ _
      exact ⟨hso'.trans hso, hbits'.trans hbits⟩
  · exact hselected

end Record

/-! ## The parts of a frame (R98, R102) -/

section Parts
variable {s : State} {p : Port} {m : String} {frame extra : List Byte} {stray : List Bool} {n : Nat} {high : Bool}

/-- Where the part of a frame of bytes `all` that ends after bit `n` leaves the port that was asserted in `s`. -/
def cutAt (s : State) (p : Port) (all : List Byte) (stray : List Bool) (n : Nat) (high : Bool) : State :=
  within (clocked s p (all.take (n / 8))) p
    ((bitsOf (((clocked s p (all.take (n / 8))).host p).shifter.outByte (all.take (n / 8)).length)).take
      (bitsAfter all stray n).length) (bitsAfter all stray n) (high && n != 0)

theorem select_shifter (ht : s.takesFrames p = true) : ((s.select p).host p).shifter = shifterWith [] := by
  rw [select_takes s p ht, modifyHost_host_same]

theorem clocked_active (bs : List Byte) (ha : (s.host p).shifter.active = true) :
    ((clocked s p bs).host p).shifter.active = true := by
  rw [← clockBytes_eq_clocked ha, (clockBytes_clocksFrame s p bs).active, ha]

theorem clocked_risen (bs : List Byte) : ((clocked s p bs).host p).shifter.risen = (s.host p).shifter.risen := by
  induction bs using List.reverseRecOn with
  | nil => rfl
  | append_singleton bs b ih =>
    obtain ⟨_, _, hhost, _⟩ := byteDone_host (clocked s p bs) p b
    rw [clocked_concat, hhost, ← ih]

theorem runFrame_first (hr : s.Ready p) :
    runFrame m p frame { extra := extra, stray := stray, span := .first n, high := high } s =
      .next (cutAt (s.select p) p (frame ++ extra) stray n high) := by
  obtain ⟨hs, ht⟩ := hr
  have hshifter := select_shifter ht
  have ha : ((s.select p).host p).shifter.active = true := by rw [hshifter]; rfl
  simp only [runFrame, hs, Bool.false_eq_true, if_false, State.clockTo]
  rw [clockBytes_eq_clocked ha, pause_clockBits (clocked_active _ ha), clocked_bytes, clocked_risen, hshifter, cutAt]
  simp [shifterWith]

theorem runFrame_uncut (hr : s.Ready p) :
    runFrame m p frame { extra := extra, stray := stray, span := .whole } s =
      .next (((clocked (s.select p) p (frame ++ extra)).clockBits p stray).deselect p) := by
  obtain ⟨hs, ht⟩ := hr
  have ha : ((s.select p).host p).shifter.active = true := by rw [select_shifter ht]; rfl
  simp only [runFrame, hs, Bool.false_eq_true, if_false, clockBytes_eq_clocked ha]

/-- The bits of an incomplete byte complete the count (R98). -/
theorem length_bitsAfter {all : List Byte} (hn : n ≤ 8 * all.length + stray.length) :
    8 * (all.take (n / 8)).length + (bitsAfter all stray n).length = n := by
  unfold bitsAfter
  rw [List.length_take]
  split
  next h =>
    rw [List.length_take, show (bitsOf (all.getD (n / 8) 0)).length = 8 from rfl]
    omega
  next h =>
    rw [List.length_take]
    omega

theorem cutAt_host (all : List Byte) : ∃ x, (cutAt s p all stray n high).host p =
    { (clocked s p (all.take (n / 8))).host p with
      soBits := x
      shifter := { ((clocked s p (all.take (n / 8))).host p).shifter with
        bits := bitsAfter all stray n, risen := high && n != 0 } } := ⟨_, within_host⟩

theorem cutAt_bitCount {all : List Byte} (hbytes : (s.host p).shifter.bytes = [])
    (hn : n ≤ 8 * all.length + stray.length) : ((cutAt s p all stray n high).host p).shifter.bitCount = n := by
  obtain ⟨x, hx⟩ := cutAt_host (s := s) (p := p) (n := n) (high := high) (stray := stray) all
  rw [hx, Shifter.bitCount]
  simp only [clocked_bytes, hbytes, List.nil_append]
  exact length_bitsAfter hn

/-- R98: the rest of a frame that was cut ends it as the frame clocked whole. -/
theorem runFrame_rest {t : State} (ht : s.takesFrames p = true)
    (hn : n ≤ 8 * (frame ++ extra).length + stray.length)
    (hcut : t = cutAt (s.select p) p (frame ++ extra) stray n high) :
    runFrame m p frame { extra := extra, stray := stray, span := .rest } t =
      .next (((clocked (s.select p) p (frame ++ extra)).clockBits p stray).deselect p) := by
  obtain ⟨all, hall⟩ : ∃ all, all = frame ++ extra := ⟨_, rfl⟩
  rw [← hall] at hn hcut ⊢
  have hshifter := select_shifter ht
  have ha : ((s.select p).host p).shifter.active = true := by rw [hshifter]; rfl
  have hempty : ((s.select p).host p).shifter.bytes = [] := by rw [hshifter]; rfl
  obtain ⟨x, hx⟩ := cutAt_host (s := s.select p) (p := p) (n := n) (high := high) (stray := stray) all
  rw [← hcut] at hx
  have hcount : (t.host p).shifter.bitCount = n := by rw [hcut]; exact cutAt_bitCount hempty hn
  have hbytes : (t.host p).shifter.bytes = all.take (n / 8) := by
    rw [hx]
    simp [clocked_bytes, hempty]
  have hbits : (t.host p).shifter.bits = bitsAfter all stray n := by rw [hx]
  have hactive : (t.host p).shifter.active = true := by
    rw [hx]
    exact clocked_active _ ha
  have hselected : (t.host p).selected = true := by
    rw [hx, ← clockBytes_eq_clocked ha]
    refine (clockBytes_clocksFrame _ p _).selected.trans ?_
    rw [select_takes s p ht, modifyHost_host_same]
  have hcontinues : (t.host p).shifter.continues all stray = true := by
    rw [Shifter.continues, hcount, hbytes, hbits]
    simp [List.take_prefix]
  have hstray : bitsAfter all stray (8 * all.length + stray.length) = stray := by
    rw [bitsAfter, if_neg (by omega), Nat.add_sub_cancel_left, List.take_length]
  have hremain : (all.take ((8 * all.length + stray.length) / 8)).drop (t.host p).shifter.bytes.length = all.drop (n / 8) := by
    rw [hbytes, List.length_take, List.take_of_length_le (by omega)]
    rcases Nat.le_total (n / 8) all.length with hle | hle
    · rw [Nat.min_eq_left hle]
    · rw [Nat.min_eq_right hle, List.drop_length, List.drop_eq_nil_of_le hle]
  obtain ⟨x', y', hend⟩ := clocked_within (s := clocked (s.select p) p (all.take (n / 8))) (p := p)
    (x := (bitsOf (((clocked (s.select p) p (all.take (n / 8))).host p).shifter.outByte (all.take (n / 8)).length)).take
      (bitsAfter all stray n).length) (y := bitsAfter all stray n) (z := high && n != 0) (all.drop (n / 8))
  rw [← clocked_append, List.take_append_drop] at hend
  simp only [runFrame, ← hall, hselected, hcontinues, Bool.and_self, if_true, State.clockTo, hstray, hremain,
    clockBytes_eq_clocked hactive]
  rw [hcut, cutAt, hend, deselect_within (clocked_active _ ha)]

end Parts

/-! ## What SOn carries (R99, R101) -/

section Carried
variable {s : State} {p : Port}

theorem length_flatMap_bitsOf (bs : List Byte) : (bs.flatMap bitsOf).length = 8 * bs.length := by
  induction bs with
  | nil => rfl
  | cons b bs ih =>
    rw [List.flatMap_cons, List.length_append, ih, List.length_cons, show (bitsOf b).length = 8 from rfl]
    omega

theorem getD_bitsOf {b : Byte} {i : Nat} (h : i < 8) : (bitsOf b).getD i true = b.getMsbD i := by
  simp [bitsOf, List.getD, h]

theorem getD_flatMap_bitsOf {bs : List Byte} {n : Nat} (h : n < 8 * bs.length) :
    (bs.flatMap bitsOf).getD n true = (bs.getD (n / 8) 0).getMsbD (n % 8) := by
  induction bs generalizing n with
  | nil => simp at h
  | cons b bs ih =>
    have hlength : (bitsOf b).length = 8 := rfl
    rw [List.flatMap_cons]
    rcases Nat.lt_or_ge n 8 with hn | hn
    · rw [List.getD_append _ _ _ _ (by omega), getD_bitsOf hn, Nat.div_eq_of_lt hn, Nat.mod_eq_of_lt hn, List.getD_cons_zero]
    · rw [List.length_cons] at h
      rw [List.getD_append_right _ _ _ _ (by omega), hlength, ih (by omega), show n / 8 = (n - 8) / 8 + 1 by omega,
        List.getD_cons_succ, show (n - 8) % 8 = n % 8 by omega]

/-- R99: byte by byte, the byte that goes out with each byte in. -/
theorem clocked_so (hbytes : (s.host p).shifter.bytes = []) (hso : (s.host p).so = []) (bs : List Byte) :
    ((clocked s p bs).host p).so =
      (List.range bs.length).map (fun i => ((clocked s p (bs.take i)).host p).shifter.outByte i) := by
  induction bs using List.reverseRecOn with
  | nil => exact hso
  | append_singleton bs b ih =>
    obtain ⟨_, _, hhost, _⟩ := byteDone_host (clocked s p bs) p b
    rw [clocked_concat, hhost, List.length_append, List.length_singleton, List.range_succ, List.map_append]
    dsimp only
    rw [ih, clocked_bytes, hbytes, List.nil_append, List.map_singleton, List.take_left]
    congr 1
    refine List.map_congr_left fun i hi => ?_
    rw [List.take_append_of_le_length (List.mem_range.mp hi).le]

/-- R99: SOn carries a bit for every bit clocked. -/
theorem carried_length {bs : List Byte} {stray : List Bool} (hbytes : (s.host p).shifter.bytes = [])
    (hso : (s.host p).so = []) (hstray : stray.length < 8) :
    (((clocked s p bs).host p).so.flatMap bitsOf ++
      (bitsOf (((clocked s p bs).host p).shifter.outByte bs.length)).take stray.length).length =
      8 * bs.length + stray.length := by
  rw [List.length_append, length_flatMap_bitsOf, clocked_so hbytes hso, List.length_map, List.length_range,
    List.length_take_of_le (show stray.length ≤ 8 from hstray.le)]

/-- R101: bit `n` of the frame, as SOn carries it. -/
theorem carried_getD {bs : List Byte} {stray : List Bool} {n : Nat} (hbytes : (s.host p).shifter.bytes = [])
    (hso : (s.host p).so = []) (hstray : stray.length < 8) (hn : n < 8 * bs.length + stray.length) :
    (((clocked s p bs).host p).so.flatMap bitsOf ++
      (bitsOf (((clocked s p bs).host p).shifter.outByte bs.length)).take stray.length).getD n true =
      ((clocked s p (bs.take (n / 8))).host p).shifter.outBit n := by
  have hlength : (((clocked s p bs).host p).so.flatMap bitsOf).length = 8 * bs.length := by
    rw [length_flatMap_bitsOf, clocked_so hbytes hso, List.length_map, List.length_range]
  rcases Nat.lt_or_ge n (8 * bs.length) with hlt | hge
  · have hbyte : n / 8 < bs.length := by omega
    rw [List.getD_append _ _ _ _ (by omega), getD_flatMap_bitsOf (by rw [← length_flatMap_bitsOf, hlength]; exact hlt),
      clocked_so hbytes hso, Shifter.outBit]
    congr 1
    simp [List.getD, hbyte]
  · have hdiv : n / 8 = bs.length := by omega
    have hmod : n % 8 = n - 8 * bs.length := by omega
    rw [List.getD_append_right _ _ _ _ (by omega), hlength, Shifter.outBit, hdiv, hmod, List.take_length,
      ← getD_bitsOf (by omega)]
    simp [List.getD, show n - 8 * bs.length < stray.length by omega]

/-- R99: before the falling edge SOn still shows the bit just sampled, of the byte just completed too. -/
theorem outBit_sampled {bs : List Byte} {n : Nat} (hbytes : (s.host p).shifter.bytes = []) (hone : 1 ≤ n)
    (hn : n / 8 ≤ bs.length) :
    ((clocked s p (bs.take (n / 8))).host p).shifter.outBit (n - 1) =
      ((clocked s p (bs.take ((n - 1) / 8))).host p).shifter.outBit (n - 1) := by
  by_cases hwithin : (n - 1) / 8 = n / 8
  · rw [hwithin]
  · have hdiv : n / 8 = (n - 1) / 8 + 1 := by omega
    have hlt : (n - 1) / 8 < bs.length := by omega
    have hcount : (bs.take ((n - 1) / 8)).length = (n - 1) / 8 := List.length_take_of_le hlt.le
    have hout := outByte_byteDone (s := clocked s p (bs.take ((n - 1) / 8))) (p := p) (b := bs[(n - 1) / 8])
    rw [clocked_bytes, hbytes, List.nil_append, hcount, ← clocked_concat, List.take_concat_get'] at hout
    rw [Shifter.outBit, Shifter.outBit, hdiv, hout]

end Carried

/-- Settles O27: the two parts by `runFrame_first` and `runFrame_rest`; SOn by the byte in hand at the cut. -/
theorem frameInTwoParts : Obligations.FrameInTwoParts := by
  intro p c notify extra stray n high s hr hs hn
  obtain ⟨all, hall⟩ : ∃ all, all = c.frameBytes (notify && c.opcode.isTicket) ++ extra := ⟨_, rfl⟩
  have hlength : all.length = 1 + c.params.length + extra.length := by rw [hall, length_frame]
  rw [← hlength] at hn ⊢
  obtain ⟨hidle, ht⟩ := hr
  have hselect := select_takes s p ht
  have hbytes : ((s.select p).host p).shifter.bytes = [] := by rw [select_shifter ht]; rfl
  have hso : ((s.select p).host p).so = [] := by rw [hselect, modifyHost_host_same]
  have ha : ((s.select p).host p).shifter.active = true := by rw [select_shifter ht]; rfl
  obtain ⟨t, hcut⟩ : ∃ t, t = cutAt (s.select p) p all stray n high := ⟨_, rfl⟩
  obtain ⟨m, hm⟩ := exec_ofCommand p c notify { extra := extra, stray := stray, span := .first n, high := high } s
  obtain ⟨m', hm'⟩ := exec_ofCommand p c notify { extra := extra, stray := stray, span := .whole } s
  obtain ⟨m'', hm''⟩ := exec_ofCommand p c notify { extra := extra, stray := stray, span := .rest } t
  have hfirst := runFrame_first (m := m) (frame := c.frameBytes (notify && c.opcode.isTicket)) (extra := extra)
    (stray := stray) (n := n) (high := high) ⟨hidle, ht⟩
  rw [← hall, ← hcut] at hfirst
  have hwhole := runFrame_uncut (m := m') (frame := c.frameBytes (notify && c.opcode.isTicket)) (extra := extra)
    (stray := stray) ⟨hidle, ht⟩
  have hrest := runFrame_rest (m := m'') (frame := c.frameBytes (notify && c.opcode.isTicket)) (extra := extra)
    (stray := stray) (n := n) (high := high) (t := t) ht (by rw [← hall]; exact hn) (by rw [← hall]; exact hcut)
  rw [← hall] at hwhole hrest
  obtain ⟨x, hx⟩ := cutAt_host (s := s.select p) (p := p) (n := n) (high := high) (stray := stray) all
  rw [← hcut] at hx
  have hactive : (t.host p).shifter.active = true := by
    rw [hx]
    exact clocked_active _ ha
  have hframe := runFrame_framesInProgress hs hfirst p
  rw [if_pos hactive] at hframe
  obtain ⟨hselected, htakes⟩ := hframe
  refine ⟨t, _, hm.trans hfirst, hm'.trans hwhole, hm''.trans hrest, hselected, hactive, fun hstray => ?_⟩
  have hcount : (t.host p).shifter.bitCount = n := by rw [hcut]; exact cutAt_bitCount hbytes hn
  have hpin : t.soPin p = .level (((clocked (s.select p) p (all.take (n / 8))).host p).shifter.outBit
      (n - if (high && n != 0) = true then 1 else 0)) := by
    simp only [State.soPin, State.drivesSo, hselected, htakes, hactive, hcount, Bool.and_self, Bool.not_true,
      Bool.false_eq_true, if_false, if_true]
    rw [hx]
    rfl
  obtain ⟨w, hw⟩ : ∃ w, w = (clocked (s.select p) p all).clockBits p stray := ⟨_, rfl⟩
  have hhost : (w.host p).so = ((clocked (s.select p) p all).host p).so ∧ (w.host p).soBits =
      (bitsOf (((clocked (s.select p) p all).host p).shifter.outByte all.length)).take stray.length := by
    rw [hw, State.clockBits, if_pos (clocked_active _ ha), modifyHost_host_same, clocked_bytes, hbytes, List.nil_append]
    exact ⟨rfl, rfl⟩
  obtain ⟨hendSo, hendBits⟩ := sameRecord_deselect w p
  obtain ⟨hwSo, hwBits⟩ := hhost
  rw [← hw, hendSo, hendBits, hwSo, hwBits]
  have hbit (k : Nat) (hk : k < 8 * all.length + stray.length) := carried_getD (bs := all) hbytes hso hstray hk
  have hcarried := carried_length (bs := all) hbytes hso hstray
  refine ⟨hcarried, fun hhigh hlt => ?_, fun hhigh hone => ?_⟩
  · rw [hpin, hhigh, Bool.false_and, if_neg Bool.false_ne_true, Nat.sub_zero, ← hbit n (hcarried ▸ hlt)]
    rfl
  · rw [hpin, hhigh, Bool.true_and, if_pos (bne_iff_ne.mpr (by omega)), outBit_sampled hbytes hone (by omega),
      ← hbit (n - 1) (by omega)]
    rfl

end Sys2Proof.Proofs

/-!
PROOF. The first mount of a part as delivered (R84 to R87, R92, R96), stage by stage: the ten reads that find no
checkpoint, the four erases of half 0 and the five programs of an empty table's checkpoint.
-/

namespace Sys2Proof.Proofs

set_option Elab.async false

open Sys2Proof Sys2Proof.Machine Sys2Proof.Laws

/-! ## The stages of FORMATTING (R92) -/

theorem execAll_append (is js : List Instr) (s : State) :
    execAll (is ++ js) s = (execAll is s).bind (execAll js) := by
  induction is generalizing s with
  | nil => rfl
  | cons i is ih =>
    simp only [List.cons_append, execAll]
    cases exec i s with
    | next t => exact ih t
    | fault _ => rfl
    | refused _ => rfl

/-- The shared side of a part as delivered when FORMATTING stands at `step`, has `buffer` in hand and waits for `op`. -/
def formatDev (step : MountStep) (buffer : List Byte) (op : Option Operation) : Dev :=
  { Dev.reset with
    formatted := true
    mount := { Mount.start with
      step := step, half := .h1, slot := 4, scan := { good := false, head := 0, entries := [] }, buffer := buffer }
    engine := { Engine.reset with current := op } }

/-- The checkpoint page of an empty table in slot `slot` (R92). -/
def formatPage (slot : Nat) : List Byte := checkpointPage (BitVec.ofNat 32 (slot + 1)) Table.empty slot

def formatErasing (sector : Nat) : Dev :=
  formatDev (.formatErasing sector) (List.replicate 256 0xFF) (some (issuedErase sector .mount))

def formatProgramming (slot : Nat) : Dev :=
  formatDev (.formatProgramming slot) (formatPage slot) (some (.program 0 slot 0 (formatPage slot) .mount 0))

theorem formatPage_length (slot : Nat) : (formatPage slot).length = 256 := by
  unfold formatPage checkpointPage
  split <;> exact recordPage_length _ _ _

/-- R86, R87: ten reads of erased pages give no candidate, and FORMATTING begins. -/
theorem delivered_reads :
    execAll (List.replicate 10 .pageReadComplete) State.reset = some { State.reset with dev := formatErasing 0 } := by
  decide +kernel

theorem leasesFresh_formatDev (step : MountStep) (buffer : List Byte) (op : Option Operation) :
    (formatDev step buffer op).LeasesFresh := by
  intro p
  cases p <;> exact fun h => nomatch h

/-- R92: each erase but the last is followed by the next sector's. -/
theorem formatErase_next {i : Nat} (h : i < 3) :
    exec (.sectorEraseComplete .success) { State.reset with dev := formatErasing i } =
      .next { State.reset with dev := formatErasing (i + 1) } := by
  interval_cases i <;> rfl

/-- R92: a checkpoint record that is formed is programmed at once. -/
theorem settle_formatProgramming {former : Dev} {slot : Nat} (hslot : slot < 16) :
    Dev.settle former (formatDev (.formatProgramming slot) (formatPage slot) none) = formatProgramming slot := by
  obtain ⟨page, hpage⟩ : ∃ page, page = formatPage slot := ⟨_, rfl⟩
  rw [formatProgramming, ← hpage]
  have hnone : (formatDev (.formatProgramming slot) page none).TakesNone := .inr rfl
  rw [settle_record (half := .h0) (slot := slot) (page := page) (r := .mount) (takeAll_of_none _ hnone) rfl rfl hnone
    (leasesFresh_formatDev _ _ _)]
  have hsector : slotSector .h0 slot = 0 := by
    rw [slotSector, show halfBase .h0 = 0 from rfl, show Config.pagesPerSector = 16 from rfl, Nat.div_eq_of_lt hslot]
  have hpos : slotPage slot = slot := Nat.mod_eq_of_lt hslot
  rw [hsector, hpos]
  rfl

/-- R92: the fourth erase is followed by the program of slot 0. -/
theorem formatErase_last :
    exec (.sectorEraseComplete .success) { State.reset with dev := formatErasing 3 } =
      .next { State.reset with dev := formatProgramming 0 } :=
  exec_sectorEraseComplete (v := .success) rfl (by decide) (settle_formatProgramming (by decide))

/-- R92: each program but the last is followed by the next slot's. -/
theorem formatProgram_next {slot : Nat} (h : slot < 4) (m : Memory) :
    exec (.pageProgramComplete .success) { State.reset with array := m, dev := formatProgramming slot } =
      .next { State.reset with
        array := m.programPage 0 slot 0 (formatPage slot) .success, dev := formatProgramming (slot + 1) } := by
  refine exec_pageProgramComplete (v := .success) rfl (by decide) (by omega) (by rw [formatPage_length]) ?_
  rw [← settle_formatProgramming (former := formatProgramming slot) (show slot + 1 < 16 by omega)]
  refine congrArg (Dev.settle _) ?_
  show (formatDev (.formatProgramming slot) (formatPage slot) none).formatProgramDone true = _
  simp only [Dev.formatProgramDone, formatDev, Bool.not_true, Bool.false_eq_true, if_false, if_pos h]
  rfl

/-- R92, R96: the shared side of a part whose FORMATTING has ended, its last record formed as `page`. -/
def formatEnded (page : List Byte) : Dev := (formatDev (.formatProgramming 4) page none).formatProgramDone true

/-- R92: the fifth program ends the mount. -/
theorem formatProgram_last (m : Memory) :
    exec (.pageProgramComplete .success) { State.reset with array := m, dev := formatProgramming 4 } =
      .next { State.reset with
        array := m.programPage 0 4 0 (formatPage 4) .success, dev := formatEnded (formatPage 4) } := by
  refine exec_pageProgramComplete (v := .success) rfl (by decide) (by decide) (by rw [formatPage_length]) ?_
  show Dev.settle _ (formatEnded (formatPage 4)) = _
  generalize formatPage 4 = page
  refine settle_of_idle _ _ rfl rfl (.inr rfl) fun p => ?_
  cases p <;> exact fun h => nomatch h

/-! ## The run -/

/-- The array after the first `k` checkpoint programs. -/
def programmedPages : Nat → Memory
  | 0 => State.reset.array
  | k + 1 => (programmedPages k).programPage 0 k 0 (formatPage k) .success

theorem execAll_concat {is : List Instr} {i : Instr} {s t u : State} (h : execAll is s = some t) (hi : exec i t = .next u) :
    execAll (is ++ [i]) s = some u := by
  rw [execAll_append, h, Option.bind_some]
  simp only [execAll, hi]

theorem delivered_erases {k : Nat} (h : k ≤ 3) :
    execAll (List.replicate k (.sectorEraseComplete .success)) { State.reset with dev := formatErasing 0 } =
      some { State.reset with dev := formatErasing k } := by
  induction k with
  | zero => rfl
  | succ k ih =>
    rw [List.replicate_succ']
    exact execAll_concat (ih (by omega)) (formatErase_next (by omega))

theorem delivered_programs {k : Nat} (h : k ≤ 4) :
    execAll (List.replicate k (.pageProgramComplete .success)) { State.reset with dev := formatProgramming 0 } =
      some { State.reset with array := programmedPages k, dev := formatProgramming k } := by
  induction k with
  | zero => rfl
  | succ k ih =>
    rw [List.replicate_succ']
    exact execAll_concat (ih (by omega)) (formatProgram_next (by omega) _)

/-- R6: the pages not yet programmed are erased. -/
theorem programmedPages_above {k x : Nat} (h : 256 * k ≤ x) : (programmedPages k).byteAt x = 0xFF := by
  induction k with
  | zero => rfl
  | succ k ih =>
    rw [programmedPages, byteAt_programPage_success, byteAddress_eq, formatPage_length, if_neg (by omega), ih (by omega)]

/-- R6: an erased page that is programmed holds what it was given. -/
theorem programmedPages_last (k : Nat) : (programmedPages (k + 1)).readPage 0 k = formatPage k := by
  rw [readPage_eq]
  refine List.ext_getElem (by simp [formatPage_length]) fun b hb hb' => ?_
  have hlt : b < 256 := by simpa using hb
  rw [List.getElem_map, List.getElem_range, programmedPages, byteAt_programPage_success, byteAddress_eq, formatPage_length,
    if_pos (by omega), programmedPages_above (by omega), show 0 * 4096 + k * 256 + b - (0 * 4096 + k * 256 + 0) = b by omega,
    List.getD_eq_getElem _ _ hb']
  exact BitVec.allOnes_and

/-- Settles O49: the reads, the erases and the programs one stage after another. -/
theorem deliveredPartFormats : Obligations.DeliveredPartFormats := by
  have herases := execAll_concat (delivered_erases (le_refl 3)) formatErase_last
  have hprograms := execAll_concat (delivered_programs (le_refl 4)) (formatProgram_last _)
  rw [← List.replicate_succ'] at herases hprograms
  refine ⟨{ State.reset with array := programmedPages 5, dev := formatEnded (formatPage 4) }, ?_, ?_⟩
  · rw [execAll_append, execAll_append, delivered_reads, Option.bind_some, herases, Option.bind_some, hprograms]
    rfl
  · refine ⟨?_, ?_, ?_, ?_, ?_, ?_, ?_, ?_, programmedPages_last 4⟩ <;> generalize formatPage 4 = page <;> rfl

end Sys2Proof.Proofs
